-- ==== Sys2Proof/Word.lean ====
section
/-! DEFINITION. The word types of Birtos and the keyed list that holds sparse state. -/

namespace Sys2Proof

/-- A vector-register lane, an address or a special register: 64 bits (R51). -/
abbrev Word := BitVec 64
/-- One byte of memory. -/
abbrev Byte := BitVec 8
/-- One bit per lane of a group, lane 0 in bit 0 (R17, R51). -/
abbrev Mask := BitVec 64
/-- A 32-bit instruction word or clause header (R97, R101). -/
abbrev IWord := BitVec 32
/-- Sparse data by number: keys strictly rising. -/
abbrev Tbl (α : Type) := List (Nat × α)

end Sys2Proof
end

