-- ==== Sys2Proof/Syntax.lean ====
section
/-! DEFINITION. The instructions and whole-part steps of the Birtos opcode table: one constructor of `Instr` per row
of spec/opcode_table.json, with the field types of "Clause headers, word formats and the opcode map" (R101 to R105). -/

namespace Sys2Proof

/-- A vector register field, v0 to v63 (R70). -/
abbrev VR := BitVec 6
/-- A mask register field, k0 to k7. -/
abbrev KR := BitVec 3
/-- A view register field, w0 to w15. -/
abbrev WR := BitVec 4
/-- An accumulator tile field, t0 to t7. -/
abbrev TR := BitVec 3
/-- The consumer count field CC (R60). -/
abbrev CC := BitVec 3

/-- Integer types IT (R102). -/
inductive IT where | n64 | s64 | n32 | s32
  deriving DecidableEq, Repr
/-- Bitwise types BT (R102). -/
inductive BT where | b64 | b32
  deriving DecidableEq, Repr
/-- Float types FT (R102). -/
inductive FT where | f16 | bf16 | f32 | f64
  deriving DecidableEq, Repr
/-- Rounding modes RM (R102). -/
inductive RM where | rne | rtz | rup | rdn
  deriving DecidableEq, Repr
/-- icmp relations (R118). -/
inductive IRel where | eq | ne | lts | les | ltn | len
  deriving DecidableEq, Repr
/-- fcmp relations (R139). -/
inductive FRel where | eq | lt | le | un
  deriving DecidableEq, Repr
/-- waitv relations (R161). -/
inductive WRel where | eq | ne | ltn | gen
  deriving DecidableEq, Repr
/-- Access ordering ORD (R102, R155). -/
inductive Ord where | rlx | acq | rel | ar
  deriving DecidableEq, Repr
/-- Fence ordering: ORD 1 to 3 (R172). -/
inductive FOrd where | acq | rel | ar
  deriving DecidableEq, Repr
/-- Scopes SCP 0 to 6 (R102, R241). -/
inductive Scp where | grp | team | clu | die | dev | dom | sys
  deriving DecidableEq, Repr
/-- CVT type codes 0 to 14 (R103). -/
inductive CT where | f16 | bf16 | f32 | f64 | e4m3 | e5m2 | s4 | s8 | s16 | s32 | s64 | n8 | n16 | n32 | n64
  deriving DecidableEq, Repr
/-- Atomic type codes TY 0 to 6 (R104). -/
inductive AT where | n32 | s32 | n64 | s64 | f32 | bf16x2 | f16x2
  deriving DecidableEq, Repr
/-- The engine field of mms (R198). -/
inductive Eng where | arr | vec | auto
  deriving DecidableEq, Repr
/-- Reductions of ccol (R203). -/
inductive Red where | add | min | max
  deriving DecidableEq, Repr
/-- The class counters of waitc (R105). -/
inductive Ctr where | m | c | x | l
  deriving DecidableEq, Repr
/-- RESTARTQ's mode byte (R50). -/
abbrev RestartMode := BitVec 8

/-- A frame that the transport delivers or carries (R340): header fields, then the payload. -/
structure Frame where
  op     : BitVec 8
  ten    : BitVec 8
  ordscp : BitVec 8
  size   : BitVec 8
  tag    : BitVec 32
  addr   : BitVec 64
  arg    : BitVec 64
  rsv    : BitVec 64
  data   : List Byte
  /-- the sending part's index, which the transport attests (R339) -/
  src    : Nat
  /-- the port by which it leaves or has arrived (R343) -/
  port   : Nat
  /-- it is sealed with the key of the load-store domain (R339) -/
  auth   : Bool
  deriving DecidableEq, Repr

/-- The head of a management message (R340, R341): the IPv6 address it came from, its tag, its tenancy field, the port by
which it arrived, and whether it is sealed with the management key. -/
structure Mgmt where
  src  : BitVec 128
  tag  : BitVec 32
  ten  : BitVec 8
  port : Nat
  auth : Bool
  deriving DecidableEq, Repr

/-- A queue descriptor (R36). -/
structure QueueDesc where
  ring : BitVec 64
  wra  : BitVec 64
  rda  : BitVec 64
  logn : BitVec 8
  maxi : BitVec 8
  qnum : BitVec 16
  ten  : BitVec 8
  /-- bytes 0x1D to 0x3F -/
  rsv  : BitVec 280
  deriving DecidableEq, Repr

/-- What the flash slots hold as cold boot finds them (R345): which signatures verify, the harvest map (R324), the identity key that
the image's helper data give, and the repair map, a stack and a row each. -/
structure BootImage where
  slot0 : Bool
  slot1 : Bool
  cores : BitVec 64
  stks  : BitVec 8
  chans : List (BitVec 64)
  ports : BitVec 16
  idkey : BitVec 256
  repairs : List (Nat × Nat)
  deriving DecidableEq, Repr

/-- What the part found when it detected an error (R315, R316). -/
structure ErrInfo where
  cls   : BitVec 8
  src   : BitVec 8
  unit  : BitVec 16
  ten   : BitVec 8
  pa    : BitVec 64
  synd  : BitVec 32
  deriving DecidableEq, Repr

/-- What a stage-2 fault's resolution is (R304): the agent mapped the page, or the host refused. -/
inductive S2Answer where | mapped | refused
  deriving DecidableEq, Repr

/-- The opcode table's rows, in its order. A field list follows the row's fields; steps of the part name what they
act on by the keys that State gives groups, teams, launches, queues and operations. -/
inductive Instr where
  -- integer and address (OPC 0x01 to 0x19)
  | iadd  (d a b : VR) (cc : CC) (t : IT)
  | isub  (d a b : VR) (cc : CC) (t : IT)
  | imul  (d a b : VR) (cc : CC) (t : IT)
  | imulh (d a b : VR) (cc : CC) (t : IT)
  | imac  (d a b : VR) (cc : CC) (t : IT)
  | idiv  (d a b : VR) (cc : CC) (t : IT)
  | irem  (d a b : VR) (cc : CC) (t : IT)
  | imin  (d a b : VR) (cc : CC) (t : IT)
  | imax  (d a b : VR) (cc : CC) (t : IT)
  | iadds (d a b : VR) (cc : CC) (t : IT)
  | iaddc (d a b : VR) (cc : CC) (t : BT)
  | inegB64  (d a : VR) (cc : CC)
  | iabsB64  (d a : VR) (cc : CC)
  | notB64   (d a : VR) (cc : CC)
  | popcB64  (d a : VR) (cc : CC)
  | clzB64   (d a : VR) (cc : CC)
  | ctzB64   (d a : VR) (cc : CC)
  | brevB64  (d a : VR) (cc : CC)
  | bswapB64 (d a : VR) (cc : CC)
  | movB64   (d a : VR) (cc : CC)
  | inegB32  (d a : VR) (cc : CC)
  | iabsB32  (d a : VR) (cc : CC)
  | notB32   (d a : VR) (cc : CC)
  | popcB32  (d a : VR) (cc : CC)
  | clzB32   (d a : VR) (cc : CC)
  | ctzB32   (d a : VR) (cc : CC)
  | brevB32  (d a : VR) (cc : CC)
  | bswapB32 (d a : VR) (cc : CC)
  | shl  (d a b : VR) (cc : CC) (t : BT)
  | shr  (d a b : VR) (cc : CC) (t : BT)
  | sar  (d a b : VR) (cc : CC) (t : BT)
  | rot  (d a b : VR) (cc : CC) (t : BT)
  | andb (d a b : VR) (cc : CC) (t : BT)
  | orb  (d a b : VR) (cc : CC) (t : BT)
  | xorb (d a b : VR) (cc : CC) (t : BT)
  | andn (d a b : VR) (cc : CC) (t : BT)
  | bfx  (d a b : VR) (cc : CC) (t : IT)
  | bfi  (d a b : VR) (cc : CC) (t : BT)
  | icmp (d a b : VR) (cc : CC) (w : BT) (r : IRel)
  | sel  (d a b : VR) (cc : CC) (k : KR)
  | lea  (d a b : VR) (cc : CC) (sh : BitVec 4)
  | movi  (d : VR) (cc : CC) (imm : BitVec 16)
  | movhi (d : VR) (cc : CC) (imm : BitVec 16)
  | iaddi (d a : VR) (cc : CC) (imm : BitVec 10)
  | andi  (d a : VR) (cc : CC) (imm : BitVec 10)
  | ori   (d a : VR) (cc : CC) (imm : BitVec 10)
  | xori  (d a : VR) (cc : CC) (imm : BitVec 10)
  | shli  (d a : VR) (cc : CC) (imm : BitVec 6)
  -- shape, mask and lane exchange (OPC 0x20 to 0x29)
  | unif   (d a : VR) (cc : CC)
  | matz   (d a : VR) (cc : CC)
  | affine (d a b : VR) (cc : CC)
  | shape  (d a : VR) (cc : CC)
  | mand   (d a b : KR)
  | mor    (d a b : KR)
  | mxor   (d a b : KR)
  | mandn  (d a b : KR)
  | mnot   (d a : KR)
  | mpopc  (d : VR) (a : KR) (cc : CC)
  | mfirst (d : VR) (a : KR) (cc : CC)
  | mfrom  (d : KR) (a : VR)
  | mto    (d : VR) (a : KR) (cc : CC)
  | ballot (d a : VR) (cc : CC)
  | exget  (d : KR)
  | exset  (a : KR)
  | mset   (d : KR) (a : VR)
  | xlane  (d a b : VR) (cc : CC)
  | xbfly  (d a : VR) (cc : CC) (imm : BitVec 10)
  | xshift (d a : VR) (cc : CC) (imm : BitVec 10)
  | xbcast (d a : VR) (cc : CC) (imm : BitVec 10)
  | scanadd (d a : VR) (cc : CC) (exc : Bool) (t : IT)
  | greduceAdd (d a : VR) (cc : CC) (t : IT)
  | greduceMin (d a : VR) (cc : CC) (t : IT)
  | greduceMax (d a : VR) (cc : CC) (t : IT)
  -- floating point and conversion (OPC 0x2C to 0x41)
  | fadd (d a b : VR) (cc : CC) (rm : RM) (t : FT)
  | fsub (d a b : VR) (cc : CC) (rm : RM) (t : FT)
  | fmul (d a b : VR) (cc : CC) (rm : RM) (t : FT)
  | fma  (d a b : VR) (cc : CC) (rm : RM) (t : FT)
  | fms  (d a b : VR) (cc : CC) (rm : RM) (t : FT)
  | fnma (d a b : VR) (cc : CC) (rm : RM) (t : FT)
  | fmin  (d a b : VR) (cc : CC) (t : FT)
  | fmax  (d a b : VR) (cc : CC) (t : FT)
  | fminm (d a b : VR) (cc : CC) (t : FT)
  | fmaxm (d a b : VR) (cc : CC) (t : FT)
  | fabs (d a : VR) (cc : CC) (t : FT)
  | fneg (d a : VR) (cc : CC) (t : FT)
  | fcopysign (d a b : VR) (cc : CC) (t : FT)
  | fcmp   (d a b : VR) (cc : CC) (r : FRel) (t : FT)
  | fclass (d a : VR) (cc : CC) (t : FT)
  | frcp  (d a : VR) (cc : CC) (rm : RM) (t : FT)
  | frsq  (d a : VR) (cc : CC) (rm : RM) (t : FT)
  | fsqrt (d a : VR) (cc : CC) (rm : RM) (t : FT)
  | fdiv  (d a b : VR) (cc : CC) (rm : RM) (t : FT)
  | fexp2 (d a : VR) (cc : CC) (t : FT)
  | flog2 (d a : VR) (cc : CC) (t : FT)
  | fsin  (d a : VR) (cc : CC) (t : FT)
  | fcos  (d a : VR) (cc : CC) (t : FT)
  | frnd  (d a : VR) (cc : CC) (rm : RM) (t : FT)
  | ffrac (d a : VR) (cc : CC) (t : FT)
  | fscaleb (d a b : VR) (cc : CC) (rm : RM) (t : FT)
  | cvt (d a : VR) (cc : CC) (sat : Bool) (rm : RM) (ct from_ : CT)
  | packF16x2  (d a b : VR) (cc : CC)
  | packBf16x2 (d a b : VR) (cc : CC)
  | unpackLoF16x2  (d a : VR) (cc : CC)
  | unpackHiF16x2  (d a : VR) (cc : CC)
  | unpackLoBf16x2 (d a : VR) (cc : CC)
  | unpackHiBf16x2 (d a : VR) (cc : CC)
  | ordkey (d a b : VR) (cc : CC) (nanlo : Bool) (t : FT)
  | packedFadd (d a b : VR) (cc : CC) (bf : Bool)
  | packedFsub (d a b : VR) (cc : CC) (bf : Bool)
  | packedFmul (d a b : VR) (cc : CC) (bf : Bool)
  | packedFma  (d a b : VR) (cc : CC) (bf : Bool)
  -- memory (OPC 0x48 to 0x5B); `none` is rlx with SCP 0, `some scp` the acquire or release at scp
  | ldN8  (d a : VR) (cc : CC) (acq : Option Scp) (off : BitVec 5)
  | ldN16 (d a : VR) (cc : CC) (acq : Option Scp) (off : BitVec 5)
  | ldN32 (d a : VR) (cc : CC) (acq : Option Scp) (off : BitVec 5)
  | ldN64 (d a : VR) (cc : CC) (acq : Option Scp) (off : BitVec 5)
  | ldS8  (d a : VR) (cc : CC) (acq : Option Scp) (off : BitVec 5)
  | ldS16 (d a : VR) (cc : CC) (acq : Option Scp) (off : BitVec 5)
  | ldS32 (d a : VR) (cc : CC) (acq : Option Scp) (off : BitVec 5)
  | stB8  (s a : VR) (rel : Option Scp) (off : BitVec 5)
  | stB16 (s a : VR) (rel : Option Scp) (off : BitVec 5)
  | stB32 (s a : VR) (rel : Option Scp) (off : BitVec 5)
  | stB64 (s a : VR) (rel : Option Scp) (off : BitVec 5)
  | lduN64 (d a : VR) (cc : CC) (acq : Option Scp) (off : BitVec 5)
  | ldlit (d : VR) (cc : CC) (w64 : Bool) (lit : BitVec 32)
  | ldv (d a : VR) (w : WR) (cc : CC) (sx : Bool)
  | stv (s a : VR) (w : WR)
  | atomAdd  (d a b : VR) (cc : CC) (ord : Ord) (scp : Scp) (ty : AT)
  | atomAnd  (d a b : VR) (cc : CC) (ord : Ord) (scp : Scp) (ty : AT)
  | atomOr   (d a b : VR) (cc : CC) (ord : Ord) (scp : Scp) (ty : AT)
  | atomXor  (d a b : VR) (cc : CC) (ord : Ord) (scp : Scp) (ty : AT)
  | atomMin  (d a b : VR) (cc : CC) (ord : Ord) (scp : Scp) (ty : AT)
  | atomMax  (d a b : VR) (cc : CC) (ord : Ord) (scp : Scp) (ty : AT)
  | atomExch (d a b : VR) (cc : CC) (ord : Ord) (scp : Scp) (ty : AT)
  | atomCas  (d a b c : VR) (cc : CC) (ord : Ord) (scp : Scp) (ty : AT)
  | atomFadd (d a b : VR) (cc : CC) (ord : Ord) (scp : Scp) (ty : AT)
  | atomnAdd  (a b : VR) (ord : Ord) (scp : Scp) (ty : AT)
  | atomnAnd  (a b : VR) (ord : Ord) (scp : Scp) (ty : AT)
  | atomnOr   (a b : VR) (ord : Ord) (scp : Scp) (ty : AT)
  | atomnXor  (a b : VR) (ord : Ord) (scp : Scp) (ty : AT)
  | atomnMin  (a b : VR) (ord : Ord) (scp : Scp) (ty : AT)
  | atomnMax  (a b : VR) (ord : Ord) (scp : Scp) (ty : AT)
  | atomnFadd (a b : VR) (ord : Ord) (scp : Scp) (ty : AT)
  | waitv (r : WRel) (a b : VR) (acq : Option Scp) (w64 : Bool)
  | stspill (d a : VR)
  | ldspill (d a : VR)
  -- control (OPC 0x5C to 0x65)
  | br   (tgt : BitVec 19)
  | brNz (k : BitVec 3) (tgt : BitVec 19)
  | brZ  (k : BitVec 3) (tgt : BitVec 19)
  | brcAny  (k : KR) (tgt : BitVec 19)
  | brcAll  (k : KR) (tgt : BitVec 19)
  | brcNone (k : KR) (tgt : BitVec 19)
  | brz  (tgt : BitVec 19)
  | call (tgt : BitVec 19)
  | ret
  | jmpi (a : VR)
  | regang
  | yield
  | exit
  | nop
  -- synchronisation (OPC 0x68 to 0x6F)
  | bar (id : BitVec 4)
  | arriveTeam (id : BitVec 4)
  | arriveClu  (id : BitVec 4)
  | waitbTeam  (id : BitVec 4)
  | waitbClu   (id : BitVec 4)
  | waitf (flg : BitVec 12)
  | waitc (cls : Ctr) (thr : BitVec 6)
  | fence (ord : FOrd) (scp : Scp)
  | rfence
  | ifence
  | sigdec (a : VR) (scp : Scp)
  -- system (OPC 0x70 to 0x76)
  | trap (code : BitVec 16)
  | tret
  | bkpt (code : BitVec 16)
  | trmark (a : VR) (id : BitVec 8)
  | rdsr (d : VR) (n : BitVec 6) (cc : CC)
  | wrsr (s : VR) (n : BitVec 6)
  | grow   (n : BitVec 3)
  | shrink (n : BitVec 3)
  | enq (d a : VR) (cc : CC)
  | tlbi (a : VR) (all : Bool)
  | tlbsync
  | poolget (d : VR) (cc : CC)
  | setratel (a : VR)
  | rdcost (d a : VR) (cc : CC)
  -- engines (OPC 0x78 to 0x7B)
  | mma  (a b : VR) (t : TR) (z : Bool) (mq : BitVec 4) (ks : BitVec 8) (p : BitVec 2) (pl : BitVec 5) (sc : Bool) (sa sb : VR)
  | mmag (a b : VR) (t : TR) (z : Bool) (mq : BitVec 4) (ks : BitVec 8) (p : BitVec 2) (pl : BitVec 5) (x : VR)
  | mms (d a b : VR) (cc : CC) (eng : Eng) (fmt : CT) (m n k : BitVec 3)
  | mzero (t : TR)
  | mlda (a : VR) (t : TR) (roff : BitVec 7) (coff : BitVec 8)
  | msta (a : VR) (t : TR) (roff : BitVec 7) (coff : BitVec 8) (sat : Bool)
  | mrow (d : VR) (cc : CC) (t : TR) (row : BitVec 7) (col : BitVec 8)
  | mfence
  | copy (a b : VR) (dv : Bool) (sat : Bool) (rm : RM)
  | copyg (a b x : VR) (sat : Bool) (rm : RM)
  | ccolAllreduce (a b d : VR) (red : Red)
  | ccolRedscat   (a b d : VR) (red : Red)
  | ccolAllgather (a b d : VR)
  | ccolBcast     (a b d : VR)
  | ccolAlltoall  (a b d : VR)
  | vopen (w : WR) (a : VR)
  | vretire (w : WR)
  | vinfo (d : VR) (w : WR) (cc : CC) (fld : BitVec 3)
  | vaddr (d a : VR) (w : WR) (cc : CC)
  | stcov (s : VR)
  | cvstat (d : VR) (cc : CC) (fld : BitVec 3)
  -- tool-reserved (OPC 0x7C to 0x7E)
  | toolx (idx : BitVec 25)
  | trampret
  | tramp (idx : BitVec 25)
  -- whole-part steps: gangs, traps, memory (95_what_each_step_holds.md)
  | unitBoundary
  | regangMerge (g : Nat)
  | trapEntry (g p : Nat)
  | heldTrapEntry (g : Nat)
  | memOpComplete (g op : Nat)
  | absentLineResume (g p : Nat)
  | waitvRecheck (g p : Nat)
  | barrierGenerationComplete (clu : Bool) (team : Nat) (id : BitVec 4)
  | watchdog (g p : Nat)
  -- distributor and pre-emption
  | teamPlacement (launch : Nat)
  | headAged (launch : Nat)
  | dependentTeamDispatch (launch : Nat)
  | teamEnd (team : Nat)
  | preemptRequest (team : Nat)
  | preemptSave (team : Nat)
  | preemptWithdraw (team : Nat)
  | teamResume (team : Nat)
  -- queue front end
  | queuePoll (q : Nat)
  | ticketClaim
  | launchPacket (q idx : Nat)
  | barrierPacket (q idx : Nat)
  | signalPacket (q idx : Nat)
  | indirectPacket (q idx : Nat)
  | predicatePacket (q idx : Nat)
  | loopPacket (q idx : Nat)
  | fetchFencePacket (q idx : Nat)
  | packetComplete (q idx : Nat)
  -- engines
  | matrixBatchComplete (g : Nat)
  | copyComplete (g op : Nat)
  | engineTransferFault (g op : Nat)
  | ccolComplete (g op : Nat)
  | stcovPerform (g op : Nat)
  | trellisGrant (g op : Nat)
  | vopenReexecute (g p : Nat)
  | gleanerReconstruct (launch block : Nat)
  -- rate and power
  | rateTick (pmw : Nat)
  | clockStretch (dom current : Nat)
  | opDecision (core : Nat) (active memWait : Nat)
  | opMoveComplete (core : Nat)
  | regulatorLimitMove (core : Nat) (highest : Option (BitVec 3))
  | laneDecision (port : Nat) (bytes : Nat)
  | migrationDecision (ten page dst : Nat) (gainT gainE costT costE : Nat)
  | pageMigration (move : Nat)
  | migrationAck (ten : Nat)
  -- isolation
  | poolRefill (ten : Nat) (pages : List (BitVec 64))
  | stage2FaultResolve (g p : Nat) (ans : S2Answer)
  | tenancyReset (m : Mgmt) (ten : Nat)
  | tenancyFreeze (m : Mgmt) (ten target : Nat)
  | logReplay (ten : Nat) (log : List Frame)
  -- recovery
  | errorDetected (e : ErrInfo)
  | scrubRow (stack row : Nat) (fixed : List Nat) (bad : List Nat)
  | linkFlitResend (link : Nat) (d2d : Bool)
  | d2dLinkFailure (link : Nat)
  | ccolChunkResend (ten : Nat) (cid : Word) (seq rank start port : Nat)
  | coreLoss (core : Nat)
  | regulatorPhaseFailure (dom : Nat)
  | warmReset
  | coldBoot (img : BootImage)
  | port0Training
  -- attachment
  | frameRead (f : Frame)
  | frameWrite (f : Frame)
  | frameAtomic (f : Frame)
  | frameResp (f : Frame)
  | frameNote (f : Frame)
  | frameCcol (f : Frame)
  | mgmtRegRead (m : Mgmt) (addr : BitVec 64)
  | mgmtRegWrite (m : Mgmt) (addr : BitVec 64) (val : BitVec 64)
  | mgmtMemWrite (m : Mgmt) (addr : BitVec 64) (data : List Byte)
  | createQueue (m : Mgmt) (q : QueueDesc)
  | restartq (m : Mgmt) (qnum : Nat) (mode : RestartMode) (rd : Nat)
  | loadKey (m : Mgmt) (ten : Nat) (key : BitVec 256)
  | registerPeer (m : Mgmt) (ten : Nat) (part : Nat) (peer : Nat)
  | registerCommunicator (m : Mgmt) (ten : Nat) (cid nrank : Nat)
  | publishCosts (m : Mgmt)
  | dumpRequest (m : Mgmt) (team : Nat) (pa : BitVec 64)
  | wbrset (m : Mgmt) (val : BitVec 32)
  | debugStop (m : Mgmt) (core slot path : Nat)
  | debugResume (m : Mgmt) (core slot path : Nat)
  | debugStep (m : Mgmt) (core slot path : Nat)
  -- observation
  | traceSyncPoint (core : Nat)
  | traceLossWrite (core : Nat)
  | stallSample (core : Nat)
  | notificationSend (ten : Nat)
  -- late rows of the table
  | matrixOperationComplete (g op : Nat)
  | clockStretchEnd (dom current : Nat)
  | laneChangeComplete (port : Nat)
  | transportLossReport (tag : BitVec 32)
  deriving DecidableEq, Repr

end Sys2Proof
end

