-- ==== Sys2Proof/WellFormed.lean ====
section
/-! DEFINITION. Which instructions an encoding can name: the limits that the opcode map and the instruction statements
put on field values (R101 to R109, R194, R199, R207, R211), and the limits that depend on the group's width (R108,
R130). A term that breaks a limit is the instruction word that the part traps ILLOP. -/

namespace Sys2Proof

/-- The numbers of rdsr: every special register of R66. -/
def rdsrOk (n : BitVec 6) : Bool := n.toNat ≤ 0x23

/-- The RW and W1C special registers of R66, the only ones that wrsr may name. -/
def wrsrOk (n : BitVec 6) : Bool := [0x15, 0x19, 0x1D, 0x1E, 0x21].contains n.toNat

/-- add, min and max take TY 0 to 3 (R105). -/
def AT.arith : AT → Bool
  | .n32 | .s32 | .n64 | .s64 => true
  | .f32 | .bf16x2 | .f16x2 => false

/-- and, or, xor, exch and cas take TY 0 and 2 (R105). -/
def AT.bitwise : AT → Bool
  | .n32 | .n64 => true
  | .s32 | .s64 | .f32 | .bf16x2 | .f16x2 => false

/-- fadd takes TY 4 to 6 (R105). -/
def AT.float (t : AT) : Bool := !t.arith

/-- fexp2, flog2, fsin, fcos and ordkey take f16, bf16 and f32 (R141, R148). -/
def FT.short : FT → Bool
  | .f16 | .bf16 | .f32 => true
  | .f64 => false

/-- The operand formats of mms (R196 strip). -/
def CT.mmsFmt : CT → Bool
  | .f16 | .bf16 | .f32 | .e4m3 | .e5m2 => true
  | .f64 | .s4 | .s8 | .s16 | .s32 | .s64 | .n8 | .n16 | .n32 | .n64 => false

/-- The word checks of R194 that mma and mmag share: KS + 1 is a multiple of P's value. -/
def kStepsOk (ks : BitVec 8) (p : BitVec 2) : Bool := (ks.toNat + 1) % 2 ^ p.toNat == 0

/-- R194 for mma: a scaled mma takes one 128-k block and P of 1, 2 or 4, an unscaled one names no scale register. -/
def mmaOk (ks : BitVec 8) (p : BitVec 2) (sc : Bool) (sa sb : VR) : Bool :=
  kStepsOk ks p && (if sc then p.toNat != 3 && ks.toNat == 3 else sa == 0 && sb == 0)

/-- The limits on an instruction's fields that hold at every width. -/
def wellFormed : Instr → Bool
  -- integer and address
  | .iadd .. | .isub .. | .imul .. | .imulh .. | .imac .. | .idiv .. | .irem .. | .imin .. | .imax .. | .iadds ..
  | .iaddc .. | .inegB64 .. | .iabsB64 .. | .notB64 .. | .popcB64 .. | .clzB64 .. | .ctzB64 .. | .brevB64 ..
  | .bswapB64 .. | .movB64 .. | .inegB32 .. | .iabsB32 .. | .notB32 .. | .popcB32 .. | .clzB32 .. | .ctzB32 ..
  | .brevB32 .. | .bswapB32 .. | .shl .. | .shr .. | .sar .. | .rot .. | .andb .. | .orb .. | .xorb .. | .andn ..
  | .bfx .. | .bfi .. | .icmp .. | .sel .. | .lea .. | .movi .. | .movhi .. | .iaddi .. | .andi .. | .ori ..
  | .xori .. | .shli .. => true
  -- shape, mask and lane exchange
  | .unif .. | .matz .. | .affine .. | .shape .. | .mand .. | .mor .. | .mxor .. | .mandn .. | .mnot .. | .mpopc ..
  | .mfirst .. | .mfrom .. | .mto .. | .ballot .. | .exget .. | .exset .. | .mset .. | .xlane .. => true
  | .xbfly _ _ _ imm => [1, 2, 4, 8, 16, 32].contains imm.toNat
  | .xshift _ _ _ imm => -63 ≤ imm.toInt && imm.toInt ≤ 63
  | .xbcast _ _ _ imm => imm.toNat ≤ 63
  | .scanadd .. | .greduceAdd .. | .greduceMin .. | .greduceMax .. => true
  -- floating point and conversion
  | .fadd .. | .fsub .. | .fmul .. | .fma .. | .fms .. | .fnma .. | .fmin .. | .fmax .. | .fminm .. | .fmaxm ..
  | .fabs .. | .fneg .. | .fcopysign .. | .fcmp .. | .fclass .. | .frcp .. | .frsq .. | .fsqrt .. | .fdiv .. => true
  | .fexp2 _ _ _ t | .flog2 _ _ _ t | .fsin _ _ _ t | .fcos _ _ _ t => t.short
  | .frnd .. | .ffrac .. | .fscaleb .. => true
  | .cvt _ _ _ sat _ ct _ => !sat || ct == .e4m3
  | .packF16x2 .. | .packBf16x2 .. | .unpackLoF16x2 .. | .unpackHiF16x2 .. | .unpackLoBf16x2 ..
  | .unpackHiBf16x2 .. => true
  | .ordkey _ _ _ _ _ t => t.short
  | .packedFadd .. | .packedFsub .. | .packedFmul .. | .packedFma .. => true
  -- memory
  | .ldN8 .. | .ldN16 .. | .ldN32 .. | .ldN64 .. | .ldS8 .. | .ldS16 .. | .ldS32 .. | .stB8 .. | .stB16 ..
  | .stB32 .. | .stB64 .. | .lduN64 .. | .ldlit .. | .ldv .. | .stv .. => true
  | .atomAdd _ _ _ _ _ _ ty | .atomMin _ _ _ _ _ _ ty | .atomMax _ _ _ _ _ _ ty => ty.arith
  | .atomAnd _ _ _ _ _ _ ty | .atomOr _ _ _ _ _ _ ty | .atomXor _ _ _ _ _ _ ty
  | .atomExch _ _ _ _ _ _ ty | .atomCas _ _ _ _ _ _ _ ty => ty.bitwise
  | .atomFadd _ _ _ _ _ _ ty => ty.float
  | .atomnAdd _ _ _ _ ty | .atomnMin _ _ _ _ ty | .atomnMax _ _ _ _ ty => ty.arith
  | .atomnAnd _ _ _ _ ty | .atomnOr _ _ _ _ ty | .atomnXor _ _ _ _ ty => ty.bitwise
  | .atomnFadd _ _ _ _ ty => ty.float
  | .waitv .. | .stspill .. | .ldspill .. => true
  -- control
  | .br .. | .brNz .. | .brZ .. | .brcAny .. | .brcAll .. | .brcNone .. | .brz .. | .call .. | .ret | .jmpi ..
  | .regang | .yield | .exit | .nop => true
  -- synchronisation
  | .bar .. | .arriveTeam .. | .arriveClu .. | .waitbTeam .. | .waitbClu .. | .waitf .. | .waitc .. | .fence ..
  | .rfence | .ifence | .sigdec .. => true
  -- system
  | .trap .. | .tret | .bkpt .. | .trmark .. => true
  | .rdsr _ n _ => rdsrOk n
  | .wrsr _ n => wrsrOk n
  | .grow n | .shrink n => n != 0
  | .enq .. => true
  | .tlbi a all => !all || a == 0
  | .tlbsync | .poolget .. | .setratel .. | .rdcost .. => true
  -- engines
  | .mma _ _ _ _ _ ks p _ sc sa sb => mmaOk ks p sc sa sb
  | .mmag _ _ _ _ _ ks p _ _ => kStepsOk ks p
  | .mms _ _ _ _ _ fmt _ _ _ => fmt.mmsFmt
  | .mzero .. | .mlda .. | .msta .. | .mrow .. | .mfence => true
  | .copy _ b dv _ _ => !dv || b.toNat ≤ 15
  | .copyg .. | .ccolAllreduce .. | .ccolRedscat .. | .ccolAllgather .. | .ccolBcast .. | .ccolAlltoall ..
  | .vopen .. | .vretire .. | .vinfo .. | .vaddr .. | .stcov .. => true
  | .cvstat _ _ fld => fld.toNat ≤ 5
  -- tool-reserved
  | .toolx .. | .trampret | .tramp .. => true
  -- steps of the part have no encoding, and so no limit on one
  | .unitBoundary | .regangMerge .. | .trapEntry .. | .heldTrapEntry .. | .memOpComplete .. | .absentLineResume ..
  | .waitvRecheck .. | .barrierGenerationComplete .. | .watchdog .. | .teamPlacement .. | .headAged ..
  | .dependentTeamDispatch .. | .teamEnd .. | .preemptRequest .. | .preemptSave .. | .preemptWithdraw ..
  | .teamResume .. | .queuePoll .. | .ticketClaim | .launchPacket .. | .barrierPacket .. | .signalPacket ..
  | .indirectPacket .. | .predicatePacket .. | .loopPacket .. | .fetchFencePacket .. | .packetComplete ..
  | .matrixBatchComplete .. | .copyComplete .. | .engineTransferFault .. | .ccolComplete .. | .stcovPerform ..
  | .trellisGrant .. | .vopenReexecute .. | .gleanerReconstruct .. | .rateTick .. | .clockStretch ..
  | .opDecision .. | .opMoveComplete .. | .regulatorLimitMove .. | .laneDecision .. | .migrationDecision ..
  | .pageMigration .. | .migrationAck .. | .poolRefill .. | .stage2FaultResolve .. | .tenancyReset ..
  | .tenancyFreeze .. | .logReplay .. | .errorDetected .. | .scrubRow .. | .linkFlitResend .. | .d2dLinkFailure ..
  | .ccolChunkResend .. | .coreLoss .. | .regulatorPhaseFailure .. | .warmReset | .coldBoot .. | .port0Training
  | .frameRead .. | .frameWrite .. | .frameAtomic .. | .frameResp .. | .frameNote .. | .frameCcol ..
  | .mgmtRegRead .. | .mgmtRegWrite .. | .mgmtMemWrite .. | .createQueue .. | .restartq .. | .loadKey ..
  | .registerPeer .. | .registerCommunicator .. | .publishCosts .. | .dumpRequest .. | .wbrset .. | .debugStop ..
  | .debugResume .. | .debugStep .. | .traceSyncPoint .. | .traceLossWrite .. | .stallSample ..
  | .notificationSend .. | .matrixOperationComplete .. | .clockStretchEnd .. | .laneChangeComplete ..
  | .transportLossReport .. => true

/-- The limits that depend on the running group's width W (R108, R130). -/
def widthOk (w : Nat) : Instr → Bool
  | .xbfly _ _ _ imm => imm.toNat < w
  | .xbcast _ _ _ imm => imm.toNat < w
  | _ => true

end Sys2Proof
end

