-- ==== Sys2Proof/Decode.lean ====
section
/-! DEFINITION. Decoding instruction words and the encoder, both written from the formats and tables of "Clause
headers, word formats and the opcode map" (R101 to R109) and the strips of the engine instructions (R189 to R211).
A word is a `Nat` below 2^32 with bit 0 its least significant bit. -/

namespace Sys2Proof

/-! ### Field codes (R102 to R105) -/

def IT.code : IT → Nat | .n64 => 0 | .s64 => 1 | .n32 => 2 | .s32 => 3
def IT.ofCode : Nat → Option IT
  | 0 => some .n64 | 1 => some .s64 | 2 => some .n32 | 3 => some .s32 | _ => none
def BT.code : BT → Nat | .b64 => 0 | .b32 => 2
def BT.ofCode : Nat → Option BT | 0 => some .b64 | 2 => some .b32 | _ => none
def FT.code : FT → Nat | .f16 => 0 | .bf16 => 1 | .f32 => 2 | .f64 => 3
def FT.ofCode : Nat → Option FT
  | 0 => some .f16 | 1 => some .bf16 | 2 => some .f32 | 3 => some .f64 | _ => none
def RM.code : RM → Nat | .rne => 0 | .rtz => 1 | .rup => 2 | .rdn => 3
def RM.ofCode : Nat → Option RM
  | 0 => some .rne | 1 => some .rtz | 2 => some .rup | 3 => some .rdn | _ => none
def IRel.code : IRel → Nat | .eq => 0 | .ne => 1 | .lts => 2 | .les => 3 | .ltn => 4 | .len => 5
def IRel.ofCode : Nat → Option IRel
  | 0 => some .eq | 1 => some .ne | 2 => some .lts | 3 => some .les | 4 => some .ltn | 5 => some .len | _ => none
def FRel.code : FRel → Nat | .eq => 0 | .lt => 1 | .le => 2 | .un => 3
def FRel.ofCode : Nat → Option FRel
  | 0 => some .eq | 1 => some .lt | 2 => some .le | 3 => some .un | _ => none
def WRel.code : WRel → Nat | .eq => 0 | .ne => 1 | .ltn => 2 | .gen => 3
def WRel.ofCode : Nat → Option WRel
  | 0 => some .eq | 1 => some .ne | 2 => some .ltn | 3 => some .gen | _ => none
def Ord.code : Ord → Nat | .rlx => 0 | .acq => 1 | .rel => 2 | .ar => 3
def Ord.ofCode : Nat → Option Ord
  | 0 => some .rlx | 1 => some .acq | 2 => some .rel | 3 => some .ar | _ => none
def FOrd.code : FOrd → Nat | .acq => 1 | .rel => 2 | .ar => 3
def FOrd.ofCode : Nat → Option FOrd | 1 => some .acq | 2 => some .rel | 3 => some .ar | _ => none
def Scp.code : Scp → Nat | .grp => 0 | .team => 1 | .clu => 2 | .die => 3 | .dev => 4 | .dom => 5 | .sys => 6
def Scp.ofCode : Nat → Option Scp
  | 0 => some .grp | 1 => some .team | 2 => some .clu | 3 => some .die | 4 => some .dev | 5 => some .dom
  | 6 => some .sys | _ => none
def CT.code : CT → Nat
  | .f16 => 0 | .bf16 => 1 | .f32 => 2 | .f64 => 3 | .e4m3 => 4 | .e5m2 => 5 | .s4 => 6 | .s8 => 7
  | .s16 => 8 | .s32 => 9 | .s64 => 10 | .n8 => 11 | .n16 => 12 | .n32 => 13 | .n64 => 14
def CT.ofCode : Nat → Option CT
  | 0 => some .f16 | 1 => some .bf16 | 2 => some .f32 | 3 => some .f64 | 4 => some .e4m3 | 5 => some .e5m2
  | 6 => some .s4 | 7 => some .s8 | 8 => some .s16 | 9 => some .s32 | 10 => some .s64 | 11 => some .n8
  | 12 => some .n16 | 13 => some .n32 | 14 => some .n64 | _ => none
def AT.code : AT → Nat | .n32 => 0 | .s32 => 1 | .n64 => 2 | .s64 => 3 | .f32 => 4 | .bf16x2 => 5 | .f16x2 => 6
def AT.ofCode : Nat → Option AT
  | 0 => some .n32 | 1 => some .s32 | 2 => some .n64 | 3 => some .s64 | 4 => some .f32 | 5 => some .bf16x2
  | 6 => some .f16x2 | _ => none
def Eng.code : Eng → Nat | .arr => 0 | .vec => 1 | .auto => 2
def Eng.ofCode : Nat → Option Eng | 0 => some .arr | 1 => some .vec | 2 => some .auto | _ => none
def Red.code : Red → Nat | .add => 0 | .min => 1 | .max => 2
def Red.ofCode : Nat → Option Red | 0 => some .add | 1 => some .min | 2 => some .max | _ => none
def Ctr.code : Ctr → Nat | .m => 0 | .c => 1 | .x => 2 | .l => 3
def Ctr.ofCode : Nat → Option Ctr | 0 => some .m | 1 => some .c | 2 => some .x | 3 => some .l | _ => none

/-- The ORD field of a load, waitv or store that names an order: acq (1) or rel (2) with its scope, 0 otherwise. -/
def ordOf (code : Nat) : Option Scp → Nat | none => 0 | some _ => code
def scpOf : Option Scp → Nat | none => 0 | some s => s.code
/-- The inverse: rlx with SCP 0, or the one other order with SCP 0 to 6 (R105). -/
def accOf (code ord scp : Nat) : Option (Option Scp) :=
  if ord = 0 then (if scp = 0 then some none else none)
  else if ord = code then (match Scp.ofCode scp with | some s => some (some s) | none => none)
  else none

def bit (b : Bool) : Nat := if b then 1 else 0

/-! ### Formats (R101) -/

def wordA (opc d a b cc sub : Nat) : Nat :=
  opc * 0x2000000 + d * 0x80000 + a * 0x2000 + b * 0x80 + cc * 0x10 + sub
def wordI (opc d a cc imm : Nat) : Nat := opc * 0x2000000 + d * 0x80000 + a * 0x2000 + cc * 0x400 + imm
def wordM (opc d a cc ord scp off : Nat) : Nat :=
  opc * 0x2000000 + d * 0x80000 + a * 0x2000 + cc * 0x400 + ord * 0x100 + scp * 0x20 + off
def wordJ (opc cond k tgt : Nat) : Nat := opc * 0x2000000 + cond * 0x400000 + k * 0x80000 + tgt
def wordS (opc sub low : Nat) : Nat := opc * 0x2000000 + sub * 0x100000 + low
/-- The first word that the long instructions outside the engine range share (R104). -/
def wordL (opc sub d a cc : Nat) : Nat :=
  opc * 0x2000000 + sub * 0x100000 + d * 0x4000 + a * 0x100 + cc * 0x20
def wordT (opc idx : Nat) : Nat := opc * 0x2000000 + idx
/-- The second word of atom and atomn, and of waitv with C zero (R104). -/
def wordAtom (b c ord scp ty : Nat) : Nat :=
  b * 0x4000000 + c * 0x100000 + ord * 0x40000 + scp * 0x8000 + ty * 0x1000
/-- The first word of mma and mmag (R194, R196). -/
def wordMma (sub a b t z : Nat) : Nat := 0x78 * 0x2000000 + sub * 0x100000 + a * 0x4000 + b * 0x100 + t * 0x20 + z * 0x10
/-- The second word of mma and mmag. -/
def wordMma2 (mq ks p pl sc sa sb : Nat) : Nat :=
  mq * 0x10000000 + ks * 0x100000 + p * 0x40000 + pl * 0x2000 + sc * 0x1000 + sa * 0x40 + sb
/-- The second word of ccol. -/
def wordCcol2 (d op red : Nat) : Nat := d * 0x4000000 + op * 0x800000 + red * 0x100000

/-- Bits lo+n-1 : lo of a word. -/
def fld (w lo n : Nat) : BitVec n := BitVec.ofNat n (w / 2 ^ lo)
/-- The same as a number, for codes. -/
def num (w lo n : Nat) : Nat := w / 2 ^ lo % 2 ^ n

/-! ### The encoder -/

/-- The words of an instruction, first word first; a step of the part has none. -/
def encode : Instr → List Nat
  -- integer and address
  | .iadd d a b cc t => [wordA 0x01 d.toNat a.toNat b.toNat cc.toNat t.code]
  | .isub d a b cc t => [wordA 0x02 d.toNat a.toNat b.toNat cc.toNat t.code]
  | .imul d a b cc t => [wordA 0x03 d.toNat a.toNat b.toNat cc.toNat t.code]
  | .imulh d a b cc t => [wordA 0x04 d.toNat a.toNat b.toNat cc.toNat t.code]
  | .imac d a b cc t => [wordA 0x05 d.toNat a.toNat b.toNat cc.toNat t.code]
  | .idiv d a b cc t => [wordA 0x06 d.toNat a.toNat b.toNat cc.toNat t.code]
  | .irem d a b cc t => [wordA 0x06 d.toNat a.toNat b.toNat cc.toNat (4 + t.code)]
  | .imin d a b cc t => [wordA 0x07 d.toNat a.toNat b.toNat cc.toNat t.code]
  | .imax d a b cc t => [wordA 0x07 d.toNat a.toNat b.toNat cc.toNat (4 + t.code)]
  | .iadds d a b cc t => [wordA 0x08 d.toNat a.toNat b.toNat cc.toNat t.code]
  | .iaddc d a b cc t => [wordA 0x09 d.toNat a.toNat b.toNat cc.toNat t.code]
  | .inegB64 d a cc => [wordA 0x0A d.toNat a.toNat 0 cc.toNat 0]
  | .iabsB64 d a cc => [wordA 0x0A d.toNat a.toNat 0 cc.toNat 1]
  | .notB64 d a cc => [wordA 0x0A d.toNat a.toNat 0 cc.toNat 2]
  | .popcB64 d a cc => [wordA 0x0A d.toNat a.toNat 0 cc.toNat 3]
  | .clzB64 d a cc => [wordA 0x0A d.toNat a.toNat 0 cc.toNat 4]
  | .ctzB64 d a cc => [wordA 0x0A d.toNat a.toNat 0 cc.toNat 5]
  | .brevB64 d a cc => [wordA 0x0A d.toNat a.toNat 0 cc.toNat 6]
  | .bswapB64 d a cc => [wordA 0x0A d.toNat a.toNat 0 cc.toNat 7]
  | .movB64 d a cc => [wordA 0x0A d.toNat a.toNat 0 cc.toNat 8]
  | .inegB32 d a cc => [wordA 0x0B d.toNat a.toNat 0 cc.toNat 0]
  | .iabsB32 d a cc => [wordA 0x0B d.toNat a.toNat 0 cc.toNat 1]
  | .notB32 d a cc => [wordA 0x0B d.toNat a.toNat 0 cc.toNat 2]
  | .popcB32 d a cc => [wordA 0x0B d.toNat a.toNat 0 cc.toNat 3]
  | .clzB32 d a cc => [wordA 0x0B d.toNat a.toNat 0 cc.toNat 4]
  | .ctzB32 d a cc => [wordA 0x0B d.toNat a.toNat 0 cc.toNat 5]
  | .brevB32 d a cc => [wordA 0x0B d.toNat a.toNat 0 cc.toNat 6]
  | .bswapB32 d a cc => [wordA 0x0B d.toNat a.toNat 0 cc.toNat 7]
  | .shl d a b cc t => [wordA 0x0C d.toNat a.toNat b.toNat cc.toNat t.code]
  | .shr d a b cc t => [wordA 0x0C d.toNat a.toNat b.toNat cc.toNat (4 + t.code)]
  | .sar d a b cc t => [wordA 0x0C d.toNat a.toNat b.toNat cc.toNat (8 + t.code)]
  | .rot d a b cc t => [wordA 0x0C d.toNat a.toNat b.toNat cc.toNat (12 + t.code)]
  | .andb d a b cc t => [wordA 0x0D d.toNat a.toNat b.toNat cc.toNat t.code]
  | .orb d a b cc t => [wordA 0x0D d.toNat a.toNat b.toNat cc.toNat (4 + t.code)]
  | .xorb d a b cc t => [wordA 0x0D d.toNat a.toNat b.toNat cc.toNat (8 + t.code)]
  | .andn d a b cc t => [wordA 0x0D d.toNat a.toNat b.toNat cc.toNat (12 + t.code)]
  | .bfx d a b cc t => [wordA 0x0E d.toNat a.toNat b.toNat cc.toNat t.code]
  | .bfi d a b cc t => [wordA 0x0F d.toNat a.toNat b.toNat cc.toNat t.code]
  | .icmp d a b cc w r => [wordA 0x10 d.toNat a.toNat b.toNat cc.toNat (8 * bit (w == .b32) + r.code)]
  | .sel d a b cc k => [wordA 0x11 d.toNat a.toNat b.toNat cc.toNat k.toNat]
  | .lea d a b cc sh => [wordA 0x12 d.toNat a.toNat b.toNat cc.toNat sh.toNat]
  | .movi d cc imm => [wordI 0x13 d.toNat (imm.toNat / 1024) cc.toNat (imm.toNat % 1024)]
  | .movhi d cc imm => [wordI 0x14 d.toNat (imm.toNat / 1024) cc.toNat (imm.toNat % 1024)]
  | .iaddi d a cc imm => [wordI 0x15 d.toNat a.toNat cc.toNat imm.toNat]
  | .andi d a cc imm => [wordI 0x16 d.toNat a.toNat cc.toNat imm.toNat]
  | .ori d a cc imm => [wordI 0x17 d.toNat a.toNat cc.toNat imm.toNat]
  | .xori d a cc imm => [wordI 0x18 d.toNat a.toNat cc.toNat imm.toNat]
  | .shli d a cc imm => [wordI 0x19 d.toNat a.toNat cc.toNat imm.toNat]
  -- shape, mask and lane exchange
  | .unif d a cc => [wordA 0x20 d.toNat a.toNat 0 cc.toNat 0]
  | .matz d a cc => [wordA 0x20 d.toNat a.toNat 0 cc.toNat 1]
  | .affine d a b cc => [wordA 0x20 d.toNat a.toNat b.toNat cc.toNat 2]
  | .shape d a cc => [wordA 0x20 d.toNat a.toNat 0 cc.toNat 3]
  | .mand d a b => [wordA 0x21 d.toNat a.toNat b.toNat 0 0]
  | .mor d a b => [wordA 0x21 d.toNat a.toNat b.toNat 0 1]
  | .mxor d a b => [wordA 0x21 d.toNat a.toNat b.toNat 0 2]
  | .mandn d a b => [wordA 0x21 d.toNat a.toNat b.toNat 0 3]
  | .mnot d a => [wordA 0x21 d.toNat a.toNat 0 0 4]
  | .mpopc d a cc => [wordA 0x22 d.toNat a.toNat 0 cc.toNat 0]
  | .mfirst d a cc => [wordA 0x22 d.toNat a.toNat 0 cc.toNat 1]
  | .mfrom d a => [wordA 0x22 d.toNat a.toNat 0 0 2]
  | .mto d a cc => [wordA 0x22 d.toNat a.toNat 0 cc.toNat 3]
  | .ballot d a cc => [wordA 0x22 d.toNat a.toNat 0 cc.toNat 4]
  | .exget d => [wordA 0x23 d.toNat 0 0 0 0]
  | .exset a => [wordA 0x23 0 a.toNat 0 0 1]
  | .mset d a => [wordA 0x23 d.toNat a.toNat 0 0 2]
  | .xlane d a b cc => [wordA 0x24 d.toNat a.toNat b.toNat cc.toNat 0]
  | .xbfly d a cc imm => [wordI 0x25 d.toNat a.toNat cc.toNat imm.toNat]
  | .xshift d a cc imm => [wordI 0x26 d.toNat a.toNat cc.toNat imm.toNat]
  | .xbcast d a cc imm => [wordI 0x27 d.toNat a.toNat cc.toNat imm.toNat]
  | .scanadd d a cc exc t => [wordA 0x28 d.toNat a.toNat 0 cc.toNat (4 * bit exc + t.code)]
  | .greduceAdd d a cc t => [wordA 0x29 d.toNat a.toNat 0 cc.toNat t.code]
  | .greduceMin d a cc t => [wordA 0x29 d.toNat a.toNat 0 cc.toNat (4 + t.code)]
  | .greduceMax d a cc t => [wordA 0x29 d.toNat a.toNat 0 cc.toNat (8 + t.code)]
  -- floating point and conversion
  | .fadd d a b cc rm t => [wordA 0x2C d.toNat a.toNat b.toNat cc.toNat (4 * rm.code + t.code)]
  | .fsub d a b cc rm t => [wordA 0x2D d.toNat a.toNat b.toNat cc.toNat (4 * rm.code + t.code)]
  | .fmul d a b cc rm t => [wordA 0x2E d.toNat a.toNat b.toNat cc.toNat (4 * rm.code + t.code)]
  | .fma d a b cc rm t => [wordA 0x2F d.toNat a.toNat b.toNat cc.toNat (4 * rm.code + t.code)]
  | .fms d a b cc rm t => [wordA 0x30 d.toNat a.toNat b.toNat cc.toNat (4 * rm.code + t.code)]
  | .fnma d a b cc rm t => [wordA 0x31 d.toNat a.toNat b.toNat cc.toNat (4 * rm.code + t.code)]
  | .fmin d a b cc t => [wordA 0x32 d.toNat a.toNat b.toNat cc.toNat t.code]
  | .fmax d a b cc t => [wordA 0x32 d.toNat a.toNat b.toNat cc.toNat (4 + t.code)]
  | .fminm d a b cc t => [wordA 0x32 d.toNat a.toNat b.toNat cc.toNat (8 + t.code)]
  | .fmaxm d a b cc t => [wordA 0x32 d.toNat a.toNat b.toNat cc.toNat (12 + t.code)]
  | .fabs d a cc t => [wordA 0x33 d.toNat a.toNat 0 cc.toNat t.code]
  | .fneg d a cc t => [wordA 0x33 d.toNat a.toNat 0 cc.toNat (4 + t.code)]
  | .fcopysign d a b cc t => [wordA 0x33 d.toNat a.toNat b.toNat cc.toNat (8 + t.code)]
  | .fcmp d a b cc r t => [wordA 0x34 d.toNat a.toNat b.toNat cc.toNat (4 * r.code + t.code)]
  | .fclass d a cc t => [wordA 0x35 d.toNat a.toNat 0 cc.toNat t.code]
  | .frcp d a cc rm t => [wordA 0x36 d.toNat a.toNat 0 cc.toNat (4 * rm.code + t.code)]
  | .frsq d a cc rm t => [wordA 0x37 d.toNat a.toNat 0 cc.toNat (4 * rm.code + t.code)]
  | .fsqrt d a cc rm t => [wordA 0x38 d.toNat a.toNat 0 cc.toNat (4 * rm.code + t.code)]
  | .fdiv d a b cc rm t => [wordA 0x39 d.toNat a.toNat b.toNat cc.toNat (4 * rm.code + t.code)]
  | .fexp2 d a cc t => [wordA 0x3A d.toNat a.toNat 0 cc.toNat t.code]
  | .flog2 d a cc t => [wordA 0x3A d.toNat a.toNat 0 cc.toNat (4 + t.code)]
  | .fsin d a cc t => [wordA 0x3A d.toNat a.toNat 0 cc.toNat (8 + t.code)]
  | .fcos d a cc t => [wordA 0x3A d.toNat a.toNat 0 cc.toNat (12 + t.code)]
  | .frnd d a cc rm t => [wordA 0x3B d.toNat a.toNat 0 cc.toNat (4 * rm.code + t.code)]
  | .ffrac d a cc t => [wordA 0x3C d.toNat a.toNat 0 cc.toNat t.code]
  | .fscaleb d a b cc rm t => [wordA 0x3D d.toNat a.toNat b.toNat cc.toNat (4 * rm.code + t.code)]
  | .cvt d a cc sat rm ct from_ =>
      [wordL 0x3E 0 d.toNat a.toNat cc.toNat, bit sat * 0x40000 + rm.code * 0x10000 + ct.code * 0x100 + from_.code]
  | .packF16x2 d a b cc => [wordA 0x3F d.toNat a.toNat b.toNat cc.toNat 0]
  | .packBf16x2 d a b cc => [wordA 0x3F d.toNat a.toNat b.toNat cc.toNat 1]
  | .unpackLoF16x2 d a cc => [wordA 0x3F d.toNat a.toNat 0 cc.toNat 2]
  | .unpackHiF16x2 d a cc => [wordA 0x3F d.toNat a.toNat 0 cc.toNat 3]
  | .unpackLoBf16x2 d a cc => [wordA 0x3F d.toNat a.toNat 0 cc.toNat 4]
  | .unpackHiBf16x2 d a cc => [wordA 0x3F d.toNat a.toNat 0 cc.toNat 5]
  | .ordkey d a b cc nanlo t => [wordA 0x40 d.toNat a.toNat b.toNat cc.toNat (8 * bit nanlo + t.code)]
  | .packedFadd d a b cc bf => [wordA 0x41 d.toNat a.toNat b.toNat cc.toNat (bit bf)]
  | .packedFsub d a b cc bf => [wordA 0x41 d.toNat a.toNat b.toNat cc.toNat (4 + bit bf)]
  | .packedFmul d a b cc bf => [wordA 0x41 d.toNat a.toNat b.toNat cc.toNat (8 + bit bf)]
  | .packedFma d a b cc bf => [wordA 0x41 d.toNat a.toNat b.toNat cc.toNat (12 + bit bf)]
  -- memory
  | .ldN8 d a cc q off => [wordM 0x48 d.toNat a.toNat cc.toNat (ordOf 1 q) (scpOf q) off.toNat]
  | .ldN16 d a cc q off => [wordM 0x49 d.toNat a.toNat cc.toNat (ordOf 1 q) (scpOf q) off.toNat]
  | .ldN32 d a cc q off => [wordM 0x4A d.toNat a.toNat cc.toNat (ordOf 1 q) (scpOf q) off.toNat]
  | .ldN64 d a cc q off => [wordM 0x4B d.toNat a.toNat cc.toNat (ordOf 1 q) (scpOf q) off.toNat]
  | .ldS8 d a cc q off => [wordM 0x4C d.toNat a.toNat cc.toNat (ordOf 1 q) (scpOf q) off.toNat]
  | .ldS16 d a cc q off => [wordM 0x4D d.toNat a.toNat cc.toNat (ordOf 1 q) (scpOf q) off.toNat]
  | .ldS32 d a cc q off => [wordM 0x4E d.toNat a.toNat cc.toNat (ordOf 1 q) (scpOf q) off.toNat]
  | .stB8 s a q off => [wordM 0x4F s.toNat a.toNat 0 (ordOf 2 q) (scpOf q) off.toNat]
  | .stB16 s a q off => [wordM 0x50 s.toNat a.toNat 0 (ordOf 2 q) (scpOf q) off.toNat]
  | .stB32 s a q off => [wordM 0x51 s.toNat a.toNat 0 (ordOf 2 q) (scpOf q) off.toNat]
  | .stB64 s a q off => [wordM 0x52 s.toNat a.toNat 0 (ordOf 2 q) (scpOf q) off.toNat]
  | .lduN64 d a cc q off => [wordM 0x53 d.toNat a.toNat cc.toNat (ordOf 1 q) (scpOf q) off.toNat]
  | .ldlit d cc w64 lit => [wordL 0x54 (bit w64) d.toNat 0 cc.toNat, lit.toNat]
  | .ldv d a w cc sx => [wordA 0x55 d.toNat a.toNat w.toNat cc.toNat (bit sx)]
  | .stv s a w => [wordA 0x56 s.toNat a.toNat w.toNat 0 0]
  | .atomAdd d a b cc o p ty => [wordL 0x57 0 d.toNat a.toNat cc.toNat, wordAtom b.toNat 0 o.code p.code ty.code]
  | .atomAnd d a b cc o p ty => [wordL 0x57 1 d.toNat a.toNat cc.toNat, wordAtom b.toNat 0 o.code p.code ty.code]
  | .atomOr d a b cc o p ty => [wordL 0x57 2 d.toNat a.toNat cc.toNat, wordAtom b.toNat 0 o.code p.code ty.code]
  | .atomXor d a b cc o p ty => [wordL 0x57 3 d.toNat a.toNat cc.toNat, wordAtom b.toNat 0 o.code p.code ty.code]
  | .atomMin d a b cc o p ty => [wordL 0x57 4 d.toNat a.toNat cc.toNat, wordAtom b.toNat 0 o.code p.code ty.code]
  | .atomMax d a b cc o p ty => [wordL 0x57 5 d.toNat a.toNat cc.toNat, wordAtom b.toNat 0 o.code p.code ty.code]
  | .atomExch d a b cc o p ty => [wordL 0x57 6 d.toNat a.toNat cc.toNat, wordAtom b.toNat 0 o.code p.code ty.code]
  | .atomCas d a b c cc o p ty =>
      [wordL 0x57 7 d.toNat a.toNat cc.toNat, wordAtom b.toNat c.toNat o.code p.code ty.code]
  | .atomFadd d a b cc o p ty => [wordL 0x57 8 d.toNat a.toNat cc.toNat, wordAtom b.toNat 0 o.code p.code ty.code]
  | .atomnAdd a b o p ty => [wordL 0x58 0 0 a.toNat 0, wordAtom b.toNat 0 o.code p.code ty.code]
  | .atomnAnd a b o p ty => [wordL 0x58 1 0 a.toNat 0, wordAtom b.toNat 0 o.code p.code ty.code]
  | .atomnOr a b o p ty => [wordL 0x58 2 0 a.toNat 0, wordAtom b.toNat 0 o.code p.code ty.code]
  | .atomnXor a b o p ty => [wordL 0x58 3 0 a.toNat 0, wordAtom b.toNat 0 o.code p.code ty.code]
  | .atomnMin a b o p ty => [wordL 0x58 4 0 a.toNat 0, wordAtom b.toNat 0 o.code p.code ty.code]
  | .atomnMax a b o p ty => [wordL 0x58 5 0 a.toNat 0, wordAtom b.toNat 0 o.code p.code ty.code]
  | .atomnFadd a b o p ty => [wordL 0x58 8 0 a.toNat 0, wordAtom b.toNat 0 o.code p.code ty.code]
  | .waitv r a b q w64 => [wordL 0x59 r.code 0 a.toNat 0, wordAtom b.toNat 0 (ordOf 1 q) (scpOf q) (2 * bit w64)]
  | .stspill d a => [wordA 0x5A d.toNat a.toNat 0 0 0]
  | .ldspill d a => [wordA 0x5B d.toNat a.toNat 0 0 0]
  -- control
  | .br t => [wordJ 0x5C 0 0 t.toNat]
  | .brNz k t => [wordJ 0x5C 1 k.toNat t.toNat]
  | .brZ k t => [wordJ 0x5C 2 k.toNat t.toNat]
  | .brcAny k t => [wordJ 0x5D 0 k.toNat t.toNat]
  | .brcAll k t => [wordJ 0x5D 1 k.toNat t.toNat]
  | .brcNone k t => [wordJ 0x5D 2 k.toNat t.toNat]
  | .brz t => [wordJ 0x5E 0 0 t.toNat]
  | .call t => [wordJ 0x5F 0 0 t.toNat]
  | .ret => [wordS 0x60 0 0]
  | .jmpi a => [wordA 0x61 0 a.toNat 0 0 0]
  | .regang => [wordS 0x62 0 0]
  | .yield => [wordS 0x63 0 0]
  | .exit => [wordS 0x64 0 0]
  | .nop => [wordS 0x65 0 0]
  -- synchronisation
  | .bar id => [wordS 0x68 0 (id.toNat * 0x10000)]
  | .arriveTeam id => [wordS 0x69 1 (id.toNat * 0x10000)]
  | .arriveClu id => [wordS 0x69 2 (id.toNat * 0x10000)]
  | .waitbTeam id => [wordS 0x6A 1 (id.toNat * 0x10000)]
  | .waitbClu id => [wordS 0x6A 2 (id.toNat * 0x10000)]
  | .waitf flg => [wordS 0x6B 0 (flg.toNat * 0x100)]
  | .waitc ct thr => [wordS 0x6C 0 (ct.code * 0x40000 + thr.toNat * 0x1000)]
  | .fence o p => [wordS 0x6D 0 (o.code * 0x40000 + p.code * 0x8000)]
  | .rfence => [wordS 0x6E 0 0]
  | .ifence => [wordS 0x6E 1 0]
  | .sigdec a p => [wordS 0x6F 0 (a.toNat * 0x4000 + p.code * 0x800)]
  -- system
  | .trap code => [wordS 0x70 0 code.toNat]
  | .tret => [wordS 0x70 1 0]
  | .bkpt code => [wordS 0x70 2 code.toNat]
  | .trmark a id => [wordS 0x70 3 (a.toNat * 0x4000 + id.toNat)]
  | .rdsr d n cc => [wordS 0x71 0 (d.toNat * 0x4000 + n.toNat * 0x100 + cc.toNat * 0x20)]
  | .wrsr v n => [wordS 0x71 1 (v.toNat * 0x4000 + n.toNat * 0x100)]
  | .grow n => [wordS 0x72 0 (n.toNat * 0x20000)]
  | .shrink n => [wordS 0x72 1 (n.toNat * 0x20000)]
  | .enq d a cc => [wordL 0x73 0 d.toNat a.toNat cc.toNat]
  | .tlbi a all => [wordS 0x74 0 (a.toNat * 0x4000 + bit all * 0x2000)]
  | .tlbsync => [wordS 0x74 1 0]
  | .poolget d cc => [wordL 0x75 0 d.toNat 0 cc.toNat]
  | .setratel a => [wordL 0x76 0 0 a.toNat 0]
  | .rdcost d a cc => [wordL 0x76 1 d.toNat a.toNat cc.toNat]
  -- engines
  | .mma a b t z mq ks p pl sc sa sb =>
      [wordMma 0 a.toNat b.toNat t.toNat (bit z),
       wordMma2 mq.toNat ks.toNat p.toNat pl.toNat (bit sc) sa.toNat sb.toNat]
  | .mmag a b t z mq ks p pl x =>
      [wordMma 1 a.toNat b.toNat t.toNat (bit z), wordMma2 mq.toNat ks.toNat p.toNat pl.toNat 0 x.toNat 0]
  | .mms d a b cc eng fmt m n k =>
      [wordL 0x78 2 d.toNat a.toNat cc.toNat,
       b.toNat * 0x4000000 + eng.code * 0x10000 + fmt.code * 0x800 + m.toNat * 0x100 + n.toNat * 0x20 + k.toNat * 4]
  | .mzero t => [wordS 0x79 0 (t.toNat * 0x20000), 0]
  | .mlda a t roff coff =>
      [wordS 0x79 1 (a.toNat * 0x4000 + t.toNat * 0x20), roff.toNat * 0x2000000 + coff.toNat * 0x20000]
  | .msta a t roff coff sat =>
      [wordS 0x79 2 (a.toNat * 0x4000 + t.toNat * 0x20),
       roff.toNat * 0x2000000 + coff.toNat * 0x20000 + bit sat * 0x10000]
  | .mrow d cc t row col =>
      [wordS 0x79 3 (d.toNat * 0x4000 + cc.toNat * 0x20),
       t.toNat * 0x20000000 + row.toNat * 0x400000 + col.toNat * 0x4000]
  | .mfence => [wordS 0x79 4 0, 0]
  | .copy a b dv sat rm =>
      [wordS 0x7A 0 (a.toNat * 0x4000 + b.toNat * 0x100 + bit dv * 0x80), bit sat * 0x40000 + rm.code * 0x10000]
  | .copyg a b x sat rm =>
      [wordS 0x7A 1 (a.toNat * 0x4000 + b.toNat * 0x100),
       x.toNat * 0x4000000 + bit sat * 0x40000 + rm.code * 0x10000]
  | .ccolAllreduce a b d red => [wordS 0x7A 2 (a.toNat * 0x4000 + b.toNat * 0x100), wordCcol2 d.toNat 0 red.code]
  | .ccolRedscat a b d red => [wordS 0x7A 2 (a.toNat * 0x4000 + b.toNat * 0x100), wordCcol2 d.toNat 1 red.code]
  | .ccolAllgather a b d => [wordS 0x7A 2 (a.toNat * 0x4000 + b.toNat * 0x100), wordCcol2 d.toNat 2 0]
  | .ccolBcast a b d => [wordS 0x7A 2 (a.toNat * 0x4000 + b.toNat * 0x100), wordCcol2 d.toNat 3 0]
  | .ccolAlltoall a b d => [wordS 0x7A 2 (a.toNat * 0x4000 + b.toNat * 0x100), wordCcol2 d.toNat 4 0]
  | .vopen w a => [wordS 0x7B 0 (w.toNat * 0x10000 + a.toNat * 0x100), 0]
  | .vretire w => [wordS 0x7B 1 (w.toNat * 0x10000), 0]
  | .vinfo d w cc f => [wordS 0x7B 2 (d.toNat * 0x4000 + w.toNat * 0x100 + cc.toNat * 0x20), f.toNat]
  | .vaddr d a w cc => [wordL 0x7B 3 d.toNat a.toNat cc.toNat, w.toNat]
  | .stcov v => [wordS 0x7B 4 (v.toNat * 0x4000), 0]
  | .cvstat d cc f => [wordS 0x7B 5 (d.toNat * 0x4000 + cc.toNat * 0x20), f.toNat]
  -- tool-reserved
  | .toolx idx => [wordT 0x7C idx.toNat]
  | .trampret => [wordT 0x7D 0]
  | .tramp idx => [wordT 0x7E idx.toNat]
  -- steps of the part: no encoding
  | .unitBoundary | .regangMerge .. | .trapEntry .. | .heldTrapEntry .. | .memOpComplete .. | .absentLineResume ..
  | .waitvRecheck .. | .barrierGenerationComplete .. | .watchdog .. | .teamPlacement .. | .headAged ..
  | .dependentTeamDispatch .. | .teamEnd .. | .preemptRequest .. | .preemptSave .. | .preemptWithdraw ..
  | .teamResume .. | .queuePoll .. | .ticketClaim | .launchPacket .. | .barrierPacket .. | .signalPacket ..
  | .indirectPacket .. | .predicatePacket .. | .loopPacket .. | .fetchFencePacket .. | .packetComplete ..
  | .matrixBatchComplete .. | .copyComplete .. | .engineTransferFault .. | .ccolComplete .. | .stcovPerform ..
  | .trellisGrant .. | .vopenReexecute .. | .gleanerReconstruct .. | .rateTick .. | .clockStretch ..
  | .opDecision .. | .opMoveComplete .. | .regulatorLimitMove .. | .laneDecision .. | .migrationDecision ..
  | .pageMigration .. | .migrationAck .. | .poolRefill .. | .stage2FaultResolve .. | .tenancyReset ..
  | .tenancyFreeze .. | .logReplay .. | .errorDetected .. | .scrubRow .. | .linkFlitResend .. | .d2dLinkFailure ..
  | .ccolChunkResend .. | .coreLoss .. | .regulatorPhaseFailure .. | .warmReset | .coldBoot .. | .port0Training
  | .frameRead .. | .frameWrite .. | .frameAtomic .. | .frameResp .. | .frameNote .. | .frameCcol ..
  | .mgmtRegRead .. | .mgmtRegWrite .. | .mgmtMemWrite .. | .createQueue .. | .restartq .. | .loadKey ..
  | .registerPeer .. | .registerCommunicator .. | .publishCosts .. | .dumpRequest .. | .wbrset .. | .debugStop ..
  | .debugResume .. | .debugStep .. | .traceSyncPoint .. | .traceLossWrite .. | .stallSample ..
  | .notificationSend .. | .matrixOperationComplete .. | .clockStretchEnd .. | .laneChangeComplete ..
  | .transportLossReport .. => []

/-- Rows of the table that are instructions, that is, have words. -/
def Instr.encoded (i : Instr) : Bool := !(encode i).isEmpty

/-! ### Reading the fields of a word that some row may own -/

def opcOf (w : Nat) : Nat := w / 0x2000000 % 128

/-- Class INT, OPC 0x01 to 0x19. -/
def decodeInt (w : Nat) : Option Instr :=
  let d := fld w 19 6; let a := fld w 13 6; let b := fld w 7 6; let cc := fld w 4 3
  let ci := fld w 10 3; let imm : BitVec 10 := fld w 0 10
  let op := num w 2 2
  let it (f : IT → Instr) : Option Instr := (IT.ofCode (num w 0 2)).map f
  let bt (f : BT → Instr) : Option Instr := (BT.ofCode (num w 0 2)).map f
  match opcOf w with
  | 0x01 => it (.iadd d a b cc)
  | 0x02 => it (.isub d a b cc)
  | 0x03 => it (.imul d a b cc)
  | 0x04 => it (.imulh d a b cc)
  | 0x05 => it (.imac d a b cc)
  | 0x06 => match op with | 0 => it (.idiv d a b cc) | 1 => it (.irem d a b cc) | _ => none
  | 0x07 => match op with | 0 => it (.imin d a b cc) | 1 => it (.imax d a b cc) | _ => none
  | 0x08 => it (.iadds d a b cc)
  | 0x09 => bt (.iaddc d a b cc)
  | 0x0A => match num w 0 4 with
    | 0 => some (.inegB64 d a cc) | 1 => some (.iabsB64 d a cc) | 2 => some (.notB64 d a cc)
    | 3 => some (.popcB64 d a cc) | 4 => some (.clzB64 d a cc) | 5 => some (.ctzB64 d a cc)
    | 6 => some (.brevB64 d a cc) | 7 => some (.bswapB64 d a cc) | 8 => some (.movB64 d a cc) | _ => none
  | 0x0B => match num w 0 4 with
    | 0 => some (.inegB32 d a cc) | 1 => some (.iabsB32 d a cc) | 2 => some (.notB32 d a cc)
    | 3 => some (.popcB32 d a cc) | 4 => some (.clzB32 d a cc) | 5 => some (.ctzB32 d a cc)
    | 6 => some (.brevB32 d a cc) | 7 => some (.bswapB32 d a cc) | _ => none
  | 0x0C => match op with
    | 0 => bt (.shl d a b cc) | 1 => bt (.shr d a b cc) | 2 => bt (.sar d a b cc) | 3 => bt (.rot d a b cc) | _ => none
  | 0x0D => match op with
    | 0 => bt (.andb d a b cc) | 1 => bt (.orb d a b cc) | 2 => bt (.xorb d a b cc) | 3 => bt (.andn d a b cc)
    | _ => none
  | 0x0E => it (.bfx d a b cc)
  | 0x0F => bt (.bfi d a b cc)
  | 0x10 => (IRel.ofCode (num w 0 3)).map (.icmp d a b cc (if num w 3 1 = 1 then .b32 else .b64))
  | 0x11 => some (.sel d a b cc (fld w 0 3))
  | 0x12 => some (.lea d a b cc (fld w 0 4))
  | 0x13 => some (.movi d ci (BitVec.ofNat 16 (num w 13 6 * 1024 + num w 0 10)))
  | 0x14 => some (.movhi d ci (BitVec.ofNat 16 (num w 13 6 * 1024 + num w 0 10)))
  | 0x15 => some (.iaddi d a ci imm)
  | 0x16 => some (.andi d a ci imm)
  | 0x17 => some (.ori d a ci imm)
  | 0x18 => some (.xori d a ci imm)
  | 0x19 => some (.shli d a ci (fld w 0 6))
  | _ => none

/-- Class INT, OPC 0x20 to 0x29. -/
def decodeShape (w : Nat) : Option Instr :=
  let d := fld w 19 6; let a := fld w 13 6; let b := fld w 7 6; let cc := fld w 4 3
  let ci := fld w 10 3; let imm : BitVec 10 := fld w 0 10
  let kd : KR := fld w 19 3; let ka : KR := fld w 13 3; let kb : KR := fld w 7 3
  let it (f : IT → Instr) : Option Instr := (IT.ofCode (num w 0 2)).map f
  match opcOf w with
  | 0x20 => match num w 0 4 with
    | 0 => some (.unif d a cc) | 1 => some (.matz d a cc) | 2 => some (.affine d a b cc)
    | 3 => some (.shape d a cc) | _ => none
  | 0x21 => match num w 0 4 with
    | 0 => some (.mand kd ka kb) | 1 => some (.mor kd ka kb) | 2 => some (.mxor kd ka kb)
    | 3 => some (.mandn kd ka kb) | 4 => some (.mnot kd ka) | _ => none
  | 0x22 => match num w 0 4 with
    | 0 => some (.mpopc d ka cc) | 1 => some (.mfirst d ka cc) | 2 => some (.mfrom kd a)
    | 3 => some (.mto d ka cc) | 4 => some (.ballot d a cc) | _ => none
  | 0x23 => match num w 0 4 with
    | 0 => some (.exget kd) | 1 => some (.exset ka) | 2 => some (.mset kd a) | _ => none
  | 0x24 => some (.xlane d a b cc)
  | 0x25 => some (.xbfly d a ci imm)
  | 0x26 => some (.xshift d a ci imm)
  | 0x27 => some (.xbcast d a ci imm)
  | 0x28 => match num w 2 2 with
    | 0 => it (.scanadd d a cc false) | 1 => it (.scanadd d a cc true) | _ => none
  | 0x29 => match num w 2 2 with
    | 0 => it (.greduceAdd d a cc) | 1 => it (.greduceMin d a cc) | 2 => it (.greduceMax d a cc) | _ => none
  | _ => none

/-- Class FLT, OPC 0x2C to 0x41; w2 is the second word of cvt. -/
def decodeFlt (w w2 : Nat) : Option Instr :=
  let d := fld w 19 6; let a := fld w 13 6; let b := fld w 7 6; let cc := fld w 4 3
  let op := num w 2 2
  let ft (f : FT → Instr) : Option Instr := (FT.ofCode (num w 0 2)).map f
  let rf (f : RM → FT → Instr) : Option Instr := (RM.ofCode op).bind fun rm => ft (f rm)
  let bf := num w 0 1 == 1
  match opcOf w with
  | 0x2C => rf (.fadd d a b cc)
  | 0x2D => rf (.fsub d a b cc)
  | 0x2E => rf (.fmul d a b cc)
  | 0x2F => rf (.fma d a b cc)
  | 0x30 => rf (.fms d a b cc)
  | 0x31 => rf (.fnma d a b cc)
  | 0x32 => match op with
    | 0 => ft (.fmin d a b cc) | 1 => ft (.fmax d a b cc) | 2 => ft (.fminm d a b cc) | 3 => ft (.fmaxm d a b cc)
    | _ => none
  | 0x33 => match op with
    | 0 => ft (.fabs d a cc) | 1 => ft (.fneg d a cc) | 2 => ft (.fcopysign d a b cc) | _ => none
  | 0x34 => (FRel.ofCode op).bind fun r => ft (.fcmp d a b cc r)
  | 0x35 => ft (.fclass d a cc)
  | 0x36 => rf (.frcp d a cc)
  | 0x37 => rf (.frsq d a cc)
  | 0x38 => rf (.fsqrt d a cc)
  | 0x39 => rf (.fdiv d a b cc)
  | 0x3A => match op with
    | 0 => ft (.fexp2 d a cc) | 1 => ft (.flog2 d a cc) | 2 => ft (.fsin d a cc) | 3 => ft (.fcos d a cc) | _ => none
  | 0x3B => rf (.frnd d a cc)
  | 0x3C => ft (.ffrac d a cc)
  | 0x3D => rf (.fscaleb d a b cc)
  | 0x3E =>
    (RM.ofCode (num w2 16 2)).bind fun rm => (CT.ofCode (num w2 8 5)).bind fun ct =>
      (CT.ofCode (num w2 0 5)).map (.cvt (fld w 14 6) (fld w 8 6) (fld w 5 3) (num w2 18 1 == 1) rm ct)
  | 0x3F => match num w 0 4 with
    | 0 => some (.packF16x2 d a b cc) | 1 => some (.packBf16x2 d a b cc) | 2 => some (.unpackLoF16x2 d a cc)
    | 3 => some (.unpackHiF16x2 d a cc) | 4 => some (.unpackLoBf16x2 d a cc) | 5 => some (.unpackHiBf16x2 d a cc)
    | _ => none
  | 0x40 => ft (.ordkey d a b cc (num w 3 1 == 1))
  | 0x41 => match op with
    | 0 => some (.packedFadd d a b cc bf) | 1 => some (.packedFsub d a b cc bf)
    | 2 => some (.packedFmul d a b cc bf) | 3 => some (.packedFma d a b cc bf) | _ => none
  | _ => none

/-- Class MEM, OPC 0x48 to 0x5B. -/
def decodeMem (w w2 : Nat) : Option Instr :=
  let d := fld w 19 6; let a := fld w 13 6; let cc := fld w 4 3; let cm := fld w 10 3
  let off : BitVec 5 := fld w 0 5
  let ld (f : Option Scp → BitVec 5 → Instr) : Option Instr := (accOf 1 (num w 8 2) (num w 5 3)).map fun q => f q off
  let st (f : Option Scp → BitVec 5 → Instr) : Option Instr := (accOf 2 (num w 8 2) (num w 5 3)).map fun q => f q off
  let ld' := fld w 14 6; let la := fld w 8 6; let lc := fld w 5 3
  let b2 := fld w2 26 6
  let at' (f : Ord → Scp → AT → Instr) : Option Instr :=
    (Ord.ofCode (num w2 18 2)).bind fun o => (Scp.ofCode (num w2 15 3)).bind fun p =>
      (AT.ofCode (num w2 12 3)).map (f o p)
  match opcOf w with
  | 0x48 => ld (.ldN8 d a cm)
  | 0x49 => ld (.ldN16 d a cm)
  | 0x4A => ld (.ldN32 d a cm)
  | 0x4B => ld (.ldN64 d a cm)
  | 0x4C => ld (.ldS8 d a cm)
  | 0x4D => ld (.ldS16 d a cm)
  | 0x4E => ld (.ldS32 d a cm)
  | 0x4F => st (.stB8 d a)
  | 0x50 => st (.stB16 d a)
  | 0x51 => st (.stB32 d a)
  | 0x52 => st (.stB64 d a)
  | 0x53 => ld (.lduN64 d a cm)
  | 0x54 => some (.ldlit ld' lc (num w 20 1 == 1) (fld w2 0 32))
  | 0x55 => some (.ldv d a (fld w 7 4) cc (num w 0 1 == 1))
  | 0x56 => some (.stv d a (fld w 7 4))
  | 0x57 => match num w 20 5 with
    | 0 => at' (.atomAdd ld' la b2 lc) | 1 => at' (.atomAnd ld' la b2 lc) | 2 => at' (.atomOr ld' la b2 lc)
    | 3 => at' (.atomXor ld' la b2 lc) | 4 => at' (.atomMin ld' la b2 lc) | 5 => at' (.atomMax ld' la b2 lc)
    | 6 => at' (.atomExch ld' la b2 lc) | 7 => at' (.atomCas ld' la b2 (fld w2 20 6) lc)
    | 8 => at' (.atomFadd ld' la b2 lc) | _ => none
  | 0x58 => match num w 20 5 with
    | 0 => at' (.atomnAdd la b2) | 1 => at' (.atomnAnd la b2) | 2 => at' (.atomnOr la b2)
    | 3 => at' (.atomnXor la b2) | 4 => at' (.atomnMin la b2) | 5 => at' (.atomnMax la b2)
    | 8 => at' (.atomnFadd la b2) | _ => none
  | 0x59 => (WRel.ofCode (num w 20 5)).bind fun r =>
      (accOf 1 (num w2 18 2) (num w2 15 3)).map fun q => .waitv r la b2 q (num w2 13 1 == 1)
  | 0x5A => some (.stspill d a)
  | 0x5B => some (.ldspill d a)
  | _ => none

/-- Class CTL and nop, OPC 0x5C to 0x65. -/
def decodeCtl (w : Nat) : Option Instr :=
  let k : BitVec 3 := fld w 19 3; let t : BitVec 19 := fld w 0 19
  match opcOf w with
  | 0x5C => match num w 22 3 with | 0 => some (.br t) | 1 => some (.brNz k t) | 2 => some (.brZ k t) | _ => none
  | 0x5D => match num w 22 3 with
    | 0 => some (.brcAny k t) | 1 => some (.brcAll k t) | 2 => some (.brcNone k t) | _ => none
  | 0x5E => some (.brz t)
  | 0x5F => some (.call t)
  | 0x60 => some .ret
  | 0x61 => some (.jmpi (fld w 13 6))
  | 0x62 => some .regang
  | 0x63 => some .yield
  | 0x64 => some .exit
  | 0x65 => some .nop
  | _ => none

/-- Class SYS and tret, OPC 0x68 to 0x76. -/
def decodeSys (w : Nat) : Option Instr :=
  let id : BitVec 4 := fld w 16 4; let r := fld w 14 6; let a := fld w 8 6; let cc := fld w 5 3
  match opcOf w with
  | 0x68 => some (.bar id)
  | 0x69 => match num w 20 5 with | 1 => some (.arriveTeam id) | 2 => some (.arriveClu id) | _ => none
  | 0x6A => match num w 20 5 with | 1 => some (.waitbTeam id) | 2 => some (.waitbClu id) | _ => none
  | 0x6B => some (.waitf (fld w 8 12))
  | 0x6C => (Ctr.ofCode (num w 18 2)).map fun ct => .waitc ct (fld w 12 6)
  | 0x6D => (FOrd.ofCode (num w 18 2)).bind fun o => (Scp.ofCode (num w 15 3)).map (.fence o)
  | 0x6E => match num w 20 5 with | 0 => some .rfence | 1 => some .ifence | _ => none
  | 0x6F => (Scp.ofCode (num w 11 3)).map (.sigdec r)
  | 0x70 => match num w 20 5 with
    | 0 => some (.trap (fld w 0 16)) | 1 => some .tret | 2 => some (.bkpt (fld w 0 16))
    | 3 => some (.trmark r (fld w 0 8)) | _ => none
  | 0x71 => match num w 20 5 with | 0 => some (.rdsr r (fld w 8 6) cc) | 1 => some (.wrsr r (fld w 8 6)) | _ => none
  | 0x72 => match num w 20 5 with | 0 => some (.grow (fld w 17 3)) | 1 => some (.shrink (fld w 17 3)) | _ => none
  | 0x73 => some (.enq r a cc)
  | 0x74 => match num w 20 5 with | 0 => some (.tlbi r (num w 13 1 == 1)) | 1 => some .tlbsync | _ => none
  | 0x75 => some (.poolget r cc)
  | 0x76 => match num w 20 5 with | 0 => some (.setratel a) | 1 => some (.rdcost r a cc) | _ => none
  | _ => none

/-- Classes MAT and ENG, OPC 0x78 to 0x7B. -/
def decodeEng (w w2 : Nat) : Option Instr :=
  let d := fld w 14 6; let a := fld w 8 6; let cc := fld w 5 3
  let ra := fld w 14 6; let rb := fld w 8 6; let t : TR := fld w 5 3
  let z := num w 4 1 == 1
  let mq : BitVec 4 := fld w2 28 4; let ks : BitVec 8 := fld w2 20 8; let p : BitVec 2 := fld w2 18 2
  let pl : BitVec 5 := fld w2 13 5
  let wr : WR := fld w 16 4
  let rm (f : RM → Instr) : Option Instr := (RM.ofCode (num w2 16 2)).map f
  let red (f : Red → Instr) : Option Instr := (Red.ofCode (num w2 20 3)).map f
  let sat := num w2 18 1 == 1
  match opcOf w with
  | 0x78 => match num w 20 5 with
    | 0 => some (.mma ra rb t z mq ks p pl (num w2 12 1 == 1) (fld w2 6 6) (fld w2 0 6))
    | 1 => some (.mmag ra rb t z mq ks p pl (fld w2 6 6))
    | 2 => (Eng.ofCode (num w2 16 2)).bind fun e => (CT.ofCode (num w2 11 5)).map fun f =>
        .mms d a (fld w2 26 6) cc e f (fld w2 8 3) (fld w2 5 3) (fld w2 2 3)
    | _ => none
  | 0x79 => match num w 20 5 with
    | 0 => some (.mzero (fld w 17 3))
    | 1 => some (.mlda ra t (fld w2 25 7) (fld w2 17 8))
    | 2 => some (.msta ra t (fld w2 25 7) (fld w2 17 8) (num w2 16 1 == 1))
    | 3 => some (.mrow d cc (fld w2 29 3) (fld w2 22 7) (fld w2 14 8))
    | 4 => some .mfence
    | _ => none
  | 0x7A => match num w 20 5 with
    | 0 => rm (.copy ra rb (num w 7 1 == 1) sat)
    | 1 => rm (.copyg ra rb (fld w2 26 6) sat)
    | 2 => match num w2 23 3 with
      | 0 => red (.ccolAllreduce ra rb (fld w2 26 6))
      | 1 => red (.ccolRedscat ra rb (fld w2 26 6))
      | 2 => some (.ccolAllgather ra rb (fld w2 26 6))
      | 3 => some (.ccolBcast ra rb (fld w2 26 6))
      | 4 => some (.ccolAlltoall ra rb (fld w2 26 6))
      | _ => none
    | _ => none
  | 0x7B => match num w 20 5 with
    | 0 => some (.vopen wr a)
    | 1 => some (.vretire wr)
    | 2 => some (.vinfo d (fld w 8 4) cc (fld w2 0 3))
    | 3 => some (.vaddr d a (fld w2 0 4) cc)
    | 4 => some (.stcov d)
    | 5 => some (.cvstat d cc (fld w2 0 3))
    | _ => none
  | _ => none

/-- Tool-reserved, OPC 0x7C to 0x7E. -/
def decodeTool (w : Nat) : Option Instr :=
  match opcOf w with
  | 0x7C => some (.toolx (fld w 0 25))
  | 0x7D => some .trampret
  | 0x7E => some (.tramp (fld w 0 25))
  | _ => none

/-- The row that owns the OPC, SUB and codes of a word, with the row's fields read from it. -/
def decodeFields (w w2 : Nat) : Option Instr :=
  if opcOf w < 0x20 then decodeInt w
  else if opcOf w < 0x2C then decodeShape w
  else if opcOf w < 0x48 then decodeFlt w w2
  else if opcOf w < 0x5C then decodeMem w w2
  else if opcOf w < 0x68 then decodeCtl w
  else if opcOf w < 0x78 then decodeSys w
  else if opcOf w < 0x7C then decodeEng w w2
  else decodeTool w

/-! ### The decoder -/

/-- OPCs that no row assigns, 0x00 and 0x7F among them (R105). -/
def opcAssigned (o : Nat) : Bool :=
  (0x01 ≤ o && o ≤ 0x19) || (0x20 ≤ o && o ≤ 0x29) || (0x2C ≤ o && o ≤ 0x41) || (0x48 ≤ o && o ≤ 0x65) ||
  (0x68 ≤ o && o ≤ 0x76) || (0x78 ≤ o && o ≤ 0x7E)

/-- The OPCs of format L: cvt, ldlit, atom, atomn, waitv and the engine instructions (R105). -/
def opcLong (o : Nat) : Bool :=
  o == 0x3E || o == 0x54 || o == 0x57 || o == 0x58 || o == 0x59 || (0x78 ≤ o && o ≤ 0x7B)

/-- Why a word has no instruction; each is an ILLOP row of R107. -/
inductive DecodeError where
  /-- OPC 0x00, 0x7F or unassigned -/
  | opcode
  /-- the first word of a long instruction is the last word of its clause -/
  | straddle
  /-- an unassigned SUB, COND, SCP, ORD, TY or type code -/
  | field
  /-- a field outside the row's limits -/
  | limit
  /-- a must-be-zero bit, an unused register field or a forbidden CC is set -/
  | notZero
  /-- fewer than four bytes -/
  | short
  deriving DecidableEq, Repr

/-- What a word decodes to. -/
inductive Decoded where
  | ok (i : Instr)
  | bad (why : DecodeError)
  deriving DecidableEq, Repr

/-- Decoding of a word and, for a long instruction, the word after it in the clause (R101 to R107). A word whose
re-encoding differs from it has a bit set that no field of its row names. -/
def decodeWords (w : Nat) (w2 : Option Nat) : Decoded :=
  if !opcAssigned (opcOf w) then .bad .opcode
  else if opcLong (opcOf w) && w2.isNone then .bad .straddle
  else
    match decodeFields w (w2.getD 0) with
    | none => .bad .field
    | some i =>
      if !wellFormed i then .bad .limit
      else if encode i == (if opcLong (opcOf w) then [w, w2.getD 0] else [w]) then .ok i
      else .bad .notZero

/-- Four bytes of a word, little-endian (R2, R101). -/
def wordOfBytes (b0 b1 b2 b3 : Byte) : Nat :=
  b0.toNat + b1.toNat * 0x100 + b2.toNat * 0x10000 + b3.toNat * 0x1000000

/-- Decoding of bytes as memory holds them: what its first word (or two) means, and the bytes after it. -/
def decode : List Byte → Decoded × List Byte
  | b0 :: b1 :: b2 :: b3 :: rest =>
    let w := wordOfBytes b0 b1 b2 b3
    match rest with
    | c0 :: c1 :: c2 :: c3 :: rest' =>
      (decodeWords w (some (wordOfBytes c0 c1 c2 c3)), if opcLong (opcOf w) then rest' else rest)
    | _ => (decodeWords w none, rest)
  | bytes => (.bad .short, bytes)

/-- The four bytes of a word, lowest address first. -/
def bytesOfWord (w : Nat) : List Byte :=
  [BitVec.ofNat 8 w, BitVec.ofNat 8 (w / 0x100), BitVec.ofNat 8 (w / 0x10000), BitVec.ofNat 8 (w / 0x1000000)]

/-- The bytes of an instruction whose bits are `w`, first word first; bits above `nbits` are zero. -/
def tableBytes (nbits w : Nat) : List Byte :=
  let v := w % 2 ^ nbits
  bytesOfWord (v % 0x100000000) ++ bytesOfWord (v / 0x100000000 % 0x100000000)

/-- The instruction this decoder reads from an instruction whose bits are `w`. -/
def decodeTableWord (nbits w : Nat) : Option Instr :=
  match (decode (tableBytes nbits w)).1 with
  | .ok i => some i
  | .bad _ => none

end Sys2Proof
end

