-- ==== Sys2Proof/Config.lean ====
section
/-! DEFINITION. What the spec leaves open and the model does not choose: free values without a body, and the figures of
the signed configuration image that the spec does not print. -/

namespace Sys2Proof.Config

/-- Entry [row * 256 + col] of an accumulator tile at team start, whose contents are unspecified (R53).
DESIGN CHOICE (log entry 12). -/
opaque freeTile : Nat → Nat → BitVec 32
/-- A byte read under a key other than the one that wrote it (R311); the arguments are the key's number, the address
and the stored byte. DESIGN CHOICE (log entry 13). -/
opaque freeDecrypt : Nat → Nat → BitVec 8 → BitVec 8
/-- A byte of a copy whose source and destination overlap (R200), by the model's counter and the address.
DESIGN CHOICE (log entry 4). DESIGN CHOICE (log entry 14). -/
opaque freeByte : Nat → Nat → BitVec 8
/-- A byte of a coverage output that was written by other means before the launch completed (R209). -/
opaque freeOut : Nat → Nat → BitVec 8
/-- CYC of the mms table, by engine (0 ARR, 1 VEC), type code, m, n and k (R233), where the spec prints no figure.
DESIGN CHOICE (log entry 10). -/
opaque mmsCyc : Nat → Nat → Nat → Nat → Nat → Nat
/-- ENJ of the mms table in Q16.16 nJ, by engine, type code, m, n, k and operating point (R233), where the spec prints
no figure. -/
opaque mmsEnj : Nat → Nat → Nat → Nat → Nat → Nat → Nat
/-- CODE of an ENGFAULT report for an engine transfer that met poison (0) or, in mma and mmag, a tile outside Silo (1):
R192 and R194 give no number. DESIGN CHOICE (log entry 11). -/
opaque engCode : Nat → BitVec 32
/-- The SUB code under which a sigdec travels to another part, which R340 does not give. DESIGN CHOICE (log entry 15). -/
opaque sigdecSub : BitVec 4
/-- The hash of a part index and the offset's bits 41:12 that picks a message's port (R343); the model takes it modulo 16.
DESIGN CHOICE (log entry 16). -/
opaque portHash : Nat → Nat → Nat
/-- The number of the 4 KiB page from which a tenancy's software maps its Silo granules (R66, R280).
DESIGN CHOICE (log entry 9). -/
opaque siloPage : Nat → BitVec 43
/-- The VA at which a tenancy's software maps its Silo granules, from which SILOB and PEERB count: a page's, with bits 63:55 zero,
so that a mapping can serve it (R66, R302). -/
def siloVa (ten : Nat) : BitVec 64 := BitVec.ofNat 64 ((siloPage ten).toNat * 4096)
/-- f(k) in MHz of operating point k (R13). DESIGN CHOICE (log entry 10). -/
def coreMhz (op : Nat) : Nat := [800, 1000, 1200, 1400, 1600, 1800, 2000, 2200].getD op 0
/-- e(k) of the core descriptor in Q16.16 nJ per active cycle (R233). DESIGN CHOICE (log entry 10). -/
opaque coreE : Nat → Nat
/-- The current ceiling in mA of a domain for a Pcap in W: the apportionment in the configuration image (R237).
DESIGN CHOICE (log entry 91). -/
opaque ceiling : Nat → Nat → Nat
/-- The current in mA that a domain needs to hold an operating point, or for a domain that is no core's its minimum at 0
(R344). DESIGN CHOICE (log entry 91). -/
opaque domCurrent : Nat → Nat → Nat
/-- Where management reads and writes the registers of stopped paths (R334), which the spec leaves open: group key, KIND and ITEM of
an entry of R335, and offset, by address. DESIGN CHOICE (log entry 36). -/
opaque imageWindow : Nat → Option (Nat × Nat × Nat × Nat)
/-- s(k) of the core descriptor in Q16.16 W (R233). DESIGN CHOICE (log entry 10). -/
opaque coreS : Nat → Nat
/-- The package power in mW over a tick, where no event brings a measurement (R229). DESIGN CHOICE (log entry 18). -/
opaque power : Nat → Nat

end Sys2Proof.Config
end

