-- ==== Sys2Proof/Machine/State.lean ====
section
/-! DEFINITION. The state of a Fyger 9 as plain data, its state after reset, and the reasons a step can stop. Rule
numbers name the rules of spec/ that give each piece. -/

namespace Sys2Proof.Machine

/-! ### Reasons to stop -/

/-- Why the machine stops with a fault. DESIGN CHOICE (log entry 76). -/
inductive Fault where
  /-- Raised by a meaning when no gang is resident at the group and path that `State.cur` and `State.path` name: an
  instruction has no gang to run for. Safe: the hardware never issues an instruction without a gang. -/
  | noGang
  deriving DecidableEq, Repr

/-- Why an instruction has no meaning. -/
inductive Refusal where
  /-- Raised by an arm of `exec` whose instruction is not modelled. Safe. -/
  | notModelled (mnemonic : String)
  deriving DecidableEq, Repr

/-! ### Registers (R51 to R68) -/

/-- A register's value under its shape tag (R54). -/
inductive Shape where
  | uni (u : Word)
  | aff (b st : Word)
  | gen (vals : List Word)
  | dead
  deriving DecidableEq, Repr

/-- A vector register: its value and the nibble of slice s in bits 4s+3:4s (R60, R68). -/
structure VReg where
  val : Shape
  nib : BitVec 64
  deriving DecidableEq, Repr

/-- Privilege levels of group code (R299); root is the host. -/
inductive Level where | user | supervisor | firmware
  deriving DecidableEq, Repr

/-- The code in force for a gang: KBASE, KLEN and level (R175, R178). -/
structure Code where
  kbase : Word
  klen  : Nat
  level : Level
  deriving DecidableEq, Repr

/-- Where a gang stands: before the unit at a word offset, or inside the clause whose header word was fetched at
`hdr`, with `pc` the offset of the next word (R96, R178). -/
inductive Spot where
  | boundary (p : Nat)
  | inside (hdr : Nat) (h : IWord) (pc : Nat)
  deriving DecidableEq, Repr

/-- A trap that a gang has taken and that waits for its entry (R176, R177, R179). -/
structure TrapRec where
  cause  : Nat
  hdrt   : Bool
  next   : Bool
  defer  : Bool
  hdr    : Nat
  word   : Nat
  code   : Nat
  lanes  : Mask
  fault  : Mask
  done   : Mask
  addr   : Word
  opword : Nat
  /-- the handler is the kernel's SPHAND clause (R90) -/
  spill  : Bool
  /-- a held stcov or copy report: the operation whose writes are performed after tret (R192, R209) -/
  redoOp : Option Nat
  deriving DecidableEq, Repr

/-- Parks of R33; a stop of a path is `Path.stopped`. -/
inductive Park where
  /-- waitv: its place in group order, lanes seen to hold, the addresses and comparands of its first issue by lane, and the
  instruction's relation, width and ordering (R161, R240, R348) -/
  | waitv (id : Nat) (sat : Mask) (addrs cmps : List Word) (r : WRel) (w64 : Bool) (acq : Option Scp)
  /-- waitb, or bar after its arrival, until generation `gen` is complete (R169) -/
  | barrier (clu : Bool) (id gen : Nat)
  /-- an early arrival, until generation `gen` is complete (R169) -/
  | early (clu : Bool) (id gen : Nat)
  | waitf (flags : BitVec 12)
  | waitc (cls : Ctr) (thr : Nat)
  /-- absent Silo lines, by line number (R152) -/
  | line (lines : List Nat)
  /-- vopen on a full shard, with the homes its box touches, its place in the order of parks (R205, R294) and its fields -/
  | vopen (homes : List Nat) (order : Nat) (w : WR) (a : VR)
  | regang
  /-- a trap held behind another gang's handler, or behind pending writes of v0 to v3 (R176, R179) -/
  | heldTrap
  /-- a stage-2 fault, or a trap entry that met one (R304, R179) -/
  | stage2 (va : Word)
  deriving DecidableEq, Repr

/-- A stop of a path by a debugger (R334): none, requested at the next boundary, stopped, or running one unit. -/
inductive Stop where | none | atNext | stopped | stepping
  deriving DecidableEq, Repr

/-- A gang: one entry of the path table (R19). -/
structure Path where
  /-- slice s in bit s -/
  slices  : BitVec 16
  /-- the lane mask: EXEC of the gang's slices (R17, R19) -/
  exec    : Mask
  spot    : Spot
  code    : Code
  park    : Option Park
  trap    : Option TrapRec
  /-- a re-execution after tret: the faulting lanes it runs for (R178) -/
  only    : Option Mask
  /-- operand reads are quiet: a re-execution (R64, R65, R348) -/
  quiet   : Bool
  /-- FPINV is suppressed: the re-execution after an FPINV trap (R135) -/
  noinv   : Bool
  /-- the next serial number at the first attempt of a fence, tlbsync or structure read (R172, R173) -/
  since   : Option Nat
  /-- flags that a later operation of the gang's clause will join, with the word offset of the last such operation (R52) -/
  owes    : List (Nat × Nat)
  /-- the gang has arrived in the current generation: team barriers in bits 15:0, cluster barriers in 31:16 -/
  arrived : BitVec 32
  stop    : Stop
  /-- WATCHDOG is raised at the gang's next unit boundary (R287) -/
  wdog    : Bool
  /-- it has reached its eligible point under a pre-emption, and issues nothing further (R34) -/
  latched : Bool
  deriving DecidableEq, Repr

/-- Handler mode of a group (R176 to R179): what the part keeps of the interrupted gang. -/
structure Handler where
  path   : Nat
  fb     : Word
  trap   : TrapRec
  code   : Code
  spot   : Spot
  slices : BitVec 16
  /-- return-stack depth of each slice at entry -/
  depths : List Nat
  /-- poison marks of v0 to v3 at entry (R317) -/
  marks  : Tbl Mask
  /-- the path index at entry (R35), and the flags that the interrupted clause still owes (R52) -/
  entry  : Nat
  owes   : List (Nat × Nat)
  deriving DecidableEq, Repr

/-! ### Records that engines read (R91, R92, R203) -/

/-- A shape record as read at issue (R91). -/
structure Rec where
  base    : Word
  fmt     : CT
  layout  : Nat
  planes  : Nat
  rows    : Nat
  cols    : Nat
  rstride : Int
  pstride : Int
  tiler   : Nat
  tilec   : Nat
  deriving DecidableEq, Repr

/-- A view descriptor body (R92). -/
structure ViewDesc where
  base  : Word
  esize : Nat
  rank  : Nat
  /-- 1 RD, 2 WR, 3 RW -/
  mode  : Nat
  ext   : List Nat
  str   : List Int
  deriving DecidableEq, Repr

/-- The ticket of a view, compared in this order (R266). -/
structure Ticket where
  time  : Nat
  core  : Nat
  gslot : Nat
  deriving DecidableEq, Repr

/-- An open view register, or a registered view. -/
structure OpenView where
  desc   : ViewDesc
  ticket : Ticket
  homes  : List Nat
  deriving DecidableEq, Repr

/-! ### Pending operations (R149, R189) -/

/-- Atomic functions of R160. -/
inductive AFun where | add | and | or | xor | min | max | exch | cas | fadd | sigdec
  deriving DecidableEq, Repr

/-- What a translation gave an access (R302). -/
structure Xlate where
  /-- device PA -/
  pa    : Nat
  /-- device PAs of the stage-1 and stage-2 leaf PTEs, whose A and D bits the access sets (R263) -/
  leaf1 : Option Nat
  leaf2 : Option Nat
  nrc   : Bool
  sig   : Bool
  cnt   : Bool
  mp    : Bool
  /-- the virtual page that the translation covers (R184): first address and size -/
  vbase : Nat
  vsize : Nat
  /-- the address is domain-remote, be its home another part or this one (R343) -/
  dom   : Bool
  deriving DecidableEq, Repr

/-- One access of a pending MEM operation: a lane's, or one 8-byte word of a register image. -/
structure Acc where
  lane : Nat
  va   : Word
  size : Nat
  /-- value to store, or operand B of an atomic -/
  data : Word
  /-- operand C of an atomic -/
  cmp  : Word
  x    : Xlate
  /-- performed at its home -/
  done : Bool
  /-- the tag under which a remote access was sent (R340) -/
  sent : Option Nat
  /-- the value read -/
  res  : Word
  /-- cause of a deferred error, 0 for none (R156) -/
  err  : Nat
  /-- CODE of a deferred translation fault (R303) -/
  code : Nat
  deriving DecidableEq, Repr

/-- Where a copy writes. -/
inductive CopyDst where
  | record (r : Rec)
  | view (w : Nat) (v : OpenView)
  deriving DecidableEq, Repr

/-- A collective descriptor (R203). -/
structure CollDesc where
  cid   : Word
  nrank : Nat
  rank  : Nat
  root  : Nat
  deriving DecidableEq, Repr

/-- Collective operations with their reduction (R204). -/
inductive CollOp where
  | allreduce (r : Red) | redscat (r : Red) | allgather | bcast | alltoall
  deriving DecidableEq, Repr

/-- What a pending operation does. -/
inductive OpKind where
  /-- ld and ldv: one access a lane, sign-extended from 8n bits or zero-extended -/
  | load (n : Nat) (sx : Bool)
  /-- ldu: one access for every lane of the operation -/
  | loadu
  | store
  | atomic (f : AFun) (ty : AT)
  /-- stspill and ldspill: the image in 8-byte words (R162) -/
  | spill
  | unspill (r : Nat)
  /-- stcov: the captured values are the accesses' data (R209) -/
  | stcov (nib : Bool)
  /-- mma and mmag with the records, scales and gather entries read at issue (R195, R196) -/
  | mma (a b : Rec) (tile : Nat) (z : Bool) (m ks p pl : Nat) (scales : Option (List (BitVec 32) × List (BitVec 32)))
      (gather : Option (List (Nat × Nat)))
  /-- mms: the registers and bytes it will write, the MSTAT flags it will raise (R197), and the engine (R198) -/
  | mms (d : Nat) (bytes : List Byte) (flags : BitVec 3) (vec : Bool)
  | mzero (tile : Nat)
  | mlda (r : Rec) (tile roff coff : Nat)
  | msta (r : Rec) (tile roff coff : Nat) (sat : Bool)
  | mrow (tile row col : Nat)
  /-- copy and copyg: the replay record (R320) with the records' VAs and snapshots, the row list's VA and the number of
  4 KiB units performed, and the Silo lines it cleared -/
  | copy (srcVa dstVa : Word) (src : Rec) (dst : CopyDst) (list : Option Word) (sat : Bool) (rm : RM) (units : Nat) (cleared : List Nat)
  | ccol (o : CollOp) (c : CollDesc) (src dst : Rec) (seq : Nat)
  deriving DecidableEq, Repr

/-- Classes of the class counters; stcov counts in none. -/
inductive OpClass where | mem | mat | copy | coll | cov
  deriving DecidableEq, Repr

/-- A pending operation of a group; the list is in issue order. -/
structure POp where
  id     : Nat
  cls    : OpClass
  kind   : OpKind
  /-- word offset of the instruction (R156, R333) -/
  word   : Nat
  /-- KBASE at issue -/
  kbase  : Word
  level  : Level
  /-- slices and active lanes of the gang at issue -/
  slices : BitVec 16
  lanes  : Mask
  /-- the write was full at issue (R55, R176) -/
  full   : Bool
  /-- register to write and its CC -/
  dest   : Option (VR × CC)
  /-- further registers that the operation writes (mms) -/
  nregs  : Nat
  /-- the flag it set pending -/
  flag   : Option Nat
  accs   : List Acc
  ord    : Ord
  scp    : Scp
  /-- the view register it goes through -/
  view   : Option (Nat × OpenView)
  /-- number of the closed matrix batch, none while the batch is open (R190) -/
  batch  : Option Nat
  /-- completed, and still to leave its class counter in issue order (R171) -/
  done   : Bool
  /-- a transfer stopped by a fault until its report is taken (R192) -/
  halted : Bool
  /-- its poisoned units are to be written as poisoned: its POISON report has been taken (R192); for a stcov, its report has
  been taken and its held lanes' writes come before the reporting instruction (R209) -/
  okPoison : Bool
  /-- issued by a handler (R178) -/
  inHandler : Bool
  /-- pages whose translations a transfer under way has used: first address and size (R262) -/
  pages  : List (Nat × Nat)
  deriving DecidableEq, Repr

/-- A held report (R156, R192). -/
structure Report where
  op    : Nat
  cause : Nat
  code  : Nat
  addr  : Word
  word  : Nat
  lanes : Mask
  /-- registers of the operation's destination: first and count -/
  dest  : Option (Nat × Nat)
  flag  : Option Nat
  cls   : OpClass
  /-- number of the operation's closed batch (R190) -/
  batch : Option Nat
  /-- device PA of the poisoned granule, where the error has one (R316) -/
  pa    : Option Nat
  deriving DecidableEq, Repr

/-- A coverage lane's point (R32, R209). -/
structure CovPoint where
  x    : Nat
  y    : Nat
  z    : Nat
  audit : Bool
  /-- stcov has run for the lane -/
  wrote : Bool
  deriving DecidableEq, Repr

/-- A resident or saved group (R18, R51 to R53). -/
structure Group where
  team    : Nat
  gid     : Nat
  w       : Nat
  ten     : Nat
  regs    : Vector VReg 64
  masks   : Vector Mask 8
  /-- lanes that have not exited and that a coverage launch did not leave empty (R55) -/
  live    : Mask
  views   : Vector (Option OpenView) 16
  allot   : Nat
  budget  : Nat
  ratel   : BitVec 32
  mstat   : BitVec 3
  fstat   : BitVec 5
  fpinv   : Bool
  tvec    : Word
  tlink   : Vector Word 16
  rstack  : Vector (List Nat) 16
  paths   : Vector (Option Path) 16
  /-- path index that issued last (R22) -/
  last    : Nat
  ops     : List POp
  /-- numbers of closed batches that have not left CNTX, oldest first (R190) -/
  closed  : List Nat
  nbatch  : Nat
  reports : List Report
  /-- record cache: 64-byte lines by VA (R261) -/
  recs    : Tbl (List Byte)
  handler : Option Handler
  wcount  : Nat
  /-- by path index, the stall of the gang's last attempt, 0 for an issue, and its cycle (R328, R333) -/
  tried   : Tbl (Nat × Nat)
  /-- the gang that made the last counted issue (R287) -/
  wlast   : Nat
  /-- by barrier: one more than the serial number up to which the latest arrival's release covers accesses, 0 when no
  gang has arrived in the current generation (R169, R170) -/
  barAt   : Vector Nat 32
  points  : List (Option CovPoint)
  /-- registers whose lanes are marked poisoned (R317) -/
  rpoison : Tbl Mask
  deriving DecidableEq, Repr

/-! ### Teams, launches, queues (02, 03) -/

/-- A parsed kernel descriptor (R88). -/
structure KDesc where
  kbase   : Word
  klen    : Nat
  w       : Nat
  allot   : Nat
  budget  : Nat
  teamg   : Nat
  pair    : Bool
  fpinv   : Bool
  cluster : Nat
  acc     : Nat
  producer : Nat
  silo    : Nat
  spill   : Nat
  tbase   : Word
  trampn  : Nat
  arglen  : Nat
  sppool  : Word
  sppooln : Nat
  sphand  : Option Nat
  deriving DecidableEq, Repr

/-- An accumulator tile: its background (unspecified since a team start, or zero) and the elements written since.
DESIGN CHOICE (log entry 12). -/
structure Tile where
  /-- the number of an unspecified background, none after mzero -/
  back  : Option Nat
  cells : Tbl (BitVec 32)
  /-- poisoned rows (R317) -/
  poison : List Nat
  deriving DecidableEq, Repr

/-- State of a team's placement (R34, R293). -/
inductive TeamMode where
  | running
  /-- a pre-emption was requested at a TIME -/
  | asked (since : Nat)
  /-- saved; the TIME of the save -/
  | saved (time : Nat)
  deriving DecidableEq, Repr

structure Team where
  launch : Nat
  index  : Nat
  tx     : Nat
  ty     : Nat
  tz     : Nat
  clu    : Nat
  crank  : Nat
  /-- cores of its groups: one, or an even core and the next -/
  cores  : List Nat
  /-- group keys core * 32 + slot, by GID -/
  gkeys  : List Nat
  /-- device PA of the Silo window, and its bytes -/
  win    : Nat
  winLen : Nat
  spb    : Word
  spblk  : Nat
  /-- coverage block, linear index -/
  block  : Nat
  mode   : TeamMode
  /-- groups of a saved team, by GID (R293) -/
  saved  : List Group
  /-- tiles by (core ordinal * 8 + tile) -/
  tiles  : Vector Tile 16
  /-- generation of each team barrier -/
  bars   : Vector Nat 16
  /-- it has issued ccol or sigdec, or had an enq accepted (R322) -/
  effects : Bool
  redispatched : Nat
  /-- windows kept until the whole cluster has ended: the team has ended -/
  ended  : Bool
  deriving DecidableEq, Repr

/-- A cluster's shared state: its members and its barriers (R28, R169). DESIGN CHOICE (log entry 26). -/
structure Cluster where
  launch : Nat
  clu    : Nat
  teams  : List Nat
  bars   : Vector Nat 16
  deriving DecidableEq, Repr

/-- The coverage stream fields of a launch (R43, R208). -/
structure Cov where
  cvrec  : Word
  bx     : Nat
  by_    : Nat
  bz     : Nat
  chain  : Nat
  audit  : Nat
  rmode  : Nat
  otype  : CT
  out    : Word
  floor  : BitVec 32
  target : BitVec 32
  ratemin : BitVec 32
  level  : Nat
  lmax   : Nat
  /-- blocks whose teams have all ended (R210) -/
  finished : List Nat
  reconstructed : List Nat
  nkept  : Nat
  naudit : Nat
  nrecon : Nat
  /-- the largest audit error so far, f32 -/
  emax   : BitVec 32
  deriving DecidableEq, Repr

/-- The 128 bytes of a packet. -/
abbrev Packet := List Byte

/-- What a launch belongs to: a packet of a queue, or a child of a spawn tree (R30). -/
structure Launch where
  ten    : Nat
  queue  : Nat
  index  : Nat
  pkt    : Packet
  kdesc  : Option KDesc
  /-- 0 grid, 1 dependent, 2 coverage -/
  form   : Nat
  replay : Bool
  gx     : Nat
  gy     : Nat
  gz     : Nat
  tree   : Nat
  child  : Bool
  /-- teams placed so far in dispatch order; the total where it is known -/
  next   : Nat
  total  : Nat
  liveTeams : Nat
  /-- TIME its head first could not be placed, and the candidate's lowest core (R291) -/
  headSince : Option Nat
  headCore  : Option Nat
  aged   : Bool
  code   : Nat
  /-- the distributor has accepted it (R41) -/
  started : Bool
  /-- dispatched: every team has been placed -/
  finished : Bool
  /-- its last team has ended, and the tree has been told (R30) -/
  closed : Bool
  cov    : Option Cov
  /-- views opened for the next dependent team, waiting for grants (R31) -/
  pendViews : List OpenView
  /-- replacement teams to place before others (R322): index, times dispatched, and the team replaced -/
  redo   : List (Nat × Nat × Nat)
  /-- the view templates as read at the start (R43) -/
  templates : List (List Byte)
  /-- its place in the order of starts (R290) -/
  order  : Nat
  /-- what its waiting head has taken: core, slots, tiles and Silo bytes (R291) -/
  taken  : List (Nat × Nat × Nat × Nat)
  deriving DecidableEq, Repr

/-- A spawn tree (R30). -/
structure Tree where
  root    : Nat
  counter : Nat
  code    : Nat
  deriving DecidableEq, Repr

/-- A packet in flight: claimed by an agent, and started or not (R40, R41). -/
structure Flight where
  index   : Nat
  bytes   : Packet
  /-- the bytes as the agent read them from the ring (R45) -/
  orig    : Packet
  started : Bool
  finished : Bool
  /-- a loop's remaining repetitions -/
  loopLeft : Nat
  /-- the launch it started -/
  launch  : Option Nat
  /-- the index of the loop of whose body it is a repetition, run in the loop's place -/
  rep     : Option Nat
  /-- its launch has completed with this code, and its signal is still to be decremented (R46, R47) -/
  ending  : Option Nat
  /-- TIME of a barrier's next reading of its signals (R44) -/
  due     : Nat
  /-- the serial number at which its completion began: a release at dom or sys covers what was sent to other parts before it
  (R242, R245) -/
  relAt   : Option Nat
  deriving DecidableEq, Repr

structure Queue where
  desc    : QueueDesc
  rd      : Nat
  /-- WR as the scanner last saw it -/
  wr      : Nat
  interval : Nat
  due     : Nat
  halted  : Option Nat
  flights : List Flight
  /-- indices to complete unexecuted (R45) -/
  skips   : List Nat
  /-- the last 64 completed packets (R45) -/
  copies  : Tbl Packet
  /-- first index carried since creation or restart (R45) -/
  first   : Nat
  /-- next index to start (R41) -/
  nstart  : Nat
  /-- RESTARTQ messages waiting for started packets, the oldest first: sender, mode and new RD (R50) -/
  restart : List (Mgmt × Nat × Nat)
  /-- the TYPE byte at RD, or those that a restart discards, have been cleared, and RD is to move when that is done (R38) -/
  cleared : Bool
  /-- a poll is under way, and waits for its reads (R295) -/
  polling : Bool
  deriving DecidableEq, Repr

/-! ### Memory system, views, engines -/

/-- One entry of a die's last-level TLB: a walk's result for a page of a tenancy, or that the entry was invalid (R12,
R305). The front end has one of its own. -/
structure TlbEntry where
  die   : Nat
  ten   : Nat
  base  : Nat
  size  : Nat
  /-- CODE of a stage-1 fault, or 0 and the leaf -/
  code  : Nat
  x     : Xlate
  /-- permissions of the stage-1 leaf, then of the stage-2 leaf -/
  ex    : Bool
  wr    : Bool
  rd    : Bool
  usr   : Bool
  ex2   : Bool
  wr2   : Bool
  rd2   : Bool
  deriving DecidableEq, Repr

/-- A non-leaf entry that a walk has read (R305), of stage 1 or 2: the level whose table it names, the range of addresses it
covers and the table's address. -/
structure NonLeaf where
  die   : Nat
  ten   : Nat
  s2    : Bool
  level : Nat
  base  : Nat
  size  : Nat
  table : Nat
  deriving DecidableEq, Repr

/-- What a stage-2 walk finds: the output, its leaf PTE's PA, the entry and the page size, and whether the entry names a
domain-remote address. -/
structure S2Leaf where
  pa   : Nat
  leaf : Nat
  e    : Nat
  size : Nat
  dom  : Bool
  deriving DecidableEq, Repr

/-- A stage-2 entry of a page that a walk has read, of a table's or of an output's, or that it was invalid (R305). -/
structure S2Held where
  die  : Nat
  ten  : Nat
  /-- first intermediate address, and size -/
  base : Nat
  size : Nat
  leaf : Option S2Leaf
  deriving DecidableEq, Repr

/-- A tlbi on its way (R184): its group, tenancy, page or all, whether it has taken effect, and the next serial number
then. -/
structure Tlbi where
  id   : Nat
  group : Nat
  ten  : Nat
  page : Option Nat
  effect : Option Nat
  deriving DecidableEq, Repr

/-- A read-cache or instruction-cache line of a core: 64 bytes at a line number, as the key of the access that filled it
deciphers them (R311). -/
structure Line where
  core : Nat
  line : Nat
  key  : Nat
  bytes : List Byte
  deriving DecidableEq, Repr

/-- Heat of a 64 KiB page (R308). -/
structure Heat where
  count : BitVec 12
  q     : Bool
  deriving DecidableEq, Repr

/-- What a management message asks for (R341). -/
inductive MgmtReq where
  | regRead (addr : BitVec 64)
  | regWrite (addr val : BitVec 64)
  | memWrite (addr : BitVec 64) (data : List Byte)
  | createQueue (q : QueueDesc)
  | restartq (qn : Nat) (mode : RestartMode) (rd : Nat)
  | loadKey (ten : Nat) (key : BitVec 256)
  | registerPeer (ten part peer : Nat)
  | registerCommunicator (ten cid nrank : Nat)
  | publishCosts
  | tenancyReset (ten : Nat)
  | tenancyFreeze (ten target : Nat)
  | dumpRequest (team : Nat) (pa : BitVec 64)
  /-- an action that has ended, whose response is still to be sent with a status -/
  | answer (status : Nat)
  deriving DecidableEq, Repr

/-- An access message of another part that waits at its home: the tenancy that owns the page, the PA where it performs now,
and whether it has been acknowledged and logged by a stub (R201, R264, R314). -/
structure HeldFrame where
  ten   : Nat
  pa    : Nat
  acked : Bool
  frame : Frame
  deriving DecidableEq, Repr

/-- A page move in progress (R264): leaf PTE's PA, old and new page, size, and the step reached. -/
structure Move where
  ten   : Nat
  leaf  : Nat
  old   : Nat
  new   : Nat
  size  : Nat
  stepNo : Nat
  deriving DecidableEq, Repr

/-- A registered view in the Trellis (R205, R266 to R268). -/
structure Reg where
  ticket : Ticket
  desc   : ViewDesc
  homes  : List Nat
  /-- group key, none for the front end -/
  group  : Option Nat
  team   : Nat
  ten    : Nat
  /-- the view register, or the template index -/
  wreg   : Nat
  deriving DecidableEq, Repr

/-- A collective call that a rank of this part has issued, or whose data arrived (R204). -/
structure Call where
  ten   : Nat
  cid   : Word
  seq   : Nat
  rank  : Nat
  nrank : Nat
  o     : CollOp
  root  : Nat
  fmt   : CT
  srows : Nat
  scols : Nat
  drows : Nat
  /-- source elements by row-major index, as far as they are known here -/
  elems : Tbl Word
  poisoned : Bool
  /-- the call was aborted or mismatched -/
  failed : Bool
  deriving DecidableEq, Repr

/-! ### Schedulers, power, isolation, recovery, observation -/

structure Sched where
  /-- slot holding the turn -/
  turn   : Option Nat
  /-- issues of the turn (slot 31, R284) -/
  issues : Nat
  /-- slot whose turn ended last -/
  lastSlot : Nat
  /-- the last turn ended by a yield -/
  yielded : Bool
  credit : Vector Int 32
  /-- WDEXP of each tenancy, as of the last turn end (R286) -/
  wdexp  : Vector Nat 32
  deriving DecidableEq, Repr

/-- Weighbridge (R228 to R230). -/
structure Weigh where
  fix   : Bool
  gsel  : Nat
  ptgt  : Nat
  pcap  : Nat
  rmin  : Nat
  rmax  : Nat
  rset  : Option Nat
  cap   : Bool
  satlo : Bool
  sathi : Bool
  rate  : BitVec 32
  /-- ticks since boot; WBPWR shows it modulo 2^32 -/
  tick  : Nat
  pmw   : BitVec 32
  capn  : BitVec 32
  /-- a cap event in the tick under way -/
  capNow : Bool
  /-- consecutive ticks with SATHI, up to 64 (R230) -/
  run   : Nat
  /-- a computed rate waiting for its effective TIME (R228) -/
  pending : Option (BitVec 32 × Nat)
  /-- Pcap as the last tick took it (R230) -/
  capEff : Nat
  deriving DecidableEq, Repr

structure Core where
  op     : Nat
  move   : Option (Nat × Nat)
  limit  : Nat
  lost   : Bool
  deriving DecidableEq, Repr

structure Port where
  lanes   : Nat
  change  : Option (Nat × Nat)
  maxLanes : Nat
  drops   : Nat
  deriving DecidableEq, Repr

/-- A power domain: phases failed since cold boot, and whether its clock is stretched (R237, R344). -/
structure Domain where
  failed    : Nat
  stretched : Bool
  deriving DecidableEq, Repr

/-- A tenancy's control block with PGCTL, TRMIN, TRMAX and the rest that is kept per tenancy (R301, R286, R230, R336,
R342). -/
structure Tcb where
  frozen : Bool
  keyok  : Bool
  toolen : Bool
  en     : Bool
  s1root : BitVec 64
  s2root : BitVec 64
  pbase  : BitVec 64
  plog   : Nat
  ptail  : BitVec 32
  phead  : BitVec 32
  lowat  : BitVec 16
  mrbase : BitVec 64
  mrlog  : Nat
  mrrd   : BitVec 32
  mrwr   : BitVec 32
  mrovf  : BitVec 32
  hthr   : BitVec 12
  lshare : Nat
  hshare : Nat
  ncoal  : Nat
  tvinit : Word
  nepa   : BitVec 64
  nepb   : BitVec 64
  trmin  : Nat
  trmax  : Nat
  /-- the bounds in force: a write takes effect at the next tick (R230) -/
  floor  : Nat
  ceil   : Nat
  wdexp  : Nat
  ishare : Nat
  /-- the number of the loaded key, none when discarded (R311) -/
  key    : Option Nat
  /-- part to forward to after the replay (R314) -/
  target : Option Nat
  /-- captured remote writes in arrival order (R314) -/
  log    : List Frame
  /-- TIME of the freeze, while one is being made -/
  freezing : Option Nat
  /-- POOLLOW has been posted to the firmware agent (R306) -/
  poollow : Bool
  deriving DecidableEq, Repr

structure Note where
  kind : Nat
  ten  : Nat
  detail : List Byte
  time : Nat
  deriving DecidableEq, Repr

/-- Error ring and counters (R316). -/
structure Recovery where
  base : BitVec 64
  log  : Nat
  rdi  : BitVec 32
  wri  : BitVec 32
  lost : BitVec 32
  hist : Tbl (BitVec 32 × BitVec 32)
  /-- records of classes 2 to 6 waiting for space -/
  held : List (List Byte)
  /-- records of corrected errors of the last ms, for merging, the newest first: PA, TIME, ring index -/
  merge : List (BitVec 64 × Nat × BitVec 32)
  deriving DecidableEq, Repr

structure Scrub where
  en     : Bool
  period : Nat
  rowthr : Nat
  passes : BitVec 32
  row    : BitVec 32
  deriving DecidableEq, Repr

/-- Capability block (R324). DEDUCED (log entry 43). -/
structure Caps where
  cores : BitVec 64
  stks  : BitVec 8
  chans : List (BitVec 64)
  ports : BitVec 16
  units : BitVec 16
  deriving DecidableEq, Repr

/-- A core's observation block and stream state (R327 to R332). -/
structure Obs where
  gmask  : BitVec 32
  hnd    : Bool
  mark   : Bool
  bm     : Bool
  en     : Bool
  tbase  : BitVec 64
  tlog   : Nat
  trd    : BitVec 32
  twr    : BitVec 32
  tlost  : BitVec 32
  smen   : Bool
  sper   : Nat
  sbase  : BitVec 64
  slog   : Nat
  srd    : BitVec 32
  swr    : BitVec 32
  cntsel : BitVec 64
  cnt    : Vector (BitVec 48) 8
  /-- packets dropped and not yet reported by a LOSS -/
  pendLoss : Nat
  sincePkts : Nat
  sinceCyc  : Nat
  prevCyc   : Nat
  /-- slots whose SYNC(1) has been written -/
  synced : List Nat
  /-- slot sampled last, by slot the path sampled last, and the cycle of the last sample (R333) -/
  lastSlot   : Nat
  lastPath   : Tbl Nat
  sampledAt  : Nat
  deriving DecidableEq, Repr

structure Dump where
  team : Nat
  pa   : BitVec 64
  deriving DecidableEq, Repr

/-- Who waits for the answer to a message: a group, an engine's operation, a queue's scanner, a packet of a queue, or a
launch. -/
inductive Asker where
  | group (k : Nat)
  | op (id : Nat)
  | queue (q : Nat)
  | packet (q i : Nat)
  | launch (l : Nat)
  /-- a walk of a tenancy's tables -/
  | walk (ten : Nat)
  deriving DecidableEq, Repr

/-- A message to another part whose sender waits for the answer: its tag and, once it has come, the answer's status and
bytes (R340). DESIGN CHOICE (log entry 72). -/
structure RWait where
  who   : Asker
  pa    : Nat
  n     : Nat
  tag   : Nat
  ans   : Option (Nat × List Byte)
  deriving DecidableEq, Repr

/-- A message leaving the part: an access or its response for a part, a notification or an answer of management for an
IPv6 address, and a chunk for a collective peer. -/
inductive Out where
  | frame (part : Nat) (f : Frame)
  | resp (part : Nat) (f : Frame)
  | note (dst : BitVec 128) (f : Frame)
  | mgmt (dst : BitVec 128) (f : Frame)
  | coll (cid : Word) (rank : Nat) (f : Frame)
  deriving DecidableEq, Repr

/-! ### What moves next -/

/-- A chosen move. -/
inductive Actor where
  /-- a scheduler of a core takes its issue opportunity -/
  | issue (core sched : Nat)
  /-- an event of the part, by the table's row -/
  | event (i : Instr)
  /-- one access of a pending operation performs before its operation completes -/
  | perform (g op k : Nat)
  /-- one 4 KiB unit of a pending copy performs -/
  | unit (g op : Nat)
  /-- a tlbi takes effect -/
  | tlbi (id : Nat)
  /-- a read-cache line, an instruction-cache line, a record-cache line or a TLB entry is dropped -/
  | dropRead (core line : Nat)
  | dropCode (core line : Nat)
  | dropRec (g line : Nat)
  | dropTlb (die ten base : Nat)
  /-- time passes -/
  | pass (ns : Nat)
  deriving DecidableEq, Repr

/-! ### The part -/

structure State where
  groups   : Tbl Group
  teams    : Tbl Team
  clusters : Tbl Cluster
  launches : Tbl Launch
  trees    : Tbl Tree
  queues   : Tbl Queue
  tickets  : List (Nat × Nat)
  claimed  : Nat
  mem      : List Host.Cell
  poison   : List Nat
  absent   : List Nat
  /-- per 1 MiB Silo granule: tenancy, or 32 for firmware -/
  owner    : Tbl Nat
  /-- per 32-byte data unit of HBM and Cellar: number of the key that wrote it -/
  unitKey  : Tbl Nat
  rcache   : List Line
  icache   : List Line
  tlb      : List TlbEntry
  nonleafs : List NonLeaf
  s2held   : List S2Held
  tlbis    : List Tlbi
  heat     : Tbl Heat
  moves    : Tbl Move
  trellis  : List Reg
  /-- stage-2 faults posted to the firmware agent (R304): group key, path or 65,536 plus an operation, and address; for the
  front end 4,096 plus the tenancy, and the page's number -/
  s2faults : List (Nat × Nat × Word)
  /-- registered communicators: tenancy, CID, NRANK (R203) -/
  comms    : List (Nat × Word × Nat)
  calls    : List Call
  rwaits   : List RWait
  time     : Nat
  clk      : Nat
  pace     : Nat
  cpace    : Nat
  /-- scheduler s of core c at c * 4 + s -/
  scheds   : Vector Sched 256
  wb       : Weigh
  cores    : Vector Core 64
  ports    : Vector Port 16
  domains  : Vector Domain 81
  tcbs     : Vector Tcb 32
  /-- registered peers: this part's tenancy, part, peer tenancy (R312) -/
  peers    : List (Nat × Nat × Nat)
  notes    : List Note
  prelim   : Nat
  agelim   : Nat
  errs     : Recovery
  scrubs   : Vector Scrub 8
  /-- repaired rows: stack and row (R318) -/
  repairs  : List (Nat × Nat)
  stopped  : Bool
  /-- tenancies that an error of class 4 is about to reset, with the PA of the error (R315) -/
  doomed   : List (Nat × Nat)
  /-- tenancies whose reset waits at step 4, and whether a TENANCY_RESET waits for its end (R313) -/
  resets   : List (Nat × Bool)
  ready    : BitVec 24
  bootst   : Nat
  caps     : Caps
  /-- channels that are being quarantined: stack, channel, and HBM GiB that remain (R324) -/
  leaving  : List (Nat × Nat × Nat)
  /-- the identity key, once cold boot has it (R345) -/
  idkey    : Option (BitVec 256)
  obs      : Vector Obs 64
  dbarm    : BitVec 32
  dumps    : List Dump
  domidx   : BitVec 13
  /-- IPv6 address of each part index, 0 when unlisted (R343) -/
  routes   : Tbl (BitVec 128)
  /-- source of the first management write accepted since reset (R342) -/
  mgmtEp   : Option (BitVec 128)
  /-- access messages of other parts that wait at this part (R264) -/
  held     : List HeldFrame
  /-- wake-ups and claims that have a bound, by key, and the TIME at which each could first be made (R288, R295) -/
  waits    : List (List Nat × Nat)
  /-- management messages that wait, in the order of their arrival (R341) -/
  mgmtq    : List (Mgmt × MgmtReq)
  outbox   : List Out
  published : Bool
  /-- earliest TIME of the next template opening (R266) and of the scanner's next poll (R295) -/
  lastOpen : Nat
  /-- TIME of the youngest ticket of a vopen, and its group (R281) -/
  lastTicket : Option (Nat × Nat)
  nextPoll : Nat
  /-- the model's own fields: the executing group and path, the chosen moves, the default rule's cursor, the free-value
  counter, the next serial number, and marks that a meaning leaves for the step that called it -/
  cur      : Nat
  path     : Nat
  agenda   : List Actor
  cursor   : Nat
  free     : Nat
  serial   : Nat
  /-- the attempted instruction stalled, and the R333 reason -/
  stall    : Option Nat
  /-- the group yielded, parked or exited in this step -/
  yielded  : Bool
  deriving DecidableEq, Repr

/-! ### Reset -/

def VReg.reset : VReg := ⟨.dead, 0⟩
def Tile.fresh (n : Nat) : Tile := ⟨some n, [], []⟩
/-- R284: every credit equals ISHARE × 64 = 1,024. DESIGN CHOICE (log entry 8). -/
def Sched.reset : Sched := ⟨none, 0, 7, false, Vector.replicate 32 1024, Vector.replicate 32 22⟩
/-- The reset column of R230. -/
def Weigh.reset : Weigh :=
  ⟨false, 1, 2000, 2400, 0x1000, 0x4000000, none, false, false, false, 0x80000, 0, 0, 0, false, 0, none, 2400⟩
/-- DESIGN CHOICE (log entry 8). -/
def Core.reset : Core := ⟨6, none, 7, false⟩
def Port.reset : Port := ⟨8, none, 8, 0⟩
/-- The reset columns of R301, R336, R342, R230 and R286. -/
def Tcb.reset : Tcb where
  frozen := false
  keyok := false
  toolen := false
  en := false
  s1root := 0
  s2root := 0
  pbase := 0
  plog := 4
  ptail := 0
  phead := 0
  lowat := 16
  mrbase := 0
  mrlog := 4
  mrrd := 0
  mrwr := 0
  mrovf := 0
  hthr := 1024
  lshare := 16
  hshare := 16
  ncoal := 10
  tvinit := 0
  nepa := 0
  nepb := 0
  trmin := 0x1000
  trmax := 0x4000000
  floor := 0x1000
  ceil := 0x4000000
  wdexp := 22
  ishare := 16
  key := none
  target := none
  log := []
  freezing := none
  poollow := false
/-- R316. DESIGN CHOICE (log entry 8). -/
def Recovery.reset : Recovery := ⟨0, 8, 0, 0, 0, [], [], []⟩
/-- R318. -/
def Scrub.reset : Scrub := ⟨true, 24, 4, 0, 0⟩
def Caps.reset : Caps := ⟨0, 0, [], 0, 0⟩
/-- R327. -/
def Obs.reset : Obs where
  gmask := 0
  hnd := false
  mark := false
  bm := false
  en := false
  tbase := 0
  tlog := 16
  trd := 0
  twr := 0
  tlost := 0
  smen := false
  sper := 16
  sbase := 0
  slog := 12
  srd := 0
  swr := 0
  cntsel := 0
  cnt := Vector.replicate 8 0
  pendLoss := 0
  sincePkts := 0
  sinceCyc := 0
  prevCyc := 0
  synced := []
  lastSlot := 31
  lastPath := []
  sampledAt := 0

/-- The machine at power-on: READY clear, nothing resident, every register at the value of its reset column.
DESIGN CHOICE (log entry 8). -/
def State.reset : State where
  groups := []
  teams := []
  clusters := []
  launches := []
  trees := []
  queues := []
  tickets := []
  claimed := 0
  mem := []
  poison := []
  absent := []
  owner := []
  unitKey := []
  rcache := []
  icache := []
  tlb := []
  nonleafs := []
  s2held := []
  tlbis := []
  heat := []
  moves := []
  trellis := []
  s2faults := []
  comms := []
  calls := []
  rwaits := []
  time := 0
  clk := 0
  pace := 1
  cpace := 1
  scheds := Vector.replicate 256 Sched.reset
  wb := Weigh.reset
  cores := Vector.replicate 64 Core.reset
  ports := Vector.replicate 16 Port.reset
  domains := Vector.replicate 81 ⟨0, false⟩
  tcbs := Vector.replicate 32 Tcb.reset
  peers := []
  notes := []
  prelim := 1000
  agelim := 64
  errs := Recovery.reset
  scrubs := Vector.replicate 8 Scrub.reset
  repairs := []
  stopped := false
  doomed := []
  resets := []
  ready := 0
  bootst := 0
  caps := Caps.reset
  leaving := []
  idkey := none
  obs := Vector.replicate 64 Obs.reset
  dbarm := 0
  dumps := []
  domidx := 0
  routes := []
  mgmtEp := none
  held := []
  waits := []
  mgmtq := []
  outbox := []
  published := false
  lastOpen := 0
  lastTicket := none
  nextPoll := 0
  cur := 0
  path := 0
  agenda := []
  cursor := 0
  free := 0
  serial := 0
  stall := none
  yielded := false

end Sys2Proof.Machine
end

