-- ==== Sys2Proof/Machine/Tbl.lean ====
section
/-! DEFINITION. Operations on keyed lists and on bit fields, which every other file of the machine shares. -/

namespace Sys2Proof.Machine

/-! ### Keyed lists: keys strictly rising -/

def tget {α : Type} : Tbl α → Nat → Option α
  | [], _ => none
  | (k, v) :: t, n => if n = k then some v else if n < k then none else tget t n

def tput {α : Type} : Tbl α → Nat → α → Tbl α
  | [], n, v => [(n, v)]
  | (k, w) :: t, n, v => if n = k then (n, v) :: t else if n < k then (n, v) :: (k, w) :: t else (k, w) :: tput t n v

def tdel {α : Type} : Tbl α → Nat → Tbl α
  | [], _ => []
  | (k, w) :: t, n => if n = k then t else if n < k then (k, w) :: t else (k, w) :: tdel t n

def tmod {α : Type} (t : Tbl α) (n : Nat) (f : α → α) : Tbl α :=
  match tget t n with
  | some v => tput t n (f v)
  | none => t

def tkeys {α : Type} (t : Tbl α) : List Nat := t.map (·.1)

/-- Keys strictly rising. -/
def twf {α : Type} : Tbl α → Bool
  | [] => true
  | [_] => true
  | (a, _) :: (b, w) :: t => decide (a < b) && twf ((b, w) :: t)

/-- A function on every element of a vector. -/
def vmap {α β : Type} {n : Nat} (f : α → β) (v : Vector α n) : Vector β n := ⟨(v.toList.map f).toArray, by simp⟩

/-! ### Lists of numbers, kept sorted without repeats -/

def sadd : List Nat → Nat → List Nat
  | [], n => [n]
  | k :: t, n => if n = k then k :: t else if n < k then n :: k :: t else k :: sadd t n

def sdel (l : List Nat) (n : Nat) : List Nat := l.filter (· != n)

/-! ### Bits -/

/-- Lanes 0 to 63. -/
def lanes64 : List Nat := List.range 64

/-- Bit n of a mask. -/
def bitOf (m : BitVec 64) (n : Nat) : Bool := m.toNat / 2 ^ n % 2 == 1

/-- The mask of the lanes for which `f` holds, from the list of lanes. -/
def maskOf (l : List Nat) (f : Nat → Bool) : Mask :=
  BitVec.ofNat 64 (l.foldl (fun acc n => if f n then acc + 2 ^ n else acc) 0)

/-- Number of set bits of a number below 2^n. -/
def popcount : Nat → Nat → Nat
  | 0, _ => 0
  | n + 1, x => x % 2 + popcount n (x / 2)

/-- Index of the lowest set bit below n, or n. -/
def lowBit : Nat → Nat → Nat
  | 0, _ => 0
  | n + 1, x => if x % 2 = 1 then 0 else 1 + lowBit n (x / 2)

/-- The mask of the lanes of slices `sl`. -/
def laneMask (sl : BitVec 16) : Mask := maskOf lanes64 fun l => sl.toNat / 2 ^ (l / 4) % 2 == 1

/-- The slices that have a lane in a mask. DEDUCED (log entry 78). -/
def slicesOf (m : Mask) : BitVec 16 :=
  BitVec.ofNat 16 ((List.range 16).foldl (fun acc sl => if m.toNat / 2 ^ (4 * sl) % 16 ≠ 0 then acc + 2 ^ sl else acc) 0)

/-- All lanes below w. -/
def widthMask (w : Nat) : Mask := BitVec.ofNat 64 (2 ^ w - 1)

/-- Slices below w/4. -/
def widthSlices (w : Nat) : BitVec 16 := BitVec.ofNat 16 (2 ^ (w / 4) - 1)

/-- Bits hi:lo of a word, as a number. -/
def bits (x : Nat) (hi lo : Nat) : Nat := x / 2 ^ lo % 2 ^ (hi + 1 - lo)

/-- Two's complement value of the low n bits. -/
def sval (n : Nat) (x : Nat) : Int :=
  let y := x % 2 ^ n
  if y < 2 ^ (n - 1) then (y : Int) else (y : Int) - (2 ^ n : Nat)

/-- An integer modulo 2^64, as a word. -/
def wordOfInt (x : Int) : Word := BitVec.ofInt 64 x

/-- Sign extension of the low n bits to 64. -/
def sext (n : Nat) (x : Nat) : Word := wordOfInt (sval n x)

/-- Round to nearest, ties to even, of num / den (den > 0). -/
def divRne (num den : Nat) : Nat :=
  let q := num / den
  let r := num % den
  if 2 * r < den then q else if den < 2 * r then q + 1 else q + q % 2

/-! ### Little-endian bytes (R2) -/

def leNat : List Byte → Nat
  | [] => 0
  | b :: t => b.toNat + 256 * leNat t

def leBytes : Nat → Nat → List Byte
  | 0, _ => []
  | n + 1, x => BitVec.ofNat 8 x :: leBytes n (x / 256)

/-- n bytes of a byte list from offset o, as a number; bytes beyond the end read zero. -/
def field (l : List Byte) (o n : Nat) : Nat := leNat ((l.drop o).take n)

/-- Whether bytes o to o + n - 1 of a list are all zero. -/
def zeroAt (l : List Byte) (o n : Nat) : Bool := ((l.drop o).take n).all (· == 0)

end Sys2Proof.Machine
end

