-- ==== Sys2Proof/Machine/Memory.lean ====
section
/-! DEFINITION. Device memory (R347): bytes, poison, keys, presence bits and owner tags at device physical addresses,
and the byte-level operations every access is built from. -/

namespace Sys2Proof.Machine

/-! ### Memory as data -/

/-- The canonical form of a memory: addresses strictly rising, no entry holding what an unlisted byte reads as.
DESIGN CHOICE (log entry 6). -/
def Memory.wf : List Host.Cell → Bool
  | [] => true
  | [(_, b)] => b != 0
  | (a, b) :: (c, d) :: t => b != 0 && decide (a < c) && Memory.wf ((c, d) :: t)

/-- What a byte that nothing has written reads as: cold boot clears everything (R325). DESIGN CHOICE (log entry 6). -/
def Memory.unlisted : Byte := 0

def Memory.get : List Host.Cell → Nat → Byte
  | [], _ => Memory.unlisted
  | (k, v) :: t, n => if n = k then v else if n < k then Memory.unlisted else Memory.get t n

/-- Writing the unlisted value removes the entry. -/
def Memory.set : List Host.Cell → Nat → Byte → List Host.Cell
  | [], n, v => if v = Memory.unlisted then [] else [(n, v)]
  | (k, w) :: t, n, v =>
    if n = k then (if v = Memory.unlisted then t else (n, v) :: t)
    else if n < k then (if v = Memory.unlisted then (k, w) :: t else (n, v) :: (k, w) :: t)
    else (k, w) :: Memory.set t n v

/-- Store bytes at rising addresses. DESIGN CHOICE (log entry 6). -/
def Memory.setMany : List Host.Cell → Nat → List Byte → List Host.Cell
  | m, _, [] => m
  | m, a, b :: t => Memory.setMany (Memory.set m a b) (a + 1) t

def Memory.getMany (m : List Host.Cell) : Nat → Nat → List Byte
  | _, 0 => []
  | a, n + 1 => Memory.get m a :: Memory.getMany m (a + 1) n

/-! ### The address map (R347) -/

inductive Tier where | silo | hbm | cellar
  deriving DecidableEq, Repr

def siloBase : Nat := 0
def hbmBase : Nat := 0x10000000000
def cellarBase : Nat := 0x20000000000
def GiB : Nat := 0x40000000
def MiB : Nat := 0x100000

/-- The tier of a device-local PA and its home: slice 0 to 63, or stack 0 to 7. DEDUCED (log entry 43). -/
def homeOf (pa : Nat) : Option (Tier × Nat) :=
  if pa < 8 * GiB then some (.silo, pa / (128 * MiB))
  else if hbmBase ≤ pa && pa < hbmBase + 384 * GiB then some (.hbm, (pa - hbmBase) / (48 * GiB))
  else if cellarBase ≤ pa && pa < cellarBase + 2048 * GiB then some (.cellar, (pa - cellarBase) / (256 * GiB))
  else none

/-- Homes by one number: slices 0 to 63, stacks 64 to 71 (R316). -/
def homeNum (pa : Nat) : Option Nat :=
  match homeOf pa with
  | some (.silo, h) => some h
  | some (.hbm, h) => some (64 + h)
  | some (.cellar, h) => some (64 + h)
  | none => none

def isSilo (pa : Nat) : Bool := pa < 8 * GiB
/-- A domain-remote address has bit 55 set (R343). -/
def isRemote (pa : Nat) : Bool := bits pa 55 55 == 1
def remotePart (pa : Nat) : Nat := bits pa 54 42
def localPa (pa : Nat) : Nat := bits pa 41 0
/-- The TIER code of a PTE (R302). -/
def tierCode (pa : Nat) : Option Nat :=
  if isRemote pa then some 3
  else match homeOf pa with
    | some (.silo, _) => some 0
    | some (.hbm, _) => some 1
    | some (.cellar, _) => some 2
    | none => none

/-- Whether a device-local PA lies in a run that is in service (R324, R347): a stack's HBM is its first HBMGIB GiB, its
Cellar 8 GiB for each channel in service. DEDUCED (log entry 43). -/
def populated (s : State) (pa : Nat) : Bool :=
  match homeOf pa with
  | some (.silo, _) => true
  | some (.hbm, h) =>
    s.caps.stks.toNat / 2 ^ h % 2 == 1 &&
      (pa - hbmBase) % (48 * GiB) < bits (s.caps.chans.getD h 0).toNat 63 32 * GiB
  | some (.cellar, h) =>
    s.caps.stks.toNat / 2 ^ h % 2 == 1 &&
      (pa - cellarBase) % (256 * GiB) < popcount 32 (s.caps.chans.getD h 0).toNat * (8 * GiB)
  | none => false

/-! ### Poison (R317): the first address of each poisoned granule -/

def granule (pa : Nat) : Nat := if isSilo pa then pa / 8 * 8 else pa / 32 * 32
def granuleSize (pa : Nat) : Nat := if isSilo pa then 8 else 32
/-- Whether any byte of [pa, pa + n) lies in a poisoned granule. -/
def poisoned (s : State) (pa n : Nat) : Bool :=
  s.poison.any fun g => decide (g < pa + n) && decide (pa < g + granuleSize g)

/-! ### Keys (R311) -/

/-- The key an access of a tenancy uses: Silo is not encrypted; tenancy 32 is firmware. DEDUCED (log entry 42).
DESIGN CHOICE (log entry 13). -/
def keyOf (s : State) (ten : Nat) : Nat :=
  if ten < 32 then (match (s.tcbs[ten]?.bind (·.key)) with | some k => k | none => 0) else 0

/-- A byte as an access of tenancy `ten` reads it. DESIGN CHOICE (log entry 13). -/
def readByte (s : State) (ten pa : Nat) : Byte :=
  let b := Memory.get s.mem pa
  if isSilo pa then b
  else
    match tget s.unitKey (pa / 32) with
    | none => b
    | some k => if k = keyOf s ten then b else Config.freeDecrypt k pa b

def readBytes (s : State) (ten : Nat) : Nat → Nat → List Byte
  | _, 0 => []
  | pa, n + 1 => readByte s ten pa :: readBytes s ten (pa + 1) n

def readNat (s : State) (ten pa n : Nat) : Nat := leNat (readBytes s ten pa n)

/-- The bytes of a partly written 32-byte unit under another key become what the writer's read-modify-write saw.
DESIGN CHOICE (log entry 13). -/
def rekeyUnit (s : State) (ten u : Nat) : State :=
  match tget s.unitKey u with
  | none => { s with unitKey := tput s.unitKey u (keyOf s ten) }
  | some k =>
    if k = keyOf s ten then s
    else { s with mem := Memory.setMany s.mem (u * 32) (readBytes s ten (u * 32) 32),
                  unitKey := tput s.unitKey u (keyOf s ten) }

/-- Store bytes at a device-local PA for a tenancy: keys (R311), and poison cleared where a granule is overwritten
whole (R163). -/
def writeBytes (s : State) (ten pa : Nat) (bs : List Byte) : State :=
  let n := bs.length
  let s := if isSilo pa || n = 0 then s
    else (List.range ((pa + n - 1) / 32 - pa / 32 + 1)).foldl (fun s i => rekeyUnit s ten (pa / 32 + i)) s
  { s with
    mem := Memory.setMany s.mem pa bs,
    poison := s.poison.filter fun g => !(decide (pa ≤ g) && decide (g + granuleSize g ≤ pa + n)) }

def writeNat (s : State) (ten pa n x : Nat) : State := writeBytes s ten pa (leBytes n x)

/-- Mark the granules of [pa, pa + n) poisoned. -/
def poisonBytes (s : State) (pa n : Nat) : State :=
  let g := granuleSize pa
  { s with poison := (List.range ((pa + n - 1) / g - pa / g + 1)).foldl (fun l i => sadd l ((pa / g + i) * g)) s.poison }

/-! ### Silo: presence bits and owner tags -/

/-- Lines of 64 bytes whose presence bit is clear (R152, R201). -/
def lineAbsent (s : State) (pa : Nat) : Bool := isSilo pa && s.absent.contains (pa / 64)

/-- The owner of a Silo granule: a tenancy, 32 for firmware, none (R300). -/
def ownerOf (s : State) (pa : Nat) : Option Nat := tget s.owner (pa / MiB)

/-- R300: a Silo access whose tag differs from the owner's is refused. -/
def ownerOk (s : State) (ten pa : Nat) : Bool := !isSilo pa || ownerOf s pa == some ten

end Sys2Proof.Machine
end

