-- ==== Sys2Proof/Machine/Translate.lean ====
section
/-! DEFINITION. Two-stage translation (R302 to R305): page walks over PTEs in memory, the TLBs that may hold their
results, and the permission, owner and route checks of an access. -/

namespace Sys2Proof.Machine

/-! ### PTE fields (R302) -/

def pteV (e : Nat) : Bool := bits e 0 0 == 1
def pteLeaf (e : Nat) : Bool := bits e 1 1 == 1
def pteRd (e : Nat) : Bool := bits e 2 2 == 1
def pteWr (e : Nat) : Bool := bits e 3 3 == 1
def pteEx (e : Nat) : Bool := bits e 4 4 == 1
def pteUsr (e : Nat) : Bool := bits e 5 5 == 1
def pteMp (e : Nat) : Bool := bits e 8 8 == 1
def pteCnt (e : Nat) : Bool := bits e 9 9 == 1
def pteTier (e : Nat) : Nat := bits e 11 10
def pteOut (e : Nat) : Nat := bits e 55 12 * 4096
def pteNrc (e : Nat) : Bool := bits e 60 60 == 1
def pteSig (e : Nat) : Bool := bits e 61 61 == 1
/-- A non-leaf's next table: PA bits 55:12 and, from ATTR, bits 11:8. -/
def pteNext (e : Nat) : Nat := pteOut e + bits e 63 60 * 256

/-- The index field of each level, L5 first: level, high bit, low bit. -/
def walkLevels : List (Nat × Nat × Nat) := [(5, 55, 48), (4, 47, 39), (3, 38, 30), (2, 29, 21), (1, 20, 16), (0, 15, 12)]

/-- Reserved fields of an entry: bits 59:56, and 63:62 of a leaf. -/
def pteReservedOk (e : Nat) : Bool := bits e 59 56 == 0 && (!pteLeaf e || bits e 63 62 == 0)

/-- An entry that R302 calls malformed at this level. -/
def pteBad (level lo e : Nat) : Bool :=
  !pteReservedOk e ||
  (if pteLeaf e then level ≥ 4 || pteOut e % 2 ^ lo != 0 else level == 0)

/-- The home at this part of a table's or a page's device PA, none on another part (R343). -/
def herePa (s : State) (pa : Nat) : Option Nat :=
  if isRemote pa then (if remotePart pa == s.domidx.toNat then some (localPa pa) else none) else some pa

/-- A PA by its home at this part where it has one there, so that one location has one address. -/
def normPa (s : State) (pa : Nat) : Nat := (herePa s pa).getD pa

/-- Stage 2 from an intermediate address; `none` is any stage-2 fault but a missing permission (R304). -/
def walk2 (s : State) (table ia : Nat) : List (Nat × Nat × Nat) → Option S2Leaf
  | [] => none
  | (level, hi, lo) :: rest =>
    let at_ := normPa s (table + bits ia hi lo * 8)
    if poisoned s at_ 8 then none
    else
      let e := readNat s 32 at_ 8
      if !pteV e || pteBad level lo e then none
      else if pteLeaf e then
        let raw := pteOut e + ia % 2 ^ lo
        let pa := normPa s raw
        if tierCode raw == some (pteTier e) && (isRemote pa || populated s pa) then some ⟨pa, at_, e, 2 ^ lo, isRemote raw⟩ else none
      else walk2 s (pteNext e) ia rest

def tcbOf (s : State) (ten : Nat) : Tcb := (s.tcbs[ten]?).getD Tcb.reset

def stage2 (s : State) (ten ia : Nat) : Option S2Leaf := walk2 s (tcbOf s ten).s2root.toNat ia walkLevels

/-- The result of a whole translation. -/
structure Walk where
  /-- 0, or the CODE of a stage-1 fault (R303) that does not depend on the access -/
  code : Nat
  /-- a stage-2 fault was met -/
  s2   : Bool
  base : Nat
  size : Nat
  x    : Xlate
  ex   : Bool
  wr   : Bool
  rd   : Bool
  usr  : Bool
  ex2  : Bool
  wr2  : Bool
  rd2  : Bool
  /-- the intermediate address at which a stage-2 fault was met -/
  ia   : Nat
  /-- the PA of an entry on another part that has still to be read -/
  ask  : Option Nat
  deriving DecidableEq, Repr

def Xlate.none : Xlate := ⟨0, Option.none, Option.none, false, false, false, false, 0, 0, false⟩

/-- A walk that ends without a leaf of its own: an invalid entry, a stage-2 fault on the way, or an entry to be read. -/
def Walk.stop (code : Nat) (s2 : Bool) (va size : Nat) : Walk :=
  ⟨code, s2, va / size * size, size, Xlate.none, true, true, true, true, true, true, true, 0, none⟩

/-! ### The held entries of stage 2 (R305) -/

/-- The die of a core (R11); the front end has a number of its own. -/
def dieOf (core : Nat) : Nat := core / 16

/-- The held non-leaf entry of a stage nearest to the leaf that covers an address. -/
def heldTable (s : State) (die ten : Nat) (s2 : Bool) (a : Nat) : Option NonLeaf :=
  (s.nonleafs.filter fun e => e.die == die && e.ten == ten && e.s2 == s2 && decide (e.base ≤ a) && decide (a < e.base + e.size)).foldl
    (fun best e => match best with
      | some b => if e.level < b.level then some e else best
      | none => some e) none

/-- The levels of a walk from a held entry on. -/
def levelsFrom (e : NonLeaf) : List (Nat × Nat × Nat) := walkLevels.filter fun l => decide (l.1 ≤ e.level)

def S2Held.covers (die ten ia : Nat) (h : S2Held) : Bool :=
  h.die == die && h.ten == ten && decide (h.base ≤ ia) && decide (ia < h.base + h.size)

/-- Stage 2 as a die finds it: by an entry that it holds, or from the nearest table that it knows. -/
def stage2At (s : State) (die : Option Nat) (ten ia : Nat) : Option S2Leaf :=
  match die with
  | none => stage2 s ten ia
  | some d =>
    match s.s2held.find? (S2Held.covers d ten ia) with
    | some h => h.leaf.map fun u => { u with pa := u.pa + (ia - h.base) }
    | none => match heldTable s d ten true ia with
      | some e => walk2 s e.table ia (levelsFrom e)
      | none => stage2 s ten ia

/-! ### Stage 1 -/

/-- A stage-1 entry at a PA: its value, the CODE of the fault that its read gives, or none yet from another part. -/
inductive PteGot where
  | entry (e : Nat)
  | bad (code : Nat)
  | ask
  deriving DecidableEq, Repr

/-- The entry at its home (R262): at this part, where a Silo granule of another owner refuses it (R300), or as another part has
answered. DESIGN CHOICE (log entry 83). -/
def pteAt (s : State) (ten pa : Nat) : PteGot :=
  match herePa s pa with
  | some pa => if !ownerOk s ten pa then .bad 4 else if poisoned s pa 8 then .bad 6 else .entry (readNat s ten pa 8)
  | none =>
    match (s.rwaits.find? fun r => r.who == .walk ten && r.pa == pa && r.n == 8).bind (·.ans) with
    | none => .ask
    | some (st, bs) => if st = 0 then .entry (field bs 0 8) else .bad (if st = 2 then 6 else 5)

/-- Stage 1 from a VA, each table address translated by stage 2, with the entries that a die holds. -/
def walk1 (s : State) (die : Option Nat) (ten table va : Nat) : List (Nat × Nat × Nat) → Walk
  | [] => Walk.stop 3 false va 4096
  | (level, hi, lo) :: rest =>
    let ta := table + bits va hi lo * 8
    match stage2At s die ten ta with
    | none => { Walk.stop 0 true va 4096 with ia := ta }
    | some t =>
      if !pteRd t.e then { Walk.stop 0 true va 4096 with ia := ta }
      else match pteAt s ten t.pa with
      | .ask => { Walk.stop 0 false va 4096 with ask := some t.pa }
      | .bad c => Walk.stop c false va 4096
      | .entry e =>
        if !pteV e then Walk.stop 1 false va 4096
        else if pteLeaf e && level < 4 then
          let code := if pteBad level lo e then 3 else 0
          let ia := pteOut e + va % 2 ^ lo
          match stage2At s die ten ia with
          | none => ⟨code, code == 0, va / 4096 * 4096, 4096, Xlate.none, pteEx e, pteWr e, pteRd e, pteUsr e, true, true, true, ia, none⟩
          | some u =>
            let size := min (2 ^ lo) u.size
            ⟨code, false, va / size * size, size,
             ⟨u.pa / size * size, some t.pa, some u.leaf, pteNrc e, pteSig e, pteCnt u.e, pteMp u.e, va / size * size, size, u.dom⟩,
             pteEx e, pteWr e, pteRd e, pteUsr e, pteEx u.e, pteWr u.e, pteRd u.e, ia, none⟩
        else if pteLeaf e then
          ⟨3, false, va / 4096 * 4096, 4096, Xlate.none, pteEx e, pteWr e, pteRd e, pteUsr e, true, true, true, 0, none⟩
        else if pteBad level lo e then Walk.stop 3 false va 4096
        else walk1 s die ten (pteNext e) va rest

/-- A walk of the tenancy's tables, with nothing taken from a TLB. -/
def walk (s : State) (ten va : Nat) : Walk := walk1 s none ten (tcbOf s ten).s1root.toNat va walkLevels

/-! ### TLBs (R12, R305) -/

/-- Entries of a die's last-level TLB (R12). -/
def tlbSize : Nat := 8192

/-- An entry in front of a list, the oldest one of its die dropped where the die has no room for one more. -/
def keepIn {α : Type} (die : α → Nat) (e : α) (l : List α) : List α :=
  if l.countP (fun q => die q == die e) < tlbSize then e :: l
  else e :: (l.reverse.eraseP fun q => die q == die e).reverse

def tlbHit (core ten va : Nat) (e : TlbEntry) : Bool :=
  e.die == dieOf core && e.ten == ten && decide (e.base ≤ va) && decide (va < e.base + e.size)

/-- Where a die's walk starts: at the non-leaf entry it holds, or at the root. -/
def walkFrom (s : State) (core ten va : Nat) : Nat × List (Nat × Nat × Nat) :=
  match heldTable s (dieOf core) ten false va with
  | some e => (e.table, levelsFrom e)
  | none => ((tcbOf s ten).s1root.toNat, walkLevels)

/-- A walk as a die makes it. -/
def walkHeld (s : State) (core ten va : Nat) : Walk :=
  walk1 s (some (dieOf core)) ten (walkFrom s core ten va).1 va (walkFrom s core ten va).2

/-- The entry that the die's TLB holds for a VA, or what a walk of the tables finds now. -/
def lookup (s : State) (core ten va : Nat) : Walk :=
  match s.tlb.find? (tlbHit core ten va) with
  | some e => ⟨e.code, false, e.base, e.size, e.x, e.ex, e.wr, e.rd, e.usr, e.ex2, e.wr2, e.rd2, 0, none⟩
  | none => walkHeld s core ten va

/-- The non-leaf entries on the way of a walk from a table, and the intermediate addresses that it has had translated
(R305). -/
def nonLeafsOf (s : State) (die ten table va : Nat) : List (Nat × Nat × Nat) → List NonLeaf × List Nat
  | [] => ([], [])
  | (level, hi, lo) :: rest =>
    let ta := table + bits va hi lo * 8
    match stage2At s (some die) ten ta with
    | none => ([], [ta])
    | some t =>
      match (if pteRd t.e then pteAt s ten t.pa else .ask) with
      | .ask | .bad _ => ([], [ta])
      | .entry e =>
        if !pteV e then ([], [ta])
        else if pteLeaf e then ([], if level < 4 then [ta, pteOut e + va % 2 ^ lo] else [ta])
        else if pteBad level lo e then ([], [ta])
        else
          let (l, as) := nonLeafsOf s die ten (pteNext e) va rest
          (⟨die, ten, false, level - 1, va / 2 ^ lo * 2 ^ lo, 2 ^ lo, pteNext e⟩ :: l, ta :: as)

/-- The non-leaf entries on the way of a stage-2 walk. -/
def nonLeafs2 (s : State) (die ten table ia : Nat) : List (Nat × Nat × Nat) → List NonLeaf
  | [] => []
  | (level, hi, lo) :: rest =>
    let at_ := normPa s (table + bits ia hi lo * 8)
    let e := readNat s 32 at_ 8
    if poisoned s at_ 8 || !pteV e || pteLeaf e || pteBad level lo e then []
    else ⟨die, ten, true, level - 1, ia / 2 ^ lo * 2 ^ lo, 2 ^ lo, pteNext e⟩ :: nonLeafs2 s die ten (pteNext e) ia rest

/-- Keep what a stage-2 walk read for an intermediate address (R305). -/
def fill2 (die ten : Nat) (s : State) (ia : Nat) : State :=
  match s.s2held.find? (S2Held.covers die ten ia) with
  | some _ => s
  | none =>
    let leaf := stage2At s (some die) ten ia
    let read := match heldTable s die ten true ia with
      | some e => nonLeafs2 s die ten e.table ia (levelsFrom e)
      | none => nonLeafs2 s die ten (tcbOf s ten).s2root.toNat ia walkLevels
    let n := match leaf with | some u => u.size | none => 4096
    { s with nonleafs := read.foldl (fun l e => keepIn NonLeaf.die e l) s.nonleafs,
             s2held := keepIn S2Held.die ⟨die, ten, ia / n * n, n, leaf.map fun u => { u with pa := u.pa - ia % n }⟩ s.s2held }

/-- Keep a walk's result and the entries of both stages that it read in the die's TLB. DESIGN CHOICE (log entry 71). -/
def tlbFill (s : State) (core ten va : Nat) : State :=
  match s.tlb.find? (tlbHit core ten va) with
  | some _ => s
  | none =>
    let w := walkHeld s core ten va
    let die := dieOf core
    let (read, ias) := nonLeafsOf s die ten (walkFrom s core ten va).1 va (walkFrom s core ten va).2
    let s := { s with nonleafs := read.foldl (fun l e => keepIn NonLeaf.die e l) s.nonleafs }
    let s := ias.foldl (fill2 die ten) s
    if w.s2 || w.ask.isSome then s
    else { s with tlb := keepIn TlbEntry.die ⟨die, ten, w.base, w.size, w.code, w.x, w.ex, w.wr, w.rd, w.usr, w.ex2, w.wr2, w.rd2⟩ s.tlb }

/-- A tlbi of a tenancy removes the leaf and the non-leaf entries that it names. What stage 2 has given, and what other parts
have answered of the tenancy's tables, has no VA of its own and goes with any of them. DESIGN CHOICE (log entry 71). -/
def invalidate (s : State) (ten : Nat) (leaf : TlbEntry → Bool) (table : NonLeaf → Bool) : State :=
  { s with
    tlb := s.tlb.filter fun e => !(e.ten == ten && leaf e),
    nonleafs := s.nonleafs.filter fun e => !(e.ten == ten && (e.s2 || table e)),
    s2held := s.s2held.filter fun e => e.ten != ten,
    rwaits := s.rwaits.filter fun r => r.who != .walk ten }

/-- The entries that a stage-2 fault at a VA was found by (R304). -/
def invalidateVa (s : State) (ten va : Nat) : State :=
  invalidate s ten (fun e => decide (e.base ≤ va) && decide (va < e.base + e.size)) fun _ => false

/-! ### The checks of one access (R302, R303, R304) -/

/-- What an access needs. -/
inductive Need where | read | write | atomic | fetch
  deriving DecidableEq, Repr

def Need.ok (n : Need) (ex wr rd : Bool) : Bool :=
  match n with
  | .read => rd
  | .write => wr
  | .atomic => rd && wr
  | .fetch => ex

inductive XRes where
  | ok (x : Xlate)
  /-- a translation fault with its CODE -/
  | fault (code : Nat)
  /-- a stage-2 fault -/
  | stage2
  /-- a stage-1 entry on another part, by its PA, has to be read first -/
  | pte (pa : Nat)
  deriving DecidableEq, Repr

/-- Whether a domain-remote PA has a route, or is this part (R343). -/
def routed (s : State) (pa : Nat) : Bool :=
  remotePart pa == s.domidx.toNat ||
    (match tget s.routes (remotePart pa) with | some a => a != 0 | none => false)

/-- Translation and permission of one access of n bytes, in the order of R303. -/
def translate (s : State) (core ten : Nat) (lvl : Level) (need : Need) (va : Nat) : XRes :=
  let w := lookup s core ten va
  match w.ask with
  | some pa => .pte pa
  | none =>
  if w.code == 1 then .fault 1
  else if !need.ok w.ex w.wr w.rd || (lvl == .user && !w.usr) then .fault 2
  else if w.code != 0 then .fault w.code
  else if w.s2 || !need.ok w.ex2 w.wr2 w.rd2 then .stage2
  else
    let x := { w.x with pa := w.x.pa + (va - w.base) }
    if isRemote x.pa then (if routed s x.pa then .ok x else .fault 5)
    else if ownerOk s ten x.pa then .ok x
    else .fault 4

/-- The PA of a poisoned stage-2 entry that a walk of a VA meets, if it meets one (R304, R315). -/
def poison2 (s : State) (table ia : Nat) : List (Nat × Nat × Nat) → Option Nat
  | [] => none
  | (level, hi, lo) :: rest =>
    let at_ := normPa s (table + bits ia hi lo * 8)
    if poisoned s at_ 8 then some at_
    else
      let e := readNat s 32 at_ 8
      if !pteV e || pteLeaf e || pteBad level lo e then none else poison2 s (pteNext e) ia rest

/-- A stage-2 fault at a VA that poison in a table brings about is fatal to the tenancy (R315): the part resets it before anything
else moves. -/
def doom2 (s : State) (ten va : Nat) : State :=
  let w := walk s ten (va % 2 ^ 56)
  match (if w.s2 then poison2 s (tcbOf s ten).s2root.toNat w.ia walkLevels else none) with
  | some pa => { s with doomed := s.doomed ++ [(ten, pa)] }
  | none => s

/-- The address at this part that an access reaches, none when it goes to another part (R343). -/
def hereOf (s : State) (x : Xlate) : Option Nat := herePa s x.pa

end Sys2Proof.Machine
end

