-- ==== Sys2Proof/Machine/Operands.lean ====
section
/-! DEFINITION. Vector, mask and execution registers of a group: shapes, consumer counts, storage, reads, releases and
writes (R51 to R68, R123, R129, R176). -/

namespace Sys2Proof.Machine

/-! ### One register -/

/-- The value of lane i under a tag (R54). -/
def Shape.lane : Shape → Nat → Word
  | .uni u, _ => u
  | .aff b st, i => b + st * BitVec.ofNat 64 i
  | .gen vals, i => vals.getD i 0
  | .dead, _ => 0

/-- The tag code (R54). -/
def Shape.tag : Shape → Nat
  | .uni _ => 0 | .aff _ _ => 1 | .gen _ => 2 | .dead => 3

def Shape.isUni : Shape → Bool
  | .uni _ => true
  | .aff _ _ | .gen _ | .dead => false

/-- Nibble of slice s (R60). -/
def nibble (nib : BitVec 64) (s : Nat) : Nat := nib.toNat / 2 ^ (4 * s) % 16

/-- Nibbles of 16 slices from a function. -/
def nibbles (f : Nat → Nat) : BitVec 64 :=
  BitVec.ofNat 64 ((List.range 16).foldl (fun acc s => acc + f s * 2 ^ (4 * s)) 0)

/-- LIVE in slice s: bit 3 of the nibble. -/
def VReg.live (r : VReg) (s : Nat) : Bool := nibble r.nib s ≥ 8

/-- Slice s is in the set. -/
def inSlices (sl : BitVec 16) (s : Nat) : Bool := sl.toNat / 2 ^ s % 2 == 1

/-- The value of a lane as a lane exchange, a quiet read or an image sees it: zero where not LIVE (R64, R68, R129). -/
def VReg.src (r : VReg) (lane : Nat) : Word := if r.live (lane / 4) then r.val.lane lane else 0

def VReg.anyLive (r : VReg) : Bool := r.nib &&& 0x8888888888888888 != 0

/-- One decrement of a register in the slices of a gang (R61). -/
def VReg.release (r : VReg) (sl : BitVec 16) : VReg :=
  let nib := nibbles fun s =>
    let n := nibble r.nib s
    if inSlices sl s && n ≥ 9 then (if n = 9 then 0 else n - 1) else n
  if nib &&& 0x8888888888888888 == 0 then ⟨.dead, nib⟩ else ⟨r.val, nib⟩

/-- LIVE slices below a width. -/
def VReg.liveCount (r : VReg) : Nat := popcount 64 (r.nib &&& 0x8888888888888888).toNat

/-- Units of storage (R59). -/
def VReg.units (r : VReg) : Nat :=
  match r.val with
  | .uni _ | .aff _ _ => 1
  | .gen _ => r.liveCount
  | .dead => 0

/-- A write by a gang (R55, R60, R63): `exec` are the lanes written. A full write takes the shape given; a partial one
takes G, keeps the other lanes of LIVE slices and reads zero elsewhere. Every slice of the gang becomes LIVE with count
CC, whatever its EXEC bits hold; a gang that has no slice left writes nothing. DESIGN CHOICE (log entry 97). -/
def VReg.write (r : VReg) (w : Nat) (sl : BitVec 16) (exec : Mask) (full : Bool) (cc : CC) (shape : Option Shape)
    (f : Nat → Word) : VReg :=
  if sl == 0 then r
  else
    let nib := nibbles fun s => if inSlices sl s && s < w / 4 then 8 + cc.toNat else nibble r.nib s
    let vals := (List.range w).map fun i => if bitOf exec i then f i else r.src i
    match full, shape with
    | true, some sh => ⟨sh, nib⟩
    | _, _ => ⟨.gen vals, nib⟩

/-! ### A group's registers -/

def Group.reg (g : Group) (r : VR) : VReg := g.regs[r.toNat]'(r.isLt)
def Group.setReg (g : Group) (r : VR) (v : VReg) : Group := { g with regs := g.regs.set r.toNat v r.isLt }
def Group.mask (g : Group) (k : KR) : Mask := g.masks[k.toNat]'(k.isLt)
def Group.setMask (g : Group) (k : KR) (v : Mask) : Group := { g with masks := g.masks.set k.toNat v k.isLt }
def Group.view (g : Group) (w : WR) : Option OpenView := g.views[w.toNat]'(w.isLt)
def Group.setView (g : Group) (w : WR) (v : Option OpenView) : Group := { g with views := g.views.set w.toNat v w.isLt }
def Group.path (g : Group) (p : Nat) : Option Path := g.paths[p]?.join
def Group.setPath (g : Group) (p : Nat) (v : Option Path) : Group :=
  if h : p < 16 then { g with paths := g.paths.set p v h } else g

/-- The decrements of an instruction: one for each operand field, fields that name one register twice twice (R61). -/
def Group.release (g : Group) (sl : BitVec 16) : List VR → Group
  | [] => g
  | r :: t => Group.release (g.setReg r ((g.reg r).release sl)) sl t

/-- Storage of the registers from number i on: those of v0 to v3 in handler mode lie apart (R59, R176). -/
def storageFrom (handler : Bool) (allot : Nat) : Nat → List VReg → Nat
  | _, [] => 0
  | i, r :: t => (if i < allot && !(handler && i < 4) then r.units else 0) + storageFrom handler allot (i + 1) t

def Group.storage (g : Group) : Nat := storageFrom g.handler.isSome g.allot 0 g.regs.toList

/-- The gang of path p runs the group's trap handler. DEDUCED (log entry 49). -/
def Group.isHandler (g : Group) (p : Nat) : Bool :=
  match g.handler with
  | some h => h.path == p
  | none => false

/-- The lanes an instruction acts in: the active lanes, restricted to those of a re-execution (R178). -/
def Path.active (p : Path) : Mask :=
  match p.only with
  | some m => p.exec &&& m
  | none => p.exec

/-- A full write (R55), or any write of the handler gang to v0 to v3 (R176). -/
def Group.fullWrite (g : Group) (pi : Nat) (p : Path) (r : VR) : Bool :=
  (p.active == g.live && p.active != 0) || (g.isHandler pi && r.toNat < 4)

/-- Slice states of a register as a group holds them, whatever its width. -/
def Group.writeReg (g : Group) (pi : Nat) (p : Path) (r : VR) (cc : CC) (shape : Option Shape) (f : Nat → Word) : Group :=
  g.setReg r ((g.reg r).write g.w p.slices p.active (g.fullWrite pi p r) cc shape f)

/-- A mask write: only the bits of the lanes of the gang's slices, and none at or above W (R125). -/
def Group.writeMask (g : Group) (p : Path) (k : KR) (m : Mask) : Group :=
  let mine := laneMask p.slices &&& widthMask g.w
  g.setMask k ((g.mask k &&& ~~~mine) ||| (m &&& mine))

/-! ### Shapes of full writes (R56, R123) -/

/-- Whether every vector operand is U. -/
def allUni : List Shape → Bool := fun l => l.all Shape.isUni

/-- The shape of an instruction whose result is U exactly when every vector operand is U: the value of lane 0. -/
def shapeU (ops : List Shape) (f : Nat → Word) : Option Shape := if allUni ops then some (.uni (f 0)) else none

/-- iadd and iaddi of 64 bits, and lea with its scaled B. -/
def shapeAdd : Shape → Shape → Option Shape
  | .uni a, .uni b => some (.uni (a + b))
  | .aff b st, .uni c => some (.aff (b + c) st)
  | .uni c, .aff b st => some (.aff (c + b) st)
  | .aff b st, .aff b' st' => some (.aff (b + b') (st + st'))
  | _, _ => none

def shapeSub : Shape → Shape → Option Shape
  | .uni a, .uni b => some (.uni (a - b))
  | .aff b st, .uni c => some (.aff (b - c) st)
  | .uni c, .aff b st => some (.aff (c - b) (-st))
  | .aff b st, .aff b' st' => some (.aff (b - b') (st - st'))
  | _, _ => none

def shapeMul : Shape → Shape → Option Shape
  | .uni a, .uni b => some (.uni (a * b))
  | .aff b st, .uni c => some (.aff (b * c) (st * c))
  | .uni c, .aff b st => some (.aff (b * c) (st * c))
  | _, _ => none

/-- A shape scaled by a power of two. -/
def shapeShl : Shape → Nat → Option Shape
  | .uni a, n => some (.uni (a <<< n))
  | .aff b st, n => some (.aff (b <<< n) (st <<< n))
  | .gen _, _ => none
  | .dead, _ => none

/-! ### Register images (R68) -/

/-- The image of register number r in a group of width w. -/
def VReg.image (v : VReg) (w r : Nat) : List Byte :=
  let tag := if v.anyLive then v.val.tag else 3
  let head := [BitVec.ofNat 8 tag, BitVec.ofNat 8 r, BitVec.ofNat 8 (w / 4), 0, 0, 0, 0, 0] ++ leBytes 8 v.nib.toNat
  match (if v.anyLive then v.val else Shape.dead) with
  | .uni u => head ++ leBytes 8 u.toNat
  | .aff b st => head ++ leBytes 8 b.toNat ++ leBytes 8 st.toNat
  | .gen _ => head ++ ((List.range w).map fun i => leBytes 8 (v.src i).toNat).flatten
  | .dead => head

/-- Bytes of an image by its TAG. -/
def imageSize (tag w : Nat) : Nat :=
  match tag with
  | 0 => 24
  | 1 => 32
  | 2 => 16 + 8 * w
  | _ => 16

/-- A restore's register, or none where the image breaks R68. -/
def VReg.ofImage (w : Nat) (l : List Byte) : Option VReg :=
  let tag := field l 0 1
  let nib := field l 8 8
  if tag > 3 || field l 2 1 != w / 4 || nib / 2 ^ w != 0 || !zeroAt l 3 5 then none
  else
    let v := match tag with
      | 0 => Shape.uni (BitVec.ofNat 64 (field l 16 8))
      | 1 => Shape.aff (BitVec.ofNat 64 (field l 16 8)) (BitVec.ofNat 64 (field l 24 8))
      | 2 => Shape.gen ((List.range w).map fun i => BitVec.ofNat 64 (field l (16 + 8 * i) 8))
      | _ => Shape.dead
    some ⟨v, BitVec.ofNat 64 nib⟩

/-- ldspill's restore (R162): exactly as saved by a gang that holds every slice with a live lane, else in its slices. -/
def VReg.restore (old new : VReg) (w : Nat) (sl : BitVec 16) (whole : Bool) : VReg :=
  if whole then new
  else
    let nib := nibbles fun s => if inSlices sl s then nibble new.nib s else nibble old.nib s
    if nib &&& 0x8888888888888888 == 0 then ⟨.dead, nib⟩
    else ⟨.gen ((List.range w).map fun i => if inSlices sl (i / 4) then new.src i else old.src i), nib⟩

/-- The gang holds every slice with a lane in the live mask. -/
def Group.holdsLive (g : Group) (sl : BitVec 16) : Bool := g.live &&& ~~~(laneMask sl) == 0

end Sys2Proof.Machine
end

