-- ==== Sys2Proof/Machine/Flags.lean ====
section
/-! DEFINITION. Completion flags, class counters and matrix batches, all read off the list of pending operations
(R51, R52, R98, R149, R171, R190), and the sticky status registers (R67). -/

namespace Sys2Proof.Machine

/-- The active lanes in increasing order. -/
def Path.lanes (p : Path) : List Nat := lanes64.filter (bitOf p.active)

/-- The gang has issued an operation that sets a flag, and a later operation of its clause will set it too (R52). -/
def Path.owed (p : Path) (i : Nat) : Bool :=
  match p.spot with
  | .inside _ _ pc => p.owes.any fun x => x.1 == i && decide (pc ≤ x.2)
  | .boundary _ => false

/-- The clause that a handler interrupted owes a flag: a later operation of it is still to issue (R52). -/
def Handler.owed (h : Handler) (i : Nat) : Bool :=
  match h.spot with
  | .inside _ _ pc => h.owes.any fun x => x.1 == i && decide (pc ≤ x.2)
  | .boundary _ => false

/-- A flag is pending from the first operation that sets it until every operation of its clause that sets it has completed,
also while a handler runs in the clause's place (R52). -/
def Group.flagPending (g : Group) (i : Nat) : Bool :=
  (g.ops.any fun o => !o.done && o.flag == some i) || (g.paths.toList.any fun p => p.any fun q => q.owed i) ||
    g.handler.any fun h => h.owed i

/-- f0 to f11 as bits. -/
def Group.flags (g : Group) : BitVec 12 :=
  BitVec.ofNat 12 ((List.range 12).foldl (fun acc i => if g.flagPending i then acc + 2 ^ i else acc) 0)

def Group.anyFlag (g : Group) (m : BitVec 12) : Bool := g.flags &&& m != 0

/-- Operations of a class that have not left its counter. -/
def Group.inClass (g : Group) (c : OpClass) : Nat := (g.ops.filter fun o => o.cls == c).length

/-- The value of a class counter (R52). -/
def Group.counter (g : Group) : Ctr → Nat
  | .m => g.inClass .mem
  | .c => g.inClass .copy
  | .x => g.closed.length
  | .l => g.inClass .coll

/-- CNTS of R66. -/
def Group.cnts (g : Group) : Word :=
  BitVec.ofNat 64 (g.counter .m + g.counter .c * 2 ^ 8 + g.counter .x * 2 ^ 16 + g.counter .l * 2 ^ 24)

/-- A closed batch is complete when all of its operations are (R190). -/
def Group.batchDone (g : Group) (b : Nat) : Bool := g.ops.all fun o => o.batch != some b || o.done

/-- Drop complete batches from the front: they leave CNTX in batch-number order. -/
def dropDone (done : Nat → Bool) : List Nat → List Nat
  | [] => []
  | b :: t => if done b then dropDone done t else b :: t

/-- Completed operations that leave their counter: those with no older operation of their class pending (R171). -/
def leaveOps : List OpClass → List POp → List POp
  | _, [] => []
  | held, o :: t =>
    let counts := o.cls == .mem || o.cls == .copy || o.cls == .coll
    if o.done && !(counts && held.contains o.cls) then leaveOps held t
    else o :: leaveOps (o.cls :: held) t

/-- The decrements of R149 and R171. -/
def Group.settle (g : Group) : Group :=
  let g := { g with closed := dropDone g.batchDone g.closed }
  { g with ops := leaveOps [] g.ops }

/-- An operation that would raise its counter above 63 does not issue (R52). -/
def Group.counterFull (g : Group) (c : Ctr) : Bool := g.counter c ≥ 63

/-- Replace a pending operation. -/
def Group.putOp (g : Group) (o : POp) : Group := { g with ops := g.ops.map fun x => if x.id = o.id then o else x }
def Group.op (g : Group) (id : Nat) : Option POp := g.ops.find? fun o => o.id == id

/-- The registers a pending operation has still to write. -/
def POp.writes (o : POp) (r : Nat) : Bool :=
  !o.done && (match o.dest with | some (d, _) => decide (d.toNat ≤ r) && decide (r < d.toNat + o.nregs) | none => false)

/-- A register is held while a pending operation has still to write it (R150). -/
def Group.isHeld (g : Group) (r : Nat) : Bool := g.ops.any fun o => o.writes r

/-! ### Status registers (R67) -/

/-- Bits of FSTAT. -/
def fNV : BitVec 5 := 1
def fDZ : BitVec 5 := 2
def fOF : BitVec 5 := 4
def fUF : BitVec 5 := 8
def fNX : BitVec 5 := 16
/-- Bits of MSTAT. -/
def mNSAT : BitVec 3 := 1
def mOVF : BitVec 3 := 2
def mINV : BitVec 3 := 4

def Group.fstatWord (g : Group) : Word := BitVec.ofNat 64 (g.fstat.toNat + (if g.fpinv then 256 else 0))
def Group.mstatWord (g : Group) : Word := BitVec.ofNat 64 g.mstat.toNat

end Sys2Proof.Machine
end

