-- ==== Sys2Proof/Machine/Float.lean ====
section
/-! DEFINITION. Floating-point values as exact dyadic numbers and their rounding (R102, R103, R133 to R148, R212 to R220):
decoding, encoding, the arithmetic rows, conversions and the functions of R141. -/

namespace Sys2Proof.Machine

/-! ### Formats -/

/-- A format: exponent bits, fraction bits, and whether it is E4M3, whose one NaN is all ones and which has no infinity. -/
structure Fmt where
  eb : Nat
  fb : Nat
  e4m3 : Bool
  deriving DecidableEq, Repr

def fmtF16 : Fmt := ⟨5, 10, false⟩
def fmtBf16 : Fmt := ⟨8, 7, false⟩
def fmtF32 : Fmt := ⟨8, 23, false⟩
def fmtF64 : Fmt := ⟨11, 52, false⟩
def fmtE4m3 : Fmt := ⟨4, 3, true⟩
def fmtE5m2 : Fmt := ⟨5, 2, false⟩

def fmtOf : FT → Fmt | .f16 => fmtF16 | .bf16 => fmtBf16 | .f32 => fmtF32 | .f64 => fmtF64

def Fmt.bias (f : Fmt) : Int := (2 ^ (f.eb - 1) : Nat) - 1
def Fmt.width (f : Fmt) : Nat := 1 + f.eb + f.fb
/-- Exponent of the unit in the last place of a subnormal. -/
def Fmt.qmin (f : Fmt) : Int := 1 - f.bias - f.fb
/-- Exponent of the smallest normal. -/
def Fmt.emin (f : Fmt) : Int := 1 - f.bias
def Fmt.emax (f : Fmt) : Int := f.bias
def Fmt.infBits (f : Fmt) : Nat := (2 ^ f.eb - 1) * 2 ^ f.fb
def Fmt.signBit (f : Fmt) : Nat := 2 ^ (f.eb + f.fb)
/-- The canonical NaN (R134). -/
def Fmt.nan (f : Fmt) : Nat :=
  if f.e4m3 then 0x7F else if f.eb = 5 && f.fb = 2 then 0x7E else f.infBits + 2 ^ (f.fb - 1)

/-! ### Values -/

/-- A decoded value: a NaN, an infinity, or (−1)^neg × m × 2^e. -/
inductive FV where
  | nan (signalling : Bool)
  | inf (neg : Bool)
  | fin (neg : Bool) (m : Nat) (e : Int)
  deriving DecidableEq, Repr

def FV.isNan : FV → Bool | .nan _ => true | .inf _ | .fin _ _ _ => false
def FV.isSnan : FV → Bool | .nan q => q | .inf _ | .fin _ _ _ => false
def FV.isInf : FV → Bool | .inf _ => true | .nan _ | .fin _ _ _ => false
def FV.isZero : FV → Bool | .fin _ m _ => m == 0 | .nan _ | .inf _ => false
def FV.sign : FV → Bool | .fin n _ _ => n | .inf n => n | .nan _ => false

/-- F(x): the value that the low bits encode. -/
def Fmt.decode (f : Fmt) (x : Nat) : FV :=
  let y := x % 2 ^ f.width
  let neg := y / f.signBit % 2 == 1
  let ex := y / 2 ^ f.fb % 2 ^ f.eb
  let fr := y % 2 ^ f.fb
  if f.e4m3 then
    if ex = 15 && fr = 7 then .nan false
    else if ex = 0 then .fin neg fr f.qmin
    else .fin neg (8 + fr) (f.qmin + ((ex : Int) - 1))
  else if ex = 2 ^ f.eb - 1 then
    if fr = 0 then .inf neg else .nan (decide (fr < 2 ^ (f.fb - 1)))
  else if ex = 0 then .fin neg fr f.qmin
  else .fin neg (2 ^ f.fb + fr) (f.qmin + ((ex : Int) - 1))

/-- A result: encoding and the flags NV, DZ, OF, UF, NX. -/
structure FR where
  bits : Nat
  fl   : BitVec 5
  deriving DecidableEq, Repr

def Fmt.sgn (f : Fmt) (neg : Bool) : Nat := if neg then f.signBit else 0
def Fmt.rNan (f : Fmt) (fl : BitVec 5) : FR := ⟨f.nan, fl⟩
def Fmt.rInf (f : Fmt) (neg : Bool) (fl : BitVec 5) : FR := ⟨f.sgn neg + f.infBits, fl⟩
def Fmt.rZero (f : Fmt) (neg : Bool) : FR := ⟨f.sgn neg, 0⟩

/-! ### Rounding (R134) -/

/-- m × 2^e, plus something below 2^e when `sticky`, rounded to a multiple of 2^q: the integer and whether it is
inexact. -/
def roundTo (rm : RM) (neg : Bool) (m : Nat) (e : Int) (sticky : Bool) (q : Int) : Nat × Bool :=
  if q ≤ e then
    let r := m * 2 ^ (e - q).toNat
    let up := sticky && (match rm with | .rup => !neg | .rdn => neg | .rne | .rtz => false)
    (if up then r + 1 else r, sticky)
  else
    let sh := (q - e).toNat
    let r := m / 2 ^ sh
    let rem := m % 2 ^ sh
    let half := 2 ^ (sh - 1)
    let inexact := rem != 0 || sticky
    let up := match rm with
      | .rne => decide (half < rem) || (rem == half && (sticky || r % 2 == 1))
      | .rtz => false
      | .rup => inexact && !neg
      | .rdn => inexact && neg
    (if up then r + 1 else r, inexact)

/-- Overflow of a format other than E4M3, as the mode directs. -/
def Fmt.overflow (f : Fmt) (rm : RM) (neg : Bool) : FR :=
  let toInf := match rm with | .rne => true | .rtz => false | .rup => !neg | .rdn => neg
  ⟨f.sgn neg + (if toInf then f.infBits else f.infBits - 1), fOF ||| fNX⟩

/-- Floor of log2 of m × 2^e, m > 0. -/
def expOf (m : Nat) (e : Int) : Int := (Nat.log2 m : Int) + e

/-- RND: the exact value (−1)^neg × m × 2^e (and a sticky rest) rounded into the format. -/
def Fmt.round (f : Fmt) (rm : RM) (neg : Bool) (m : Nat) (e : Int) (sticky : Bool) : FR :=
  if m = 0 && !sticky then f.rZero neg
  else
    let qu := expOf m e - f.fb
    let q := max qu f.qmin
    let (r, nx) := roundTo rm neg m e sticky q
    let (ru, _) := roundTo rm neg m e sticky qu
    let tiny := decide (expOf ru qu < f.emin) || ru == 0
    let big := !f.e4m3 && decide (f.emax < expOf ru qu) && ru != 0
    if big then f.overflow rm neg
    else ⟨f.sgn neg + (q - f.qmin).toNat * 2 ^ f.fb + r,
          (if nx then fNX else 0) ||| (if nx && tiny then fUF else 0)⟩

/-! ### Arithmetic rows (R136) -/

/-- Signed sum of two dyadics at a common exponent. -/
def addDyadic (n1 : Bool) (m1 : Nat) (e1 : Int) (n2 : Bool) (m2 : Nat) (e2 : Int) : Int × Int :=
  let e := min e1 e2
  let a : Int := (m1 * 2 ^ (e1 - e).toNat : Nat)
  let b : Int := (m2 * 2 ^ (e2 - e).toNat : Nat)
  ((if n1 then -a else a) + (if n2 then -b else b), e)

/-- The sign of an exact zero sum (R134): that of both zeros when they agree, else −0 under .rdn only. -/
def zeroSign (rm : RM) (bothNeg bothPos : Bool) : Bool :=
  if bothNeg then true else if bothPos then false else match rm with | .rdn => true | .rne | .rtz | .rup => false

def nanFlags (l : List FV) : BitVec 5 := if l.any FV.isSnan then fNV else 0

def Fmt.add (f : Fmt) (rm : RM) (x y : FV) : FR :=
  match x, y with
  | .fin n1 m1 e1, .fin n2 m2 e2 =>
    let (v, e) := addDyadic n1 m1 e1 n2 m2 e2
    if v = 0 then
      f.rZero (zeroSign rm (n1 && n2 && m1 == 0) (!n1 && !n2 && m1 == 0))
    else f.round rm (decide (v < 0)) v.natAbs e false
  | .inf a, .inf b => if a = b then f.rInf a 0 else f.rNan fNV
  | .inf a, .fin _ _ _ => f.rInf a 0
  | .fin _ _ _, .inf b => f.rInf b 0
  | x, y => f.rNan (nanFlags [x, y])

def FV.neg : FV → FV
  | .nan q => .nan q
  | .inf n => .inf (!n)
  | .fin n m e => .fin (!n) m e

def Fmt.sub (f : Fmt) (rm : RM) (x y : FV) : FR := f.add rm x y.neg

/-- The exact product; 0 × ∞ is none. -/
def mulFV : FV → FV → Option FV
  | .fin n1 m1 e1, .fin n2 m2 e2 => some (.fin (n1 != n2) (m1 * m2) (e1 + e2))
  | .inf a, .inf b => some (.inf (a != b))
  | .inf a, .fin n m _ => if m = 0 then none else some (.inf (a != n))
  | .fin n m _, .inf b => if m = 0 then none else some (.inf (n != b))
  | .nan q, _ => some (.nan q)
  | _, .nan q => some (.nan q)

def Fmt.mul (f : Fmt) (rm : RM) (x y : FV) : FR :=
  if x.isNan || y.isNan then f.rNan (nanFlags [x, y])
  else
    match mulFV x y with
    | none => f.rNan fNV
    | some (.fin n m e) => f.round rm n m e false
    | some (.inf n) => f.rInf n 0
    | some (.nan _) => f.rNan 0

/-- x × y + z with one rounding; 0 × ∞ is invalid even with a NaN addend (R134). -/
def Fmt.fma (f : Fmt) (rm : RM) (x y z : FV) : FR :=
  let bad := match mulFV x y with | none => true | some _ => false
  if x.isNan || y.isNan || z.isNan then f.rNan (nanFlags [x, y, z] ||| (if bad then fNV else 0))
  else
    match mulFV x y with
    | none => f.rNan fNV
    | some w => f.add rm w z

/-- A quotient of naturals with at least p + 3 bits: the integer, its exponent and whether it is inexact. -/
def divDyadic (p m1 : Nat) (e1 : Int) (m2 : Nat) (e2 : Int) : Nat × Int × Bool :=
  let sh := p + 4 + Nat.log2 m2
  let num := m1 * 2 ^ sh
  (num / m2, e1 - e2 - sh, num % m2 != 0)

def Fmt.div (f : Fmt) (rm : RM) (x y : FV) : FR :=
  match x, y with
  | .fin n1 m1 e1, .fin n2 m2 e2 =>
    if m2 = 0 then (if m1 = 0 then f.rNan fNV else f.rInf (n1 != n2) fDZ)
    else if m1 = 0 then f.rZero (n1 != n2)
    else
      let (q, e, st) := divDyadic f.fb m1 e1 m2 e2
      f.round rm (n1 != n2) q e st
  | .inf _, .inf _ => f.rNan fNV
  | .inf a, .fin n _ _ => f.rInf (a != n) 0
  | .fin n _ _, .inf b => f.rZero (n != b)
  | x, y => f.rNan (nanFlags [x, y])

/-- floor(√n), bit by bit from 2^k down. -/
def isqrt (n : Nat) : Nat → Nat → Nat
  | 0, r => if (r + 1) * (r + 1) ≤ n then r + 1 else r
  | k + 1, r => isqrt n k (if (r + 2 ^ (k + 1)) * (r + 2 ^ (k + 1)) ≤ n then r + 2 ^ (k + 1) else r)
def sqrtNat (n : Nat) : Nat := isqrt n (Nat.log2 n / 2 + 1) 0

def Fmt.sqrt (f : Fmt) (rm : RM) (x : FV) : FR :=
  match x with
  | .fin n m e =>
    if m = 0 then f.rZero n
    else if n then f.rNan fNV
    else
      let sh := 2 * (f.fb + 4) + (if (e % 2 = 0) then 0 else 1)
      let v := m * 2 ^ sh
      let r := sqrtNat v
      f.round rm false r ((e - sh) / 2) (r * r != v)
  | .inf n => if n then f.rNan fNV else f.rInf false 0
  | .nan q => f.rNan (if q then fNV else 0)

/-- 1 ÷ √x. -/
def Fmt.rsqrt (f : Fmt) (rm : RM) (x : FV) : FR :=
  match x with
  | .fin n m e =>
    if m = 0 then f.rInf n fDZ
    else if n then f.rNan fNV
    else
      let (m, e) := if e % 2 = 0 then (m, e) else (2 * m, e - 1)
      let t := Nat.log2 m / 2 + f.fb + 6
      let r := sqrtNat (2 ^ (2 * t) / m)
      f.round rm false r (-(t : Int) - e / 2) (r * r * m != 2 ^ (2 * t))
  | .inf n => if n then f.rNan fNV else f.rZero false
  | .nan q => f.rNan (if q then fNV else 0)

def Fmt.rcp (f : Fmt) (rm : RM) (x : FV) : FR := f.div rm (.fin false 1 0) x

/-- x × 2^n, n a signed 64-bit integer; beyond ±8,192 the result no longer depends on n. -/
def Fmt.scaleb (f : Fmt) (rm : RM) (x : FV) (n : Int) : FR :=
  match x with
  | .fin s m e => f.round rm s m (e + min 8192 (max (-8192) n)) false
  | .inf s => f.rInf s 0
  | .nan q => f.rNan (if q then fNV else 0)

/-! ### Minimum, maximum, comparison, class (R137, R139, R140) -/

/-- a < b for values that are not NaN. -/
def FV.lt : FV → FV → Bool
  | .fin n1 m1 e1, .fin n2 m2 e2 => decide ((addDyadic n1 m1 e1 (!n2) m2 e2).1 < 0)
  | .inf a, .inf b => a && !b
  | .inf a, .fin _ _ _ => a
  | .fin _ _ _, .inf b => !b
  | .nan _, _ => false
  | _, .nan _ => false
def FV.eq : FV → FV → Bool
  | .fin n1 m1 e1, .fin n2 m2 e2 => (addDyadic n1 m1 e1 (!n2) m2 e2).1 == 0
  | .inf a, .inf b => a == b
  | .inf _, .fin _ _ _ | .fin _ _ _, .inf _ => false
  | .nan _, _ => false
  | _, .nan _ => false
/-- The order of minimum and maximum: −0 below +0. -/
def FV.before (x y : FV) : Bool := x.lt y || (x.eq y && x.sign && !y.sign)

/-- The encoding of an operand that a result returns exactly: the canonical NaN for a NaN. -/
def Fmt.keep (f : Fmt) (x : FV) (raw : Nat) : Nat := if x.isNan then f.nan else raw % 2 ^ f.width

def Fmt.minmax (f : Fmt) (isMax nanWins : Bool) (a b : Nat) : FR :=
  let x := f.decode a
  let y := f.decode b
  let fl := nanFlags [x, y]
  if x.isNan || y.isNan then
    if nanWins || (x.isNan && y.isNan) then ⟨f.nan, fl⟩
    else ⟨if x.isNan then f.keep y b else f.keep x a, fl⟩
  else ⟨if x.before y != isMax then f.keep x a else f.keep y b, fl⟩

def fcmpFn (f : Fmt) (r : FRel) (a b : Nat) : Bool × BitVec 5 :=
  let x := f.decode a
  let y := f.decode b
  let un := x.isNan || y.isNan
  match r with
  | .eq => (x.eq y, nanFlags [x, y])
  | .lt => (x.lt y, if un then fNV else 0)
  | .le => (x.lt y || x.eq y, if un then fNV else 0)
  | .un => (un, nanFlags [x, y])

def fclassFn (f : Fmt) (a : Nat) : Nat :=
  match f.decode a with
  | .nan q => if q then 1 else 2
  | .inf n => if n then 4 else 512
  | .fin n m _ =>
    if m = 0 then (if n then 32 else 64)
    else if m < 2 ^ f.fb then (if n then 16 else 128)
    else if n then 8 else 256

/-! ### Integral rounding and fractions (R142) -/

/-- Round to an integral value: the magnitude, and whether it differs. -/
def integral (rm : RM) (n : Bool) (m : Nat) (e : Int) : Nat × Bool := roundTo rm n m e false 0

def Fmt.rnd (f : Fmt) (rm : RM) (x : FV) : FR :=
  match x with
  | .fin n m e =>
    let (r, _) := integral rm n m e
    let y := f.round .rtz n r 0 false
    ⟨y.bits, 0⟩
  | .inf n => f.rInf n 0
  | .nan q => f.rNan (if q then fNV else 0)

def Fmt.frac (f : Fmt) (x : FV) : FR :=
  match x with
  | .fin n m e =>
    if 0 ≤ e then f.rZero n
    else
      let sh := (-e).toNat
      let y := f.round .rtz n (m % 2 ^ sh) e false
      ⟨y.bits, 0⟩
  | .inf _ => f.rNan fNV
  | .nan q => f.rNan (if q then fNV else 0)

/-! ### The functions of R141, in fixed point with `fx` fractional bits -/

/-- Fractional bits of the working precision. DEDUCED (log entry 45). -/
def fx : Nat := 320
def fxOne : Nat := 2 ^ fx

/-- Σ 1/((2k+1) x^(2k+1)), with alternating signs when `alt`: the inverse tangents of 1/x. -/
def arcSum (alt : Bool) (x : Nat) : Nat → Nat → Nat → Int → Int
  | 0, _, _, acc => acc
  | n + 1, k, pw, acc =>
    let t : Int := (pw / (2 * k + 1) : Nat)
    arcSum alt x n (k + 1) (pw / (x * x)) (if alt && k % 2 = 1 then acc - t else acc + t)

/-- ln 2 = 2 artanh(1/3). -/
def fxLn2 : Nat := (2 * arcSum false 3 120 0 (fxOne / 3) 0).toNat
/-- π = 16 arctan(1/5) − 4 arctan(1/239). -/
def fxPi : Nat := (16 * arcSum true 5 80 0 (fxOne / 5) 0 - 4 * arcSum true 239 24 0 (fxOne / 239) 0).toNat

/-- e^x for a fixed-point x below 1, by its series. -/
def fxExp (x : Nat) : Nat → Nat → Nat → Nat → Nat
  | 0, _, _, acc => acc
  | n + 1, k, t, acc => fxExp x n (k + 1) (t * x / fxOne / (k + 1)) (acc + t)

/-- sin x for a fixed-point x below 2: the terms x^(2k+1)/(2k+1)! with alternating signs. -/
def fxSin (x : Nat) : Nat → Nat → Nat → Int → Int
  | 0, _, _, acc => acc
  | n + 1, k, t, acc =>
    fxSin x n (k + 1) (t * x / fxOne * x / fxOne / ((2 * k + 2) * (2 * k + 3))) (if k % 2 = 0 then acc + t else acc - t)

/-- artanh z for a fixed-point z below 1/3. -/
def fxArtanh (zz : Nat) : Nat → Nat → Nat → Nat → Nat
  | 0, _, _, acc => acc
  | n + 1, k, t, acc => fxArtanh zz n (k + 1) (t * zz / fxOne) (acc + t / (2 * k + 1))

def Fmt.exp2 (f : Fmt) (x : FV) : FR :=
  match x with
  | .inf n => if n then f.rZero false else f.rInf false 0
  | .nan q => f.rNan (if q then fNV else 0)
  | .fin n m e =>
    if m = 0 then f.round .rne false 1 0 false
    else if 12 ≤ expOf m e then
      -- beyond every exponent of the format: overflow, or an underflow to zero
      if n then f.round .rne false 1 (-8192) true else f.overflow .rne false
    else
      let v : Int := if 0 ≤ e then (m * 2 ^ e.toNat * fxOne : Nat) else (m * 2 ^ (fx - (-e).toNat) : Nat)
      let v := if n then -v else v
      let k := v / (fxOne : Int)
      let fr := (v % (fxOne : Int)).toNat
      if fr = 0 then f.round .rne false 1 k false
      else f.round .rne false (fxExp (fr * fxLn2 / fxOne) 100 0 fxOne 0) (k - fx) true

def Fmt.log2 (f : Fmt) (x : FV) : FR :=
  match x with
  | .inf n => if n then f.rNan fNV else f.rInf false 0
  | .nan q => f.rNan (if q then fNV else 0)
  | .fin n m e =>
    if m = 0 then f.rInf true fDZ
    else if n then f.rNan fNV
    else
      let lg := Nat.log2 m
      let ex := (lg : Int) + e
      if m = 2 ^ lg then f.round .rne (decide (ex < 0)) ex.natAbs 0 false
      else
        let y := m * 2 ^ (fx - lg)
        let z := (y - fxOne) * fxOne / (y + fxOne)
        let ln := 2 * fxArtanh (z * z / fxOne) 110 0 z 0
        let v := ex * (fxOne : Int) + (ln * fxOne / fxLn2 : Nat)
        f.round .rne (decide (v < 0)) v.natAbs (-(fx : Int)) true

/-- sin(π t) for t in units of 2^−fx, 0 ≤ t ≤ 1/2. -/
def sinPiHalf (t : Nat) : Nat := (fxSin (fxPi * t / fxOne) 60 0 (fxPi * t / fxOne) 0).toNat

/-- sin(π r) rounded, for r in [0, 2) in units of 2^−fx that is no multiple of 1/2, negated when `n`. -/
def Fmt.sinPi (f : Fmt) (n : Bool) (r : Nat) : FR :=
  let neg := decide (fxOne ≤ r)
  let r := r % fxOne
  let t := if 2 * r ≤ fxOne then r else fxOne - r
  f.round .rne (neg != n) (sinPiHalf t) (-(fx : Int)) true

/-- m × 2^e modulo 2, in units of 2^−fx. -/
def mod2 (m : Nat) (e : Int) : Nat :=
  if 0 ≤ e then (m * 2 ^ e.toNat * fxOne) % (2 * fxOne) else (m * 2 ^ (fx - (-e).toNat)) % (2 * fxOne)

/-- sin(π a): R141's exact results at multiples of one half. -/
def Fmt.sin (f : Fmt) (x : FV) : FR :=
  match x with
  | .inf _ => f.rNan fNV
  | .nan q => f.rNan (if q then fNV else 0)
  | .fin n m e =>
    let e' := min e 64
    let r := mod2 m e'
    if r % fxOne = 0 then f.rZero n
    else if 2 * r % fxOne = 0 then f.round .rne ((r > fxOne) != n) 1 0 false
    else f.sinPi n r

def Fmt.cos (f : Fmt) (x : FV) : FR :=
  match x with
  | .inf _ => f.rNan fNV
  | .nan q => f.rNan (if q then fNV else 0)
  | .fin _ m e =>
    let e' := min e 64
    let r := (mod2 m e' + fxOne / 2) % (2 * fxOne)
    if r % fxOne = 0 then f.rZero false
    else if 2 * r % fxOne = 0 then f.round .rne (r > fxOne) 1 0 false
    else f.sinPi false r

/-! ### Conversions (R143 to R145) -/

/-- The kinds of CVT type: a float format, or an integer of a width and signedness. -/
inductive CK where
  | flt (f : Fmt)
  | int (w : Nat) (signed : Bool)
  deriving DecidableEq, Repr

def CT.kind : CT → CK
  | .f16 => .flt fmtF16 | .bf16 => .flt fmtBf16 | .f32 => .flt fmtF32 | .f64 => .flt fmtF64
  | .e4m3 => .flt fmtE4m3 | .e5m2 => .flt fmtE5m2
  | .s4 => .int 4 true | .s8 => .int 8 true | .s16 => .int 16 true | .s32 => .int 32 true | .s64 => .int 64 true
  | .n8 => .int 8 false | .n16 => .int 16 false | .n32 => .int 32 false | .n64 => .int 64 false

/-- Into E4M3: overflow is judged before rounding (R144). -/
def toE4m3 (sat : Bool) (rm : RM) (x : FV) : FR :=
  match x with
  | .nan q => ⟨0x7F, if q then fNV else 0⟩
  | .inf n => if sat then ⟨if n then 0xFE else 0x7E, fOF ||| fNX⟩ else ⟨0x7F, fNV⟩
  | .fin n m e =>
    if decide ((addDyadic false m e true 448 0).1 > 0) then
      ⟨if sat then (if n then 0xFE else 0x7E) else 0x7F, fOF ||| fNX⟩
    else fmtE4m3.round rm n m e false

def toFloat (f : Fmt) (sat : Bool) (rm : RM) (x : FV) : FR :=
  if f.e4m3 then toE4m3 sat rm x
  else
    match x with
    | .nan q => f.rNan (if q then fNV else 0)
    | .inf n => f.rInf n 0
    | .fin n m e => f.round rm n m e false

def intMin (w : Nat) (signed : Bool) : Int := if signed then -((2 ^ (w - 1) : Nat) : Int) else 0
def intMax (w : Nat) (signed : Bool) : Int := if signed then ((2 ^ (w - 1) : Nat) : Int) - 1 else ((2 ^ w : Nat) : Int) - 1

/-- Into an integer type: the value and its flags (R145). -/
def toInt (w : Nat) (signed : Bool) (rm : RM) (x : FV) : Int × BitVec 5 :=
  match x with
  | .nan _ => (0, fNV)
  | .inf n => (if n then intMin w signed else intMax w signed, fNV)
  | .fin n m e =>
    let (r, nx) := integral rm n m e
    let v : Int := if n then -(r : Int) else r
    if v < intMin w signed then (intMin w signed, fNV)
    else if intMax w signed < v then (intMax w signed, fNV)
    else (v, if nx then fNX else 0)

/-- An integer as an exact value. -/
def ofInt (v : Int) : FV := .fin (decide (v < 0)) v.natAbs 0

/-- The value of the low bits of a word as a CVT type. -/
def ctInt (w : Nat) (signed : Bool) (x : Nat) : Int := if signed then sval w x else ((x % 2 ^ w : Nat) : Int)

/-- CONV: the lane's result, zero-extended for float and n types and sign-extended for s types. -/
def cvtFn (sat : Bool) (rm : RM) (ct from_ : CT) (a : Word) : Word × BitVec 5 :=
  match CT.kind from_, CT.kind ct with
  | .flt f, .flt g =>
    let r := toFloat g sat rm (f.decode a.toNat)
    (BitVec.ofNat 64 r.bits, r.fl)
  | .int w sg, .flt g =>
    let r := toFloat g sat rm (ofInt (ctInt w sg a.toNat))
    (BitVec.ofNat 64 r.bits, r.fl)
  | .flt f, .int w sg =>
    let (v, fl) := toInt w sg rm (f.decode a.toNat)
    (BitVec.ofInt 64 v, fl)
  | .int w sg, .int w' sg' =>
    let v := ctInt w sg a.toNat
    if v < intMin w' sg' then (BitVec.ofInt 64 (intMin w' sg'), fNV)
    else if intMax w' sg' < v then (BitVec.ofInt 64 (intMax w' sg'), fNV)
    else (BitVec.ofInt 64 v, 0)

end Sys2Proof.Machine
end

