-- ==== Sys2Proof/Machine/Trace.lean ====
section
/-! DEFINITION. Messages for domain-remote addresses (R340, R343), and the trace stream (R327 to R332): packets, the ring, losses
and sync packets; counters of R328. -/

namespace Sys2Proof.Machine

/-! ### Domain-remote addresses (R340, R343) -/

/-- The TEN byte of a message: firmware is 0xFE (R340). -/
def tenByte (ten : Nat) : BitVec 8 := if ten < 32 then BitVec.ofNat 8 ten else 0xFE

/-- The port of a message: a hash of the part index and the offset's bits 41:12 (R343), whose form the spec leaves open.
DESIGN CHOICE (log entry 16). -/
def portOf (part off : Nat) : Nat := Config.portHash part (off % 2 ^ 42 / 4096) % 16

/-- log2 of a size of 1 to 4,096 bytes. -/
def log2Of (n : Nat) : Nat := Nat.log2 n

def accFrame (s : State) (op ten ord scp size tag pa arg : Nat) (data : List Byte) : Frame :=
  ⟨BitVec.ofNat 8 op, tenByte ten, BitVec.ofNat 8 (ord + scp * 4), BitVec.ofNat 8 (log2Of size), BitVec.ofNat 32 tag,
   BitVec.ofNat 64 (localPa pa), BitVec.ofNat 64 arg, 0, data, s.domidx.toNat, portOf (remotePart pa) (localPa pa), true⟩

/-- DESIGN CHOICE (log entry 56). -/
def sendFrame (s : State) (part : Nat) (f : Frame) : State := { s with outbox := s.outbox ++ [.frame part f] }

/-- The 64-bit OR by which an A or D bit is set in an entry on another part (R263, R340). -/
def sendOr (s : State) (ten pa m : Nat) : State :=
  sendFrame { s with serial := s.serial + 1 } (remotePart pa) (accFrame s 3 ten 0 0 8 s.serial pa (2 + 2 * 16) (leBytes 8 m))

/-- A write by the firmware's rings and tables, at the PA's home (R343). -/
def fwWrite (s : State) (pa : Nat) (bs : List Byte) : State :=
  match herePa s pa with
  | some pa => writeBytes s 32 pa bs
  | none => sendFrame { s with serial := s.serial + 1 } (remotePart pa) (accFrame s 2 32 0 0 bs.length s.serial pa 0 bs)

/-! ### Trace streams -/

def coreOf (key : Nat) : Nat := key / 32
def slotOf (key : Nat) : Nat := key % 32

def obsOf (s : State) (core : Nat) : Obs := (s.obs[core]?).getD Obs.reset
def setObs (s : State) (core : Nat) (o : Obs) : State :=
  if h : core < 64 then { s with obs := s.obs.set core o h } else s

/-- A group slot is traced (R327). -/
def Obs.traced (o : Obs) (slot : Nat) : Bool := o.en && slot != 31 && o.gmask.toNat / 2 ^ slot % 2 == 1

/-- Bytes into a ring of 2^log bytes at a PA, from a running index; rings are firmware memory. DEDUCED (log entry 42). -/
def ringWrite (s : State) (base : Nat) (log idx : Nat) : List Byte → State
  | [] => s
  | b :: t => ringWrite (fwWrite s (base + idx % 2 ^ log) [b]) base log (idx + 1) t

/-- Bytes in use of the trace ring. -/
def Obs.used (o : Obs) : Nat := (o.twr - o.trd).toNat

/-- Append whole packets to the stream: the caller has checked the space. -/
def putStream (s : State) (core : Nat) (bs : List Byte) (pkts : Nat) : State :=
  let o := obsOf s core
  let s := ringWrite s (o.tbase.toNat) o.tlog o.twr.toNat bs
  setObs s core { o with twr := o.twr + BitVec.ofNat 32 bs.length, sincePkts := o.sincePkts + pkts, prevCyc := s.clk }

/-- The DSZ code and delta bytes (R330). -/
def deltaBytes (d : Nat) : Nat × List Byte :=
  if d = 0 then (0, []) else if d < 256 then (1, leBytes 1 d) else (2, leBytes 2 (min d 0xFFFF))

def pktBytes (kind slot path subk delta : Nat) (payload : List Byte) : List Byte :=
  let (dsz, db) := deltaBytes delta
  [BitVec.ofNat 8 (kind * 32 + slot), BitVec.ofNat 8 (path * 16 + dsz * 4 + subk)] ++ db ++ payload

/-- A packet is dropped whole when the ring lacks room or losses are pending, and counted (R329). -/
def dropPkt (s : State) (core : Nat) : State :=
  let o := obsOf s core
  setObs s core { o with tlost := if o.tlost.toNat = 2 ^ 32 - 1 then o.tlost else o.tlost + 1, pendLoss := o.pendLoss + 1 }

/-- A packet into the stream, or dropped. -/
def sendPkt (s : State) (core kind slot path subk : Nat) (payload : List Byte) : State :=
  let o := obsOf s core
  let bs := pktBytes kind slot path subk (s.clk - o.prevCyc) payload
  if o.pendLoss > 0 || o.used + bs.length > 2 ^ o.tlog then dropPkt s core else putStream s core bs 1

/-- The LANES field: W/8 bytes. -/
def lanesField (w : Nat) (m : Mask) : List Byte := leBytes (w / 8) m.toNat

/-- The word offset at which a path stands. -/
def Spot.offset : Spot → Nat
  | .boundary p => p
  | .inside _ _ pc => pc

/-- Payload of a SYNC packet (R331). -/
def syncPayload (s : State) (g : Group) : List Byte :=
  let ps := (List.range 16).filterMap fun i => (g.path i).map fun p => (i, p)
  let kb := match ps with | (_, p) :: _ => p.code.kbase | [] => 0
  let wcode := if g.w = 16 then 0 else if g.w = 32 then 1 else 2
  leBytes 8 s.time ++ leBytes 8 kb.toNat ++ [BitVec.ofNat 8 (ps.length * 4 + wcode)] ++
    (ps.map fun (i, p) =>
      [BitVec.ofNat 8 (i + (if p.stop == .stopped then 16 else 0) + (if g.isHandler i then 32 else 0) +
        (if p.park.isSome then 64 else 0))] ++ leBytes 3 p.spot.offset ++ lanesField g.w p.exec).flatten

/-- A group has exited (R27): no gang is left. -/
def Group.exited (g : Group) : Bool := g.paths.all Option.isNone

/-- The traced resident groups of a core, in slot order. -/
def tracedGroups (s : State) (c : Nat) : List (Nat × Group) :=
  (List.range 31).filterMap fun n =>
    if (obsOf s c).traced n then (tget s.groups (c * 32 + n)).bind fun g => if g.exited then none else some (n, g) else none

/-- A sync point falls once 256 packets have been written, or 4,096 cycles have passed, since the last one (R332). -/
def syncDue (s : State) (c : Nat) : Bool :=
  let b := obsOf s c
  decide (256 ≤ b.sincePkts) || decide (4096 ≤ s.clk - b.sinceCyc)

/-- A sync point that is due: a SYNC for each traced resident group whose stream has started. -/
def traceSync (s : State) (c : Nat) : State :=
  if 64 ≤ c || !syncDue s c then s
  else
    let gs := (tracedGroups s c).filter fun (n, _) => (obsOf s c).synced.contains n
    let s := gs.foldl (fun s (n, g) => sendPkt s c 6 n 0 0 (syncPayload s g)) s
    setObs s c { obsOf s c with sincePkts := 0, sinceCyc := s.clk }

/-- SYNC with SUBK 1 at a group's start or when its tracing is enabled; a sync point that is due comes first. -/
def syncStart (s : State) (key : Nat) : State :=
  match tget s.groups key with
  | some g =>
    let o := obsOf s (coreOf key)
    if o.traced (slotOf key) && !o.synced.contains (slotOf key) then
      let s := traceSync s (coreOf key)
      let o := obsOf s (coreOf key)
      let s := setObs s (coreOf key) { o with synced := sadd o.synced (slotOf key) }
      sendPkt s (coreOf key) 6 (slotOf key) 0 1 (syncPayload s g)
    else s
  | none => s

/-- One packet of a path of a group, after a sync point that is due (R332); with HND = 0 a handler path emits only TRAP
packets (R331). -/
def emit (s : State) (key path kind subk : Nat) (payload : List Byte) : State :=
  let o := obsOf s (coreOf key)
  let inHandler := match tget s.groups key with | some g => g.isHandler path | none => false
  let on := match kind with | 0 | 1 => o.bm | 3 => o.mark | _ => true
  if o.traced (slotOf key) && o.synced.contains (slotOf key) && on && (o.hnd || !inHandler || kind == 2) then
    sendPkt (traceSync s (coreOf key)) (coreOf key) kind (slotOf key) path subk payload
  else s

/-- "Trace enabled" of R180 and R188: traced with MK set. -/
def traceMarks (s : State) (key : Nat) : Bool :=
  let o := obsOf s (coreOf key)
  o.traced (slotOf key) && o.mark

/-- Counters of a core that hold an event code rise by n (R328). -/
def countEvent (s : State) (core code n : Nat) : State :=
  let o := obsOf s core
  if o.cntsel == 0 then s else
  setObs s core { o with cnt := Vector.mk ((List.range 8).map fun i =>
    let c := (o.cnt[i]?).getD 0
    if bits o.cntsel.toNat (8 * i + 7) (8 * i) = code then c + BitVec.ofNat 48 n else c).toArray (by simp) }

end Sys2Proof.Machine
end

