-- ==== Sys2Proof/Machine/Meet.lean ====
section
/-! DEFINITION. When two views may meet (R266, R267), and the retiring of registered views (R206, R268, R269). -/

namespace Sys2Proof.Machine

/-- R267: the byte box of a view, for its base address. -/
def viewBox (v : ViewDesc) : Int × Int :=
  let n := (2 ^ v.esize : Nat)
  let terms := ((List.range v.rank).map fun i => (((v.ext.getD i 1) : Int) - 1) * v.str.getD i 0)
  let lo := terms.foldl (fun acc t => acc + min 0 t) 0
  let hi := terms.foldl (fun acc t => acc + max 0 t) 0
  ((v.base.toNat : Int) + lo * n, (v.base.toNat : Int) + hi * n + n - 1)

/-- The gcd of the strides in bytes over the dimensions of extent above 1. -/
def viewGcd (v : ViewDesc) : Nat :=
  (List.range v.rank).foldl (fun acc i => if v.ext.getD i 1 > 1 then Nat.gcd acc ((v.str.getD i 0).natAbs * 2 ^ v.esize) else acc) 0

def boxMeets (u v : Int × Int) : Bool := decide (u.1 ≤ v.2) && decide (v.1 ≤ u.2)

/-- Whether two views may meet (R267). -/
def mayMeet (u : ViewDesc) (uh : List Nat) (v : ViewDesc) (vh : List Nat) : Bool :=
  uh.any vh.contains && boxMeets (viewBox u) (viewBox v) &&
    (let g := Nat.gcd (viewGcd u) (viewGcd v)
     let nu := (2 ^ u.esize : Nat)
     let nv := (2 ^ v.esize : Nat)
     let diff := (v.base.toNat : Int) - (u.base.toNat : Int)
     (List.range (nu + nv - 1)).any fun i =>
       let d : Int := (i : Int) - nv + 1
       if g = 0 then decide (d = diff) else decide ((d - diff) % (g : Int) = 0))

def Ticket.older (a b : Ticket) : Bool :=
  decide (a.time < b.time) ||
    (a.time == b.time && (decide (a.core < b.core) || (a.core == b.core && decide (a.gslot < b.gslot))))

/-- V waits for U under R268, whatever their tenancies (R313): U is older, belongs to another group or to the front end, and may meet V with a write. -/
def waitsOn (u v : Reg) : Bool :=
  (u.group.isNone || u.group != v.group) && Ticket.older u.ticket v.ticket &&
    mayMeet u.desc u.homes v.desc v.homes && (decide (2 ≤ u.desc.mode) || decide (2 ≤ v.desc.mode))

/-- DEDUCED (log entry 51). -/
def dropReadCache (s : State) (core : Nat) : State := { s with rcache := s.rcache.filter fun l => l.core != core }

/-- Retire the registered views that satisfy a condition, with no promise to waiters (R268). -/
def retireViews (s : State) (p : Reg → Bool) : State := { s with trellis := s.trellis.filter fun r => !p r }

/-- The cores whose groups use a view: its group's, or those of the team for which the front end opened it. -/
def viewCores (s : State) (v : Reg) : List Nat :=
  match v.group with
  | some k => [coreOf k]
  | none => (match tget s.teams v.team with | some t => t.cores | none => [])

/-- A retire that releases: every waiter's core acquires at dev, and so drops its read cache (R268, R243). A team that is
placed or resumed later starts with none (R243). -/
def retireRelease (s : State) (p : Reg → Bool) : State :=
  let gone := s.trellis.filter p
  let cores := (s.trellis.map fun v => if gone.any fun u => waitsOn u v then viewCores s v else []).flatten
  retireViews { s with rcache := s.rcache.filter fun l => !cores.contains l.core } p

end Sys2Proof.Machine
end

