-- ==== Sys2Proof/Machine/Kill.lean ====
section
/-! DEFINITION. Ending teams and launches: what a team's end frees (R27, R95, R206, R269), kills (R179, R313, R323), and
the spawn tree's decrement (R30). -/

namespace Sys2Proof.Machine

/-- Error codes of R49. -/
def eBADPKT : Nat := 0x01
def eBADKDESC : Nat := 0x02
def eBADGRID : Nat := 0x03
def eNORES : Nat := 0x04
def eBADPROD : Nat := 0x05
def eBADVIEW : Nat := 0x06
def eNESTIND : Nat := 0x07
def eFAULT : Nat := 0x08
def eCORELOST : Nat := 0x09
def eKILLED : Nat := 0x0A
def eOVERRUN : Nat := 0x0B
def eBADCVREC : Nat := 0x0C
def eNOREAD : Nat := 0x0D

/-- A tenancy is being reset (R313). -/
def resetting (s : State) (ten : Nat) : Bool := s.resets.any fun r => r.1 == ten

/-- The team number under which the templates of a launch's waiting head are registered. -/
def pendTeam (lid : Nat) : Nat := 2 ^ 40 + lid

/-- A launch's first failure code; it then dispatches nothing further, and its waiting head gives up what it holds (R46). -/
def failLaunch (s : State) (lid code : Nat) : State :=
  let lost : List Nat := match tget s.launches lid with | some (l : Launch) => l.redo.map fun r => r.2.2 | none => []
  let s := retireViews s fun r => r.team = pendTeam lid || (r.group.isNone && lost.contains r.team)
  { s with launches := tmod s.launches lid fun l =>
      { l with code := if l.code = 0 then code else l.code, pendViews := [], taken := [], headSince := none, headCore := none, redo := [] } }

/-- The last team of a launch has ended, or it failed before any was placed: the tree's counter falls (R30). A coverage
launch first waits for its reconstructions (R210). -/
def settleLaunch (s : State) (lid : Nat) : State :=
  match tget s.launches lid with
  | some l =>
    let covDone := match l.cov with
      | some c => l.code != 0 || decide (c.reconstructed.length ≥ l.gx * l.gy * l.gz)
      | none => true
    if !l.closed && l.liveTeams = 0 && l.redo.isEmpty && (l.code != 0 || l.finished) && covDone then
      { s with launches := tput s.launches lid { l with closed := true },
               trees := tmod s.trees l.tree fun t =>
                 { t with counter := t.counter - 1, code := if t.code = 0 then l.code else t.code } }
    else s
  | none => s

/-- The message by which a rank's abort reaches the ranks on other parts (R321). Its payload is the model's own.
DESIGN CHOICE (log entry 34). -/
def abortFrame (s : State) (ten : Nat) (cid : Word) (rank seq nrank : Nat) : Frame :=
  ⟨7, BitVec.ofNat 8 ten, 0, 12, 0, 0, cid, 0,
   [0, 0, 0, 1] ++ leBytes 4 seq ++ leBytes 4 rank ++ leBytes 4 nrank ++ List.replicate 4080 0, s.domidx.toNat, 0, true⟩

/-- Every call of a communicator is marked aborted. -/
def failCalls (s : State) (ten : Nat) (cid : Word) : State :=
  { s with calls := s.calls.map fun k => if k.ten = ten && k.cid == cid then { k with failed := true } else k }

/-- R321: pending collectives of a killed group, resident or saved, abort their communicator. -/
def abortColls (s : State) (g : Group) : State :=
  g.ops.foldl (fun s o =>
    match o.kind with
    | .ccol _ c _ _ seq =>
      if o.done then s
      else
        let s := failCalls s g.ten c.cid
        { s with outbox := s.outbox ++ [.coll c.cid c.rank (abortFrame s g.ten c.cid c.rank seq c.nrank)] }
    | _ => s) s

/-- The Silo lines that a group's unfinished copies have cleared (R201). -/
def Group.clearedLines (g : Group) : List Nat :=
  g.ops.foldl (fun l o => match o.kind with
    | .copy _ _ _ _ _ _ _ _ c => if o.done then l else c ++ l
    | _ => l) []

/-- Lines that an abandoned transfer leaves unwritten are set present as they stand (R201). -/
def presentAgain (s : State) (g : Group) : State :=
  let l := g.clearedLines
  if l.isEmpty then s else { s with absent := s.absent.filter fun n => !l.contains n }

/-- The window of a cluster member is freed only when the whole cluster has ended (R27). -/
def freeCluster (s : State) (lid clu : Nat) : State :=
  let members := s.teams.filter fun (_, t) => t.launch = lid && t.clu = clu
  if members.all fun (_, t) => t.ended then
    { s with teams := s.teams.filter fun (_, t) => !(t.launch = lid && t.clu = clu),
             clusters := s.clusters.filter fun (_, c) => !(c.launch = lid && c.clu = clu) }
  else s

/-- Groups of a team, resident or saved. -/
def teamGroups (s : State) (t : Team) : List Group := t.saved ++ t.gkeys.filterMap fun k => tget s.groups k

/-- What a team's end frees: its slots, tiles, barriers, views and spill block, and its window unless it is in a
cluster (R27, R95). -/
def dropTeam (s : State) (tid : Nat) (keepTemplates : Bool) : State :=
  match tget s.teams tid with
  | none => s
  | some t =>
    let s := (teamGroups s t).foldl (fun s g => presentAgain (abortColls s g) g) s
    let s := retireViews s fun r => r.team = tid && (r.group.isSome || !keepTemplates)
    let clustered := match tget s.launches t.launch with
      | some l => (match l.kdesc with | some k => decide (k.cluster > 1) | none => false)
      | none => false
    let s := { s with groups := s.groups.filter fun (_, g) => g.team != tid,
                      dumps := s.dumps.filter fun d => d.team != tid,
                      s2faults := s.s2faults.filter fun f => !t.gkeys.contains f.1,
                      rwaits := s.rwaits.filter fun r => !(match r.who with
                        | .group k => t.gkeys.contains k
                        | .op id => (teamGroups s t).any fun g => g.ops.any fun o => o.id = id
                        | .queue _ | .packet _ _ | .launch _ | .walk _ => false) }
    if clustered then
      freeCluster { s with teams := tput s.teams tid { t with ended := true, gkeys := [], saved := [] } } t.launch t.clu
    else { s with teams := tdel s.teams tid, clusters := s.clusters.filter fun (_, c) => !(c.launch = t.launch && c.clu = t.clu) }

/-- Kill a team and end its launch with a code. -/
def killTeam (s : State) (tid code : Nat) : State :=
  match tget s.teams tid with
  | none => s
  | some t =>
    if t.ended then s
    else
      let s := dropTeam s tid false
      let s := { s with launches := tmod s.launches t.launch fun l => { l with liveTeams := l.liveTeams - 1 } }
      settleLaunch (failLaunch s t.launch code) t.launch

/-- It has exited and its last operation has completed (R168). -/
def Group.gone (g : Group) : Bool := g.exited && g.ops.all fun o => o.done

/-- The views still open when a group exits are retired, once its accesses through them have performed (R206). -/
def reap (s : State) (k : Nat) : State :=
  match tget s.groups k with
  | some g =>
    if g.gone then
      { retireRelease s (fun r => r.group == some k) with
        groups := tput s.groups k { g with views := Vector.replicate 16 none } }
    else s
  | none => s

/-- The team of a group. -/
def teamOf (s : State) (g : Group) : Option Team := tget s.teams g.team
def launchOf (s : State) (g : Group) : Option Launch :=
  match teamOf s g with
  | some t => tget s.launches t.launch
  | none => none
def kdescOf (s : State) (g : Group) : Option KDesc :=
  match launchOf s g with
  | some l => l.kdesc
  | none => none

/-- A notification record of R310. DESIGN CHOICE (log entry 34). -/
def postNote (s : State) (kind ten : Nat) (detail : List Byte) : State :=
  { s with notes := s.notes ++ [⟨kind, ten, detail, s.time⟩] }

end Sys2Proof.Machine
end

