-- ==== Sys2Proof/Machine/Access.lean ====
section
/-! DEFINITION. What one access does at its home: read caches (R153, R243), A and D bits (R263), heat (R308), stores into
poisoned granules (R163), error records (R316), and reads of domain-remote addresses (R340). -/

namespace Sys2Proof.Machine

/-- READY.ALL: the AND of bits 1 to 5 (R326). -/
def readyAll (s : State) : Bool := bits s.ready.toNat 5 1 == 31

/-- READY.ETH0: port 0 is trained, and with it the management link (R14, R326). -/
def isEth0 (s : State) : Bool := bits s.ready.toNat 1 1 == 1

/-! ### Error records (R316) -/

def errBytes (s : State) (cls src unit ten act count pa synd : Nat) : List Byte :=
  leBytes 1 cls ++ leBytes 1 src ++ leBytes 2 unit ++ leBytes 1 ten ++ leBytes 1 act ++ leBytes 2 count ++
    leBytes 8 s.time ++ leBytes 8 pa ++ leBytes 4 synd ++ leBytes 4 0

def errFull (s : State) : Bool := (s.errs.wri - s.errs.rdi).toNat ≥ 2 ^ s.errs.log

def errPut (s : State) (bs : List Byte) : State :=
  let s := fwWrite s (s.errs.base.toNat + s.errs.wri.toNat % 2 ^ s.errs.log * 32) bs
  { s with errs := { s.errs with wri := s.errs.wri + 1 } }

/-- Held records of classes 2 to 6 enter the ring as space frees. -/
def errDrain (s : State) : State :=
  match s.errs.held with
  | r :: t => if errFull s then s else errPut { s with errs := { s.errs with held := t } } r
  | [] => s

def bumpHist (s : State) (cls src unit : Nat) : State :=
  if src ≤ 2 then
    let (ue, ce) := (tget s.errs.hist unit).getD (0, 0)
    let up (x : BitVec 32) : BitVec 32 := if x.toNat = 2 ^ 32 - 1 then x else x + 1
    { s with errs := { s.errs with hist := tput s.errs.hist unit (if cls = 1 then (ue, up ce) else (up ue, ce)) } }
  else s

/-! ### Notifications to the management endpoint (R315) -/

/-- A notification message, by port 0: the header, then its records (R310, R340). DESIGN CHOICE (log entry 66). -/
def noteFrame (s : State) (ten : Nat) (data : List Byte) : Frame :=
  ⟨6, tenByte ten, 0, BitVec.ofNat 8 (Nat.log2 data.length), 0, 0, 0, 0, data, s.domidx.toNat, 0, true⟩

/-- The management endpoint's record of an error of classes 2 to 6 (R315), while port 0 is up (R14). DEDUCED (log entry 44).
DESIGN CHOICE (log entry 66). -/
def mgmtNote (s : State) (rec : List Byte) : State :=
  if isEth0 s then { s with outbox := s.outbox ++ [.note (s.mgmtEp.getD 0) (noteFrame s 32 rec)] } else s

/-- Corrected memory errors are the ones that merge. -/
def mergeable (cls src act : Nat) : Bool := cls = 1 && act = 1 && decide (src ≤ 2)

/-- Records of the last ms. -/
def recentErrs (s : State) : List (BitVec 64 × Nat × BitVec 32) := s.errs.merge.filter fun m => decide (s.time - m.2.1 ≤ 1000000)

/-- A record of its own: into the ring, or held, or lost where there is no room (R316). DEDUCED (log entry 44).
DESIGN CHOICE (log entry 39). -/
def freshError (s : State) (cls src unit ten act pa synd : Nat) : State :=
  let r := errBytes s cls src unit ten act 1 pa synd
  let s := if cls ≥ 2 then mgmtNote s r else s
  if errFull s then
    if cls = 1 || s.errs.held.length ≥ 64 then { s with errs := { s.errs with lost := s.errs.lost + 1 } }
    else { s with errs := { s.errs with held := s.errs.held ++ [r] } }
  else
    let at_ := s.errs.wri
    let s := errPut s r
    if mergeable cls src act then { s with errs := { s.errs with merge := (BitVec.ofNat 64 pa, s.time, at_) :: recentErrs s } } else s

/-- One error record; corrected errors at one PA within 1 ms merge while their record is in the ring (R316).
DEDUCED (log entry 44). -/
def logError (s : State) (cls src unit ten act pa synd : Nat) : State :=
  let s := bumpHist s cls src unit
  let old := if mergeable cls src act then (recentErrs s).find? fun m =>
      m.1 == BitVec.ofNat 64 pa && decide ((s.errs.wri - m.2.2).toNat ≤ 2 ^ s.errs.log)
    else none
  match old with
  | some m =>
    let slot := normPa s (s.errs.base.toNat + m.2.2.toNat % 2 ^ s.errs.log * 32)
    writeNat s 32 (slot + 6) 2 (min 65535 (readNat s 32 (slot + 6) 2 + 1))
  | none => freshError s cls src unit ten act pa synd

/-! ### Heat (R308) -/

/-- One counted access to a line of a 64 KiB page. -/
def heatStep (s : State) (ten pa : Nat) : State :=
  let page := pa / 65536
  let h := (tget s.heat page).getD ⟨0, false⟩
  let t := tcbOf s ten
  let lim := if t.hthr = 0 then 1 else t.hthr.toNat
  let c := h.count.toNat + 1
  if h.q then { s with heat := tput s.heat page { h with count := BitVec.ofNat 12 (min c 4095) } }
  else if c < lim then { s with heat := tput s.heat page { h with count := BitVec.ofNat 12 c } }
  else if ht : ten < 32 then
    if (t.mrwr - t.mrrd).toNat = 2 ^ t.mrlog then
      let t' := { t with mrovf := t.mrovf + 1 }
      postNote { s with heat := tput s.heat page { h with count := BitVec.ofNat 12 (lim / 2) },
                        tcbs := s.tcbs.set ten t' ht } 4 ten []
    else
      let tier := (tierCode pa).getD 0
      let e := leBytes 8 (page * 65536 + tier * 1024) ++ leBytes 4 (s.time / 1000) ++ leBytes 4 0
      let s := fwWrite s (t.mrbase.toNat + t.mrwr.toNat % 2 ^ t.mrlog * 16) e
      { s with heat := tput s.heat page ⟨0, true⟩, tcbs := s.tcbs.set ten { t with mrwr := t.mrwr + 1 } ht }
  else s

/-- A performed access of n bytes counts once for each 64-byte line of HBM or Cellar that it touches, where CNT is set. -/
def heatTouch (s : State) (ten : Nat) (x : Xlate) (pa n : Nat) : State :=
  if x.cnt && !isSilo pa then
    (List.range ((pa + n - 1) / 64 - pa / 64 + 1)).foldl (fun s i => heatStep s ten ((pa / 64 + i) * 64)) s
  else s

/-! ### A and D bits (R263) -/

def orByte (s : State) (ten pa m : Nat) : State :=
  let b := readByte s ten pa
  writeBytes s ten pa [b ||| BitVec.ofNat 8 m]

def setAD (s : State) (ten : Nat) (x : Xlate) (write : Bool) : State :=
  let m := if write then 0xC0 else 0x40
  let s := match x.leaf1 with
    | some a => (match herePa s a with | some a => orByte s ten a m | none => sendOr s ten a m)
    | none => s
  match x.leaf2 with | some a => orByte s 32 a m | none => s

/-! ### Read caches -/

def dropReadLine (s : State) (core line : Nat) : State :=
  { s with rcache := s.rcache.filter fun l => !(l.core == core && l.line == line) }

/-- The line that a core's read cache holds for the tenancy's key. DESIGN CHOICE (log entry 84). -/
def hitRead (s : State) (core ten line : Nat) : Option (List Byte) :=
  (s.rcache.find? fun l => l.core == core && l.line == line && l.key == keyOf s ten).map (·.bytes)

/-- Lines of a 2 MiB read cache (R11). DESIGN CHOICE (log entry 71). -/
def rcacheLines : Nat := 32768

/-- A line enters a core's read cache, in place of the core's own copy of it or, where the cache is full, of its oldest line.
DESIGN CHOICE (log entry 84). -/
def fillRead (s : State) (n : Line) : State :=
  let l := s.rcache.filter fun q => !(q.core == n.core && q.line == n.line)
  { s with rcache := n :: (if l.countP (fun q => q.core == n.core) < rcacheLines then l
                           else (l.reverse.eraseP fun q => q.core == n.core).reverse) }

/-- Drop a core's read-cache lines that hold any byte of a run. -/
def dropLines (s : State) (core pa n : Nat) : State :=
  { s with rcache := s.rcache.filter fun l => !(l.core == core && decide (l.line * 64 < pa + n) && decide (pa < l.line * 64 + 64)) }

/-- A load of n bytes at a local PA by a core: from its read cache, or from the home, which fills the cache unless the
page is NRC or the line is poisoned. A load that is made at the home leaves no older copy for a later one (R247). -/
def loadBytes (s : State) (core ten : Nat) (x : Xlate) (pa n : Nat) (cached : Bool) : State × List Byte :=
  if isSilo pa then (heatTouch s ten x pa n, readBytes s ten pa n)
  else if !cached then (heatTouch (dropLines s core pa n) ten x pa n, readBytes s ten pa n)
  else
    match hitRead s core ten (pa / 64) with
    | some l => (countEvent s core 8 1, (l.drop (pa % 64)).take n)
    | none =>
      let s := heatTouch (countEvent s core 9 1) ten x pa n
      if x.nrc || poisoned s (pa / 64 * 64) 64 then (s, readBytes s ten pa n)
      else (fillRead s ⟨core, pa / 64, keyOf s ten, readBytes s ten (pa / 64 * 64) 64⟩, readBytes s ten pa n)

/-- Bytes o onward of a list replaced. -/
def patch (l : List Byte) (o : Nat) (bs : List Byte) : List Byte := l.take o ++ bs ++ l.drop (o + bs.length)

/-- A cached line with the part of a store at pa that falls into it. -/
def patchLine (l : Line) (pa : Nat) (bs : List Byte) : Line :=
  let base := l.line * 64
  let lo := max pa base
  let hi := min (pa + bs.length) (base + 64)
  if lo < hi then { l with bytes := patch l.bytes (lo - base) ((bs.drop (lo - pa)).take (hi - lo)) } else l

/-- SRC of a memory error, by the tier of its PA: Silo, HBM or Cellar (R316). -/
def srcOf (pa : Nat) : Nat :=
  match homeOf pa with
  | some (.silo, _) => 0
  | some (.cellar, _) => 2
  | some (.hbm, _) | none => 1

/-- Poisoned granules that a store leaves poisoned: those of [pa, pa + n) that the ranges of one store do not cover whole
(R163). -/
def keptPoison (s : State) (cover : List (Nat × Nat)) (pa n : Nat) : List Nat :=
  s.poison.filter fun g => decide (g < pa + n) && decide (pa < g + granuleSize g) &&
    (List.range (granuleSize g)).any fun i => cover.all fun r => !(decide (r.1 ≤ g + i) && decide (g + i < r.1 + r.2))

/-- The core's own read-cache copies take a store's bytes (R153). -/
def patchCore (s : State) (core pa : Nat) (bs : List Byte) : State :=
  { s with rcache := s.rcache.map fun l => if l.core == core then patchLine l pa bs else l }

/-- Drop what any core's caches hold of a run of addresses. -/
def dropEverywhere (s : State) (pa n : Nat) : State :=
  let out := fun (l : Line) => !(decide (l.line * 64 < pa + n) && decide (pa < l.line * 64 + 64))
  { s with rcache := s.rcache.filter out, icache := s.icache.filter out }

/-- A store's bytes at its home; the core's own read-cache copy is updated (R153), and the granule that keeps its poison
is logged (R163). `cover` are all the bytes of the instruction's store, and `done` those that have now been written: a
granule overwritten whole by one instruction loses its poison with the last of them. -/
def storeCover (s : State) (core ten : Nat) (x : Xlate) (pa : Nat) (bs : List Byte) (cover done : List (Nat × Nat)) : State :=
  let s := heatTouch s ten x pa bs.length
  let s := writeBytes s ten pa bs
  let s := { s with poison := s.poison.filter fun g =>
    !(decide (g < pa + bs.length) && decide (pa < g + granuleSize g)) || (keptPoison s done pa bs.length).contains g }
  let s := if (keptPoison s cover pa bs.length).isEmpty then s else logError s 2 (srcOf pa) ((homeNum pa).getD 0) ten 0 pa 0
  patchCore s core pa bs

def storeBytes (s : State) (core ten : Nat) (x : Xlate) (pa : Nat) (bs : List Byte) : State :=
  storeCover s core ten x pa bs [(pa, bs.length)] [(pa, bs.length)]

/-! ### Coverage outputs written by other means (R209) -/

/-- Bits of an element. -/
def CT.width : CT → Nat
  | .s4 => 4
  | .e4m3 | .e5m2 | .s8 | .n8 => 8
  | .f16 | .bf16 | .s16 | .n16 => 16
  | .f32 | .s32 | .n32 => 32
  | .f64 | .s64 | .n64 => 64
/-- Bytes of an element, 0 for s4. -/
def CT.bytes (t : CT) : Nat := CT.width t / 8

/-- A coverage launch has started and has not completed. -/
def covActive (l : Launch) : Bool := l.started && !l.closed && l.cov.isSome
def anyCov (s : State) : Bool := s.launches.any fun (_, l) => covActive l

/-- Bytes a to b − 1 become unspecified. DESIGN CHOICE (log entry 14). -/
def spoilRange (s : State) (ten a b : Nat) : State :=
  (List.range (b - a)).foldl (fun s i =>
    let va := a + i
    let w := walk s ten (va % 2 ^ 56)
    let pa := w.x.pa + (va % 2 ^ 56 - w.base)
    if w.code = 0 && !w.s2 then (match herePa s pa with
      | some pa => writeBytes s ten pa [Config.freeOut s.free va]
      | none => s)
    else s) s

/-- The runs of a coverage output, one in each 4 KiB page, that lie at this part: VA, PA and bytes. -/
def outRuns (s : State) (l : Launch) (c : Cov) : List (Nat × Nat × Nat) :=
  let pts := l.gx * c.bx * (l.gy * c.by_) * (l.gz * c.bz)
  let lo := c.out.toNat
  let hi := lo + (if c.otype = .s4 then (pts + 1) / 2 else pts * CT.bytes c.otype)
  (List.range ((hi + 4095) / 4096 - lo / 4096)).filterMap fun i =>
    let va := (lo / 4096 + i) * 4096 % 2 ^ 56
    let w := walk s l.ten va
    if w.code = 0 && !w.s2 then (herePa s (w.x.pa + (va - w.base))).map fun pa =>
      (va + (lo - va), pa + (lo - va), min hi (va + 4096) - (va + (lo - va)))
    else none

/-- A write of n bytes at a PA by any other means leaves the points of a coverage output that it touches unspecified.
DESIGN CHOICE (log entry 14). -/
def spoilOut (s : State) (pa n : Nat) : State :=
  s.launches.foldl (fun s (_, l) =>
    match l.cov with
    | some c =>
      if covActive l then
        (outRuns s l c).foldl (fun s (va, pg, len) =>
          let a := max pa pg
          let b := min (pa + n) (pg + len)
          if a < b then
            let e := max 1 (CT.bytes c.otype)
            { spoilRange s l.ten (va + (a - pg) / e * e) (va + ((b - 1 - pg) / e + 1) * e) with free := s.free + 1 }
          else s) s
      else s
    | none => s) s

/-- A write that is no coverage write has been made. DESIGN CHOICE (log entry 14). -/
def tellOut (s : State) (pa n : Nat) : State := if anyCov s then spoilOut s pa n else s

/-! ### Synchronous reads (R340) -/

/-- A synchronous read of n bytes by a group at a PA: from the home at once, or from another part once its answer has
come; `none` while it waits. The number is a RESP status (R340): 0 done, 1 refused, 2 poison. -/
def syncRead (s : State) (g ten : Nat) (x : Xlate) (n : Nat) (viaCache : Bool) : State × Option (List Byte × Nat) :=
  match hereOf s x with
  | some pa =>
    let s := setAD s ten x false
    if poisoned s pa n then (s, some (readBytes s ten pa n, 2))
    else
      let (s, bs) := loadBytes s (coreOf g) ten x pa n (viaCache && !x.dom)
      (s, some (bs, 0))
  | none =>
    match s.rwaits.find? fun r => r.who == .group g && r.pa == x.pa && r.n == n with
    | some r =>
      match r.ans with
      | some (st, bs) => ({ s with rwaits := s.rwaits.filter fun q => q.tag != r.tag }, some (bs, st))
      | none => (s, none)
    | none =>
      let s := setAD s ten x false
      let tag := s.serial
      let s := { s with serial := s.serial + 1, rwaits := ⟨.group g, x.pa, n, tag, none⟩ :: s.rwaits }
      (sendFrame s (remotePart x.pa) (accFrame s 1 ten 0 0 n tag x.pa 0 []), none)

/-- A stage-1 entry on another part is to be read: one READ for each entry, whose answer the walks of the tenancy use until a
tlbi (R262, R305). DESIGN CHOICE (log entry 83). -/
def askPte (s : State) (ten pa : Nat) : State :=
  if s.rwaits.any fun r => r.who == .walk ten && r.pa == pa then s
  else
    let tag := s.serial
    sendFrame { s with serial := s.serial + 1, rwaits := ⟨.walk ten, pa, 8, tag, none⟩ :: s.rwaits } (remotePart pa)
      (accFrame s 1 ten 0 0 8 tag pa 0 [])

/-- The same read with an answer left in place, for a trap's entry, which reads more than one structure. -/
def peekRead (s : State) (g ten : Nat) (x : Xlate) (n : Nat) : State × Option (List Byte × Nat) :=
  match hereOf s x with
  | some _ => syncRead s g ten x n false
  | none =>
    match (s.rwaits.find? fun r => r.who == .group g && r.pa == x.pa && r.n == n).bind (·.ans) with
    | some (st, bs) => (s, some (bs, st))
    | none => syncRead s g ten x n false

/-- The answer to a read that a group has used. -/
def dropAnswer (s : State) (g : Nat) (x : Xlate) (n : Nat) : State :=
  { s with rwaits := s.rwaits.filter fun r => !(r.who == .group g && r.pa == x.pa && r.n == n) }

/-! ### Management messages (R14, R339 to R342, R345) -/

/-- The response to a management message, to its sender; it carries the firmware's TEN, since 0xFF is for MGMT only (R340).
DESIGN CHOICE (log entry 34). -/
def mgmtResp (s : State) (m : Mgmt) (status : Nat) (data : List Byte) : State :=
  { s with outbox := s.outbox ++ [.mgmt m.src
      ⟨4, 0xFE, 0, BitVec.ofNat 8 (Nat.log2 data.length), m.tag, 0, BitVec.ofNat 64 status, 0, data, s.domidx.toNat, m.port, true⟩] }

/-- A message is dropped and counted at its port (R339, R340). -/
def dropAt (s : State) (port : Nat) : State :=
  if h : port < 16 then { s with ports := s.ports.set port { s.ports[port] with drops := s.ports[port].drops + 1 } h } else s

/-- A management message: it needs a trained port 0, the management key, a part with an image, and root; messages are
carried out in the order they arrive, so that one that waits (`body` gives false) holds up those behind it. `fits` says that
its header is well formed (R340). -/
def onMgmt (m : Mgmt) (r : MgmtReq) (fits : Bool) (s : State) (body : State → State × Bool) : Host.Outcome State Fault Refusal :=
  if !isEth0 s then .next s
  else if !m.auth || !fits then .next (dropAt s m.port)
  else if s.bootst = 3 then .next s
  else if m.ten != 0xFF then .next (mgmtResp s m 1 [])
  else if !s.mgmtq.isEmpty then .next { s with mgmtq := s.mgmtq ++ [(m, r)] }
  else match body s with
    | (t, true) => .next t
    | (t, false) => .next { t with mgmtq := [(m, r)] }

/-- An action that a message waits with, as the first of those that wait, has ended: its response is to be sent before the next one
is carried out. One that does not wait is answered at once. -/
def endMgmt (s : State) (m : Mgmt) (status : Nat) : State :=
  match s.mgmtq with
  | (q, r) :: rest => if q == m then { s with mgmtq := (q, match r with | .restartq _ _ _ => .answer status | r => r) :: rest } else mgmtResp s m status []
  | [] => mgmtResp s m status []

end Sys2Proof.Machine
end

