-- ==== Sys2Proof/Machine/Ops.lean ====
section
/-! DEFINITION. The operations that every meaning is built from: the executing gang, its checks (R108), stalls (R283) and
parks (R33), taking a trap and entering its handler (R175 to R179), fetching words (R110, R173), and finishing an
instruction. -/

namespace Sys2Proof.Machine

abbrev Result := Host.Outcome State Fault Refusal

/-! ### The executing gang -/

def putGroup (s : State) (k : Nat) (g : Group) : State := { s with groups := tput s.groups k g }

/-- The group and path that `cur` and `path` name. DESIGN CHOICE (log entry 76). -/
def curGang (s : State) : Option (Group × Path) :=
  match tget s.groups s.cur with
  | some g => (match g.path s.path with | some p => some (g, p) | none => none)
  | none => none

/-- Run `body` for the executing gang. DESIGN CHOICE (log entry 76). -/
def withGang (s : State) (body : Group → Path → Result) : Result :=
  match curGang s with
  | some (g, p) => body g p
  | none => .fault .noGang

/-! ### Clause headers (R97) -/

def hCount (h : IWord) : Nat := bits h.toNat 31 28
def hEcl (h : IWord) : Nat := bits h.toNat 27 25
def hWait (h : IWord) : BitVec 12 := BitVec.ofNat 12 (h.toNat / 2 ^ 13)
def hSetA (h : IWord) : Nat := bits h.toNat 12 9
def hSetB (h : IWord) : Nat := bits h.toNat 8 5
def hSp (h : IWord) : Bool := bits h.toNat 4 4 == 1
def hTgt (h : IWord) : Bool := bits h.toNat 3 3 == 1
def hYld (h : IWord) : Bool := bits h.toNat 2 2 == 1
def hLen (h : IWord) : Nat := bits h.toNat 24 13

/-- The header conditions of R97 for a clause at offset p. -/
def clauseOk (h : IWord) (p klen : Nat) : Bool :=
  hCount h ≥ 1 && hEcl h != 7 && !(hSetA h ≥ 12 && hSetA h ≤ 14) && !(hSetB h ≥ 12 && hSetB h ≤ 14) &&
    bits h.toNat 1 0 == 0 && decide (p + hCount h < klen)

/-- The header conditions of R99 for a pool at offset p. -/
def poolOk (h : IWord) (p klen : Nat) : Bool :=
  hCount h == 0 && hEcl h == 7 && hLen h ≥ 1 && bits h.toNat 12 0 == 0 && decide (p + hLen h < klen)

/-- The place after `len` words of the clause (R96). -/
def Spot.after (len : Nat) : Spot → Spot
  | .boundary p => .boundary p
  | .inside hdr h pc => if pc + len ≤ hdr + hCount h then .inside hdr h (pc + len) else .boundary (hdr + hCount h + 1)

/-- The unit that follows the gang's own clause. -/
def Spot.nextUnit : Spot → Nat
  | .boundary p => p
  | .inside hdr h _ => hdr + hCount h + 1

/-- Whether the clause ends with an implied yield and `len` words more end it (R98). DEDUCED (log entry 64). -/
def Spot.yieldsAfter (len : Nat) : Spot → Bool
  | .boundary _ => false
  | .inside hdr h pc => hYld h && decide (hdr + hCount h < pc + len)

/-! ### Yields, parks and stalls -/

/-- A yield: the group's turn ends and its watchdog count is cleared (R168, R287). DEDUCED (log entry 64). -/
def markYield (s : State) : State := { s with yielded := true }

/-- The attempted instruction stalls, for a reason of R333; nothing else changes. -/
def stallWith (s : State) (reason : Nat) : Result := .next { s with stall := some reason }

/-- Park a gang (R33): a park counts as a yield. -/
def parkAt (s : State) (k : Nat) (g : Group) (pi : Nat) (p : Path) (pk : Park) : State :=
  let g := { g.setPath pi (some { p with park := some pk }) with wcount := 0 }
  markYield (putGroup s k g)

/-- The path after an instruction: at its next place, with nothing left of a re-execution. -/
def Path.moved (p : Path) (sp : Spot) : Path :=
  { p with spot := sp, only := none, quiet := false, noinv := false, since := none, park := none, trap := none,
           owes := match sp with | .boundary _ => [] | .inside _ _ _ => p.owes }

/-- Finish an instruction of `len` words: advance, and yield where the clause says so (R98). -/
def finish (s : State) (g : Group) (p : Path) (len : Nat) : Result :=
  let y := p.spot.yieldsAfter len
  let g := g.setPath s.path (some (p.moved (p.spot.after len)))
  let s := putGroup s s.cur (if y then { g with wcount := 0 } else g)
  .next (if y then markYield s else s)

/-- Finish a transfer to the unit at `t` (R98: the yield of YLD follows the transfer). -/
def finishAt (s : State) (g : Group) (p : Path) (sp : Spot) : Result :=
  let y := p.spot.yieldsAfter 1
  let g := g.setPath s.path (some (p.moved sp))
  let s := putGroup s s.cur (if y then { g with wcount := 0 } else g)
  .next (if y then markYield s else s)

/-! ### Trap causes (R175, R191) -/

def cILLHDR : Nat := 0x01
def cILLOP : Nat := 0x02
def cILLCLASS : Nat := 0x03
def cPRIV : Nat := 0x04
def cTOOLX : Nat := 0x05
def cBADTGT : Nat := 0x06
def cREGRANGE : Nat := 0x07
def cNOTUNIF : Nat := 0x08
def cDEADREAD : Nat := 0x09
def cREGBUDGET : Nat := 0x0A
def cFPINV : Nat := 0x0B
def cMISALIGN : Nat := 0x0C
def cBADVA : Nat := 0x0D
def cXLATE : Nat := 0x0E
def cPOISON : Nat := 0x0F
def cVCLOSED : Nat := 0x10
def cVMODE : Nat := 0x11
def cVBOUND : Nat := 0x12
def cNOTPROD : Nat := 0x13
def cWATCHDOG : Nat := 0x14
def cTRAP : Nat := 0x15
def cBKPT : Nat := 0x16
def cSTKOVF : Nat := 0x17
def cSTKUNF : Nat := 0x18
def cTRAMPNEST : Nat := 0x19
def cNOTRAMP : Nat := 0x1A
def cBADREC : Nat := 0x20
def cBADSHAPE : Nat := 0x21
def cBADFMT : Nat := 0x22
def cBADGATHER : Nat := 0x23
def cENGFAULT : Nat := 0x24
def cBADCOLL : Nat := 0x25
def cBADVIEW : Nat := 0x26
def cVBUSY : Nat := 0x27
def cCOVOFF : Nat := 0x28

/-- A trap of a gang where it stands, for all its active lanes (R35, R177). -/
def Path.trapRec (p : Path) (cause : Nat) : TrapRec :=
  let base : TrapRec := ⟨cause, false, false, false, 0, 0, 0, p.exec, p.active, 0, 0, 0, false, none⟩
  match p.spot with
  | .boundary q => { base with hdrt := true, hdr := q, word := q }
  | .inside hdr _ pc => { base with hdr := hdr, word := pc }

/-! ### Trap entry (R175 to R179) -/

/-- Escalation: the firmware agent kills the team and ends the launch with FAULT (R179, R49). -/
def escalate (s : State) (k : Nat) : State :=
  match tget s.groups k with
  | some g =>
    match tget s.teams g.team with
    | some _ => markYield (killTeam s g.team eFAULT)
    | none => markYield { s with groups := tdel s.groups k }
  | none => s

/-- Post a stage-2 fault to the firmware agent and park the gang (R304). -/
def parkStage2 (s : State) (k : Nat) (g : Group) (pi : Nat) (p : Path) (va : Word) : State :=
  let s := parkAt s k g pi p (.stage2 va)
  doom2 { s with s2faults := s.s2faults ++ [(k, pi, va)] } g.ten va.toNat

/-- The trap descriptor at TVEC (R175). -/
structure TrapDesc where
  hbase  : Word
  hlen   : Nat
  frames : Word
  deriving DecidableEq, Repr

def parseTrapDesc (l : List Byte) : Option TrapDesc :=
  let hb := field l 0 8
  let hl := field l 8 4
  let fr := field l 16 8
  if hb % 4 = 0 && 1 ≤ hl && hl ≤ 2 ^ 19 && zeroAt l 12 4 && fr % 4096 = 0 && zeroAt l 24 40 then
    some ⟨BitVec.ofNat 64 hb, hl, BitVec.ofNat 64 fr⟩
  else none

def depthOf (g : Group) (sl : Nat) : Nat := ((g.rstack[sl]?).getD []).length

/-- The frame of R177; `depthAt` gives the return-stack depths at entry. -/
def frameBytes (depthAt : Nat → Nat) (pi : Nat) (p : Path) (t : TrapRec) : List Byte :=
  let fl := (if t.spill then 0 else 1) + (if t.hdrt then 2 else 0) + (if t.next then 4 else 0) + (if t.defer then 8 else 0)
  let depth := fun sl => if inSlices p.slices sl then depthAt sl else 0
  leBytes 2 t.cause ++ leBytes 1 pi ++ leBytes 1 fl ++ leBytes 4 t.hdr ++ leBytes 4 t.word ++
    leBytes 4 (depth (lowBit 16 p.slices.toNat)) ++
    leBytes 8 p.code.kbase.toNat ++ leBytes 4 p.code.klen ++ leBytes 4 t.code ++
    leBytes 8 t.lanes.toNat ++ leBytes 8 t.fault.toNat ++ leBytes 8 t.done.toNat ++ leBytes 8 p.slices.toNat ++
    leBytes 8 t.addr.toNat ++ leBytes 8 0 ++ leBytes 8 t.lanes.toNat ++
    leBytes 4 (if t.defer then t.opword else 0) ++ leBytes 4 0 ++
    ((List.range 16).map fun sl => BitVec.ofNat 8 (depth sl)) ++ leBytes 16 0

/-- Offset of v_i's image in the frame block (R176). -/
def imageOff (i : Nat) : Nat := 0x80 + i * 0x220

/-- v0 to v3 in handler mode: U, persistent and LIVE in every slice. -/
def handlerReg (g : Group) (v : Word) : VReg := ⟨.uni v, nibbles fun sl => if sl < g.w / 4 then 8 else 0⟩

/-- Whether an older write to v0 to v3 is still pending (R176 step 1). -/
def lowHeld (g : Group) : Bool := g.isHeld 0 || g.isHeld 1 || g.isHeld 2 || g.isHeld 3

/-- A check of a word's bit 3 (R109): at or beyond KLEN, or bit 3 clear, and what its read met. -/
inductive Target where
  | ok
  | bad
  | fault (code : Nat)
  | poison
  | stage2
  | wait
  deriving DecidableEq, Repr

/-- The word at a handler's offset 0 (R175): one that faults or is poisoned is met again, and escalates, at the handler's first
fetch. -/
def handlerTgt (s : State) (k ten : Nat) (hb : Word) : State × Target :=
  match translate s (coreOf k) ten .supervisor .fetch (hb.toNat % 2 ^ 56) with
  | .ok x => (match hereOf s x with
    | some pa => (s, if readNat s ten pa 4 / 8 % 2 == 1 then .ok else .bad)
    | none => (match syncRead s k ten x 4 false with
      | (s, some (bs, st)) => (s, if st != 0 || field bs 0 4 / 8 % 2 == 1 then .ok else .bad)
      | (s, none) => (s, .wait)))
  | .fault _ => (s, .ok)
  | .stage2 => (s, .stage2)
  | .pte pa => (askPte s ten pa, .wait)

/-- Send a WRITE of `who` to another part, which waits for its answer (R340). DESIGN CHOICE (log entry 72). -/
def sendWrite (s : State) (who : Asker) (pa : Nat) (f : Nat → Frame) : State :=
  let tag := s.serial
  sendFrame { s with serial := s.serial + 1, rwaits := ⟨who, pa, 4097, tag, none⟩ :: s.rwaits } (remotePart pa) (f tag)

/-- The frame and the images of a block on another part, in two messages (R340). DESIGN CHOICE (log entry 72). -/
def sendBlock (s : State) (k ten pa : Nat) (bs : List Byte) : State :=
  let one (s : State) (at_ n : Nat) : State :=
    sendWrite s (.group k) (pa + at_) fun tag => accFrame s 2 ten 0 0 n tag (pa + at_) 0 ((bs.drop at_).take n)
  one (one s 0 2048) 2048 256

/-- What a handler's gang finds of a frame block that was written on another part (R176, R179, R312): it waits for the
acknowledgements, and a refusal escalates. -/
def blockState (s : State) (k : Nat) (g : Group) (pi : Nat) : Target :=
  if !g.isHandler pi then .ok
  else
    let l := s.rwaits.filter fun r => r.who == .group k && r.n == 4097
    if l.any fun r => match r.ans with | some (st, _) => st != 0 | none => false then .bad
    else if l.any fun r => r.ans.isNone then .wait else .ok

/-- Start the handler once the frame block at FB has been found writable (R176 steps 2 to 4). The poison marks of v0 to v3
are kept beside the frame, and a write to a register clears its own (R317). DESIGN CHOICE (log entry 85).
DESIGN CHOICE (log entry 23). -/
def startHandler (s : State) (k : Nat) (g : Group) (pi : Nat) (p : Path) (t : TrapRec) (d : TrapDesc) (x : Xlate) : State :=
  let core := coreOf k
  let fb := d.frames + BitVec.ofNat 64 (k * 4096)
  let s := setAD s g.ten x true
  let img (i : Nat) : List Byte := ((g.regs[i]?).getD VReg.reset).image g.w i
  let s := match hereOf s x with
    | some pa =>
      let s := storeBytes s core g.ten x pa (frameBytes (depthOf g) pi p t)
      (List.range 4).foldl (fun s i => storeBytes s core g.ten x (pa + imageOff i) (img i)) s
    | none => sendBlock s k g.ten x.pa
        (frameBytes (depthOf g) pi p t ++ ((List.range 4).map fun i => img i ++ List.replicate (0x220 - (img i).length) 0).flatten)
  let spill := t.spill
  let (code, off) : Code × Nat :=
    if spill then ({ p.code with level := .user }, (match kdescOf s g with | some kd => kd.sphand.getD 0 | none => 0))
    else (⟨d.hbase, d.hlen, .supervisor⟩, 0)
  let h : Handler := ⟨pi, fb, t, p.code, p.spot, p.slices, (List.range 16).map (depthOf g), g.rpoison.filter fun m => m.1 < 4, pi, p.owes⟩
  let g := (((g.setReg 0 (handlerReg g fb)).setReg 1 (handlerReg g (fb + 0x900))).setReg 2
    (handlerReg g (fb + 0xB20))).setReg 3 (handlerReg g (fb + 0xD40))
  let p := { p with exec := t.fault, spot := .boundary off, code := code, park := none, trap := none, only := none,
                    quiet := false, noinv := false, since := none, owes := [],
                    stop := match p.stop with | .stepping => .atNext | .none => .none | .atNext => .atNext | .stopped => .stopped }
  let g := { g.setPath pi (some p) with handler := some h, rpoison := g.rpoison.filter fun m => 4 ≤ m.1,
                                        wcount := if t.cause = cWATCHDOG then 0 else g.wcount }
  let s := putGroup s k g
  let s := emit s k pi 2 0 (leBytes 1 t.cause ++ leBytes 3 t.word ++ lanesField g.w t.fault)
  countEvent s core 10 1

/-- Trap entry for a gang of a group that runs no handler and has no pending write to v0 to v3. -/
def enterTrap (s : State) (k : Nat) (g : Group) (pi : Nat) (p : Path) (t : TrapRec) : State :=
  let core := coreOf k
  let wait := putGroup s k (g.setPath pi (some { p with trap := some t }))
  let s2 (va : Word) := parkStage2 s k g pi { p with trap := some t } va
  match translate s core g.ten .supervisor .read (g.tvec.toNat % 2 ^ 56) with
  | .fault _ => escalate (putGroup s k g) k
  | .stage2 => s2 g.tvec
  | .pte pa => askPte wait g.ten pa
  | .ok x =>
    let s := tlbFill s core g.ten (g.tvec.toNat % 2 ^ 56)
    match peekRead s k g.ten x 64 with
    | (s', none) => putGroup s' k (g.setPath pi (some { p with trap := some t }))
    | (s', some (bs, bad)) =>
      match (if bad != 0 then none else parseTrapDesc bs) with
      | none => escalate (putGroup s' k g) k
      | some d =>
        match handlerTgt s' k g.ten d.hbase with
        | (s1, .wait) => putGroup s1 k (g.setPath pi (some { p with trap := some t }))
        | (_, .stage2) => s2 d.hbase
        | (s1, .bad) => escalate (putGroup s1 k g) k
        | (s1, .ok) | (s1, .poison) | (s1, .fault _) =>
          let fb := d.frames + BitVec.ofNat 64 (k * 4096)
          match translate s1 core g.ten .supervisor .write (fb.toNat % 2 ^ 56) with
          | .fault _ => escalate (putGroup s1 k g) k
          | .stage2 => s2 fb
          | .pte pa => askPte (putGroup s1 k (g.setPath pi (some { p with trap := some t }))) g.ten pa
          | .ok y =>
            let s3 := dropAnswer s1 k x 64
            if y.mp then wait
            else
              match hereOf s1 y with
              | none => startHandler s3 k g pi p t d y
              | some pa =>
                if poisoned s1 pa 0x900 then escalate (putGroup s1 k g) k
                else if lineAbsent s1 pa then wait
                else startHandler s3 k g pi p t d y

/-- The held trap with the lowest path index (R179). -/
def heldPath (g : Group) : Option Nat :=
  (List.range 16).find? fun i => match g.path i with | some p => p.park == some .heldTrap | none => false

/-- Another gang's trap is held or on its way in, and enters first (R179). -/
def Group.entering (g : Group) (pi : Nat) : Bool :=
  (List.range 16).any fun i => i != pi && (match g.path i with | some q => q.trap.isSome | none => false)

/-- A gang traps (R35, R179): into its handler when the group runs none; held behind the group's running handler, or behind
a trap that waits to enter; and
an escalation when the trap is raised in handler mode. `g` is the group with the trapping instruction's own effects. -/
def takeTrap (s : State) (k : Nat) (g : Group) (pi : Nat) (p : Path) (t : TrapRec) : State :=
  if g.isHandler pi then escalate (putGroup s k g) k
  else if g.handler.isSome || g.entering pi then
    let s := parkAt s k g pi { p with trap := some t } .heldTrap
    emit s k pi 2 1 (leBytes 1 t.cause ++ leBytes 3 t.word ++ lanesField g.w t.fault)
  else if lowHeld g then putGroup s k (g.setPath pi (some { p with trap := some t }))
  else enterTrap s k g pi p t

/-- A trap of the executing gang before any effect of its instruction. -/
def trapOut (s : State) (g : Group) (p : Path) (t : TrapRec) : Result := .next (takeTrap s s.cur g s.path p t)

/-- A trap for the whole gang with a cause and nothing else (R35). -/
def trapWhole (s : State) (g : Group) (p : Path) (cause : Nat) : Result := trapOut s g p (p.trapRec cause)

/-! ### What an instruction names -/

/-- The fields of an instruction that the checks of R108 look at. -/
structure Use where
  /-- operand fields read, in order, with repeats -/
  rd   : List VR
  /-- those that are uniform-only -/
  uni  : List VR := []
  /-- registers named and not read -/
  wr   : List VR := []
  /-- words of the instruction -/
  len  : Nat := 1
  /-- a supervisor row (R106) -/
  priv : Bool := false
  /-- each lane's result depends on that lane's operands alone -/
  lanewise : Bool := false
  /-- a run of registers or a tile name reaches beyond the group's limit (R51, R195, R197) -/
  beyond : Bool := false
  deriving DecidableEq, Repr

def Use.all (u : Use) : List VR := u.rd ++ u.wr

/-- The decrements of an instruction's reads, none for a quiet re-execution (R61, R64). DEDUCED (log entry 57). -/
def released (g : Group) (p : Path) (u : Use) : Group := if p.quiet then g else g.release p.slices u.rd

/-- An instruction's own trap: its decrements are applied once, at the trap (R65). -/
def trapOwn (u : Use) (s : State) (g : Group) (p : Path) (t : TrapRec) : Result := trapOut s (released g p u) p t

/-- A park at an instruction that executes again from its start: it reads and decrements once (R348).
DEDUCED (log entry 57). DEDUCED (log entry 58). -/
def parkAgain (u : Use) (s : State) (g : Group) (p : Path) (pk : Park) : Result :=
  .next (parkAt s s.cur (released g p u) s.path { p with quiet := true } pk)

def parkAgainS2 (u : Use) (s : State) (g : Group) (p : Path) (va : Word) : Result :=
  .next (parkStage2 s s.cur (released g p u) s.path { p with quiet := true } va)

/-! ### Held reports (R156) -/

/-- The lanes of a report that a gang holds. -/
def Report.mine (r : Report) (p : Path) : Mask := r.lanes &&& laneMask p.slices

def Report.names (r : Report) (v : VR) : Bool :=
  match r.dest with
  | some (d, n) => decide (d ≤ v.toNat) && decide (v.toNat < d + n)
  | none => false

/-- The error record of a report (R156, R316): the memory home of poisoned data, and the core for any other cause.
DESIGN CHOICE (log entry 94). -/
def logReport (s : State) (g : Group) (r : Report) : State :=
  match r.pa with
  | some pa => logError s 2 (srcOf pa) ((homeNum pa).getD 0) g.ten 2 pa 0
  | none => logError s 2 3 (coreOf s.cur) g.ten 0 0 r.cause

/-- Raise a report in a gang: its lanes leave the report, and the trap names the reporting instruction and the
operation. -/
def raiseReport (s : State) (g : Group) (p : Path) (r : Report) : Result :=
  let m := r.mine p
  let rest := r.lanes &&& ~~~m
  let reports := if rest == 0 then g.reports.filter (· != r) else g.reports.map fun q => if q = r then { r with lanes := rest } else q
  let t := { p.trapRec r.cause with defer := true, fault := m &&& g.live, code := r.code, addr := r.addr, opword := r.word,
                                    redoOp := some r.op }
  trapOut (logReport s g r) { g with reports := reports } p t

/-- The report of the oldest operation among those of the gang that satisfy a condition (R156). -/
def findReport (g : Group) (p : Path) (c : Report → Bool) : Option Report :=
  (g.reports.filter fun r => r.mine p != 0 && c r).foldl
    (fun best r => match best with
      | some b => if r.op < b.op then some r else best
      | none => some r) none

/-! ### The checks of R108 before an instruction's own -/

/-- Slices of the gang in which some register of a list is not LIVE. -/
def deadSlices (g : Group) (p : Path) (l : List VR) : BitVec 16 :=
  BitVec.ofNat 16 ((List.range 16).foldl (fun acc sl =>
    if inSlices p.slices sl && l.any (fun r => !(g.reg r).live sl) then acc + 2 ^ sl else acc) 0)

/-- A register of another gang's handler mode: v0 to v3 (R176). -/
def handlerBlocked (g : Group) (pi : Nat) (l : List VR) : Bool :=
  g.handler.isSome && !g.isHandler pi && l.any fun r => r.toNat < 4

/-- A poisoned lane of a register that the instruction reads (R317). -/
def poisonLanes (g : Group) (p : Path) (l : List VR) : Mask :=
  l.foldl (fun m r => m ||| ((tget g.rpoison r.toNat).getD 0 &&& p.active)) 0

/-- Privilege, held registers, handler mode, held reports, REGRANGE, NOTUNIF and DEADREAD in that order, and the poisoned
operands of an instruction that writes no vector register; then the instruction itself. One that writes a register checks
REGBUDGET before its poisoned operands (R108, `withBudget`). DEDUCED (log entry 59). DEDUCED (log entry 58). -/
def begin_ (u : Use) (s : State) (body : Group → Path → Result) : Result :=
  withGang s fun g p =>
    if u.priv && p.code.level == .user then trapWhole s g p cPRIV
    else if u.all.any (fun r => g.isHeld r.toNat) then stallWith s 2
    else if handlerBlocked g s.path u.all then stallWith s 6
    else
      match findReport g p (fun r => u.all.any r.names) with
      | some r => raiseReport s g p r
      | none =>
        if u.beyond || u.all.any (fun r => decide (g.allot ≤ r.toNat)) then trapWhole s g p cREGRANGE
        else if u.uni.any (fun r => !(g.reg r).val.isUni) then trapWhole s g p cNOTUNIF
        else
          let dead := if p.quiet then 0 else deadSlices g p u.rd
          if dead != 0 then
            trapOut s g p { p.trapRec cDEADREAD with fault := p.active &&& laneMask dead }
          else
            let bad := poisonLanes g p u.rd
            if bad != 0 && !u.lanewise && u.wr.isEmpty then trapOwn u s g p { p.trapRec cPOISON with fault := bad }
            else body g p

/-- Lane value of an operand. -/
def Group.val (g : Group) (r : VR) (lane : Nat) : Word := (g.reg r).src lane

/-- The value of a uniform operand of a gang. A quiet re-execution reads it as 0 where the gang's lowest slice does not hold the
register (R64); without one such a slice traps DEADREAD. -/
def Group.uval (g : Group) (p : Path) (r : VR) : Word :=
  match (g.reg r).val with
  | .uni u => if (g.reg r).live (lowBit 16 p.slices.toNat) then u else 0
  | .aff _ _ | .gen _ | .dead => 0

/-- The value in the gang's lowest active lane, 0 with none. -/
def Group.lowVal (g : Group) (p : Path) (r : VR) : Word :=
  if p.active == 0 then 0 else g.val r (lowBit 64 p.active.toNat)

/-! ### The budget (R59) and register results -/

/-- S1 exceeds the budget and S0. -/
def overBudget (g0 g1 : Group) : Bool := decide (g0.budget < g1.storage) && decide (g0.storage < g1.storage)

/-- Which trap SPHAND turns a REGBUDGET into (R90). -/
def budgetTrap (s : State) (g : Group) (p : Path) : TrapRec :=
  { p.trapRec cREGBUDGET with spill := (match kdescOf s g with | some k => k.sphand.isSome | none => false) }

/-- REGBUDGET against the group g1 that the write would leave, then the poisoned operands of an instruction whose lanes do
not stand apart (R108, R317), then the instruction's own effect. -/
def withBudget (u : Use) (s : State) (g : Group) (p : Path) (g1 : Group) (body : Result) : Result :=
  let bad := poisonLanes g p u.rd
  if overBudget (released g p u) g1 then trapOut s g p (budgetTrap s g p)
  else if bad != 0 && !u.lanewise then trapOwn u s g p { p.trapRec cPOISON with fault := bad }
  else body

/-- A write clears the poison marks of the lanes written (R317). -/
def Group.clearPoison (g : Group) (d : VR) (m : Mask) : Group :=
  match tget g.rpoison d.toNat with
  | none => g
  | some old =>
    let rest := old &&& ~~~m
    { g with rpoison := if rest == 0 then tdel g.rpoison d.toNat else tput g.rpoison d.toNat rest }

/-- Lanes of a register marked poisoned. DESIGN CHOICE (log entry 85). -/
def Group.addPoison (g : Group) (d : VR) (m : Mask) : Group :=
  if m == 0 then g else { g with rpoison := tput g.rpoison d.toNat ((tget g.rpoison d.toNat).getD 0 ||| m) }

/-- Write one register and finish, for an instruction whose lanes read other lanes: `bad` names the active lanes that read a
poisoned one, in whatever lane it stands (R129, R317). Nothing is written while one does. -/
def writeFrom (bad : Mask) (u : Use) (d : VR) (cc : CC) (s : State) (g : Group) (p : Path) (shape : Option Shape)
    (f : Nat → Word) : Result :=
  let g1 := ((released g p u).writeReg s.path p d cc shape f).clearPoison d p.active
  if overBudget (released g p u) g1 then trapOut s g p (budgetTrap s g p)
  else if bad != 0 then trapOwn u s g p { p.trapRec cPOISON with fault := bad }
  else finish s g1 p u.len

/-- Write one register and finish: the budget check, the decrements, the write and the advance. Where a lane-wise
instruction reads a poisoned lane, the lanes that complete are written and it traps POISON for the others (R35, R65,
R317). DESIGN CHOICE (log entry 97). -/
def writeReg (u : Use) (d : VR) (cc : CC) (s : State) (g : Group) (p : Path) (shape : Option Shape) (f : Nat → Word) :
    Result :=
  let g0 := released g p u
  let bad := poisonLanes g p u.rd
  let q := if bad == 0 then p else { p with only := some (p.active &&& ~~~bad) }
  let g1 := (g0.writeReg s.path q d cc shape f).clearPoison d q.active
  withBudget u s g p g1
    (if bad != 0 then trapOut s (if q.active == 0 then g0 else g1) p { p.trapRec cPOISON with fault := bad, done := q.active }
    else finish s g1 p u.len)

/-- Finish an instruction that writes no vector register. DEDUCED (log entry 59). -/
def finishUse (u : Use) (s : State) (g : Group) (p : Path) : Result := finish s (released g p u) p u.len

/-! ### Fetching code (R96, R110, R173) -/

inductive Fetched where
  | word (w : IWord)
  | fault (code : Nat)
  | poison
  | stage2
  | wait
  deriving DecidableEq, Repr

/-- The run of a page that one READ brings for a word of the code on another part: its line, or, where the word lies across two
lines, the smallest aligned run with both of them, so that the word is wholly of one version (R110). First offset and size. -/
def codeRun (v n : Nat) : Nat × Nat :=
  match [64, 128, 256, 512, 1024, 2048].find? fun m => v / m == (v + n - 1) / m with
  | some m => (v / m * m, m)
  | none => (v / 4096 * 4096, 4096)

/-- n bytes at a VA, inside one page, and inside one line where the page is here, and the state with what the fetch kept: a whole
word comes through the core's instruction cache, part of one from the home, and a line with a poisoned granule is not kept.
DEDUCED (log entry 70). -/
def fetchPart (s : State) (k ten : Nat) (lvl : Level) (v n : Nat) : State × Fetched :=
  let core := coreOf k
  match translate s core ten lvl .fetch v with
  | .fault c => (tlbFill s core ten v, .fault c)
  | .stage2 => (s, .stage2)
  | .pte pa => (askPte s ten pa, .wait)
  | .ok x =>
    let s := tlbFill s core ten v
    match hereOf s x with
    | some pa =>
      match (if n = 4 then s.icache.find? fun l => l.core == core && l.line == pa / 64 && (isSilo pa || l.key == keyOf s ten) else none) with
      | some l => (s, .word (BitVec.ofNat 32 (field l.bytes (pa % 64) n)))
      | none =>
        let s := heatTouch (setAD s ten x false) ten x pa n
        if poisoned s pa n then (s, .poison)
        else if n < 4 || poisoned s (pa / 64 * 64) 64 then (s, .word (BitVec.ofNat 32 (leNat (readBytes s ten pa n))))
        else
          let line := readBytes s ten (pa / 64 * 64) 64
          ({ s with icache := ⟨core, pa / 64, keyOf s ten, line⟩ :: s.icache }, .word (BitVec.ofNat 32 (field line (pa % 64) n)))
    | none =>
      let whole := x.pa % 4 = 0 && n = 4
      let run := codeRun x.pa n
      match (if whole then syncRead s k ten x 4 false else syncRead s k ten { x with pa := run.1 } run.2 false) with
      | (s, some (bs, bad)) =>
        (s, if bad = 1 then .fault 5 else if bad != 0 then .poison
            else .word (BitVec.ofNat 32 (field bs (if whole then 0 else x.pa - run.1) n)))
      | (s, none) => (s, .wait)

/-- A VA's page is on another part. -/
def elsewhere (s : State) (k ten : Nat) (lvl : Level) (v : Nat) : Bool :=
  match translate s (coreOf k) ten lvl .fetch v with
  | .ok x => (hereOf s x).isNone
  | .fault _ | .stage2 | .pte _ => false

/-- The word at a VA. The spec gives KBASE no alignment, so that a word may lie across two lines; both of its parts are then
read at the home at one time, so that no older part joins a newer one (R110; DEDUCED, log entry 70). A word across two pages, of
which one is on another part, is read in two messages. DESIGN CHOICE (log entry 98). DEDUCED (log entry 73). -/
def fetchVa (s : State) (k ten : Nat) (lvl : Level) (va : Word) : State × Fetched :=
  let v := va.toNat % 2 ^ 56
  let n := 64 - v % 64
  if 4 ≤ n || (4 ≤ 4096 - v % 4096 && elsewhere s k ten lvl v) then fetchPart s k ten lvl v 4
  else
    match fetchPart s k ten lvl v n with
    | (s, .word a) =>
      (match fetchPart s k ten lvl ((v + n) % 2 ^ 56) (4 - n) with
      | (s, .word b) => (s, .word (a ||| BitVec.ofNat 32 (b.toNat * 2 ^ (8 * n))))
      | r => r)
    | r => r

/-- The word at an offset of the gang's code. DEDUCED (log entry 73). -/
def fetchWord (s : State) (k : Nat) (g : Group) (p : Path) (off : Nat) : State × Fetched :=
  fetchVa s k g.ten p.code.level (p.code.kbase + BitVec.ofNat 64 (4 * off))

def checkTarget (s : State) (k : Nat) (g : Group) (p : Path) (t : Nat) : State × Target :=
  if p.code.klen ≤ t then (s, .bad)
  else
    match fetchWord s k g p t with
    | (s, .word w) => (s, if hTgt w then .ok else .bad)
    | (s, .fault c) => (s, .fault c)
    | (s, .poison) => (s, .poison)
    | (s, .stage2) => (s, .stage2)
    | (s, .wait) => (s, .wait)

/-- Check a target, then go on; a translation fault on the read is taken at the transfer (R109). -/
def withTarget (u : Use) (s : State) (g : Group) (p : Path) (t : Nat) (body : State → Result) : Result :=
  let va := p.code.kbase + BitVec.ofNat 64 (4 * t)
  match checkTarget s s.cur g p t with
  | (s, .ok) => body s
  | (s, .bad) => trapOwn u s g p (p.trapRec cBADTGT)
  | (s, .fault c) => trapOwn u s g p { p.trapRec cXLATE with code := c, addr := va }
  | (s, .poison) => trapOwn u s g p { p.trapRec cPOISON with addr := va }
  | (s, .stage2) => parkAgainS2 u s g p va
  | (s, .wait) => stallWith s 5

/-- A fence or a like instruction notes the serial number of its first attempt (R172). -/
def sinceOf (s : State) (p : Path) : Nat := p.since.getD s.serial

/-- Stall at the instruction, remembering the first attempt. -/
def stallSince (s : State) (g : Group) (p : Path) (reason : Nat) : Result :=
  .next { putGroup s s.cur (g.setPath s.path (some { p with since := some (sinceOf s p) })) with stall := some reason }

/-! ### Synchronous reads of structures (R191) -/

/-- The absent Silo lines of n bytes at an aligned place. -/
def absentLines (s : State) (x : Xlate) (n : Nat) : List Nat :=
  match hereOf s x with
  | some pa => ((List.range ((n + 63) / 64)).map fun i => pa / 64 + i).filter fun l => lineAbsent s (64 * l)
  | none => []

/-- Read n bytes at a VA for the gang as a whole, with the checks of R151 against an alignment, the presence park and
precise POISON; then go on with the bytes. Bytes that a cache holds need the checks, and no read. -/
def readStruct (u : Use) (s : State) (g : Group) (p : Path) (va : Word) (n align : Nat) (held : Option (List Byte))
    (body : State → List Byte → Result) : Result :=
  let core := coreOf s.cur
  if bits va.toNat 63 56 != 0 then trapOwn u s g p { p.trapRec cBADVA with addr := va }
  else if va.toNat % align != 0 then trapOwn u s g p { p.trapRec cMISALIGN with addr := va }
  else
    match translate s core g.ten p.code.level .read va.toNat with
    | .fault c => trapOwn u (tlbFill s core g.ten va.toNat) g p { p.trapRec cXLATE with code := c, addr := va }
    | .stage2 => parkAgainS2 u s g p va
    | .pte pa => stallSince (askPte s g.ten pa) g p 5
    | .ok x =>
      let s := tlbFill s core g.ten va.toNat
      match held with
      | some bs => body s bs
      | none =>
        match absentLines s x n with
        | _ :: _ => parkAgain u s g p (.line (absentLines s x n))
        | [] =>
          match syncRead s s.cur g.ten x n false with
          | (s, some (bs, st)) =>
            if st = 1 then trapOwn u s g p { p.trapRec cXLATE with code := 5, addr := va }
            else if st != 0 then trapOwn u s g p { p.trapRec cPOISON with addr := va }
            else body s bs
          | (s, none) => stallSince s g p 5

/-- A 64-byte structure of an engine instruction, through the group's record cache; its address is checked where the cache
holds it too (R191, R261). vopen's body is 40 bytes of it (R92), and poison in the rest traps as well. DESIGN CHOICE (log entry 98). -/
def readRecord (u : Use) (s : State) (g : Group) (p : Path) (va : Word) (body : State → Group → List Byte → Result) : Result :=
  readStruct u s g p va 64 64 (tget g.recs (va.toNat / 64)) fun s bs =>
    body s { g with recs := tput g.recs (va.toNat / 64) bs } bs

/-! ### Serial numbers -/

/-- The next serial number, for an operation, a team or a launch. DESIGN CHOICE (log entry 56). -/
def newSerial (s : State) : Nat × State := (s.serial, { s with serial := s.serial + 1 })

/-- Whether every operation of the group issued before serial number n has performed. -/
def olderDone (g : Group) (n : Nat) (c : POp → Bool) : Bool := g.ops.all fun o => o.done || decide (n ≤ o.id) || !c o

/-- The group's team has issued ccol or sigdec, or has had an enq accepted (R322). -/
def markEffects (s : State) (g : Group) : State :=
  { s with teams := tmod s.teams g.team fun tm => { tm with effects := true } }

/-- An acquire at a scope drops the core's read cache: at clu or wider, and at team in a paired team (R153, R243). -/
def acquireDrops (s : State) (g : Group) (scp : Scp) : Bool :=
  match scp with
  | .grp => false
  | .team => (match kdescOf s g with | some kd => kd.pair | none => false)
  | .clu | .die | .dev | .dom | .sys => true

/-- An acquire by a gang of a group. DEDUCED (log entry 57). -/
def acquire (s : State) (k : Nat) (g : Group) (scp : Scp) : State :=
  if acquireDrops s g scp then dropReadCache s (coreOf k) else s

end Sys2Proof.Machine
end

