-- ==== Sys2Proof/Machine/Perform.lean ====
section
/-! DEFINITION. Asynchronous memory operations (R149 to R163, R174): their issue, the order in which their accesses may
perform (R154, R155, R243, R264, R268), what one access does at its home, and completion. -/

namespace Sys2Proof.Machine

/-! ### Atomic functions (R160, R174) -/

def AT.width : AT → Nat
  | .n64 | .s64 => 64
  | .n32 | .s32 | .f32 | .bf16x2 | .f16x2 => 32
def AT.isSigned : AT → Bool
  | .s32 | .s64 => true
  | .n32 | .n64 | .f32 | .bf16x2 | .f16x2 => false

/-- RN32, or RNEBF or RNE16 of each half. -/
def faddFn (ty : AT) (x y : Nat) : Nat :=
  let one (f : Fmt) (o : Nat) : Nat := (f.add .rne (f.decode (x / 2 ^ o)) (f.decode (y / 2 ^ o))).bits
  match ty with
  | .bf16x2 => one fmtBf16 0 + one fmtBf16 16 * 2 ^ 16
  | .f16x2 => one fmtF16 0 + one fmtF16 16 * 2 ^ 16
  | .f32 | .n32 | .s32 | .n64 | .s64 => one fmtF32 0

/-- The count of a signal word after a decrement, with its code (R46). -/
def signalNext (w code : Nat) : Nat :=
  let count := (w % 2 ^ 56 + (2 ^ 56 - 1)) % 2 ^ 56
  let old := w / 2 ^ 56
  (if code ≠ 0 && old = 0 then code else old) * 2 ^ 56 + count

/-- The word after a signal packet (R44): bits 63:56 stay. -/
def signalOp (w op v : Nat) : Nat :=
  let c := w % 2 ^ 56
  let n := if op = 0 then v else if op = 1 then c + v else c + (2 ^ 56 - v % 2 ^ 56)
  w / 2 ^ 56 * 2 ^ 56 + n % 2 ^ 56

/-- An atomic at a signal word, by its operands: a decrement with a code in bits 7:0 of the first, which is 0 for sigdec
(R46, R174), or a signal packet's OP plus one in bits 15:8, with its VAL as the second (R44). DESIGN CHOICE (log entry 15). -/
def signalWord (old b c : Nat) : Nat :=
  if bits b 15 8 = 0 then signalNext old (b % 256) else signalOp old (bits b 15 8 - 1) c

/-- NEW(old, b, c) on numbers below 2^w. -/
def atomNew (f : AFun) (ty : AT) (old b c : Nat) : Nat :=
  let w := AT.width ty
  let less (x y : Nat) : Bool := if AT.isSigned ty then decide (sval w x < sval w y) else decide (x < y)
  match f with
  | .add => (old + b) % 2 ^ w
  | .and => old &&& b
  | .or => old ||| b
  | .xor => old ^^^ b
  | .min => if less b old then b else old
  | .max => if less old b then b else old
  | .exch => b
  | .cas => if old = c then b else old
  | .fadd => faddFn ty old b
  | .sigdec => signalWord old b c

/-- The SUB code of a frame's atomic (R160, R340). The spec gives none for sigdec. DESIGN CHOICE (log entry 15). -/
def AFun.code : AFun → Nat
  | .add => 0 | .and => 1 | .or => 2 | .xor => 3 | .min => 4 | .max => 5 | .exch => 6 | .cas => 7 | .fadd => 8
  | .sigdec => Config.sigdecSub.toNat
def AT.num : AT → Nat
  | .n32 => 0 | .s32 => 1 | .n64 => 2 | .s64 => 3 | .f32 => 4 | .bf16x2 => 5 | .f16x2 => 6

/-! ### Which access may perform -/

def OpKind.isWrite : OpKind → Bool
  | .store | .atomic _ _ | .spill | .stcov _ => true
  | .load _ _ | .loadu | .unspill _ => false
  | .mma .. | .mms .. | .mzero .. | .mlda .. | .msta .. | .mrow .. | .copy .. | .ccol .. => false

def OpKind.isStore : OpKind → Bool
  | .store | .spill => true
  | .atomic _ _ | .stcov _ | .load _ _ | .loadu | .unspill _ => false
  | .mma .. | .mms .. | .mzero .. | .mlda .. | .msta .. | .mrow .. | .copy .. | .ccol .. => false

def Ord.isAcq : Ord → Bool | .acq | .ar => true | .rlx | .rel => false
def Ord.isRel : Ord → Bool | .rel | .ar => true | .rlx | .acq => false

/-- The operations of the group that are older than o. -/
def olderOps (g : Group) (o : POp) : List POp := g.ops.takeWhile fun q => q.id != o.id

/-- Two accesses of one group to one location: by their places, or by their addresses where one of them took its
translation before a move of the page (R264). -/
def Acc.overlaps (a b : Acc) : Bool :=
  (decide (a.x.pa < b.x.pa + b.size) && decide (b.x.pa < a.x.pa + a.size)) ||
    (let x := a.va.toNat % 2 ^ 56
     let y := b.va.toNat % 2 ^ 56
     decide (x < y + b.size) && decide (y < x + a.size))

/-- A scope narrower than dom: a remote write counts once its port has accepted it (R243). -/
def Scp.local_ : Scp → Bool | .grp | .team | .clu | .die | .dev => true | .dom | .sys => false

/-- An access is as far as a release at a scope needs (R243). -/
def accVisible (o : POp) (scp : Scp) (a : Acc) : Bool :=
  a.done || (OpKind.isWrite o.kind && a.sent.isSome && Scp.local_ scp)

/-- An operation is as far as a release at a scope needs. -/
def opVisible (scp : Scp) (o : POp) : Bool := o.done || (o.accs.all (accVisible o scp) && !o.accs.isEmpty)

/-- A write or atomic to a page under migration is held (R264). -/
def migrating (s : State) (pa : Nat) : Bool :=
  s.moves.any fun (_, m) => decide (0 < m.stepNo) && decide (m.old ≤ pa) && decide (pa < m.old + m.size)

def mpHeld (s : State) (ten : Nat) (a : Acc) : Bool :=
  a.x.mp && (migrating s a.x.pa || (walk s ten (a.va.toNat % 2 ^ 56)).x.mp)

/-- Where a held access performs once its page's move has ended (R264 step 7). -/
def placeOf (s : State) (ten : Nat) (a : Acc) : Acc :=
  if a.x.mp then
    let w := walk s ten (a.va.toNat % 2 ^ 56)
    if w.code = 0 && !w.s2 then { a with x := { w.x with pa := w.x.pa + (a.va.toNat % 2 ^ 56 - w.base) } } else a
  else a

/-- A template of the group's own team, which the team's other templates do not wait for, as views of one group do not.
DEDUCED (log entry 99). -/
def siblingTemplate (s : State) (k : Nat) (v : OpenView) (r : Reg) : Bool :=
  v.ticket.core == 64 && r.group.isNone && (match tget s.groups k with | some g => g.team == r.team | none => false)

/-- The Trellis grants an access through a view of a group (R268). -/
def granted (s : State) (k : Nat) (v : OpenView) : Bool :=
  s.trellis.all fun r =>
    !(r.group != some k && !siblingTemplate s k v r && Ticket.older r.ticket v.ticket &&
      mayMeet r.desc r.homes v.desc v.homes && (decide (2 ≤ r.desc.mode) || decide (2 ≤ v.desc.mode)))

/-- A gang is parked at a waitv that the group issued before serial number n, one with ord=acq where `acq` asks for it
(R155, R172). -/
def Group.waitsBefore (g : Group) (n : Nat) (acq : Bool) : Bool :=
  g.paths.toList.any fun p => match p.bind (·.park) with
    | some (.waitv id _ _ _ _ _ a) => decide (id < n) && (!acq || a.isSome)
    | _ => false

/-- Every memory operation before serial number n, and every waitv (R155), is visible at a scope. -/
def visibleBefore (g : Group) (n : Nat) (scp : Scp) : Bool :=
  !g.waitsBefore n false && g.ops.all fun o => decide (n ≤ o.id) || !(o.cls == .mem || o.cls == .cov) || opVisible scp o

/-- What this part sent to others before serial number n has been acknowledged, where a release at dom or sys asks for it: the
writes of every group, since a release covers those of others that happen before it, and those of the part itself (R243, R245).
DEDUCED (log entry 100). -/
def domSettled (s : State) (n : Nat) (scp : Scp) : Bool :=
  Scp.local_ scp ||
    ((s.groups.all fun (_, g) => g.ops.all fun o => o.done || !OpKind.isWrite o.kind || o.accs.all fun a =>
      a.done || (match a.sent with | some t => decide (n ≤ t) | none => true)) &&
    s.rwaits.all fun r => r.n != 4097 || r.ans.isSome || decide (n ≤ r.tag))

/-- An access that the group ordered with another scope than its own (R244). -/
def Ord.isOrdered : Ord → Bool | .rlx => false | .acq | .rel | .ar => true

/-- An earlier waitv of the group still waits for a word at which an access would be made (R154). DEDUCED (log entry 100). -/
def Group.waitsAt (g : Group) (n : Nat) (a : Acc) : Bool :=
  g.paths.toList.any fun p => match p with
    | some q => (match q.park with
      | some (.waitv id sat addrs _ _ w64 _) => decide (id < n) && q.lanes.any fun l =>
          !bitOf sat l &&
            (let x := (addrs.getD l 0).toNat % 2 ^ 56
             let y := a.va.toNat % 2 ^ 56
             decide (x < y + a.size) && decide (y < x + if w64 then 8 else 4))
      | _ => false)
    | none => false

/-- An access whose translation is made when it performs: a coverage lane's (R209), or one that a save withdrew (R159). -/
def noXlate : Xlate := { Xlate.none with pa := 2 ^ 60 }
def Acc.unplaced (a : Acc) : Bool := a.x.pa == 2 ^ 60

/-- The order of one access against the group's older accesses: same location in issue order and, within one
instruction, in lane order (R154), an earlier waitv among them; after older acquires (R155); after everything older for a
release; an ordered access after the older ordered ones, so that a program without races keeps its one order (R246); held
accesses of a group in group order (R264); and nothing before a withdrawn access has its place again (R159). -/
def inOrder (g : Group) (o : POp) (a : Acc) (before : List Acc) : Bool :=
  let old := olderOps g o
  !g.waitsBefore o.id true &&
  (old.all fun q => q.done || q.accs.all fun b => b.done || !(b.overlaps a || (b.x.mp && a.x.mp) || (q.cls == .mem && b.unplaced))) &&
  (old.all fun q => q.done || !(q.cls == .mem && Ord.isAcq q.ord)) &&
  (!Ord.isRel o.ord || (!g.waitsBefore o.id false && old.all fun q => !(q.cls == .mem || q.cls == .cov) || opVisible o.scp q)) &&
  (!Ord.isOrdered o.ord || old.all fun q => q.done || !(q.cls == .mem && Ord.isOrdered q.ord)) &&
  !g.waitsAt o.id a &&
  (!OpKind.isWrite o.kind || before.all fun b => b.done || !(b.overlaps a || (b.x.mp && a.x.mp)))

/-- The operation's view has its grant. -/
def POp.granted (s : State) (k : Nat) (o : POp) : Bool :=
  match o.view with
  | some (_, v) => Machine.granted s k v
  | none => true

/-- A grant acquires, so that no later access of the group performs while an older one waits for it (R242, R268). -/
def grantsBefore (s : State) (k : Nat) (g : Group) (o : POp) : Bool := (olderOps g o).all fun q => q.done || q.granted s k

/-- Whether access a of operation o may perform now. DESIGN CHOICE (log entry 7). -/
def mayPerform (s : State) (k : Nat) (g : Group) (o : POp) (a : Acc) (before : List Acc) : Bool :=
  !a.done && a.sent.isNone && !a.unplaced && inOrder g o a before && !(OpKind.isWrite o.kind && mpHeld s g.ten a) &&
    o.granted s k && grantsBefore s k g o && (!Ord.isRel o.ord || domSettled s o.id o.scp) &&
    (match hereOf s a.x with
    | some pa => !lineAbsent s pa
    | none => true)

/-! ### One access at its home -/

/-- The message of a domain-remote access; an atomic that returns nothing carries one operand, and one that returns the old
value two. DESIGN CHOICE (log entries 31, 55). DESIGN CHOICE (log entry 31). DESIGN CHOICE (log entry 55). -/
def sendAcc (s : State) (ten : Nat) (o : POp) (a : Acc) : State × Acc :=
  let s := setAD s ten a.x (OpKind.isWrite o.kind)
  let tag := s.serial
  let ord := match o.ord with | .rlx => 0 | .acq => 1 | .rel => 2 | .ar => 3
  let scp := match o.scp with | .grp => 0 | .team => 1 | .clu => 2 | .die => 3 | .dev => 4 | .dom => 5 | .sys => 6
  let f := match o.kind with
    | .atomic fn ty => accFrame s 3 ten ord scp a.size tag a.x.pa (fn.code + AT.num ty * 16) (leBytes a.size a.data.toNat ++ (if o.dest.isSome then leBytes a.size a.cmp.toNat else []))
    | .stcov true => accFrame s 3 ten ord scp 1 tag a.x.pa (AFun.code .sigdec) [BitVec.ofNat 8 (a.data.toNat % 16 + (if a.cmp != 0 then 16 else 0))]
    | .store | .spill | .stcov _ => accFrame s 2 ten ord scp a.size tag a.x.pa 0 (leBytes a.size a.data.toNat)
    | _ => accFrame s 1 ten ord scp a.size tag a.x.pa 0 []
  (sendFrame { s with serial := s.serial + 1 } (remotePart a.x.pa) f, { a with sent := some tag })

/-- An atomic at a home of this part for a core's group: the core's read-cache copy is dropped (R153). -/
def atomicAt (s : State) (core ten : Nat) (x : Xlate) (pa size : Nat) (f : AFun) (ty : AT) (b c : Nat) : State × Nat :=
  let old := readNat s ten pa size
  let s := heatTouch s ten x pa size
  let s := writeBytes s ten pa (leBytes size (atomNew f ty old b c))
  (dropReadLine s core (pa / 64), old)

/-- A store of one nibble of a byte, atomic at the byte's home (R209). DESIGN CHOICE (log entry 55). -/
def nibbleAt (s : State) (core ten : Nat) (x : Xlate) (pa : Nat) (high : Bool) (v : Nat) : State :=
  let old := (readByte s ten pa).toNat
  let b := if high then old % 16 + v % 16 * 16 else old / 16 * 16 + v % 16
  storeBytes s core ten x pa [BitVec.ofNat 8 b]

/-- A load that the read cache does not serve: an acquire that drops the cache, whose value is to be the home's (R246), and a
restore, whose TAG was read there. DEDUCED (log entry 100). -/
def readsHome (s : State) (k : Nat) (o : POp) : Bool :=
  (Ord.isAcq o.ord && (match tget s.groups k with | some g => acquireDrops s g o.scp | none => false)) ||
    (match o.kind with | .unspill _ => true | _ => false)

/-- Access a of operation o performs. -/
def performAcc (s : State) (k ten : Nat) (o : POp) (a : Acc) : State × Acc :=
  let a := placeOf s ten a
  let core := coreOf k
  match hereOf s a.x with
  | none => sendAcc s ten o a
  | some pa =>
    let s := setAD s ten a.x (OpKind.isWrite o.kind)
    let fin := { a with done := true }
    let range := fun (b : Acc) => (b.x.pa, b.size)
    let store := fun s : State => storeCover s core ten a.x pa (leBytes a.size a.data.toNat) (o.accs.map range)
      ((a.x.pa, a.size) :: (o.accs.filter (·.done)).map range)
    let spoil := fun s : State => tellOut s pa a.size
    match o.kind with
    | .store | .spill => (spoil (store s), fin)
    | .stcov nib =>
      if nib then (nibbleAt s core ten a.x pa (a.cmp != 0) a.data.toNat, fin)
      else (store s, fin)
    | .atomic f ty =>
      if poisoned s pa a.size then (s, { fin with err := cPOISON })
      else
        let (s, old) := atomicAt s core ten a.x pa a.size f ty (a.data.toNat % 2 ^ (8 * a.size)) (a.cmp.toNat % 2 ^ (8 * a.size))
        (spoil s, { fin with res := BitVec.ofNat 64 old })
    | _ =>
      if poisoned s pa a.size then (s, { fin with err := cPOISON })
      else
        let (s, bs) := loadBytes s core ten a.x pa a.size (!a.x.dom && !readsHome s k o)
        (s, { fin with res := BitVec.ofNat 64 (leNat bs) })

/-- Lanes of a load that name the same bytes on another part share one message, and so its answer (R154): access b has been
sent for access a too. DESIGN CHOICE (log entry 7). -/
def sharesTag (o : POp) (a b : Acc) : Bool :=
  !OpKind.isWrite o.kind && !b.done && b.sent.isSome && b.x.pa == a.x.pa && b.size == a.size

/-- An access that is translated when it performs; the flag says that a stage-2 fault, which is posted under the operation's number
(R304), or an entry on another part pauses it. DESIGN CHOICE (log entry 55). -/
def coverAcc (s : State) (k ten : Nat) (o : POp) (a : Acc) : State × Acc × Bool :=
  let core := coreOf k
  let va := a.va.toNat % 2 ^ 56
  match translate s core ten o.level (if OpKind.isWrite o.kind then .write else .read) va with
  | .fault c => (tlbFill s core ten va, { a with err := cXLATE, code := c }, false)
  | .stage2 =>
    let r := (k, 65536 + o.id, a.va)
    (if s.s2faults.contains r then s else doom2 { s with s2faults := s.s2faults ++ [r] } ten va, a, true)
  | .pte pa => (askPte s ten pa, a, true)
  | .ok x => (tlbFill s core ten va, { a with x := x, err := 0 }, false)

/-- A withdrawn access is translated again once its view has its grant (R159); a fault is held as a report of the access.
DEDUCED (log entry 77). -/
def placeAgain (s : State) (k : Nat) (g : Group) (o : POp) (a : Acc) : State × Acc :=
  if a.done || !a.unplaced || !o.granted s k then (s, a)
  else
    let r := coverAcc s k g.ten o a
    (r.1, if r.2.1.err != 0 then { r.2.1 with done := true } else r.2.1)

/-- Perform every access of a list that may perform, in lane order; `before` are those already passed.
DESIGN CHOICE (log entry 7). -/
def performAll (s : State) (k : Nat) (g : Group) (o : POp) : List Acc → List Acc → State × List Acc
  | before, [] => (s, before.reverse)
  | before, a0 :: t =>
    let (s, a) := placeAgain s k g o a0
    if mayPerform s k g o a before then
      match before.find? (sharesTag o a) with
      | some b => performAll s k g o ({ a with sent := b.sent } :: before) t
      | none =>
        let (s, a) := performAcc s k g.ten { o with accs := before.reverse ++ a :: t } a
        performAll s k g o (a :: before) t
    else performAll s k g o (a :: before) t

/-- Loads of the same bytes by one instruction return the same value (R154): a load performs together with every load of
its operation in its 64-byte line. DESIGN CHOICE (log entry 7). -/
def together (o : POp) (n : Nat) (a : Acc) (i : Nat) : Bool :=
  i == n || (!OpKind.isWrite o.kind && (match o.accs[n]? with | some b => b.x.pa / 64 == a.x.pa / 64 | none => false))

/-- Access n of a memory operation performs before the operation completes. DESIGN CHOICE (log entry 7). -/
def performOne (s : State) (k id n : Nat) : State :=
  match tget s.groups k with
  | none => s
  | some g =>
    match g.op id with
    | none => s
    | some o =>
      if o.done || o.cls != .mem then s
      else
        let r := (o.accs.zipIdx).foldl (fun (acc : State × List Acc) ai0 =>
          let (s0, l) := acc
          let (s, a0) := if together o n ai0.1 ai0.2 then placeAgain s0 k g o ai0.1 else (s0, ai0.1)
          let ai := (a0, ai0.2)
          if together o n ai.1 ai.2 && mayPerform s k g o ai.1 l.reverse then
            match l.find? (sharesTag o ai.1) with
            | some b => (s, l ++ [{ ai.1 with sent := b.sent }])
            | none =>
              let (s, a) := performAcc s k g.ten { o with accs := l ++ o.accs.drop l.length } ai.1
              (s, l ++ [a])
          else (s, l ++ [ai.1])) (s, [])
        putGroup r.1 k (g.putOp { o with accs := r.2 })

/-! ### Completion (R149, R150, R156) -/

def errLanes (o : POp) (c : Nat → Bool) : Mask :=
  maskOf lanes64 fun l => o.accs.any fun a => a.lane == l && a.err != 0 && c a.err

/-- The reports of an operation whose accesses met errors: one for each cause. DEDUCED (log entry 74). -/
def reportsOf (o : POp) (lanesOf : Nat → Mask) : List Report :=
  [cPOISON, cXLATE].filterMap fun c =>
    match o.accs.find? fun a => a.err == c with
    | some a => some ⟨o.id, c, if c = cXLATE then a.code else 0, a.va, o.word, lanesOf c, o.dest.map fun (d, _) => (d.toNat, o.nregs), o.flag, o.cls, o.batch,
        if c = cPOISON && !isRemote a.x.pa && !a.unplaced then some a.x.pa else none⟩
    | none => none

/-- Value of a lane of a load: the lane's own access, or the gang's one. -/
def accRes (o : POp) (lane : Nat) : Word :=
  match o.kind with
  | .loadu => (match o.accs with | a :: _ => a.res | [] => 0)
  | _ => (match o.accs.find? fun a => a.lane == lane with | some a => a.res | none => 0)

/-- The register value of a lane. -/
def loadValue (o : POp) (lane : Nat) : Word :=
  let v := accRes o lane
  match o.kind with
  | .load n sx => if sx then sext (8 * n) v.toNat else v
  | .atomic _ ty => (match ty with | .s32 => sext 32 v.toNat | .n32 | .n64 | .s64 | .f32 | .bf16x2 | .f16x2 => v)
  | _ => v

/-- The register write of a completed load, returning atomic or ldspill, in the slices that have not exited (R168). A
write that covers every lane then live is full (R55). DEDUCED (log entry 79). DEDUCED (log entry 78). Where every lane faults, a
load still gives the gang's nibbles their count and ldu and ldspill write nothing. DESIGN CHOICE (log entry 98). -/
def completeWrite (g : Group) (o : POp) : Group :=
  match o.dest with
  | none => g
  | some (d, cc) =>
    match o.kind with
    | .unspill _ =>
      if o.accs.isEmpty then g
      else if o.accs.any fun a => a.err != 0 then { g with reports := g.reports ++ reportsOf o fun _ => o.lanes }
      else
        match VReg.ofImage g.w ((o.accs.map fun a => leBytes 8 a.res.toNat).flatten) with
        | some v =>
          let sl := o.slices &&& slicesOf g.live
          if sl == 0 && !g.holdsLive o.slices then g
          else (g.setReg d ((g.reg d).restore v g.w sl (g.holdsLive o.slices))).clearPoison d (laneMask sl)
        | none => { g with reports := g.reports ++ [⟨o.id, cILLOP, 0, 0, o.word, o.lanes, some (d.toNat, 1), o.flag, o.cls, o.batch, none⟩] }
    | .loadu =>
      let bad := o.accs.any fun a => a.err != 0
      let m := o.lanes &&& g.live
      let g := if bad then { g with reports := g.reports ++ reportsOf o fun _ => o.lanes } else g
      if bad then g
      else (g.setReg d ((g.reg d).write g.w (o.slices &&& slicesOf g.live) m (o.full || m == g.live) cc (some (.uni (loadValue o 0))) (loadValue o))).clearPoison d m
    | _ =>
      let bad := errLanes o fun _ => true
      let m := o.lanes &&& g.live &&& ~~~bad
      let g := { g with reports := g.reports ++ reportsOf o fun c => errLanes o (· == c) }
      (g.setReg d ((g.reg d).write g.w (o.slices &&& slicesOf g.live) m false cc none (loadValue o))).clearPoison d m

/-- Faulting lanes of an operation without a destination: sigdec is one atomic for its whole gang (R174).
DEDUCED (log entry 74). -/
def noDestLanes (o : POp) (c : Nat) : Mask :=
  match o.kind with
  | .atomic .sigdec _ => o.lanes
  | _ => errLanes o (· == c)

/-- Complete an operation whose accesses have all performed. -/
def completeMem (s : State) (k : Nat) (g : Group) (o : POp) : State :=
  let g1 := completeWrite g o
  let g1 := match o.dest with
    | none => { g1 with reports := g1.reports ++ reportsOf o (noDestLanes o) }
    | some _ => g1
  let g1 := (g1.putOp { o with done := true }).settle
  let s := putGroup s k g1
  if Ord.isAcq o.ord then acquire s k g1 o.scp else s


/-! ### Issue (R149 to R152) -/

/-- The clause's completion flag of a word's class. -/
def setFlag (sel : IWord → Nat) (p : Path) : Option Nat :=
  match p.spot with
  | .inside _ h _ => if sel h < 12 then some (sel h) else none
  | .boundary _ => none

/-- An instruction whose operation joins a flag of its clause: SETA for the memory class, SETB for the matrix and engine
classes (R98, R189). -/
def setsFlag : Instr → Bool
  | .ldN8 .. | .ldN16 .. | .ldN32 .. | .ldN64 .. | .ldS8 .. | .ldS16 .. | .ldS32 .. | .stB8 .. | .stB16 .. | .stB32 .. | .stB64 ..
  | .lduN64 .. | .ldv .. | .stv .. | .atomAdd .. | .atomAnd .. | .atomOr .. | .atomXor .. | .atomMin .. | .atomMax ..
  | .atomExch .. | .atomCas .. | .atomFadd .. | .atomnAdd .. | .atomnAnd .. | .atomnOr .. | .atomnXor .. | .atomnMin ..
  | .atomnMax .. | .atomnFadd .. | .stspill .. | .ldspill .. => true
  | .mma .. | .mmag .. | .mms .. | .mzero .. | .mlda .. | .msta .. | .mrow .. | .copy .. | .copyg .. | .stcov .. => true
  | .ccolAllreduce .. | .ccolRedscat .. | .ccolAllgather .. | .ccolBcast .. | .ccolAlltoall .. => true
  | _ => false

/-- The last offset among the n words from an offset on at which an instruction joins a flag, as far as the words can be
read now. -/
def lastSetter (s : State) (k : Nat) (g : Group) (p : Path) : Nat → Nat → Option Nat
  | 0, _ => none
  | n + 1, off =>
    match lastSetter s k g p n (off + 1) with
    | some q => some q
    | none =>
      match (fetchWord s k g p off).2 with
      | .word w =>
        let next := match (if n = 0 then Fetched.wait else (fetchWord s k g p (off + 1)).2) with | .word v => some v.toNat | _ => none
        (match decodeWords w.toNat (if opcLong (opcOf w.toNat) then next else none) with
        | .ok i => if setsFlag i then some off else none
        | .bad _ => none)
      | .fault _ | .poison | .stage2 | .wait => none

/-- The path of a gang that issues an operation of a flag: while its clause has a later one, the flag is owed (R52). -/
def joinFlag (s : State) (g : Group) (p : Path) (len : Nat) (flag : Option Nat) : Path :=
  match flag, p.spot with
  | some f, .inside hdr h pc =>
    let rest := p.owes.filter fun x => x.1 != f
    match lastSetter s s.cur g p (hdr + hCount h + 1 - (pc + len)) (pc + len) with
    | some q => { p with owes := (f, q) :: rest }
    | none => { p with owes := rest }
  | _, _ => p

/-- One lane's request: lane, address, value and comparand. -/
structure Want where
  lane : Nat
  va   : Word
  data : Word := 0
  cmp  : Word := 0
  deriving DecidableEq, Repr

/-- A new operation of a gang, with its fixed fields. -/
def newOp (s : State) (g : Group) (p : Path) (cls : OpClass) (kind : OpKind) (flag : Option Nat) : POp where
  id := s.serial
  cls := cls
  kind := kind
  word := p.spot.offset
  kbase := p.code.kbase
  level := p.code.level
  slices := p.slices
  lanes := p.active
  full := false
  dest := none
  nregs := 1
  flag := flag
  accs := []
  ord := .rlx
  scp := .grp
  view := none
  batch := none
  done := false
  halted := false
  okPoison := false
  inHandler := g.isHandler s.path
  pages := []

/-- What a memory instruction asks for. -/
structure Ask where
  need  : Need
  size  : Nat
  wants : List Want
  kind  : OpKind
  dest  : Option (VR × CC) := none
  /-- the shape under which the destination is held for the budget -/
  shape : Option Shape := none
  full  : Bool := false
  ord   : Ord := .rlx
  scp   : Scp := .grp
  view  : Option (Nat × OpenView) := none
  /-- lanes named in a whole-gang trap: an access for the gang faults for all of its active lanes -/
  whole : Bool := false
  /-- joins SETA (R98) -/
  flagged : Bool := true
  deriving DecidableEq, Repr

/-- The lanes whose requests satisfy a condition. -/
def wantLanes (p : Path) (a : Ask) (c : Want → Bool) : Mask :=
  if a.whole then (if a.wants.any c then p.active else 0)
  else maskOf lanes64 fun l => a.wants.any fun w => w.lane == l && c w

/-- ADDR: the faulting VA of the lowest faulting lane. -/
def lowVa (a : Ask) (c : Want → Bool) : Word := match a.wants.find? c with | some w => w.va | none => 0

def xlateOf (s : State) (core ten : Nat) (lvl : Level) (need : Need) (w : Want) : XRes :=
  translate s core ten lvl need (w.va.toNat % 2 ^ 56)

def XRes.isFault : XRes → Bool | .fault _ => true | .ok _ | .stage2 | .pte _ => false
def XRes.isS2 : XRes → Bool | .stage2 => true | .ok _ | .fault _ | .pte _ => false
/-- The entry on another part that has to be read first. -/
def XRes.askOf : XRes → Option Nat | .pte pa => some pa | .ok _ | .fault _ | .stage2 => none

def accOf (a : Ask) (w : Want) : XRes → Acc
  | .ok x => ⟨w.lane, w.va, a.size, w.data, w.cmp, x, false, none, 0, 0, 0⟩
  | .fault _ | .stage2 | .pte _ => ⟨w.lane, w.va, a.size, w.data, w.cmp, Xlate.none, false, none, 0, 0, 0⟩

/-- The group with the destination held as the ask says: the budget's S1 (R59). -/
def askHeld (g0 : Group) (p : Path) (a : Ask) : Group :=
  match a.dest with
  | some (d, cc) => g0.setReg d ((g0.reg d).write g0.w p.slices p.active a.full cc a.shape fun _ => 0)
  | none => g0

/-- The checks of R151 from BADVA on, the presence park of R152, the counter of R52, and the issue. -/
def issueMem (u : Use) (s : State) (g : Group) (p : Path) (a : Ask) : Result :=
  let core := coreOf s.cur
  let g0 := released g p u
  let g1 := askHeld g0 p a
  let badva := fun w : Want => bits w.va.toNat 63 56 != 0
  let misal := fun w : Want => w.va.toNat % a.size != 0
  let xs := a.wants.map fun w => (w, xlateOf s core g.ten p.code.level a.need w)
  let fault := fun w : Want => (xlateOf s core g.ten p.code.level a.need w).isFault
  withBudget u s g p g1 <|
  if a.wants.any badva then
    trapOwn u s g p { p.trapRec cBADVA with fault := wantLanes p a badva, addr := lowVa a badva }
  else if a.wants.any misal then
    trapOwn u s g p { p.trapRec cMISALIGN with fault := wantLanes p a misal, addr := lowVa a misal }
  else
    let fill := a.wants.foldl (fun s w => tlbFill s core g.ten (w.va.toNat % 2 ^ 56)) s
    match xs.find? fun (_, x) => x.isFault with
    | some (w, x) =>
      let code := match x with | .fault c => c | .ok _ | .stage2 | .pte _ => 0
      trapOwn u fill g p { p.trapRec cXLATE with fault := wantLanes p a fault, addr := w.va, code := code }
    | none =>
      match xs.find? fun (_, x) => x.isS2 with
      | some (w, _) => parkAgainS2 u s g p w.va
      | none => match xs.findSome? fun (_, x) => x.askOf with
      | some pa => stallWith (askPte fill g.ten pa) 5
      | none =>
        let accs := xs.map fun (w, x) => accOf a w x
        let absent := (accs.filterMap fun c => hereOf s c.x).filter (lineAbsent s)
        if !absent.isEmpty then parkAgain u fill g p (.line (absent.foldl (fun l pa => sadd l (pa / 64)) []))
        else if g.counterFull .m then stallWith fill 4
        else
          let o := { newOp s g p .mem a.kind (if a.flagged then setFlag hSetA p else none) with
                       full := a.full, dest := a.dest, accs := accs, ord := a.ord, scp := a.scp, view := a.view }
          let s := { fill with serial := fill.serial + 1 }
          let s := match a.kind with | .atomic .sigdec _ => markEffects s g | _ => s
          finish s { g0 with ops := g0.ops ++ [o] } (joinFlag s g p u.len o.flag) u.len

end Sys2Proof.Machine
end

