-- ==== Sys2Proof/Machine/Records.lean ====
section
/-! DEFINITION. Shape records and view descriptors (R91, R92), the layouts of their elements (R213, R216), and the accesses
of an engine transfer (R192, R259, R263, R304). -/

namespace Sys2Proof.Machine

/-! ### Parsing -/

def ctOf : Nat → Option CT
  | 0 => some .f16 | 1 => some .bf16 | 2 => some .f32 | 3 => some .f64 | 4 => some .e4m3 | 5 => some .e5m2
  | 6 => some .s4 | 7 => some .s8 | 8 => some .s16 | 9 => some .s32 | 10 => some .s64
  | 11 => some .n8 | 12 => some .n16 | 13 => some .n32 | 14 => some .n64
  | _ => none

/-- A shape record, none where a field is outside its range or a reserved byte is not zero (BADREC). -/
def parseRec (l : List Byte) : Option Rec :=
  let lay := field l 9 1
  let planes := field l 10 1
  let pst := sval 64 (field l 0x20 8)
  match ctOf (field l 8 1) with
  | none => none
  | some t =>
    let rows := field l 0x0C 4
    let cols := field l 0x10 4
    let tr := field l 0x28 4
    let tc := field l 0x2C 4
    if field l 7 1 = 0 && lay ≤ 2 && (lay = 2 || (planes = 0 && pst = 0)) && zeroAt l 0x0B 1 && zeroAt l 0x14 4 &&
        zeroAt l 0x30 16 && 1 ≤ rows && rows ≤ 2 ^ 24 && 1 ≤ cols && cols ≤ 2 ^ 24 && 1 ≤ tr && tr ≤ 256 && 1 ≤ tc && tc ≤ 256 then
      some ⟨BitVec.ofNat 64 (field l 0 8), t, lay, planes, rows, cols, sval 64 (field l 0x18 8), pst, tr, tc⟩
    else none

/-- A view descriptor body, none for a breach of R92 (BADVIEW). -/
def parseView (l : List Byte) : Option ViewDesc :=
  let es := field l 8 1
  let rank := field l 9 1
  let mode := field l 10 1
  let ext := (List.range 4).map fun i => field l (0x0C + 2 * i) 2
  let str := (List.range 4).map fun i => sval 32 (field l (0x14 + 4 * i) 4)
  let dims := (List.range 4).all fun i =>
    if i < rank then decide (1 ≤ ext.getD i 0) && decide (ext.getD i 0 ≤ 32767) else ext.getD i 0 == 1 && str.getD i 0 == 0
  if es ≤ 3 && 1 ≤ rank && rank ≤ 4 && 1 ≤ mode && mode ≤ 3 && zeroAt l 0x0B 1 && dims && zeroAt l 0x24 4 then
    some ⟨BitVec.ofNat 64 (field l 0 8), es, rank, mode, ext, str⟩
  else none

/-! ### Plane layout (R216) -/

/-- Exponent planes of a format in plane layout; none for a format that R216 does not lay out. -/
def planeExp : CT → Option Nat
  | .e5m2 | .f16 => some 5
  | .e4m3 => some 4
  | .bf16 => some 8
  | .s4 | .s8 | .s16 | .s32 | .s64 => some 0
  | .f32 | .f64 | .n8 | .n16 | .n32 | .n64 => none

/-- Significand width w of a format, the hidden bit or the whole magnitude. -/
def planeSig : CT → Nat
  | .e5m2 => 3 | .e4m3 => 4 | .bf16 => 8 | .f16 => 11
  | .s4 => 4 | .s8 => 8 | .s16 => 16 | .s32 => 32 | .s64 => 64
  | .f32 => 24 | .f64 => 53 | .n8 => 8 | .n16 => 16 | .n32 => 32 | .n64 => 64

/-- Sign, exponent field and significand of an element's encoding. -/
def planeParts (t : CT) (x : Nat) : Nat × Nat × Nat :=
  match CT.kind t with
  | .flt f =>
    let e := x / 2 ^ f.fb % 2 ^ f.eb
    (x / f.signBit % 2, e, (if e = 0 then 0 else 2 ^ f.fb) + x % 2 ^ f.fb)
  | .int w sg => let v := ctInt w sg x
                 (if v < 0 then 1 else 0, 0, v.natAbs)

/-- Plane q of an element stored with `planes` significand planes. -/
def planeBit (t : CT) (x q : Nat) : Nat :=
  let (s, e, m) := planeParts t x
  let ne := (planeExp t).getD 0
  let w := planeSig t
  if q = 0 then s
  else if q ≤ ne then e / 2 ^ (ne - q) % 2
  else if q - ne ≤ w then m / 2 ^ (w - (q - ne)) % 2
  else 0

/-- The encoding that planes give, the missing significand planes read as zero. -/
def fromPlanes (t : CT) (planes : Nat) (bit : Nat → Nat) : Nat :=
  let ne := (planeExp t).getD 0
  let w := planeSig t
  let e := (List.range ne).foldl (fun acc i => acc * 2 + bit (1 + i)) 0
  let m := (List.range w).foldl (fun acc i => acc * 2 + (if i < planes then bit (1 + ne + i) else 0)) 0
  match CT.kind t with
  | .flt f => bit 0 * f.signBit + e * 2 ^ f.fb + m % 2 ^ f.fb
  | .int wd _ => (if bit 0 = 1 then 2 ^ wd - m % 2 ^ wd else m) % 2 ^ wd

/-! ### Addresses of a record's bytes -/

def vaOf (x : Int) : Nat := (x % ((2 ^ 64 : Nat) : Int)).toNat

/-- Address of byte b of the run that holds row r (LAYOUT 0) or column r (LAYOUT 1). -/
def Rec.runByte (r : Rec) (line b : Nat) : Nat := vaOf ((r.base.toNat : Int) + line * r.rstride + b)

/-- Run and index of element (i, j) in row-major and column-major layouts. -/
def Rec.runOf (r : Rec) (i j : Nat) : Nat × Nat := if r.layout = 1 then (j, i) else (i, j)

/-- Address of byte b of plane q of row i. -/
def Rec.planeByte (r : Rec) (i q b : Nat) : Nat := vaOf ((r.base.toNat : Int) + i * r.rstride + q * r.pstride + b)

/-- Addresses of the bytes that hold element (i, j). -/
def Rec.elemBytes (r : Rec) (i j : Nat) : List Nat :=
  if r.layout = 2 then
    (List.range (1 + (planeExp r.fmt).getD 0 + min r.planes (planeSig r.fmt))).map fun q => r.planeByte i q (j / 8)
  else
    let (line, n) := r.runOf i j
    if r.fmt = .s4 then [r.runByte line (n / 2)]
    else (List.range (CT.bytes r.fmt)).map fun b => r.runByte line (n * CT.bytes r.fmt + b)

/-- Addresses of the bytes that a product reads for element (i, j) of A at a precision, and of the planes past it (R217). -/
def Rec.elemPlanes (r : Rec) (pl i j : Nat) : List Nat × List Nat :=
  let n := 1 + (planeExp r.fmt).getD 0
  if r.layout = 2 && pl ≠ 0 then
    let at_ := fun q => r.planeByte i q (j / 8)
    ((List.range (n + min pl (planeSig r.fmt))).map at_,
     (List.range (planeSig r.fmt - pl)).map fun q => at_ (n + pl + q))
  else (r.elemBytes i j, [])

/-- The encoding of element (i, j), from a function that reads a byte. -/
def Rec.elem (r : Rec) (rd : Nat → Byte) (i j : Nat) : Nat :=
  if r.layout = 2 then
    fromPlanes r.fmt r.planes fun q => (rd (r.planeByte i q (j / 8))).toNat / 2 ^ (j % 8) % 2
  else
    let (_, n) := r.runOf i j
    let l := (r.elemBytes i j).map rd
    if r.fmt = .s4 then (if n % 2 = 0 then leNat l % 16 else leNat l / 16) else leNat l

/-- What a byte of a destination holds: a byte of an element, two nibbles, or a byte of a plane. -/
inductive DByte where
  | elem (i j b : Nat)
  | pair (i j : Nat)
  | plane (i q b : Nat)
  deriving DecidableEq, Repr

/-- Rows or columns of tile number a of size t, below n. -/
def tileRange (n t a : Nat) : List Nat := ((List.range t).map fun i => a * t + i).filter (· < n)

/-- Every destination byte of a record with its address, tile by tile, and row by row within a tile. -/
def Rec.destBytes (r : Rec) : List (Nat × DByte) :=
  let tiles (n t : Nat) := List.range ((n + t - 1) / t)
  ((tiles r.rows r.tiler).map fun a => ((tiles r.cols r.tilec).map fun c =>
    ((tileRange r.rows r.tiler a).map fun i => ((tileRange r.cols r.tilec c).map fun j =>
      if r.layout = 2 then
        (if j % 8 = 0 then
          (List.range (1 + (planeExp r.fmt).getD 0 + r.planes)).map fun q => (r.planeByte i q (j / 8), DByte.plane i q (j / 8))
        else [])
      else
        let (line, n) := r.runOf i j
        if r.fmt = .s4 then (if n % 2 = 0 then [(r.runByte line (n / 2), DByte.pair i j)] else [])
        else (List.range (CT.bytes r.fmt)).map fun b => (r.runByte line (n * CT.bytes r.fmt + b), DByte.elem i j b)).flatten).flatten).flatten).flatten

/-- The value of a destination byte: `el` gives converted elements, `old` the byte as it stands. -/
def Rec.destValue (r : Rec) (el : Nat → Nat → Nat) (old : Byte) : DByte → Byte
  | .elem i j b => BitVec.ofNat 8 (el i j / 256 ^ b)
  | .pair i j =>
    let (i2, j2) := if r.layout = 1 then (i + 1, j) else (i, j + 1)
    let hi := if i2 < r.rows && j2 < r.cols then el i2 j2 % 16 else old.toNat / 16
    BitVec.ofNat 8 (el i j % 16 + hi * 16)
  | .plane i q b =>
    BitVec.ofNat 8 ((List.range 8).foldl (fun acc c =>
      if 8 * b + c < r.cols then acc + planeBit r.fmt (el i (8 * b + c)) q * 2 ^ c else acc) 0)

/-- Source rows that a destination byte depends on, as destination rows. -/
def DByte.rows (lay : Nat) : DByte → List Nat
  | .elem i _ _ => [i]
  | .pair i _ => if lay = 1 then [i, i + 1] else [i]
  | .plane i _ _ => [i]

/-! ### Accesses of an engine -/

/-- What stops an engine access. -/
inductive EStop where
  | fault (code : Nat) (va : Nat)
  | poison (va : Nat) (pa : Option Nat)
  | tier (va : Nat)
  | stage2 (va : Nat)
  | wait
  deriving DecidableEq, Repr

/-- The engine's view of the machine during one unit: lines it has touched, for heat, and bytes read. -/
structure Xfer where
  s    : State
  seen : List (Nat × Byte)
  lines : List (Nat × Xlate × Nat)
  /-- pages whose translations it has used: first address and size (R262) -/
  pages : List (Nat × Nat)
  stop : Option EStop
  /-- addresses that it has read from poison -/
  bads : List Nat
  deriving Repr

/-- Who transfers: group key, tenancy, level and who waits for messages (log entry 22); whether only Silo will do and whether poison is passed on. -/
structure EWho where
  k    : Nat
  ten  : Nat
  lvl  : Level
  asker : Asker
  siloOnly : Bool
  passPoison : Bool
  deriving DecidableEq, Repr

def Xfer.start (s : State) : Xfer := ⟨s, [], [], [], none, []⟩
def Xfer.halt (e : Xfer) (x : EStop) : Xfer := { e with stop := some (e.stop.getD x) }
def Xfer.byte (e : Xfer) (va : Nat) : Byte := match e.seen.find? fun p => p.1 == va with | some (_, b) => b | none => 0

/-- It has met poison and passed it on. -/
def Xfer.poisonMet (e : Xfer) : Bool := !e.bads.isEmpty

/-- The answered line of a domain-remote read, or the request for it, made with the accessed bit set (R263). DESIGN CHOICE (log entry 72). -/
def remoteLine (s : State) (w : EWho) (x : Xlate) : State × Option (Nat × List Byte) :=
  let line := x.pa / 64 * 64
  match s.rwaits.find? fun r => r.who == w.asker && r.pa == line && r.n == 64 with
  | some r => (s, r.ans)
  | none =>
    let tag := s.serial
    let s := { setAD s w.ten x false with serial := s.serial + 1, rwaits := ⟨w.asker, line, 64, tag, none⟩ :: s.rwaits }
    (sendFrame s (remotePart x.pa) (accFrame s 1 w.ten 0 0 64 tag line 0 []), none)

def addPage (l : List (Nat × Nat)) (p : Nat × Nat) : List (Nat × Nat) := if l.contains p then l else p :: l

/-- A translation of an engine, kept in the TLB of its core's die (R305). -/
def Xfer.note (w : EWho) (e : Xfer) (va : Nat) (x : Xlate) : Xfer :=
  { e with s := tlbFill e.s (coreOf w.k) w.ten va, pages := addPage e.pages (x.vbase, x.vsize) }

/-- A byte that an engine takes along where nothing hinders it: no error arises from it. -/
def Xfer.peek (w : EWho) (e : Xfer) (va : Nat) : Xfer :=
  if e.stop.isSome || va / 2 ^ 56 != 0 || e.seen.any fun p => p.1 == va then e
  else
    match translate e.s (coreOf w.k) w.ten w.lvl .read va with
    | .fault _ | .stage2 | .pte _ => e
    | .ok x =>
      match hereOf e.s x with
      | some pa => if poisoned e.s pa 1 then e else { e with seen := (va, readByte e.s w.ten pa) :: e.seen }
      | none => e

/-- Read one byte at a VA for an engine, at its home; the core keeps no older copy of what the engine has read (R247).
DEDUCED (log entry 48). -/
def Xfer.read (w : EWho) (e : Xfer) (va : Nat) : Xfer :=
  if e.stop.isSome || e.seen.any fun p => p.1 == va then e
  else if va / 2 ^ 56 != 0 then e.halt (.fault 1 va)
  else
    match translate e.s (coreOf w.k) w.ten w.lvl .read va with
    | .fault c => { e with s := tlbFill e.s (coreOf w.k) w.ten va }.halt (.fault c va)
    | .stage2 => e.halt (.stage2 va)
    | .pte pa => { e with s := askPte e.s w.ten pa }.halt .wait
    | .ok x =>
      let e := e.note w va x
      match hereOf e.s x with
      | some pa =>
        if w.siloOnly && !isSilo pa then e.halt (.tier va)
        else if poisoned e.s pa 1 && !w.passPoison then e.halt (.poison va (some pa))
        else { e with s := dropLines e.s (coreOf w.k) pa 1, seen := (va, readByte e.s w.ten pa) :: e.seen, lines := (va / 64, x, pa) :: e.lines,
                      bads := if poisoned e.s pa 1 then va :: e.bads else e.bads }
      | none =>
        if w.siloOnly then e.halt (.tier va)
        else
          match remoteLine e.s w x with
          | (s, none) => { e with s := s }.halt .wait
          | (s, some (st, bs)) =>
            if st = 1 then { e with s := s }.halt (.fault 5 va)
            else if st = 2 && !w.passPoison then { e with s := s }.halt (.poison va none)
            else { e with s := s, seen := (va, bs.getD (x.pa % 64) 0) :: e.seen, bads := if st = 2 then va :: e.bads else e.bads }

def Xfer.readAll (w : EWho) (e : Xfer) (l : List Nat) : Xfer := l.foldl (fun e va => e.read w va) e

/-- Where an engine write goes: a local PA, or another part. -/
structure EPut where
  va : Nat
  x  : Xlate
  b  : Byte
  deriving DecidableEq, Repr

/-- Translate one destination byte for writing. DEDUCED (log entry 48). -/
def Xfer.place (w : EWho) (e : Xfer) (va : Nat) (b : Byte) : Xfer × Option EPut :=
  if e.stop.isSome then (e, none)
  else if va / 2 ^ 56 != 0 then (e.halt (.fault 1 va), none)
  else
    match translate e.s (coreOf w.k) w.ten w.lvl .write va with
    | .fault c => ({ e with s := tlbFill e.s (coreOf w.k) w.ten va }.halt (.fault c va), none)
    | .stage2 => (e.halt (.stage2 va), none)
    | .pte pa => ({ e with s := askPte e.s w.ten pa }.halt .wait, none)
    | .ok x =>
      let e := e.note w va x
      if x.mp then (e.halt .wait, none) else (e, some ⟨va, x, b⟩)

def Xfer.places (w : EWho) (e : Xfer) : List (Nat × Byte) → Xfer × List EPut
  | [] => (e, [])
  | (va, b) :: t =>
    let (e, p) := e.place w va b
    let (e, l) := e.places w t
    (e, p.toList ++ l)

/-- Remote bytes of a unit: each is sent once, with the dirty bit set (R263), and the unit waits for its acknowledgement (R340). -/
def Xfer.sendPuts (w : EWho) (e : Xfer) (l : List EPut) : Xfer :=
  l.foldl (fun e p =>
    if e.stop.isSome && e.stop != some .wait then e
    else
      match hereOf e.s p.x with
      | some _ => e
      | none =>
        match e.s.rwaits.find? fun r => r.who == w.asker && r.pa == p.x.pa && r.n == 4097 with
        | some r =>
          (match r.ans with
          | some (st, _) => if st = 0 then e else e.halt (.fault 5 p.va)
          | none => e.halt .wait)
        | none =>
          let tag := e.s.serial
          let s := { setAD e.s w.ten p.x true with
            serial := e.s.serial + 1, rwaits := ⟨w.asker, p.x.pa, 4097, tag, none⟩ :: e.s.rwaits }
          { e with s := sendFrame s (remotePart p.x.pa) (accFrame s 2 w.ten 0 0 1 tag p.x.pa 0 [p.b]) }.halt .wait) e

/-- Lines of a list of local accesses, once each. -/
def distinctLines (l : List (Nat × Xlate × Nat)) : List (Nat × Xlate × Nat) :=
  l.foldl (fun acc x => if acc.any fun y => y.2.2 / 64 == x.2.2 / 64 then acc else x :: acc) []

/-- Consecutive local bytes as runs, so that whole granules are overwritten at once. -/
def putRuns : List (Nat × Byte) → List (Nat × List Byte)
  | [] => []
  | (pa, b) :: t =>
    match putRuns t with
    | (q, bs) :: r => if q = pa + 1 then (pa, b :: bs) :: r else (pa, [b]) :: (q, bs) :: r
    | [] => [(pa, [b])]

/-- Local bytes of a unit by rising address, the last write of an address winning. -/
def localPuts (s : State) (l : List EPut) : Tbl Byte :=
  l.foldl (fun t p => match hereOf s p.x with | some pa => tput t pa p.b | none => t) []

/-- Write a unit's local bytes at their homes; with `bad` the granules written are poisoned. The read cache of the issuing
group's core keeps up, so that the group's observation of the completion sees them (R189, R259). -/
def writePuts (s : State) (w : EWho) (bad : Bool) (l : List EPut) : State :=
  let s := l.foldl (fun s p => setAD s w.ten p.x true) s
  let s := (distinctLines (l.filterMap fun p => (hereOf s p.x).map fun pa => (p.va / 64, p.x, pa))).foldl
    (fun s (_, x, pa) => heatTouch s w.ten x pa 1) s
  let s := (putRuns (localPuts s l)).foldl (fun s (pa, bs) =>
    let s := patchCore (writeBytes s w.ten pa bs) (coreOf w.k) pa bs
    if bad then dropLines (poisonBytes s pa bs.length) (coreOf w.k) pa bs.length else s) s
  (putRuns (localPuts s l)).foldl (fun s (pa, bs) => tellOut s pa bs.length) s

/-- End of a unit: accessed bits, heat and answered messages. -/
def Xfer.settle (w : EWho) (e : Xfer) : State :=
  let ls := distinctLines e.lines
  let s := ls.foldl (fun s (_, x, _) => setAD s w.ten x false) e.s
  let s := ls.foldl (fun s (_, x, pa) => heatTouch s w.ten x pa 1) s
  { s with rwaits := s.rwaits.filter fun r => r.who != w.asker }

end Sys2Proof.Machine
end

