-- ==== Sys2Proof/Machine/Int.lean ====
section
/-! DEFINITION. The INT class: integer, bitwise, shape, mask and lane-exchange instructions (R112 to R131). -/

namespace Sys2Proof.Machine

/-! ### Types (R113) -/

def IT.width : IT → Nat | .n64 | .s64 => 64 | .n32 | .s32 => 32
def IT.signed : IT → Bool | .s64 | .s32 => true | .n64 | .n32 => false
def BT.width : BT → Nat | .b64 => 64 | .b32 => 32

/-- VAL: the low w bits as unsigned or two's complement. -/
def valOf (t : IT) (y : Word) : Int :=
  if IT.signed t then sval (IT.width t) y.toNat else ((y.toNat % 2 ^ IT.width t : Nat) : Int)

/-- EXT: an exact integer modulo 2^w, extended to 64 bits. -/
def extOf (t : IT) (x : Int) : Word :=
  match t with
  | .n64 | .s64 => BitVec.ofInt 64 x
  | .n32 => BitVec.ofNat 64 (BitVec.ofInt 32 x).toNat
  | .s32 => BitVec.signExtend 64 (BitVec.ofInt 32 x)

/-- The low w bits as unsigned. -/
def lowOf (t : BT) (y : Word) : Nat := y.toNat % 2 ^ BT.width t

/-- A result modulo 2^w, zero-extended. -/
def zextOf (t : BT) (x : Nat) : Word := BitVec.ofNat 64 (x % 2 ^ BT.width t)

/-! ### Shapes and lane-wise instructions -/

/-- The tag and value under which an operand enters the shape rules: a register not LIVE in some slice of the gang, as a
quiet read may meet it, has no shape. -/
def Group.shp (g : Group) (p : Path) (r : VR) : Shape := if deadSlices g p [r] == 0 then (g.reg r).val else .dead

def uni1 (f : Word → Word) : Shape → Option Shape
  | .uni a => some (.uni (f a))
  | .aff _ _ | .gen _ | .dead => none
def uni2 (f : Word → Word → Word) : Shape → Shape → Option Shape
  | .uni a, y => uni1 (f a) y
  | .aff _ _, _ | .gen _, _ | .dead, _ => none
def uni3 (f : Word → Word → Word → Word) : Shape → Shape → Shape → Option Shape
  | .uni a, y, z => uni2 (f a) y z
  | .aff _ _, _, _ | .gen _, _, _ | .dead, _, _ => none

/-- One-operand lane-wise instruction. -/
def lane1 (f : Word → Word) (sh : Shape → Option Shape) (d a : VR) (cc : CC) (s : State) : Result :=
  let u : Use := { rd := [a], wr := [d], lanewise := true }
  begin_ u s fun g p => writeReg u d cc s g p (sh (g.shp p a)) fun l => f (g.val a l)

/-- Two-operand lane-wise instruction. -/
def lane2 (f : Word → Word → Word) (sh : Shape → Shape → Option Shape) (d a b : VR) (cc : CC) (s : State) : Result :=
  let u : Use := { rd := [a, b], wr := [d], lanewise := true }
  begin_ u s fun g p => writeReg u d cc s g p (sh (g.shp p a) (g.shp p b)) fun l => f (g.val a l) (g.val b l)

/-- Lane-wise instruction that also reads its destination, as one operand field (R112). -/
def lane3 (f : Word → Word → Word → Word) (d a b : VR) (cc : CC) (s : State) : Result :=
  let u : Use := { rd := [d, a, b], lanewise := true }
  begin_ u s fun g p =>
    writeReg u d cc s g p (uni3 f (g.shp p d) (g.shp p a) (g.shp p b)) fun l => f (g.val d l) (g.val a l) (g.val b l)

/-- An integer row: exact in VAL, then EXT. -/
def intFn (t : IT) (x : Int → Int → Int) (a b : Word) : Word := extOf t (x (valOf t a) (valOf t b))

/-- R56's A rows hold for the 64-bit forms only (R123). -/
def shape64 (t : IT) (wide narrow : Shape → Shape → Option Shape) : Shape → Shape → Option Shape :=
  match t with
  | .n64 | .s64 => wide
  | .n32 | .s32 => narrow

/-! ### R114 -/

def execIadd (d a b : VR) (cc : CC) (t : IT) (s : State) : Result :=
  let f := intFn t (· + ·)
  lane2 f (shape64 t shapeAdd (uni2 f)) d a b cc s
def execIsub (d a b : VR) (cc : CC) (t : IT) (s : State) : Result :=
  let f := intFn t (· - ·)
  lane2 f (shape64 t shapeSub (uni2 f)) d a b cc s
def execImul (d a b : VR) (cc : CC) (t : IT) (s : State) : Result :=
  let f := intFn t (· * ·)
  lane2 f (shape64 t shapeMul (uni2 f)) d a b cc s
/-- floor(a × b ÷ 2^w). -/
def execImulh (d a b : VR) (cc : CC) (t : IT) (s : State) : Result :=
  let f := intFn t fun x y => (x * y) / ((2 ^ IT.width t : Nat) : Int)
  lane2 f (uni2 f) d a b cc s
def execImac (d a b : VR) (cc : CC) (t : IT) (s : State) : Result :=
  lane3 (fun z x y => extOf t (valOf t z + valOf t x * valOf t y)) d a b cc s
def idivFn (x y : Int) : Int := if y = 0 then -1 else x.tdiv y
def iremFn (x y : Int) : Int := if y = 0 then x else x - y * x.tdiv y
def execIdiv (d a b : VR) (cc : CC) (t : IT) (s : State) : Result :=
  lane2 (intFn t idivFn) (uni2 (intFn t idivFn)) d a b cc s
def execIrem (d a b : VR) (cc : CC) (t : IT) (s : State) : Result :=
  lane2 (intFn t iremFn) (uni2 (intFn t iremFn)) d a b cc s
def execImin (d a b : VR) (cc : CC) (t : IT) (s : State) : Result :=
  lane2 (intFn t min) (uni2 (intFn t min)) d a b cc s
def execImax (d a b : VR) (cc : CC) (t : IT) (s : State) : Result :=
  lane2 (intFn t max) (uni2 (intFn t max)) d a b cc s
/-- LO and HI of iadds. -/
def satLo (t : IT) : Int := if IT.signed t then -((2 ^ (IT.width t - 1) : Nat) : Int) else 0
def satHi (t : IT) : Int :=
  if IT.signed t then ((2 ^ (IT.width t - 1) : Nat) : Int) - 1 else ((2 ^ IT.width t : Nat) : Int) - 1
def execIadds (d a b : VR) (cc : CC) (t : IT) (s : State) : Result :=
  let f := intFn t fun x y => min (max (x + y) (satLo t)) (satHi t)
  lane2 f (uni2 f) d a b cc s
/-- The carry out: iaddc takes .n64 and .n32 only. -/
def execIaddc (d a b : VR) (cc : CC) (t : BT) (s : State) : Result :=
  let f := fun x y => BitVec.ofNat 64 ((lowOf t x + lowOf t y) / 2 ^ BT.width t)
  lane2 f (uni2 f) d a b cc s

/-! ### R117: the unary rows -/

def unary (t : BT) (x : Nat → Nat) (d a : VR) (cc : CC) (s : State) : Result :=
  let f := fun y => zextOf t (x (lowOf t y))
  lane1 f (uni1 f) d a cc s

def inegFn (w a : Nat) : Nat := (2 ^ w - a) % 2 ^ w
def iabsFn (w a : Nat) : Nat := if a < 2 ^ (w - 1) then a else (2 ^ w - a) % 2 ^ w
def notFn (w a : Nat) : Nat := 2 ^ w - 1 - a
/-- Leading zero bits in w bits. -/
def clzFn (w a : Nat) : Nat := if a = 0 then w else w - 1 - Nat.log2 a
def ctzFn (w a : Nat) : Nat := lowBit w a
/-- Bit i of a moved to bit w − 1 − i. -/
def brevFn (w a : Nat) : Nat := (List.range w).foldl (fun acc i => acc * 2 + a / 2 ^ i % 2) 0
/-- Byte i of a moved to byte w/8 − 1 − i. -/
def bswapFn (w a : Nat) : Nat := (List.range (w / 8)).foldl (fun acc i => acc * 256 + a / 256 ^ i % 256) 0

def execInegB64 (d a : VR) (cc : CC) (s : State) : Result := unary .b64 (inegFn 64) d a cc s
def execIabsB64 (d a : VR) (cc : CC) (s : State) : Result := unary .b64 (iabsFn 64) d a cc s
def execNotB64 (d a : VR) (cc : CC) (s : State) : Result := unary .b64 (notFn 64) d a cc s
def execPopcB64 (d a : VR) (cc : CC) (s : State) : Result := unary .b64 (popcount 64) d a cc s
def execClzB64 (d a : VR) (cc : CC) (s : State) : Result := unary .b64 (clzFn 64) d a cc s
def execCtzB64 (d a : VR) (cc : CC) (s : State) : Result := unary .b64 (ctzFn 64) d a cc s
def execBrevB64 (d a : VR) (cc : CC) (s : State) : Result := unary .b64 (brevFn 64) d a cc s
def execBswapB64 (d a : VR) (cc : CC) (s : State) : Result := unary .b64 (bswapFn 64) d a cc s
def execInegB32 (d a : VR) (cc : CC) (s : State) : Result := unary .b32 (inegFn 32) d a cc s
def execIabsB32 (d a : VR) (cc : CC) (s : State) : Result := unary .b32 (iabsFn 32) d a cc s
def execNotB32 (d a : VR) (cc : CC) (s : State) : Result := unary .b32 (notFn 32) d a cc s
def execPopcB32 (d a : VR) (cc : CC) (s : State) : Result := unary .b32 (popcount 32) d a cc s
def execClzB32 (d a : VR) (cc : CC) (s : State) : Result := unary .b32 (clzFn 32) d a cc s
def execCtzB32 (d a : VR) (cc : CC) (s : State) : Result := unary .b32 (ctzFn 32) d a cc s
def execBrevB32 (d a : VR) (cc : CC) (s : State) : Result := unary .b32 (brevFn 32) d a cc s
def execBswapB32 (d a : VR) (cc : CC) (s : State) : Result := unary .b32 (bswapFn 32) d a cc s

/-- mov keeps A's shape when that is U or A (R56). -/
def shapeMov : Shape → Option Shape
  | .uni u => some (.uni u)
  | .aff b st => some (.aff b st)
  | .gen _ | .dead => none
def execMovB64 (d a : VR) (cc : CC) (s : State) : Result := lane1 id shapeMov d a cc s

/-! ### R115: shifts and logic -/

/-- A shift: the amount is taken modulo the width. -/
def shiftFn (t : BT) (x : Nat → Nat → Nat) (a b : Word) : Word := zextOf t (x (lowOf t a) (b.toNat % BT.width t))

/-- R56: shl of A by a uniform amount stays A in the 64-bit form. -/
def shapeShlReg (f : Word → Word → Word) (t : BT) : Shape → Shape → Option Shape
  | x, .uni n => (match t with
    | .b64 => shapeShl x (n.toNat % 64)
    | .b32 => uni2 f x (.uni n))
  | _, .aff _ _ | _, .gen _ | _, .dead => none

def execShl (d a b : VR) (cc : CC) (t : BT) (s : State) : Result :=
  let f := shiftFn t fun x n => x * 2 ^ n
  lane2 f (shapeShlReg f t) d a b cc s
def execShr (d a b : VR) (cc : CC) (t : BT) (s : State) : Result :=
  let f := shiftFn t fun x n => x / 2 ^ n
  lane2 f (uni2 f) d a b cc s
/-- floor(a′ ÷ 2^s), a′ the two's complement reading; the .b32 result is zero-extended. -/
def execSar (d a b : VR) (cc : CC) (t : BT) (s : State) : Result :=
  let f := shiftFn t fun x n => (BitVec.ofInt 64 (sval (BT.width t) x / ((2 ^ n : Nat) : Int))).toNat
  lane2 f (uni2 f) d a b cc s
def execRot (d a b : VR) (cc : CC) (t : BT) (s : State) : Result :=
  let f := shiftFn t fun x n => x * 2 ^ n + x / 2 ^ (BT.width t - n)
  lane2 f (uni2 f) d a b cc s

def logicFn (t : BT) (x : Word → Word → Word) (a b : Word) : Word := zextOf t (x a b).toNat
def execAndb (d a b : VR) (cc : CC) (t : BT) (s : State) : Result :=
  let f := logicFn t (· &&& ·)
  lane2 f (uni2 f) d a b cc s
def execOrb (d a b : VR) (cc : CC) (t : BT) (s : State) : Result :=
  let f := logicFn t (· ||| ·)
  lane2 f (uni2 f) d a b cc s
def execXorb (d a b : VR) (cc : CC) (t : BT) (s : State) : Result :=
  let f := logicFn t (· ^^^ ·)
  lane2 f (uni2 f) d a b cc s
def execAndn (d a b : VR) (cc : CC) (t : BT) (s : State) : Result :=
  let f := logicFn t fun x y => x &&& ~~~y
  lane2 f (uni2 f) d a b cc s

/-! ### R116: bit fields -/

/-- The field position and width that B gives. -/
def fieldPos (w : Nat) (b : Word) : Nat := bits b.toNat 5 0 % w
def fieldWidth (w : Nat) (b : Word) : Nat := min (bits b.toNat 14 8) (w - fieldPos w b)

def bfxFn (t : IT) (a b : Word) : Word :=
  let w := IT.width t
  let n := fieldWidth w b
  let f := a.toNat % 2 ^ w / 2 ^ fieldPos w b % 2 ^ n
  extOf t (if IT.signed t && decide (n > 0) && decide (2 ^ (n - 1) ≤ f) then (f : Int) - ((2 ^ n : Nat) : Int) else (f : Int))
def execBfx (d a b : VR) (cc : CC) (t : IT) (s : State) : Result := lane2 (bfxFn t) (uni2 (bfxFn t)) d a b cc s

def bfiFn (t : BT) (y a b : Word) : Word :=
  let w := BT.width t
  let p := fieldPos w b
  let m : Word := BitVec.ofNat 64 ((2 ^ fieldWidth w b - 1) * 2 ^ p)
  zextOf t ((y &&& ~~~m) ||| (BitVec.ofNat 64 (a.toNat * 2 ^ p) &&& m)).toNat
def execBfi (d a b : VR) (cc : CC) (t : BT) (s : State) : Result := lane3 (bfiFn t) d a b cc s

/-! ### R118 to R120 -/

def icmpFn (w : Nat) (r : IRel) (a b : Word) : Bool :=
  let x := a.toNat % 2 ^ w
  let y := b.toNat % 2 ^ w
  match r with
  | .eq => x == y
  | .ne => x != y
  | .lts => decide (sval w x < sval w y)
  | .les => decide (sval w x ≤ sval w y)
  | .ltn => decide (x < y)
  | .len => decide (x ≤ y)
def boolWord (b : Bool) : Word := if b then 1 else 0
def execIcmp (d a b : VR) (cc : CC) (w : BT) (r : IRel) (s : State) : Result :=
  let f := fun x y => boolWord (icmpFn (BT.width w) r x y)
  lane2 f (uni2 f) d a b cc s

/-- sel is G whatever its operands (R123). -/
def execSel (d a b : VR) (cc : CC) (k : KR) (s : State) : Result :=
  let u : Use := { rd := [a, b], wr := [d], lanewise := true }
  begin_ u s fun g p => writeReg u d cc s g p none fun l => if bitOf (g.mask k) l then g.val a l else g.val b l

def leaFn (sh : Nat) (a b : Word) : Word := a + b <<< sh
def execLea (d a b : VR) (cc : CC) (sh : BitVec 4) (s : State) : Result :=
  lane2 (leaFn sh.toNat) (fun x y => (shapeShl y sh.toNat).bind (shapeAdd x)) d a b cc s

/-! ### R121, R122: immediates -/

def execIaddi (d a : VR) (cc : CC) (imm : BitVec 10) (s : State) : Result :=
  let m : Word := imm.signExtend 64
  lane1 (· + m) (shapeAdd (.uni m)) d a cc s
def execAndi (d a : VR) (cc : CC) (imm : BitVec 10) (s : State) : Result :=
  let m : Word := imm.signExtend 64
  lane1 (· &&& m) (uni1 (· &&& m)) d a cc s
def execOri (d a : VR) (cc : CC) (imm : BitVec 10) (s : State) : Result :=
  let m : Word := imm.signExtend 64
  lane1 (· ||| m) (uni1 (· ||| m)) d a cc s
def execXori (d a : VR) (cc : CC) (imm : BitVec 10) (s : State) : Result :=
  let m : Word := imm.signExtend 64
  lane1 (· ^^^ m) (uni1 (· ^^^ m)) d a cc s
def execShli (d a : VR) (cc : CC) (imm : BitVec 6) (s : State) : Result :=
  lane1 (· <<< imm.toNat) (fun x => shapeShl x imm.toNat) d a cc s

def execMovi (d : VR) (cc : CC) (imm : BitVec 16) (s : State) : Result :=
  let u : Use := { rd := [], wr := [d] }
  let v : Word := imm.signExtend 64
  begin_ u s fun g p => writeReg u d cc s g p (some (.uni v)) fun _ => v
def execMovhi (d : VR) (cc : CC) (imm : BitVec 16) (s : State) : Result :=
  let f := fun y : Word => y <<< 16 + imm.zeroExtend 64
  lane1 f (uni1 f) d d cc s

/-! ### R124: shape conversions -/

/-- With an empty EXEC unif writes nothing. -/
def execUnif (d a : VR) (cc : CC) (s : State) : Result :=
  let u : Use := { rd := [a], wr := [d] }
  begin_ u s fun g p =>
    let v := g.lowVal p a
    if p.active == 0 then finishUse u s g p else writeReg u d cc s g p (some (.uni v)) fun _ => v
def execMatz (d a : VR) (cc : CC) (s : State) : Result := lane1 id (fun _ => none) d a cc s
def execAffine (d a b : VR) (cc : CC) (s : State) : Result :=
  let u : Use := { rd := [a, b], uni := [a, b], wr := [d] }
  begin_ u s fun g p =>
    let x := g.uval p a
    let y := g.uval p b
    writeReg u d cc s g p (some (.aff x y)) fun l => x + BitVec.ofNat 64 l * y
/-- The tag code of A, 0 to 2. A quiet re-execution that meets a register no slice holds reads a zero (R64), which is U, since shape
never gives 3 (R124). DESIGN CHOICE (log entry 98). -/
def shapeTag (v : VReg) : Nat := match v.val with
  | .uni _ | .dead => 0
  | .aff _ _ => 1
  | .gen _ => 2
def execShape (d a : VR) (cc : CC) (s : State) : Result :=
  let u : Use := { rd := [a], wr := [d] }
  begin_ u s fun g p =>
    let v : Word := BitVec.ofNat 64 (shapeTag (g.reg a))
    writeReg u d cc s g p (some (.uni v)) fun _ => v

/-! ### R125 to R128: masks -/

/-- A mask result in the lanes of the gang's slices, active or not (R126). -/
def maskOp (d : KR) (f : Group → Path → Mask) (u : Use) (s : State) : Result :=
  begin_ u s fun g p => finish s ((released g p u).writeMask p d (f g p)) p u.len

def execMand (d a b : KR) (s : State) : Result := maskOp d (fun g _ => g.mask a &&& g.mask b) { rd := [] } s
def execMor (d a b : KR) (s : State) : Result := maskOp d (fun g _ => g.mask a ||| g.mask b) { rd := [] } s
def execMxor (d a b : KR) (s : State) : Result := maskOp d (fun g _ => g.mask a ^^^ g.mask b) { rd := [] } s
def execMandn (d a b : KR) (s : State) : Result := maskOp d (fun g _ => g.mask a &&& ~~~(g.mask b)) { rd := [] } s
def execMnot (d a : KR) (s : State) : Result := maskOp d (fun g _ => ~~~(g.mask a)) { rd := [] } s

/-- A vector result that every active lane receives, of a mask read whole (R127). -/
def maskToReg (d : VR) (cc : CC) (f : Group → Word) (s : State) : Result :=
  let u : Use := { rd := [], wr := [d] }
  begin_ u s fun g p => writeReg u d cc s g p (some (.uni (f g))) fun _ => f g

def execMpopc (d : VR) (a : KR) (cc : CC) (s : State) : Result :=
  maskToReg d cc (fun g => BitVec.ofNat 64 (popcount 64 (g.mask a &&& widthMask g.w).toNat)) s
def execMfirst (d : VR) (a : KR) (cc : CC) (s : State) : Result :=
  maskToReg d cc (fun g => BitVec.ofNat 64 (lowBit 64 (g.mask a &&& widthMask g.w).toNat)) s
/-- The active lanes in which a register is not zero. -/
def nonZeroLanes (g : Group) (p : Path) (a : VR) : Mask := maskOf lanes64 fun l => bitOf p.active l && g.val a l != 0
def execMfrom (d : KR) (a : VR) (s : State) : Result := maskOp d (fun g p => nonZeroLanes g p a) { rd := [a] } s
def execMto (d : VR) (a : KR) (cc : CC) (s : State) : Result :=
  let u : Use := { rd := [], wr := [d] }
  begin_ u s fun g p => writeReg u d cc s g p none fun l => boolWord (bitOf (g.mask a) l)
def execBallot (d a : VR) (cc : CC) (s : State) : Result :=
  let u : Use := { rd := [a], wr := [d] }
  begin_ u s fun g p =>
    let v : Word := nonZeroLanes g p a
    writeReg u d cc s g p (uni1 (fun _ => v) (g.shp p a)) fun _ => v
def execExget (d : KR) (s : State) : Result := maskOp d (fun _ p => p.exec) { rd := [] } s
/-- EXEC of the gang's lanes := A AND the live mask, from the next instruction on. -/
def execExset (a : KR) (s : State) : Result :=
  begin_ { rd := [] } s fun g p =>
    let e := g.mask a &&& g.live &&& laneMask p.slices
    let s := emit s s.cur s.path 1 0 (lanesField g.w e)
    finish s g { p with exec := e } 1
def execMset (d : KR) (a : VR) (s : State) : Result := maskOp d (fun g p => g.uval p a) { rd := [a], uni := [a] } s

/-! ### R129 to R131: lane exchange -/

/-- The active lanes whose source lane of A is poisoned, active or not and in whatever gang it stands (R129, R317). -/
def sourcePoison (g : Group) (p : Path) (a : VR) (src : Nat → Option Nat) : Mask :=
  let marks := (tget g.rpoison a.toNat).getD 0
  maskOf lanes64 fun l => bitOf p.active l && (match src l with
    | some j => bitOf marks j
    | none => false)

/-- A result read from the source lane that `src` gives for each lane; U only when A is U and every source lane lies in
the gang's slices (R123). `own` are the registers that a lane reads in its own lane. -/
def exchange (u : Use) (own : List VR) (d a : VR) (cc : CC) (src : Group → Nat → Nat) (s : State) : Result :=
  begin_ u s fun g p =>
    let inGang := lanes64.all fun l => !bitOf p.active l || inSlices p.slices (src g l / 4)
    let sh := match g.shp p a with
      | .uni v => if inGang then some (Shape.uni v) else none
      | .aff _ _ | .gen _ | .dead => none
    writeFrom (sourcePoison g p a (fun l => some (src g l)) ||| poisonLanes g p own) u d cc s g p sh fun l => g.val a (src g l)

def execXlane (d a b : VR) (cc : CC) (s : State) : Result :=
  exchange { rd := [a, b], wr := [d] } [b] d a cc (fun g l => (g.val b l).toNat % g.w) s
def execXbfly (d a : VR) (cc : CC) (imm : BitVec 10) (s : State) : Result :=
  exchange { rd := [a], wr := [d] } [] d a cc (fun _ l => l ^^^ imm.toNat) s
def execXbcast (d a : VR) (cc : CC) (imm : BitVec 10) (s : State) : Result :=
  exchange { rd := [a], wr := [d] } [] d a cc (fun _ _ => imm.toNat) s
/-- xshift is G whatever its operands (R123); lanes beyond the group receive zero. -/
def execXshift (d a : VR) (cc : CC) (imm : BitVec 10) (s : State) : Result :=
  let u : Use := { rd := [a], wr := [d] }
  begin_ u s fun g p =>
    let src (l : Nat) : Option Nat :=
      let j := (l : Int) + imm.toInt
      if 0 ≤ j && j < (g.w : Int) then some j.toNat else none
    writeFrom (sourcePoison g p a src) u d cc s g p none fun l => match src l with
      | some j => g.val a j
      | none => 0

/-- The sum of VAL over the active lanes that satisfy a condition. -/
def sumLanes (g : Group) (p : Path) (a : VR) (t : IT) (c : Nat → Bool) : Int :=
  (p.lanes.filter c).foldl (fun acc j => acc + valOf t (g.val a j)) 0

/-- With no active lane nothing is written (R131). -/
def execScanadd (d a : VR) (cc : CC) (exc : Bool) (t : IT) (s : State) : Result :=
  let u : Use := { rd := [a], wr := [d] }
  begin_ u s fun g p => if p.active == 0 then finishUse u s g p else writeReg u d cc s g p none fun l =>
    extOf t (sumLanes g p a t fun j => if exc then decide (j < l) else decide (j ≤ l))

/-- greduce: one value for every active lane, nothing with none; U when A is U (R56, R131). -/
def reduceWith (d a : VR) (cc : CC) (t : IT) (f : List Int → Int) (s : State) : Result :=
  let u : Use := { rd := [a], wr := [d] }
  begin_ u s fun g p =>
    let v := extOf t (f (p.lanes.map fun j => valOf t (g.val a j)))
    if p.active == 0 then finishUse u s g p else writeReg u d cc s g p (uni1 (fun _ => v) (g.shp p a)) fun _ => v
def foldInts (f : Int → Int → Int) : List Int → Int
  | [] => 0
  | x :: t => t.foldl f x
def execGreduceAdd (d a : VR) (cc : CC) (t : IT) (s : State) : Result := reduceWith d a cc t (foldInts (· + ·)) s
def execGreduceMin (d a : VR) (cc : CC) (t : IT) (s : State) : Result := reduceWith d a cc t (foldInts min) s
def execGreduceMax (d a : VR) (cc : CC) (t : IT) (s : State) : Result := reduceWith d a cc t (foldInts max) s

end Sys2Proof.Machine
end

