-- ==== Sys2Proof/Machine/Ctl.lean ====
section
/-! DEFINITION. The CTL class: transfers, the return stack, regang, yield, exit and nop (R165 to R168), and what a gang
does at a unit boundary (R96 to R99, R108). -/

namespace Sys2Proof.Machine

/-! ### Parting (R20) -/

/-- Slices of a gang, lowest first. -/
def Path.sliceList (p : Path) : List Nat := (List.range 16).filter (inSlices p.slices)

/-- The lowest free path index. -/
def Group.freePath (g : Group) : Nat := ((List.range 16).find? fun i => (g.path i).isNone).getD 16

/-- The different outcomes of a gang's slices, in order of lowest slice; an outcome is a decision and a place, so that
taken and not taken differ even where they lead to one unit (R165). -/
def outcomes (dest : Nat → Nat × Spot) (l : List Nat) : List (Nat × Spot) :=
  l.foldl (fun acc sl => if acc.contains (dest sl) then acc else acc ++ [dest sl]) []

/-- The slices of a list that have one outcome. -/
def slicesTo (dest : Nat → Nat × Spot) (l : List Nat) (o : Nat × Spot) : BitVec 16 :=
  BitVec.ofNat 16 ((l.filter fun sl => dest sl == o).foldl (fun acc sl => acc + 2 ^ sl) 0)

/-- The part of a gang that holds some of its slices. DEDUCED (log entry 49). -/
def Path.part (p : Path) (sl : BitVec 16) (sp : Spot) : Path :=
  { p.moved sp with slices := sl, exec := p.exec &&& laneMask sl }

/-- Further parts take the lowest free indices in the order of their lowest slices: R20 says so of one other part, and names
no order among several. A debugger's request stays with the old index. DESIGN CHOICE (log entry 93). -/
def addParts (g : Group) (p : Path) (dest : Nat → Nat × Spot) (l : List Nat) : List (Nat × Spot) → Group × List Nat
  | [] => (g, [])
  | o :: t =>
    let i := g.freePath
    let q := { p.part (slicesTo dest l o) o.2 with stop := .none, wdog := false }
    let (g, is) := addParts (g.setPath i (some q)) p dest l t
    (g, i :: is)

/-- Send each slice of gang pi to its own place; the indices of the resulting gangs, the old one first.
DEDUCED (log entry 63). DESIGN CHOICE (log entry 93). -/
def partGang (g : Group) (pi : Nat) (p : Path) (dest : Nat → Nat × Spot) : Group × List Nat :=
  let l := p.sliceList
  match outcomes dest l with
  | [] => (g, [])
  | o :: t =>
    let (g, is) := addParts (g.setPath pi (some (p.part (slicesTo dest l o) o.2))) p dest l t
    (g, pi :: is)

/-- Finish a transfer that sends slices to their own places, with its packets. -/
def finishParts (s : State) (g : Group) (p : Path) (dest : Nat → Nat × Spot) (trace : List Nat → Group → State → State) : Result :=
  let y := p.spot.yieldsAfter 1
  let (g, is) := partGang g s.path p dest
  let g := if y then { g with wcount := 0 } else g
  let s := trace is g (putGroup s s.cur g)
  .next (if y then markYield s else s)

/-! ### br, brc, brz (R165) -/

/-- BRANCH packets of a conditional branch. -/
def branchTrace (k pi : Nat) (p : Path) (taken : Nat → Bool) (is : List Nat) (_ : Group) (s : State) : State :=
  let l := p.sliceList
  match is with
  | [_] => emit s k pi 0 (if l.all taken then 1 else 0) []
  | _ :: n :: _ => emit s k pi 0 2 (leBytes 1 n ++ leBytes 2 ((l.filter taken).foldl (fun acc sl => acc + 2 ^ sl) 0))
  | [] => s

/-- A conditional transfer decided for each slice. DEDUCED (log entry 63). -/
def branch (u : Use) (tgt : BitVec 19) (taken : Group → Path → Nat → Bool) (s : State) : Result :=
  begin_ u s fun g p =>
    let tk := taken g p
    let next := Spot.boundary p.spot.nextUnit
    let go := fun s : State =>
      finishParts s (released g p u) p (fun sl => if tk sl then (1, .boundary tgt.toNat) else (0, next)) (branchTrace s.cur s.path p tk)
    if p.sliceList.any tk then withTarget u s g p tgt.toNat go else go s

/-- The four bits of a mask that belong to slice sl. -/
def nib4 (m : Mask) (sl : Nat) : Nat := m.toNat / 2 ^ (4 * sl) % 16

/-- br with COND 0 emits no packet. -/
def execBr (tgt : BitVec 19) (s : State) : Result :=
  let u : Use := { rd := [] }
  begin_ u s fun g p => withTarget u s g p tgt.toNat fun s => finishAt s (released g p u) p (.boundary tgt.toNat)
def execBrNz (k : BitVec 3) (tgt : BitVec 19) (s : State) : Result :=
  let r : VR := k.zeroExtend 6
  branch { rd := [r], uni := [r] } tgt (fun g p _ => g.uval p r != 0) s
def execBrZ (k : BitVec 3) (tgt : BitVec 19) (s : State) : Result :=
  let r : VR := k.zeroExtend 6
  branch { rd := [r], uni := [r] } tgt (fun g p _ => g.uval p r == 0) s
def execBrcAny (k : KR) (tgt : BitVec 19) (s : State) : Result :=
  branch { rd := [] } tgt (fun g p sl => nib4 (g.mask k &&& p.exec) sl != 0) s
def execBrcAll (k : KR) (tgt : BitVec 19) (s : State) : Result :=
  branch { rd := [] } tgt (fun g p sl => nib4 (g.mask k &&& p.exec) sl == nib4 p.exec sl) s
def execBrcNone (k : KR) (tgt : BitVec 19) (s : State) : Result :=
  branch { rd := [] } tgt (fun g p sl => nib4 (g.mask k &&& p.exec) sl == 0) s
def execBrz (tgt : BitVec 19) (s : State) : Result :=
  branch { rd := [] } tgt (fun _ p sl => nib4 p.exec sl == 0) s

/-! ### call, ret, jmpi (R166, R167) -/

def Group.stack (g : Group) (sl : Nat) : List Nat := (g.rstack[sl]?).getD []
def Group.setStack (g : Group) (sl : Nat) (l : List Nat) : Group :=
  if h : sl < 16 then { g with rstack := g.rstack.set sl l h } else g

def execCall (tgt : BitVec 19) (s : State) : Result :=
  let u : Use := { rd := [] }
  begin_ u s fun g p => withTarget u s g p tgt.toNat fun s =>
    if p.sliceList.any fun sl => decide (16 ≤ (g.stack sl).length) then trapOwn u s g p (p.trapRec cSTKOVF)
    else
      let g := p.sliceList.foldl (fun g sl => g.setStack sl (p.spot.nextUnit :: g.stack sl)) g
      finishAt s (released g p u) p (.boundary tgt.toNat)

/-- The depth below which a handler's ret may not pop slice sl (R179). -/
def stackFloor (g : Group) (pi sl : Nat) : Nat :=
  match g.handler with
  | some h => if h.path = pi then h.depths.getD sl 0 else 0
  | none => 0

/-- Check a list of targets in order, then go on. DEDUCED (log entry 63). -/
def withTargets (u : Use) (s : State) (g : Group) (p : Path) (body : State → Result) : List Nat → Result
  | [] => body s
  | t :: ts => withTarget u s g p t fun s => withTargets u s g p body ts

/-- One BRANCH packet with the target for each resulting path. -/
def targetTrace (k : Nat) (is : List Nat) (g : Group) (s : State) : State :=
  is.foldl (fun s i => match g.path i with | some q => emit s k i 0 3 (leBytes 3 q.spot.offset) | none => s) s

def execRet (s : State) : Result :=
  let u : Use := { rd := [] }
  begin_ u s fun g p =>
    if p.sliceList.any fun sl => decide ((g.stack sl).length ≤ stackFloor g s.path sl) then trapOwn u s g p (p.trapRec cSTKUNF)
    else
      let top := fun sl => (g.stack sl).headD 0
      withTargets u s g p (fun s =>
        let g' := p.sliceList.foldl (fun g sl => g.setStack sl (g.stack sl).tail) g
        finishParts s (released g' p u) p (fun sl => (0, .boundary (top sl))) (targetTrace s.cur))
        (p.sliceList.map top)

def execJmpi (a : VR) (s : State) : Result :=
  let u : Use := { rd := [a], uni := [a] }
  begin_ u s fun g p =>
    let t := (g.uval p a).toNat
    withTarget u s g p t fun s =>
      finishParts s (released g p u) p (fun _ => (0, .boundary t)) (targetTrace s.cur)

/-! ### regang, yield, exit, nop (R21, R168) -/

def execRegang (s : State) : Result :=
  let u : Use := { rd := [] }
  begin_ u s fun g p => parkAgain u s g p .regang

def execYield (s : State) : Result :=
  let u : Use := { rd := [] }
  begin_ u s fun g p => finish (markYield s) { released g p u with wcount := 0 } p 1

/-- The slices whose lanes have all exited leave the gang (R27). A gang's exit is no yield; its group's last one ends the
turn (R98, R283). A handler's gang that exits ends handler mode. DEDUCED (log entries 64 and 78). DEDUCED (log entry 64).
DEDUCED (log entry 78). -/
def execExit (s : State) : Result :=
  let u : Use := { rd := [] }
  begin_ u s fun g p =>
    match findReport g p fun _ => true with
    | some r => raiseReport s g p r
    | none =>
      if g.ops.any fun o => o.cls == .cov && o.okPoison && !o.done then stallWith s 5 else
      let g := { released g p u with live := g.live &&& ~~~p.active }
      if g.live &&& laneMask p.slices != 0 then
        let q := { p.moved (.boundary p.spot.nextUnit) with exec := p.exec &&& ~~~p.active, slices := p.slices &&& slicesOf g.live }
        let s := putGroup s s.cur (g.setPath s.path (some q))
        .next (emit s s.cur s.path 1 0 (lanesField g.w q.exec))
      else
        let s := emit s s.cur s.path 1 3 []
        let g := if g.isHandler s.path then { g with handler := none } else g
        .next (reap (putGroup s s.cur (g.setPath s.path none)) s.cur)

def execNop (s : State) : Result :=
  let u : Use := { rd := [] }
  begin_ u s fun g p => finishUse u s g p

/-! ### Unit boundaries -/

/-- A pre-emption has been requested for the group's team (R34). -/
def asked (s : State) (g : Group) : Bool :=
  match teamOf s g with
  | some t => (match t.mode with | .asked _ => true | .running | .saved _ => false)
  | none => false

/-- A gang before a clause with SP whose team is to be pre-empted, its group's CNTC at zero, has reached its eligible point: it
issues nothing further (R34). DEDUCED (log entry 92). -/
def latchHere (s : State) (g : Group) (p : Path) : Result :=
  .next { putGroup s s.cur (g.setPath s.path (some { p with latched := true })) with stall := some 13 }

/-- Stop the path here (R334): a stop counts as a yield. -/
def stopHere (s : State) (k pi : Nat) (g : Group) (p : Path) : State :=
  let s := putGroup s k { g.setPath pi (some { p with stop := .stopped }) with wcount := 0 }
  markYield (emit s k pi 4 0 (leBytes 3 p.spot.offset))

/-- A trap at a boundary. DEDUCED (log entry 86). -/
def trapBoundary (s : State) (g : Group) (p : Path) (cause code : Nat) (va : Word) : Result :=
  trapOut s g p { p.trapRec cause with code := code, addr := va }

/-- The gang enters the clause whose header it stands at. -/
def enterClause (s : State) (g : Group) (p : Path) (off : Nat) (h : IWord) : Result :=
  let stop := match p.stop with | .stepping => Stop.atNext | .none => .none | .atNext => .atNext | .stopped => .stopped
  .next (putGroup s s.cur (g.setPath s.path (some { p with spot := .inside off h (off + 1), stop := stop })))

/-- WATCHDOG, raised at a boundary whose header has passed its checks (R97, R287). DEDUCED (log entry 86). -/
def watchBoundary (s : State) (g : Group) (p : Path) : Result :=
  let p := { p with wdog := false }
  trapBoundary s (g.setPath s.path (some p)) p cWATCHDOG 0 0

/-- A legal clause header: pre-emption, held reports, stops and WAIT. -/
def atClause (s : State) (g : Group) (p : Path) (off : Nat) (h : IWord) : Result :=
  if asked s g && hSp h && g.counter .c == 0 && p.stop != .atNext then latchHere s g p
  else match findReport g p fun r => (match r.flag with | some f => (hWait h).toNat / 2 ^ f % 2 == 1 | none => false) with
  | some r => raiseReport s g p r
  | none =>
    if p.stop == .atNext then .next (stopHere s s.cur s.path g p)
    else if g.anyFlag (hWait h) then stallWith s 1
    else enterClause s g p off h

/-- DEDUCED (log entry 86). -/
def execUnitBoundary (s : State) : Result :=
  withGang s fun g p =>
    match p.spot with
    | .inside _ _ _ => .next s
    | .boundary off =>
      if p.code.klen ≤ off then trapBoundary s g p cILLHDR 0 0
      else
        let va := p.code.kbase + BitVec.ofNat 64 (4 * off)
        match fetchWord s s.cur g p off with
        | (s, .fault c) => trapBoundary s g p cXLATE c va
        | (s, .poison) => trapBoundary s g p cPOISON 0 va
        | (s, .stage2) => .next (parkStage2 s s.cur g s.path p va)
        | (s, .wait) => stallWith s 5
        | (s, .word h) =>
          if p.wdog && (poolOk h off p.code.klen || clauseOk h off p.code.klen) then watchBoundary s g p
          else if poolOk h off p.code.klen then
            if p.stop == .atNext then .next (stopHere s s.cur s.path g p)
            else
              let stop := match p.stop with | .stepping => Stop.atNext | .none => .none | .atNext => .atNext | .stopped => .stopped
              .next (putGroup s s.cur (g.setPath s.path (some { p with spot := .boundary (off + hLen h + 1), stop := stop })))
          else if clauseOk h off p.code.klen then atClause s g p off h
          else trapBoundary s g p cILLHDR 0 0

end Sys2Proof.Machine
end

