-- ==== Sys2Proof/Machine/Mem.lean ====
section
/-! DEFINITION. The MEM class: loads, stores, literals, view accesses, atomics, waitv and register images (R149 to R163). -/

namespace Sys2Proof.Machine

/-- One request for each active lane. -/
def perLane (p : Path) (f : Nat → Want) : List Want := p.lanes.map f

/-- The gang's one request, none with an empty EXEC. DEDUCED (log entry 59). -/
def perGang (p : Path) (w : Want) : List Want := if p.active == 0 then [] else [w]

def ordOf (o : Ord) : Option Scp → Ord | some _ => o | none => .rlx
def scpOf : Option Scp → Scp | some x => x | none => .grp

/-! ### ld, ldu, st (R157) -/

def load (n : Nat) (sx : Bool) (d a : VR) (cc : CC) (acq : Option Scp) (off : BitVec 5) (s : State) : Result :=
  let u : Use := { rd := [a], wr := [d] }
  begin_ u s fun g p => issueMem u s g p
    { need := .read, size := n, kind := .load n sx, dest := some (d, cc), ord := ordOf .acq acq, scp := scpOf acq,
      wants := perLane p fun l => { lane := l, va := g.val a l + BitVec.ofNat 64 (off.toNat * n) } }

def execLdN8 (d a : VR) (cc : CC) (acq : Option Scp) (off : BitVec 5) (s : State) : Result := load 1 false d a cc acq off s
def execLdN16 (d a : VR) (cc : CC) (acq : Option Scp) (off : BitVec 5) (s : State) : Result := load 2 false d a cc acq off s
def execLdN32 (d a : VR) (cc : CC) (acq : Option Scp) (off : BitVec 5) (s : State) : Result := load 4 false d a cc acq off s
def execLdN64 (d a : VR) (cc : CC) (acq : Option Scp) (off : BitVec 5) (s : State) : Result := load 8 false d a cc acq off s
def execLdS8 (d a : VR) (cc : CC) (acq : Option Scp) (off : BitVec 5) (s : State) : Result := load 1 true d a cc acq off s
def execLdS16 (d a : VR) (cc : CC) (acq : Option Scp) (off : BitVec 5) (s : State) : Result := load 2 true d a cc acq off s
def execLdS32 (d a : VR) (cc : CC) (acq : Option Scp) (off : BitVec 5) (s : State) : Result := load 4 true d a cc acq off s

def store (n : Nat) (v a : VR) (rel : Option Scp) (off : BitVec 5) (s : State) : Result :=
  let u : Use := { rd := [v, a] }
  begin_ u s fun g p => issueMem u s g p
    { need := .write, size := n, kind := .store, ord := ordOf .rel rel, scp := scpOf rel,
      wants := perLane p fun l => { lane := l, va := g.val a l + BitVec.ofNat 64 (off.toNat * n), data := g.val v l } }

def execStB8 (s0 a : VR) (rel : Option Scp) (off : BitVec 5) (s : State) : Result := store 1 s0 a rel off s
def execStB16 (s0 a : VR) (rel : Option Scp) (off : BitVec 5) (s : State) : Result := store 2 s0 a rel off s
def execStB32 (s0 a : VR) (rel : Option Scp) (off : BitVec 5) (s : State) : Result := store 4 s0 a rel off s
def execStB64 (s0 a : VR) (rel : Option Scp) (off : BitVec 5) (s : State) : Result := store 8 s0 a rel off s

/-- One load for the gang; U under a full write. -/
def execLduN64 (d a : VR) (cc : CC) (acq : Option Scp) (off : BitVec 5) (s : State) : Result :=
  let u : Use := { rd := [a], uni := [a], wr := [d] }
  begin_ u s fun g p => issueMem u s g p
    { need := .read, size := 8, kind := .loadu, dest := some (d, cc), ord := ordOf .acq acq, scp := scpOf acq,
      shape := some (.uni 0), full := g.fullWrite s.path p d, whole := true,
      wants := perGang p { lane := 0, va := g.uval p a + BitVec.ofNat 64 (off.toNat * 8) } }

/-! ### ldlit (R158) -/

/-- Go on with the code word at an offset, or trap or stall as its fetch says. -/
def withCode (u : Use) (s : State) (g : Group) (p : Path) (off : Nat) (body : State → IWord → Result) : Result :=
  let va := p.code.kbase + BitVec.ofNat 64 (4 * off)
  match fetchWord s s.cur g p off with
  | (s, .word w) => body s w
  | (s, .fault c) => trapOwn u s g p { p.trapRec cXLATE with code := c, addr := va }
  | (s, .poison) => trapOwn u s g p { p.trapRec cPOISON with addr := va }
  | (s, .stage2) => parkAgainS2 u s g p va
  | (s, .wait) => stallWith s 5

/-- Word offset of the literal: LIT counts from the second word. -/
def litOff (p : Path) (lit : BitVec 32) : Int := (p.spot.offset : Int) + 1 + lit.toInt

/-- The literal's bytes lie inside the kernel; a LIT that names others is an illegal field value (R108).
DEDUCED (log entry 87). -/
def litInside (p : Path) (w64 : Bool) (lit : BitVec 32) : Bool :=
  decide (0 ≤ litOff p lit) && decide (litOff p lit + (if w64 then 2 else 1) ≤ (p.code.klen : Int))

def execLdlit (d : VR) (cc : CC) (w64 : Bool) (lit : BitVec 32) (s : State) : Result :=
  let u : Use := { rd := [], wr := [d], len := 2 }
  withGang s fun g p =>
    let o := litOff p lit
    if !litInside p w64 lit then trapWhole s g p cILLOP
    else
      begin_ u s fun g p => withBudget u s g p ((released g p u).writeReg s.path p d cc (some (.uni 0)) fun _ => 0) <|
        withCode u s g p o.toNat fun s w =>
        if w64 then withCode u s g p (o.toNat + 1) fun s h =>
          let v := BitVec.ofNat 64 (w.toNat + h.toNat * 2 ^ 32)
          writeReg u d cc s g p (some (.uni v)) fun _ => v
        else
          let v := BitVec.ofNat 64 w.toNat
          writeReg u d cc s g p (some (.uni v)) fun _ => v

/-! ### ldv and stv (R159) -/

/-- Coordinate i of a lane's value: signed 16 bits. -/
def coord (x : Word) (i : Nat) : Int := sval 16 (x.toNat / 2 ^ (16 * i))

/-- A coordinate outside the view. -/
def outside (v : ViewDesc) (x : Word) : Bool :=
  (List.range 4).any fun i =>
    if i < v.rank then decide (coord x i < 0) || decide ((v.ext.getD i 0 : Int) ≤ coord x i) else coord x i != 0

/-- The element's address (R92). -/
def viewAddr (v : ViewDesc) (x : Word) : Word :=
  let sum := (List.range 4).foldl (fun acc i => acc + coord x i * v.str.getD i 0) 0
  BitVec.ofNat 64 ((((v.base.toNat : Int) + sum * (2 ^ v.esize : Nat)) % (2 ^ 56 : Nat)).toNat)

/-- The view checks of R159 in their order, then the access. `mode` is the MODE that forbids it. -/
def withView (u : Use) (w : WR) (mode : Nat) (a : VR) (dest : Option (VR × CC)) (s : State) (g : Group) (p : Path)
    (body : Option OpenView → Result) : Result :=
  let g0 := released g p u
  let held := match dest with
    | some (d, cc) => g0.setReg d ((g0.reg d).write g.w p.slices p.active false cc none fun _ => 0)
    | none => g0
  withBudget u s g p held <|
  if p.active == 0 then body (g.view w)
  else
    match g.view w with
    | none => trapOwn u s g p (p.trapRec cVCLOSED)
    | some v =>
      if v.desc.mode == mode then trapOwn u s g p (p.trapRec cVMODE)
      else
        let bad := maskOf lanes64 fun l => bitOf p.active l && outside v.desc (g.val a l)
        if bad != 0 then trapOwn u s g p { p.trapRec cVBOUND with fault := bad }
        else body (some v)

def execLdv (d a : VR) (w : WR) (cc : CC) (sx : Bool) (s : State) : Result :=
  let u : Use := { rd := [a], wr := [d] }
  begin_ u s fun g p => withView u w 2 a (some (d, cc)) s g p fun ov =>
    let n := match ov with | some v => 2 ^ v.desc.esize | none => 1
    issueMem u s g p
      { need := .read, size := n, kind := .load n sx, dest := some (d, cc), view := ov.map fun v => (w.toNat, v),
        wants := match ov with
          | some v => perLane p fun l => { lane := l, va := viewAddr v.desc (g.val a l) }
          | none => [] }

def execStv (s0 a : VR) (w : WR) (s : State) : Result :=
  let u : Use := { rd := [s0, a] }
  begin_ u s fun g p => withView u w 1 a none s g p fun ov =>
    let n := match ov with | some v => 2 ^ v.desc.esize | none => 1
    issueMem u s g p
      { need := .write, size := n, kind := .store, view := ov.map fun v => (w.toNat, v),
        wants := match ov with
          | some v => perLane p fun l => { lane := l, va := viewAddr v.desc (g.val a l), data := g.val s0 l }
          | none => [] }

/-! ### atom and atomn (R160) -/

/-- A returning atomic; `c` is its third operand, if it has one. -/
def atom (f : AFun) (d a b : VR) (c : Option VR) (cc : CC) (ord : Ord) (scp : Scp) (ty : AT) (s : State) : Result :=
  let u : Use := { rd := [a, b] ++ c.toList, wr := [d], len := 2 }
  begin_ u s fun g p => issueMem u s g p
    { need := .atomic, size := AT.width ty / 8, kind := .atomic f ty, dest := some (d, cc), ord := ord, scp := scp,
      wants := perLane p fun l =>
        { lane := l, va := g.val a l, data := g.val b l, cmp := match c with | some r => g.val r l | none => 0 } }

/-- An atomic that returns nothing. -/
def atomn (f : AFun) (a b : VR) (ord : Ord) (scp : Scp) (ty : AT) (s : State) : Result :=
  let u : Use := { rd := [a, b], len := 2 }
  begin_ u s fun g p => issueMem u s g p
    { need := .atomic, size := AT.width ty / 8, kind := .atomic f ty, ord := ord, scp := scp,
      wants := perLane p fun l => { lane := l, va := g.val a l, data := g.val b l } }

def execAtomAdd (d a b : VR) (cc : CC) (ord : Ord) (scp : Scp) (ty : AT) (s : State) : Result :=
  atom .add d a b none cc ord scp ty s
def execAtomAnd (d a b : VR) (cc : CC) (ord : Ord) (scp : Scp) (ty : AT) (s : State) : Result :=
  atom .and d a b none cc ord scp ty s
def execAtomOr (d a b : VR) (cc : CC) (ord : Ord) (scp : Scp) (ty : AT) (s : State) : Result :=
  atom .or d a b none cc ord scp ty s
def execAtomXor (d a b : VR) (cc : CC) (ord : Ord) (scp : Scp) (ty : AT) (s : State) : Result :=
  atom .xor d a b none cc ord scp ty s
def execAtomMin (d a b : VR) (cc : CC) (ord : Ord) (scp : Scp) (ty : AT) (s : State) : Result :=
  atom .min d a b none cc ord scp ty s
def execAtomMax (d a b : VR) (cc : CC) (ord : Ord) (scp : Scp) (ty : AT) (s : State) : Result :=
  atom .max d a b none cc ord scp ty s
def execAtomExch (d a b : VR) (cc : CC) (ord : Ord) (scp : Scp) (ty : AT) (s : State) : Result :=
  atom .exch d a b none cc ord scp ty s
def execAtomCas (d a b c : VR) (cc : CC) (ord : Ord) (scp : Scp) (ty : AT) (s : State) : Result :=
  atom .cas d a b (some c) cc ord scp ty s
def execAtomFadd (d a b : VR) (cc : CC) (ord : Ord) (scp : Scp) (ty : AT) (s : State) : Result :=
  atom .fadd d a b none cc ord scp ty s
def execAtomnAdd (a b : VR) (ord : Ord) (scp : Scp) (ty : AT) (s : State) : Result := atomn .add a b ord scp ty s
def execAtomnAnd (a b : VR) (ord : Ord) (scp : Scp) (ty : AT) (s : State) : Result := atomn .and a b ord scp ty s
def execAtomnOr (a b : VR) (ord : Ord) (scp : Scp) (ty : AT) (s : State) : Result := atomn .or a b ord scp ty s
def execAtomnXor (a b : VR) (ord : Ord) (scp : Scp) (ty : AT) (s : State) : Result := atomn .xor a b ord scp ty s
def execAtomnMin (a b : VR) (ord : Ord) (scp : Scp) (ty : AT) (s : State) : Result := atomn .min a b ord scp ty s
def execAtomnMax (a b : VR) (ord : Ord) (scp : Scp) (ty : AT) (s : State) : Result := atomn .max a b ord scp ty s
def execAtomnFadd (a b : VR) (ord : Ord) (scp : Scp) (ty : AT) (s : State) : Result := atomn .fadd a b ord scp ty s

/-! ### waitv (R161) -/

def holdsRel (r : WRel) (x y : Nat) : Bool :=
  match r with | .eq => x == y | .ne => x != y | .ltn => decide (x < y) | .gen => decide (y ≤ x)

/-- The read of a waitv lane, or of another instruction with place `id` in group order, may be made: older accesses of the
group to the word, older acquires and grants, and for an acquire the older ordered accesses (R246), have performed. -/
def waitReady (s : State) (k : Nat) (g : Group) (id : Nat) (x : Xlate) (n : Nat) (acq : Bool) : Bool :=
  !g.waitsBefore id true &&
  g.ops.all fun o => o.done || decide (id ≤ o.id) ||
    (!(o.cls == .mem && (Ord.isAcq o.ord || (acq && Ord.isOrdered o.ord))) && o.granted s k && o.accs.all fun b => b.done || !(decide (b.x.pa < x.pa + n) && decide (x.pa < b.x.pa + b.size)))

/-- What the reads of a waitv have found so far. -/
structure WaitScan where
  s   : State
  sat : Mask
  /-- lanes whose word is poisoned, and lanes whose home part refused the read (R312) -/
  bad : Mask
  ref : Mask
  /-- the first such lane's address -/
  va  : Word
  deriving Repr

/-- Read the words of the lanes that are not yet satisfied, each at its home. -/
def waitScan (k : Nat) (g : Group) (id : Nat) (lvl : Level) (r : WRel) (n : Nat) (acq : Bool) (s : State) (sat : Mask) :
    List (Nat × Word × Word) → WaitScan → WaitScan
  | [], acc => acc
  | (l, va, cmp) :: t, acc =>
    if bitOf sat l then waitScan k g id lvl r n acq s sat t acc
    else
      match translate acc.s (coreOf k) g.ten lvl .read (va.toNat % 2 ^ 56) with
      | .ok x =>
        if !waitReady s k g id x n acq then waitScan k g id lvl r n acq s sat t acc
        else
          let s1 := match hereOf acc.s x with
            | some pa => dropReadLine acc.s (coreOf k) (pa / 64)
            | none => acc.s
          (match syncRead s1 k g.ten x n false with
          | (s2, some (bs, st)) =>
            let m : Mask := BitVec.ofNat 64 (2 ^ l)
            let hit := holdsRel r (leNat bs) (cmp.toNat % 2 ^ (8 * n))
            let first := acc.bad == 0 && acc.ref == 0
            waitScan k g id lvl r n acq s sat t
              { s := s2, sat := if hit && st = 0 then acc.sat ||| m else acc.sat,
                bad := if st = 2 then acc.bad ||| m else acc.bad, ref := if st = 1 then acc.ref ||| m else acc.ref,
                va := if st != 0 && (first || (st = 1 && acc.ref == 0)) then va else acc.va }
          | (s2, none) => waitScan k g id lvl r n acq s sat t { acc with s := s2 })
      | .fault _ => waitScan k g id lvl r n acq s sat t acc
      | .stage2 => waitScan k g id lvl r n acq s sat t acc
      | .pte pa => waitScan k g id lvl r n acq s sat t { acc with s := askPte acc.s g.ten pa }

/-- The lanes a waitv waits for, with their addresses and comparands. -/
def waitLanes (p : Path) (addrs cmps : List Word) : List (Nat × Word × Word) :=
  p.lanes.map fun l => (l, addrs.getD l 0, cmps.getD l 0)

/-- One round of reads by a waitv of gang pi of group k: a trap, the end of the wait, or the park. -/
def waitRound (s : State) (k pi : Nat) (g : Group) (p : Path) (id : Nat) (sat : Mask) (addrs cmps : List Word) (r : WRel)
    (w64 : Bool) (acq : Option Scp) : State :=
  let n := if w64 then 8 else 4
  let l := waitLanes p addrs cmps
  let q := { p with park := none }
  let fault := fun (x : Nat × Word × Word) =>
    !bitOf sat x.1 && (translate s (coreOf k) g.ten p.code.level .read (x.2.1.toNat % 2 ^ 56)).isFault
  match l.find? fault with
  | some (_, va, _) =>
    let code := match translate s (coreOf k) g.ten p.code.level .read (va.toNat % 2 ^ 56) with | .fault c => c | _ => 0
    takeTrap s k g pi q { p.trapRec cXLATE with code := code, addr := va, fault := maskOf lanes64 fun i => l.any fun x => x.1 == i && fault x }
  | none =>
    match l.find? fun x => !bitOf sat x.1 && (translate s (coreOf k) g.ten p.code.level .read (x.2.1.toNat % 2 ^ 56)).isS2 with
    | some (_, va, _) => parkStage2 s k g pi { q with quiet := true } va
    | none =>
      let s := l.foldl (fun s x => tlbFill s (coreOf k) g.ten (x.2.1.toNat % 2 ^ 56)) s
      let w := waitScan k g id p.code.level r n acq.isSome s sat l ⟨s, sat, 0, 0, 0⟩
      if w.ref != 0 then takeTrap w.s k g pi q { p.trapRec cXLATE with code := 5, fault := w.ref, addr := w.va }
      else if w.bad != 0 then takeTrap w.s k g pi q { p.trapRec cPOISON with fault := w.bad, addr := w.va }
      else if p.active &&& ~~~w.sat == 0 then
        let y := p.spot.yieldsAfter 2
        let g := g.setPath pi (some (p.moved (p.spot.after 2)))
        let s := putGroup w.s k (if y then { g with wcount := 0 } else g)
        let s := match acq with | some scp => acquire s k g scp | none => s
        if y then markYield s else s
      else
        let pk := Park.waitv id w.sat addrs cmps r w64 acq
        if p.park.isSome then putGroup w.s k (g.setPath pi (some { p with park := some pk }))
        else parkAt w.s k g pi { p with quiet := true } pk

def execWaitv (r : WRel) (a b : VR) (acq : Option Scp) (w64 : Bool) (s : State) : Result :=
  let u : Use := { rd := [a, b], len := 2 }
  let n := if w64 then 8 else 4
  begin_ u s fun g p =>
    let all := fun (v : VR) => (List.range g.w).map (g.val v)
    let badva := fun l => bitOf p.active l && bits (g.val a l).toNat 63 56 != 0
    let misal := fun l => bitOf p.active l && (g.val a l).toNat % n != 0
    let low := fun c => match lanes64.find? c with | some l => g.val a l | none => 0
    if lanes64.any badva then trapOwn u s g p { p.trapRec cBADVA with fault := maskOf lanes64 badva, addr := low badva }
    else if lanes64.any misal then
      trapOwn u s g p { p.trapRec cMISALIGN with fault := maskOf lanes64 misal, addr := low misal }
    else
      let (id, s) := newSerial s
      .next (waitRound s s.cur s.path (released g p u) p id 0 (all a) (all b) r w64 acq)

/-! ### stspill and ldspill (R162) -/

/-- The 8-byte words of an image of n bytes at a VA. -/
def imageWants (va : Word) (l : List Byte) : List Want :=
  (List.range (l.length / 8)).map fun i =>
    { lane := 0, va := va + BitVec.ofNat 64 (8 * i), data := BitVec.ofNat 64 (field l (8 * i) 8) }

/-- stspill reads D and A quietly (R64, R162). A poisoned lane of either traps POISON (R317). DESIGN CHOICE (log entry 85). -/
def execStspill (d a : VR) (s : State) : Result :=
  let u : Use := { rd := [], uni := [a], wr := [d, a] }
  begin_ u s fun g p =>
    let bad := (tget g.rpoison d.toNat).getD 0 ||| ((tget g.rpoison a.toNat).getD 0 &&& p.active)
    if bad != 0 && p.active != 0 then trapOwn u s g p { p.trapRec cPOISON with fault := bad &&& p.active }
    else issueMem u s g p
      { need := .write, size := 8, kind := .spill, whole := true,
        wants := if p.active == 0 then [] else imageWants (g.lowVal p a) ((g.reg d).image g.w d.toNat) }

/-- The TAG byte that the restore will find, none while an older access of the group has still to write it or another
part's answer is to come. An address that the restore's own checks refuse has none to find. -/
def imageTag (s : State) (k : Nat) (g : Group) (p : Path) (va : Word) : State × Option Nat :=
  if va.toNat / 2 ^ 56 != 0 || va.toNat % 8 != 0 then (s, some 3)
  else match translate s (coreOf k) g.ten p.code.level .read va.toNat with
  | .ok x =>
    if !waitReady s k g s.serial x 8 false then (s, none)
    else (match hereOf s x with
      | some pa => (s, some (readNat s g.ten pa 1))
      | none => (match syncRead s k g.ten x 8 false with
        | (s, some (bs, st)) => (s, some (if st = 0 then field bs 0 1 else 3))
        | (s, none) => (s, none)))
  | .fault _ => (s, some 3)
  | .stage2 => (s, some 3)
  | .pte pa => (askPte s g.ten pa, none)

/-- The register held as G over the gang's live slices, or over the group's when it holds them all. -/
def execLdspill (d a : VR) (s : State) : Result :=
  let u : Use := { rd := [a], uni := [a], wr := [d] }
  begin_ u s fun g p =>
    withBudget u s g p ((released g p u).setReg d (((released g p u).reg d).write g.w p.slices p.active false 0 none fun _ => 0)) <|
    match (if p.active == 0 then (s, some 3) else imageTag s s.cur g p (g.uval p a)) with
    | (s, none) => stallWith s 2
    | (s, some tag) => issueMem u s g p
        { need := .read, size := 8, kind := .unspill d.toNat, dest := some (d, 0), whole := true,
          wants := if p.active == 0 then [] else imageWants (g.uval p a) (List.replicate (imageSize tag g.w) 0) }

end Sys2Proof.Machine
end

