-- ==== Sys2Proof/Machine/Sync.lean ====
section
/-! DEFINITION. Barriers, waits on flags and counters, fences and signals (R169 to R174). -/

namespace Sys2Proof.Machine

/-! ### Barriers (R169, R170) -/

/-- The bit of `Path.arrived` and the place in `Group.barAt` of a barrier. -/
def barIdx (clu : Bool) (id : Nat) : Nat := if clu then 16 + id else id
def barScope (clu : Bool) : Scp := if clu then .clu else .team

/-- DESIGN CHOICE (log entry 26). -/
def clusterOf (s : State) (t : Team) : Option (Nat × Cluster) :=
  s.clusters.find? fun (_, c) => c.launch == t.launch && c.clu == t.clu

/-- The current generation of a barrier, as a group sees it. -/
def genOf (s : State) (g : Group) (clu : Bool) (id : Nat) : Nat :=
  match teamOf s g with
  | some t =>
    if clu then (match clusterOf s t with | some (_, c) => (c.bars[id]?).getD 0 | none => 0) else (t.bars[id]?).getD 0
  | none => 0

def Path.hasArrived (p : Path) (i : Nat) : Bool := p.arrived.toNat / 2 ^ i % 2 == 1
def Path.arrive (p : Path) (i : Nat) : Path := { p with arrived := p.arrived ||| BitVec.ofNat 32 (2 ^ i) }
def Group.lastArrival (g : Group) (i : Nat) : Nat := (g.barAt[i]?).getD 0
def Group.setArrival (g : Group) (i n : Nat) : Group :=
  if h : i < 32 then { g with barAt := g.barAt.set i n h } else g

/-- The gang arrives, or parks where it has already arrived in the current generation. -/
def arriveThen (clu : Bool) (id : BitVec 4) (s : State) (body : Group → Path → Result) : Result :=
  let u : Use := { rd := [] }
  let i := barIdx clu id.toNat
  begin_ u s fun g p =>
    if p.hasArrived i then parkAgain u s g p (.early clu id.toNat (genOf s g clu id.toNat))
    else body (g.setArrival i (s.serial + 1)) (p.arrive i)

def execArriveTeam (id : BitVec 4) (s : State) : Result := arriveThen false id s fun g p => finish s g p 1
def execArriveClu (id : BitVec 4) (s : State) : Result := arriveThen true id s fun g p => finish s g p 1
def execBar (id : BitVec 4) (s : State) : Result :=
  arriveThen false id s fun g p => parkAgain { rd := [] } s g p (.barrier false id.toNat (genOf s g false id.toNat))

/-- The return from waitb or bar: an acquire at the barrier's scope. -/
def barrierReturn (clu : Bool) (s : State) (g : Group) (p : Path) : Result := finish (acquire s s.cur g (barScope clu)) g p 1

/-- The group's latest arrival belongs to the current generation: some gang of it has arrived. -/
def waitBarrier (clu : Bool) (id : BitVec 4) (s : State) : Result :=
  let u : Use := { rd := [] }
  begin_ u s fun g p =>
    if g.lastArrival (barIdx clu id.toNat) != 0 then parkAgain u s g p (.barrier clu id.toNat (genOf s g clu id.toNat))
    else barrierReturn clu s g p

def execWaitbTeam (id : BitVec 4) (s : State) : Result := waitBarrier false id s
def execWaitbClu (id : BitVec 4) (s : State) : Result := waitBarrier true id s

/-! ### waitf and waitc (R171) -/

/-- A report of an operation whose flag is named. -/
def Report.inFlags (r : Report) (m : BitVec 12) : Bool :=
  match r.flag with
  | some f => m.toNat / 2 ^ f % 2 == 1
  | none => false

def execWaitf (flg : BitVec 12) (s : State) : Result :=
  let u : Use := { rd := [] }
  begin_ u s fun g p =>
    match findReport g p fun r => r.inFlags flg with
    | some r => raiseReport s g p r
    | none => if g.anyFlag flg then parkAgain u s g p (.waitf flg) else finishUse u s g p

/-- The last n of a list. -/
def youngest (l : List Nat) (n : Nat) : List Nat := l.drop (l.length - n)

def Ctr.cls : Ctr → OpClass | .m => .mem | .c => .copy | .x => .mat | .l => .coll

/-- A report of an operation that waitc waits for: all of its class but the n youngest. -/
def Report.inCtr (g : Group) (r : Report) (c : Ctr) (n : Nat) : Bool :=
  r.cls == Ctr.cls c &&
    (match c with
    | .x => (match r.batch with | some b => !(youngest g.closed n).contains b | none => false)
    | .m | .c | .l => !(youngest ((g.ops.filter fun o => o.cls == Ctr.cls c).map (·.id)) n).contains r.op)

def execWaitc (cls : Ctr) (thr : BitVec 6) (s : State) : Result :=
  let u : Use := { rd := [] }
  begin_ u s fun g p =>
    match findReport g p fun r => r.inCtr g cls thr.toNat with
    | some r => raiseReport s g p r
    | none => if thr.toNat < g.counter cls then parkAgain u s g p (.waitc cls thr.toNat) else finishUse u s g p

/-! ### Fences (R172, R173)

A fence takes its place in group order when it issues (R240), once its stall is over: what a sibling gang issues during the
stall precedes it, and it waits for that too. -/

/-- Loads, returning atomics and waitvs issued before serial number n have performed. -/
def readsBefore (g : Group) (n : Nat) : Bool :=
  !g.waitsBefore n false && g.ops.all fun o => o.done || decide (n ≤ o.id) || !(o.cls == .mem) || (OpKind.isWrite o.kind && o.dest.isNone)

/-- Stores and atomics issued before serial number n have performed. -/
def writesBefore (g : Group) (n : Nat) : Bool :=
  g.ops.all fun o => o.done || decide (n ≤ o.id) || !OpKind.isWrite o.kind

def FOrd.acq : FOrd → Bool | .acq | .ar => true | .rel => false
def FOrd.rel : FOrd → Bool | .rel | .ar => true | .acq => false

def execFence (ord : FOrd) (scp : Scp) (s : State) : Result :=
  let u : Use := { rd := [] }
  begin_ u s fun g p =>
    let n := s.serial
    if (FOrd.acq ord && !readsBefore g n) || (FOrd.rel ord && !(visibleBefore g n scp && domSettled s n scp)) then stallSince s g p 5
    else finish (if FOrd.acq ord then acquire s s.cur g scp else s) g p 1

/-- Reads that groups have under way on other parts do not count as made after a fence: they are made anew (R173, R261). -/
def dropReads (s : State) (of : Nat → Bool) : State :=
  { s with rwaits := s.rwaits.filter fun r => match r.who with
      | .group k => r.n == 4097 || !of k
      | .op _ | .queue _ | .packet _ _ | .launch _ | .walk _ => true }

def execRfence (s : State) : Result :=
  let u : Use := { rd := [] }
  begin_ u s fun g p =>
    if !writesBefore g s.serial then stallSince s g p 5
    else finish (dropReads s fun k => k == s.cur) { g with recs := [] } p 1

def execIfence (s : State) : Result :=
  let u : Use := { rd := [] }
  begin_ u s fun g p =>
    if !writesBefore g s.serial then stallSince s g p 5
    else finish (dropReads { s with icache := s.icache.filter fun l => l.core != coreOf s.cur } fun k => coreOf k == coreOf s.cur) g p 1

/-! ### sigdec (R174) -/

def execSigdec (a : VR) (scp : Scp) (s : State) : Result :=
  let u : Use := { rd := [a], uni := [a] }
  begin_ u s fun g p => issueMem u s g p
    { need := .atomic, size := 8, kind := .atomic .sigdec .n64, ord := .rel, scp := scp, whole := true, flagged := false,
      wants := perGang p { lane := 0, va := g.uval p a } }

end Sys2Proof.Machine
end

