-- ==== Sys2Proof/Machine/Sys.lean ====
section
/-! DEFINITION. The SYS class and the tool-reserved instructions: traps, special registers, allotment, translation
maintenance, rates and costs, trampolines (R66, R178 to R188). -/

namespace Sys2Proof.Machine

/-! ### trap, bkpt, trmark (R180) -/

def execTrap (code : BitVec 16) (s : State) : Result :=
  begin_ { rd := [] } s fun g p => trapOut s g p { p.trapRec cTRAP with next := true, code := code.toNat }

/-- With a stop armed for the tenancy the path stops at the word after the bkpt (R334). -/
def execBkpt (code : BitVec 16) (s : State) : Result :=
  begin_ { rd := [] } s fun g p =>
    if s.dbarm.toNat / 2 ^ g.ten % 2 == 1 then .next (stopHere s s.cur s.path g (p.moved (p.spot.after 1)))
    else trapOut s g p { p.trapRec cBKPT with next := true, code := code.toNat }

def execTrmark (a : VR) (id : BitVec 8) (s : State) : Result :=
  let u : Use := { rd := [a] }
  begin_ u s fun g p =>
    let s := if traceMarks s s.cur then emit s s.cur s.path 3 0 (leBytes 1 id.toNat ++ leBytes 8 (g.lowVal p a).toNat) else s
    finishUse u s g p

/-! ### tret (R178) -/

/-- The causes after which the trapping instruction executes in full, with ordinary reads. -/
def fullRetry (t : TrapRec) : Bool :=
  t.defer || t.cause == cREGRANGE || t.cause == cNOTUNIF || t.cause == cDEADREAD || t.cause == cREGBUDGET

/-- The path that tret leaves, from the frame's RESUME and REXEC, where the trapping instruction has `len` words: slices that have
left the handler's gang, for another gang or by exiting, do not come back to it, and those that a regang has brought into it stay
in it, with no lane of theirs in EXEC (R19, R20). An instruction that had parked before it trapped NOTUNIF, REGRANGE or REGBUDGET
executes with ordinary reads, as R65 says, and not quietly as R348 says of a re-execution. DEDUCED (log entry 60).
DESIGN CHOICE (log entry 98). -/
def resumePath (g : Group) (p : Path) (h : Handler) (skip : Bool) (rexec : Mask) (len : Nat) : Path :=
  let t := h.trap
  let e := rexec &&& t.lanes &&& g.live &&& laneMask (h.slices &&& p.slices)
  let q := { p.moved h.spot with exec := e, code := h.code, owes := h.owes }
  if t.hdrt then q
  else if t.next || skip then
    let sp := h.spot.after len
    { q with spot := sp, owes := match sp with | .boundary _ => [] | .inside _ _ _ => h.owes }
  else if fullRetry t then q
  else { q with only := some (t.fault &&& e), quiet := true, noinv := t.cause == cFPINV }

/-- Return-stack depths as they were at entry. -/
def resetDepths (g : Group) (h : Handler) : Group :=
  (List.range 16).foldl (fun g sl =>
    if inSlices h.slices sl then
      let l := g.stack sl
      g.setStack sl (l.drop (l.length - h.depths.getD sl 0))
    else g) g

/-- The path index that tret gives the gang: the one at entry (R35), where a regang in the handler has moved the gang to a lower
one and no other gang has taken the first since. DEDUCED (log entry 60). -/
def returnIndex (g : Group) (h : Handler) : Nat := if (g.path h.entry).isSome then h.path else h.entry

/-- The operation whose report was raised goes on: what faulted is sent again (R192, R209). -/
def unhalt (g : Group) (t : TrapRec) : Group :=
  match t.redoOp with
  | some id =>
    (match g.op id with
    | some o => g.putOp { o with halted := false, okPoison := o.okPoison || o.cls == .cov,
                                 accs := o.accs.map fun a => if a.done && a.err != 0 then { a with done := false, err := 0, sent := none } else a }
    | none => g)
  | none => g

/-- The images of v0 to v3 in the frame block, or none where one breaks R68. -/
def frameRegs (w : Nat) (bs : List Byte) : Option (List VReg) :=
  [0, 1, 2, 3].mapM fun i => VReg.ofImage w ((bs.drop (imageOff i)).take 0x220)

/-- v0 to v3 as their images in the frame block give them, with the poison marks they had at entry. -/
def restoreLow (g : Group) (h : Handler) (vs : List VReg) : Group :=
  let g := (vs.zipIdx).foldl (fun g vi => (g.setReg (BitVec.ofNat 6 vi.2) vi.1).clearPoison (BitVec.ofNat 6 vi.2) (widthMask g.w)) g
  { g with rpoison := h.marks.foldl (fun l m => tput l m.1 m.2) g.rpoison }

/-- After a handler's tret the held trap with the lowest path index enters at once (R179), unless the team is to be saved. -/
def enterHeld (s : State) (k : Nat) : State :=
  match tget s.groups k with
  | none => s
  | some g =>
    if g.handler.isSome then s
    else
      match (heldPath g).bind fun i => (g.path i).map fun p => (i, p) with
      | some (i, p) =>
        (match p.trap with
        | some t =>
          let q := { p with park := none, trap := none }
          if p.latched then s
          else if lowHeld g then putGroup s k (g.setPath i (some { q with trap := some t })) else enterTrap s k (g.setPath i (some q)) i q t
        | none => s)
      | none => s

/-- The answers of other parts that the operation of a raised report has had: its unit is made again from its start (R192). -/
def forgetOp (s : State) (t : TrapRec) : State :=
  match t.redoOp with
  | some id => { s with rwaits := s.rwaits.filter fun r => r.who != .op id }
  | none => s

/-- The return itself, once the frame block has been read and the length of the instruction is known.
DESIGN CHOICE (log entry 85). -/
def doReturn (s : State) (g : Group) (p : Path) (h : Handler) (vs : List VReg) (skip : Bool) (rexec : Mask) (len : Nat) : Result :=
  let k := s.cur
  let q := resumePath g p h skip rexec len
  let i := returnIndex g h
  let g := restoreLow g h vs
  let y := p.spot.yieldsAfter 1
  let g := { unhalt (resetDepths g h) h.trap with handler := none, wcount := if y then 0 else g.wcount,
                                                  last := if g.last = s.path then i else g.last,
                                                  wlast := if g.wlast = s.path then i else g.wlast }
  let s := putGroup (forgetOp s h.trap) k ((g.setPath s.path none).setPath i (some q))
  let s := enterHeld (emit { s with path := i } k i 1 2 (lanesField g.w q.exec)) k
  .next (if y then markYield s else s)

/-- A return past the trapping instruction first reads its word, which says how long it is; one that cannot be read counts as one
word. DEDUCED (log entry 60). -/
def returnFrom (s : State) (g : Group) (p : Path) (h : Handler) (bs : List Byte) : Result :=
  let skip := field bs 0x48 8 % 2 == 1
  let rexec := BitVec.ofNat 64 (field bs 0x50 8)
  match frameRegs g.w bs with
  | none => .next (escalate s s.cur)
  | some vs =>
    if h.trap.hdrt && skip then .next (escalate s s.cur)
    else if h.trap.hdrt || !(h.trap.next || skip) then doReturn s g p h vs skip rexec 1
    else
      match fetchWord s s.cur g { p with code := h.code } h.spot.offset with
      | (s, .word w) => doReturn s g p h vs skip rexec (if opcLong (opcOf w.toNat) then 2 else 1)
      | (s, .fault _) | (s, .poison) => doReturn s g p h vs skip rexec 1
      | (s, .stage2) => parkAgainS2 { rd := [] } s g p (h.code.kbase + BitVec.ofNat 64 (4 * h.spot.offset))
      | (s, .wait) => stallSince s g p 5

/-- tret. Poison in the frame is fatal to the tenancy (R315); the part resets it before anything else moves. -/
def execTret (s : State) : Result :=
  begin_ { rd := [] } s fun g p =>
    match g.handler with
    | none => trapWhole s g p cILLOP
    | some h =>
      if h.path != s.path then trapWhole s g p cILLOP
      else if g.ops.any fun o => o.inHandler && o.cls == .mem && !o.done then stallWith s 5
      else
        match translate s (coreOf s.cur) g.ten .supervisor .read (h.fb.toNat % 2 ^ 56) with
        | .fault _ => .next (escalate s s.cur)
        | .stage2 => parkAgainS2 { rd := [] } s g p h.fb
        | .pte pa => stallSince (askPte s g.ten pa) g p 5
        | .ok x =>
          match syncRead s s.cur g.ten x (if (hereOf s x).isSome then 0x900 else 4096) false with
          | (s, none) => stallSince s g p 5
          | (s, some (bs, st)) =>
            if st = 1 then .next (escalate s s.cur)
            else if st != 0 then .next { s with doomed := s.doomed ++ [(g.ten, x.pa)], stall := some 5 }
            else returnFrom s g p h bs

/-! ### rdsr and wrsr (R66, R181) -/

/-- Window base of rank r of a group's cluster: VA at which the tenancy's Silo granules are mapped (R66).
DESIGN CHOICE (log entry 9). -/
def peerBase (s : State) (g : Group) (r : Nat) : Word :=
  match teamOf s g with
  | some t =>
    (match s.teams.find? fun (_, q) => q.launch == t.launch && q.clu == t.clu && q.crank == r with
    | some (_, q) => Config.siloVa g.ten + BitVec.ofNat 64 q.win
    | none => 0)
  | none => 0

def teamNat (s : State) (g : Group) (f : Team → Nat) : Word :=
  match teamOf s g with | some t => BitVec.ofNat 64 (f t) | none => 0

/-- A field of a lane's point; 0 outside a coverage launch and in a lane that has no point. DESIGN CHOICE (log entry 9). -/
def pointNat (g : Group) (lane : Nat) (f : CovPoint → Nat) : Word :=
  match (g.points[lane]?).join with | some c => BitVec.ofNat 64 (f c) | none => 0

/-- The value of a special register in a lane. DESIGN CHOICE (log entry 9). -/
def srValue (s : State) (k : Nat) (g : Group) (p : Path) (n lane : Nat) : Word :=
  match n with
  | 0x00 => BitVec.ofNat 64 lane
  | 0x01 => BitVec.ofNat 64 (lane / 4)
  | 0x02 => BitVec.ofNat 64 g.gid
  | 0x03 => teamNat s g (·.index)
  | 0x04 => teamNat s g (·.tx)
  | 0x05 => teamNat s g (·.ty)
  | 0x06 => teamNat s g (·.tz)
  | 0x07 => teamNat s g (·.clu)
  | 0x08 => teamNat s g (·.crank)
  | 0x09 | 0x0A | 0x0B | 0x0C => peerBase s g (n - 9)
  | 0x0D => pointNat g lane (·.x)
  | 0x0E => pointNat g lane (·.y)
  | 0x0F => pointNat g lane (·.z)
  | 0x10 => pointNat g lane fun c => if c.audit then 1 else 0
  | 0x11 => BitVec.ofNat 64 (coreOf k)
  | 0x12 => BitVec.ofNat 64 (coreOf k / 16)
  | 0x13 => BitVec.ofNat 64 s.time
  | 0x14 => s.wb.rate.zeroExtend 64
  | 0x15 => g.ratel.zeroExtend 64
  | 0x16 => (match s.cores[coreOf k]? with | some c => BitVec.ofNat 64 c.op | none => 0)
  | 0x17 => p.code.kbase
  | 0x18 => (match kdescOf s g with | some d => d.tbase | none => 0)
  | 0x19 => (g.tlink[lane / 4]?).getD 0
  | 0x1A => (match teamOf s g with | some t => t.spb | none => 0)
  | 0x1B => (match teamOf s g with | some t => Config.siloVa g.ten + BitVec.ofNat 64 t.win | none => 0)
  | 0x1C => BitVec.ofNat 64 g.allot
  | 0x1D => g.mstatWord
  | 0x1E => g.fstatWord
  | 0x1F => (match launchOf s g with | some l => (match l.cov with | some c => BitVec.ofNat 64 c.level | none => 0) | none => 0)
  | 0x20 => BitVec.ofNat 64 g.ten
  | 0x21 => g.tvec
  | 0x22 => BitVec.ofNat 64 g.budget
  | 0x23 => g.cnts
  | _ => 0

/-- The shape column of R66. -/
def srShape (n : Nat) (v : Word) : Option Shape :=
  match n with
  | 0x00 => some (.aff 0 1)
  | 0x01 | 0x0D | 0x0E | 0x0F | 0x10 | 0x19 => none
  | _ => some (.uni v)

def execRdsr (d : VR) (n : BitVec 6) (cc : CC) (s : State) : Result :=
  let u : Use := { rd := [], wr := [d] }
  begin_ u s fun g p =>
    writeReg u d cc s g p (srShape n.toNat (srValue s s.cur g p n.toNat 0)) (srValue s s.cur g p n.toNat)

/-- A RATEL write: 0 follows RATE, any other value is clamped to the tenancy's floor and ceiling (R181, R231). -/
def clampRate (t : Tcb) (x : Nat) : BitVec 32 := if x = 0 then 0 else BitVec.ofNat 32 (max t.floor (min t.ceil x))

/-- The bits of TLINK that exist (R187, R5). -/
def tlinkMask : Word := 0x8000003FFFFFFFFF

/-- TLINK of each slice takes the slice's lowest active lane. -/
def writeTlink (g : Group) (p : Path) (v : VR) : Group :=
  p.sliceList.foldl (fun g sl =>
    match (List.range 4).find? fun i => bitOf p.active (4 * sl + i) with
    | some i => (if h : sl < 16 then { g with tlink := g.tlink.set sl (g.val v (4 * sl + i) &&& tlinkMask) h } else g)
    | none => g) g

def execWrsr (s0 : VR) (n : BitVec 6) (s : State) : Result :=
  let u : Use := { rd := [s0], priv := n == 0x21 }
  begin_ u s fun g p =>
    let x := g.lowVal p s0
    let g1 := released g p u
    let g1 := if p.active == 0 then g1 else
      match n.toNat with
      | 0x15 => { g1 with ratel := clampRate (tcbOf s g.ten) (x.toNat % 2 ^ 32) }
      | 0x19 => { g1 with tlink := (writeTlink g p s0).tlink }
      | 0x1D => { g1 with mstat := g1.mstat &&& ~~~(BitVec.ofNat 3 x.toNat) }
      | 0x1E => { g1 with fstat := g1.fstat &&& ~~~(BitVec.ofNat 5 x.toNat) }
      | 0x21 => { g1 with tvec := x }
      | _ => g1
    finish s g1 p 1

/-! ### grow and shrink (R58, R182) -/

/-- Registers lo to hi − 1 become Dead, without storage or consumer state. -/
def dropRegs (g : Group) (lo hi : Nat) : Group :=
  (List.range (hi - lo)).foldl (fun g i =>
    if h : lo + i < 64 then { g with regs := g.regs.set (lo + i) VReg.reset h, rpoison := tdel g.rpoison (lo + i) } else g) g

def execGrow (n : BitVec 3) (s : State) : Result :=
  begin_ { rd := [] } s fun g p =>
    let a := g.allot + 8 * n.toNat
    if 64 < a then trapWhole s g p cREGRANGE else finish s { dropRegs g g.allot a with allot := a } p 1

def execShrink (n : BitVec 3) (s : State) : Result :=
  begin_ { rd := [] } s fun g p =>
    if g.allot < 8 * n.toNat + 8 then trapWhole s g p cREGRANGE
    else
      let a := g.allot - 8 * n.toNat
      if (List.range (g.allot - a)).any fun i => g.isHeld (a + i) then stallWith s 2
      else finish s { dropRegs g a g.allot with allot := a } p 1

/-! ### tlbi, tlbsync, poolget (R184, R185) -/

/-- tlbi of a page, or of all. DEDUCED (log entry 81). -/
def execTlbi (a : VR) (all : Bool) (s : State) : Result :=
  let u : Use := { rd := if all then [] else [a], uni := if all then [] else [a], priv := true }
  begin_ u s fun g p =>
    if !visibleBefore g s.serial .dev then stallSince s g p 5
    else
      let page := if all then none else some ((g.uval p a).toNat % 2 ^ 56 / 4096)
      let (id, s) := newSerial s
      finishUse u { s with tlbis := s.tlbis ++ [⟨id, s.cur, g.ten, page, none⟩] } g p

/-- A translation's page, from address b on and n bytes long, covers the page of a tlbi (R184). -/
def Tlbi.covers (t : Tlbi) (b n : Nat) : Bool :=
  match t.page with
  | some pg => decide (b ≤ pg * 4096) && decide (pg * 4096 < b + n)
  | none => true

/-- An access or a transfer of the tenancy that took its translation, of any page size, before a tlbi took effect, and has
not performed; one that a save withdrew has none until it is issued again (R159). -/
def usesOld (t : Tlbi) (n : Nat) (g : Group) : Bool :=
  g.ten == t.ten && g.ops.any fun o => !o.done && decide (o.id < n) &&
    ((o.accs.any fun a => !a.done && !a.unplaced && t.covers a.x.vbase (max 1 a.x.vsize)) || o.pages.any fun r => t.covers r.1 r.2)

def tlbiDone (s : State) (t : Tlbi) : Bool :=
  match t.effect with
  | some n => s.groups.all fun (_, g) => !usesOld t n g
  | none => false

def execTlbsync (s : State) : Result :=
  begin_ { rd := [], priv := true } s fun g p =>
    let mine := fun (t : Tlbi) => t.group == s.cur && decide (t.id < sinceOf s p)
    if s.tlbis.any fun t => mine t && !tlbiDone s t then stallSince s g p 5
    else finish { s with tlbis := s.tlbis.filter fun t => !mine t } g p 1

/-- A tlbi takes effect in every TLB of the part (R184, R305). -/
def tlbiEffect (s : State) (id : Nat) : State :=
  match s.tlbis.find? fun t => t.id == id && t.effect.isNone with
  | some t =>
    { invalidate s t.ten (fun e => t.covers e.base e.size) (fun e => t.covers e.base e.size) with
      tlbis := s.tlbis.map fun q => if q.id = id then { q with effect := some s.serial } else q }
  | none => s

/-- Pop one entry of the tenancy's pool, 0 when it is empty; a pool left below its mark is posted to the agent (R306). -/
def popPool (s : State) (ten : Nat) : State × Word :=
  if h : ten < 32 then
    let t := s.tcbs[ten]
    let low (head : BitVec 32) : Bool := t.poollow || decide ((t.ptail - head).toNat < t.lowat.toNat)
    if t.phead == t.ptail then ({ s with tcbs := s.tcbs.set ten { t with poollow := low t.phead } }, 0)
    else
      let e := readNat s 32 (normPa s (t.pbase.toNat + t.phead.toNat % 2 ^ t.plog * 8)) 8
      ({ s with tcbs := s.tcbs.set ten { t with phead := t.phead + 1, poollow := low (t.phead + 1) } }, BitVec.ofNat 64 e)
  else (s, 0)

def execPoolget (d : VR) (cc : CC) (s : State) : Result :=
  let u : Use := { rd := [], wr := [d], priv := true }
  begin_ u s fun g p =>
    if p.active == 0 then finishUse u s g p
    else withBudget u s g p (g.writeReg s.path p d cc (some (.uni 0)) fun _ => 0) <|
      let (s, v) := popPool s g.ten
      writeReg u d cc s g p (some (.uni v)) fun _ => v

/-! ### setratel and rdcost (R186, R233) -/

def execSetratel (a : VR) (s : State) : Result :=
  let u : Use := { rd := [a], uni := [a] }
  begin_ u s fun g p =>
    let g1 := released g p u
    finish s (if p.active == 0 then g1 else { g1 with ratel := clampRate (tcbOf s g.ten) ((g.uval p a).toNat % 2 ^ 32) }) p 1

/-- CYC and ENJ in Q16.16 nJ of a product (R233): the figures that the spec prints, and the image's for every other.
DESIGN CHOICE (log entry 10). -/
def costEntry (eng fmt m n k op : Nat) : Nat × Nat :=
  let cyc := if fmt = 1 && m = 4 && n = 4 && k = 4 then (if eng = 0 then 24 else 80) else Config.mmsCyc eng fmt m n k
  let enj := if fmt = 1 && m = 4 && n = 4 && k = 4 && op = 6 then (if eng = 0 then 98304 else 19661)
    else Config.mmsEnj eng fmt m n k op
  (cyc, enj)

/-- Time in Q16.16 ns and energy in Q16.16 nJ of a product on an engine at a core's operating point. -/
def costOf (s : State) (core eng fmt m n k : Nat) : Nat × Nat :=
  let op := match s.cores[core]? with | some c => c.op | none => 0
  let (cyc, enj) := costEntry eng fmt m n k op
  (divRne (cyc * 65536 * 1000) (Config.coreMhz op) % 2 ^ 32, enj % 2 ^ 32)

/-- rdcost's result for a selector. -/
def costWord (s : State) (core : Nat) (x : Word) : Word :=
  let v := x.toNat
  let m := bits v 3 0
  let n := bits v 7 4
  let k := bits v 11 8
  let ty := bits v 16 12
  let eng := bits v 19 17
  let dim := fun y => decide (1 ≤ y) && decide (y ≤ 8)
  if eng ≤ 1 && [0, 1, 2, 4, 5].contains ty && dim m && dim n && dim k && v / 2 ^ 20 == 0 then
    let (t, e) := costOf s core eng ty m n k
    BitVec.ofNat 64 (t + e * 2 ^ 32)
  else BitVec.ofNat 64 (2 ^ 64 - 1)

def execRdcost (d a : VR) (cc : CC) (s : State) : Result :=
  lane1 (costWord s (coreOf s.cur)) (uni1 (costWord s (coreOf s.cur))) d a cc s

/-! ### toolx, tramp, trampret (R187, R188) -/

def execToolx (idx : BitVec 25) (s : State) : Result :=
  withGang s fun g p =>
    if !(tcbOf s g.ten).toolen then trapOut s g p { p.trapRec cTOOLX with next := true, code := idx.toNat }
    else
      begin_ { rd := [] } s fun g p =>
        let s := if traceMarks s s.cur then emit s s.cur s.path 3 1 (leBytes 1 (idx.toNat % 256) ++ leBytes 8 0) else s
        finishUse { rd := [] } s g p

def linkActive (g : Group) (sl : Nat) : Bool := bits ((g.tlink[sl]?).getD 0).toNat 63 63 == 1
def linkHdr (g : Group) (sl : Nat) : Nat := bits ((g.tlink[sl]?).getD 0).toNat 37 19
def linkRet (g : Group) (sl : Nat) : Nat := bits ((g.tlink[sl]?).getD 0).toNat 18 0

def setLinks (g : Group) (l : List Nat) (v : Word → Word) : Group :=
  l.foldl (fun g sl => if h : sl < 16 then { g with tlink := g.tlink.set sl (v g.tlink[sl]) h } else g) g

/-- Offset of the header of the gang's clause, and of the next word. -/
def Spot.link : Spot → Nat × Nat
  | .boundary p => (p, p)
  | .inside hdr _ pc => (hdr, pc + 1)

def execTramp (idx : BitVec 25) (s : State) : Result :=
  let u : Use := { rd := [] }
  begin_ u s fun g p =>
    match kdescOf s g with
    | none => trapOwn u s g p (p.trapRec cBADTGT)
    | some kd =>
      if kd.tbase == 0 || decide (kd.trampn ≤ idx.toNat) then trapOwn u s g p (p.trapRec cBADTGT)
      else if p.sliceList.any (linkActive g) then trapOwn u s g p (p.trapRec cTRAMPNEST)
      else readStruct u s g p (kd.tbase + BitVec.ofNat 64 (8 * idx.toNat)) 8 8 none fun s bs =>
        let t := field bs 0 4
        withTarget u s g p t fun s =>
          let (hdr, ret) := p.spot.link
          let g := setLinks g p.sliceList fun _ => BitVec.ofNat 64 (2 ^ 63 + hdr * 2 ^ 19 + ret)
          finishAt s g p (.boundary t)

/-- Where a slice goes at trampret: its place, or the trap of its part. -/
inductive Back where
  | go (sp : Spot)
  | trap (cause code : Nat) (va : Word)
  | stage2 (va : Word)
  | wait
  deriving DecidableEq, Repr

/-- The return to (HDR, RET), and the state after the fetch of the header. -/
def backTo (s : State) (k : Nat) (g : Group) (p : Path) (hdr ret : Nat) : State × Back :=
  let va := p.code.kbase + BitVec.ofNat 64 (4 * hdr)
  if p.code.klen ≤ hdr then (s, .trap cILLHDR 0 0)
  else
    match fetchWord s k g p hdr with
    | (s, .fault c) => (s, .trap cXLATE c va)
    | (s, .poison) => (s, .trap cPOISON 0 va)
    | (s, .stage2) => (s, .stage2 va)
    | (s, .wait) => (s, .wait)
    | (s, .word h) =>
      if !clauseOk h hdr p.code.klen then (s, .trap cILLHDR 0 0)
      else if hdr < ret && ret ≤ hdr + hCount h then (s, .go (.inside hdr h ret))
      else if ret = hdr + hCount h + 1 then (s, .go (.boundary ret))
      else (s, .trap cBADTGT 0 0)

/-- The return of every slice, in slice order. -/
def backAll (s : State) (k : Nat) (g : Group) (p : Path) : List Nat → State × List (Nat × Back)
  | [] => (s, [])
  | sl :: t =>
    let (s, b) := backTo s k g p (linkHdr g sl) (linkRet g sl)
    let (s, l) := backAll s k g p t
    (s, (sl, b) :: l)

/-- A part whose return fails traps where it stands, its links as they were. DEDUCED (log entry 60). -/
def trapParts (k : Nat) (is : List Nat) (back : Nat → Back) (s : State) : State :=
  is.foldl (fun s i =>
    match tget s.groups k with
    | some g =>
      (match g.path i with
      | some q =>
        (match back (lowBit 16 q.slices.toNat) with
        | .trap c code va => takeTrap s k g i q { q.trapRec c with code := code, addr := va }
        | .go _ | .stage2 _ | .wait => s)
      | none => s)
    | none => s) s

/-- DEDUCED (log entry 60). -/
def execTrampret (s : State) : Result :=
  let u : Use := { rd := [] }
  begin_ u s fun g p =>
    if p.sliceList.any fun sl => !linkActive g sl then trapOwn u s g p (p.trapRec cNOTRAMP)
    else
      match backAll s s.cur g p p.sliceList with
      | (s, l) =>
        match l.findSome? fun (_, b) => (match b with | .stage2 va => some va | .go _ | .trap _ _ _ | .wait => none) with
        | some va => parkAgainS2 u s g p va
        | none =>
          if l.any fun (_, b) => b == .wait then stallWith s 5
          else
            let back := fun sl => match l.find? fun (i, _) => i == sl with | some (_, b) => b | none => .wait
            let dest := fun sl => (linkHdr g sl * 2 ^ 19 + linkRet g sl, match back sl with | .go sp => sp | .trap _ _ _ | .stage2 _ | .wait => p.spot)
            let ok := p.sliceList.filter fun sl => (match back sl with | .go _ => true | .trap _ _ _ | .stage2 _ | .wait => false)
            let g := setLinks g ok fun x => x &&& 0x7FFFFFFFFFFFFFFF
            let goes := fun (g : Group) (i : Nat) => match g.path i with | some q => ok.contains (lowBit 16 q.slices.toNat) | none => false
            finishParts s g p dest fun is g s => trapParts s.cur is back (targetTrace s.cur (is.filter (goes g)) g s)

end Sys2Proof.Machine
end

