-- ==== Sys2Proof/Machine/Matrix.lean ====
section
/-! DEFINITION. The MAT class: matrix products, tiles and batches (R189 to R199, R214 to R220), at issue and at
completion. -/

namespace Sys2Proof.Machine

/-! ### NA26 and the order of the sums (R214, R217 to R219) -/

/-- An NA26 or f32 value on its way through the array, with the MSTAT flags raised. -/
abbrev Acc26 := FV × BitVec 3

/-- RNNA on an exact value. -/
def rnna : FV → Acc26
  | .nan _ => (.nan false, mINV)
  | .inf n => (.inf n, 0)
  | .fin n m e =>
    if m = 0 then (.fin n 0 0, 0)
    else
      let q := expOf m e - 17
      let (r, _) := roundTo .rne n m e false q
      let ex := expOf r q
      if 127 < ex then (.fin n (2 ^ 18 - 1) 110, mNSAT)
      else if ex < -126 then (.fin n 0 0, 0)
      else (.fin n r q, 0)

/-- The exact sum of two values; an exact zero is +0 unless both addends are −0. -/
def addExact : FV → FV → FV
  | .fin n1 m1 e1, .fin n2 m2 e2 =>
    let (v, e) := addDyadic n1 m1 e1 n2 m2 e2
    if v = 0 then .fin (n1 && n2 && m1 == 0) 0 0 else .fin (decide (v < 0)) v.natAbs e
  | .inf a, .inf b => if a = b then .inf a else .nan false
  | .inf a, .fin _ _ _ => .inf a
  | .fin _ _ _, .inf b => .inf b
  | .nan _, _ => .nan false
  | _, .nan _ => .nan false

def addNa (a b : Acc26) : Acc26 :=
  let (v, f) := rnna (addExact a.1 b.1)
  (v, a.2 ||| b.2 ||| f)

/-- An exact product; a NaN operand or 0 × ∞ gives NaN. -/
def prodNa (x y : FV) : Acc26 :=
  match mulFV x y with
  | some (.nan _) => (.nan false, mINV)
  | some v => (v, 0)
  | none => (.nan false, mINV)

/-- One level of the pairwise tree. -/
def pairUp : List Acc26 → List Acc26
  | a :: b :: t => addNa a b :: pairUp t
  | [a] => [a]
  | [] => []

/-- stepsum of 32 products. -/
def stepsum (l : List Acc26) : Acc26 :=
  match pairUp (pairUp (pairUp (pairUp (pairUp l)))) with
  | a :: _ => a
  | [] => (.fin false 0 0, 0)

/-- f32 result flags as MSTAT flags: any NaN is INV, overflow is OVF. -/
def mflags (r : FR) : BitVec 3 :=
  (if (fmtF32.decode r.bits).isNan then mINV else 0) ||| (if r.fl &&& fOF != 0 then mOVF else 0)

/-- PROMOTE: acc := RN32(acc + n), or RN32(acc + RN32(s × n)). -/
def promote (s : Option (BitVec 32)) (acc : BitVec 32 × BitVec 3) (n : Acc26) : BitVec 32 × BitVec 3 :=
  let (x, f) := match s with
    | none => (n.1, n.2)
    | some s =>
      let r := fmtF32.mul .rne (fmtF32.decode s.toNat) n.1
      (fmtF32.decode r.bits, n.2 ||| mflags r)
  let r := fmtF32.add .rne (fmtF32.decode acc.1.toNat) x
  (BitVec.ofNat 32 r.bits, acc.2 ||| f ||| mflags r)

/-- One written element: `prod k` is the exact product at k. -/
def dot (ks p : Nat) (s : Option (BitVec 32)) (prod : Nat → Acc26) (acc : BitVec 32) : BitVec 32 × BitVec 3 :=
  let step (h : Nat) : Acc26 := stepsum ((List.range 32).map fun i => prod (32 * h + i))
  (List.range ((ks + 1) / p)).foldl (fun a g =>
    let n := (List.range (p - 1)).foldl (fun n i => addNa n (step (g * p + 1 + i))) (step (g * p))
    promote s a n) (acc, 0)

/-- The exact value of an encoding of a record format. -/
def ctValue (t : CT) (x : Nat) : FV :=
  match CT.kind t with
  | .flt f => f.decode x
  | .int w sg => ofInt (ctInt w sg x)

/-- a′: planes 1 to PL of a finite element's significand; infinities and NaNs keep their decoding (R217).
DEDUCED (log entry 88). -/
def truncA (t : CT) (pl x : Nat) : FV :=
  let w := planeSig t
  let d := if pl = 0 then 0 else w - pl
  match CT.kind t with
  | .flt f =>
    (match f.decode x with
    | .fin n m q => .fin n (m / 2 ^ d * 2 ^ d) q
    | .nan y => .nan y
    | .inf n => .inf n)
  | .int wd sg =>
    let v := ctInt wd sg x
    .fin (decide (v < 0)) (v.natAbs / 2 ^ d * 2 ^ d) 0

/-! ### Tiles -/

/-- Place of tile t of a group's own core in its team's list. -/
def tileIdx (s : State) (k : Nat) (g : Group) (t : Nat) : Nat :=
  match teamOf s g with
  | some tm => (if tm.cores.headD (coreOf k) = coreOf k then 0 else 8) + t
  | none => t

def tileAt (s : State) (g : Group) (i : Nat) : Tile :=
  match teamOf s g with
  | some tm => (tm.tiles[i]?).getD (Tile.fresh 0)
  | none => Tile.fresh 0

/-- DESIGN CHOICE (log entry 12). -/
def Tile.get (t : Tile) (row col : Nat) : BitVec 32 :=
  match tget t.cells (row * 256 + col) with
  | some v => v
  | none => match t.back with
    | some n => Config.freeTile n (row * 256 + col)
    | none => 0

def Tile.put (t : Tile) (row col : Nat) (v : BitVec 32) : Tile := { t with cells := tput t.cells (row * 256 + col) v }

def setTile (s : State) (g : Group) (i : Nat) (t : Tile) : State :=
  { s with teams := tmod s.teams g.team fun tm => if h : i < 16 then { tm with tiles := tm.tiles.set i t h } else tm }

/-- Write an element and clear its row's mark. -/
def Tile.clearRow (t : Tile) (row : Nat) : Tile := { t with poison := sdel t.poison row }

/-- A tile name at or above the descriptor's ACC (R51). -/
def tileOver (s : State) (g : Group) (t : TR) : Bool :=
  match kdescOf s g with | some d => decide (d.acc ≤ t.toNat) | none => true

/-! ### Issue -/

/-- Issue an asynchronous operation of the open batch. -/
def issueMat (u : Use) (s : State) (g : Group) (p : Path) (kind : OpKind) (dest : Option (VR × CC)) (nregs : Nat) : Result :=
  let o := { newOp s g p .mat kind (setFlag hSetB p) with dest := dest, nregs := nregs }
  let g1 := released g p u
  let s := { s with serial := s.serial + 1 }
  finish s { g1 with ops := g1.ops ++ [o] } (joinFlag s g p 2 o.flag) 2

/-- A record operand: parsed, or BADREC. -/
def withRec (u : Use) (s : State) (g : Group) (p : Path) (r : VR) (body : State → Group → Option Rec → Result) : Result :=
  readRecord u s g p (g.uval p r) fun s g l => body s g (parseRec l)

/-- M, P of the fields (R194). -/
def mmaM (mq : BitVec 4) : Nat := 8 * (mq.toNat + 1)
def mmaP (p : BitVec 2) : Nat := 2 ^ p.toNat

def isF8 : CT → Bool
  | .e4m3 | .e5m2 => true
  | .f16 | .bf16 | .f32 | .f64 | .s4 | .s8 | .s16 | .s32 | .s64 | .n8 | .n16 | .n32 | .n64 => false

/-- Formats of an A or B record (R194). -/
def mmaFmt : CT → Bool
  | .e5m2 | .e4m3 | .s4 | .bf16 | .s8 | .f16 => true
  | .f32 | .f64 | .s16 | .s32 | .s64 | .n8 | .n16 | .n32 | .n64 => false

/-- The first engine cause that R191's order gives for an mma's records, 0 for none. -/
def mmaCheck (a b : Rec) (m ks pl : Nat) (sc gather : Bool) : Nat :=
  if (a.layout = 2 && mmaFmt a.fmt && decide (a.planes < planeSig a.fmt)) ||
     (b.layout = 2 && mmaFmt b.fmt && decide (b.planes < planeSig b.fmt)) then cBADREC
  else if a.layout ≠ 2 || b.layout ≠ 2 || !mmaFmt a.fmt || !(b.fmt == a.fmt || (isF8 a.fmt && isF8 b.fmt)) ||
      decide (planeSig a.fmt < pl) || (sc && !(isF8 a.fmt && isF8 b.fmt)) then cBADFMT
  else if decide (a.cols < 32 * (ks + 1)) || decide (b.rows < 32 * (ks + 1)) || decide (b.cols < 256) ||
      (!gather && decide (a.rows < m)) then cBADSHAPE
  else 0

/-- Registers r to r + n − 1 as far as they exist, and whether the run leaves the register file. -/
def runOf (r : VR) (n : Nat) : List VR × Bool :=
  (((List.range n).map fun i => r.toNat + i).filter (· < 64) |>.map (BitVec.ofNat 6), decide (64 < r.toNat + n))

/-- The tile's poisoned rows would be read: the trap of R317, for every lane of the gang. -/
def tilePoisoned (s : State) (g : Group) (i : Nat) (rows : List Nat) : Bool :=
  rows.any (tileAt s g i).poison.contains

def execMma (a b : VR) (t : TR) (z : Bool) (mq : BitVec 4) (ks : BitVec 8) (p0 : BitVec 2) (pl : BitVec 5) (sc : Bool)
    (sa sb : VR) (s : State) : Result :=
  withGang s fun g _ =>
    let m := mmaM mq
    let (run, out) := if sc then runOf sa ((m + 2 * g.w - 1) / (2 * g.w)) else ([], false)
    let u : Use := { rd := [a, b] ++ run ++ (if sc then [sb] else []), uni := [a, b] ++ (if sc then [sb] else []), len := 2,
                     beyond := tileOver s g t || out }
    begin_ u s fun g p =>
      withRec u s g p a fun s g ra => withRec u s g p b fun s g rb =>
        match ra, rb with
        | some ra, some rb =>
          let c := mmaCheck ra rb m ks.toNat pl.toNat sc false
          if c ≠ 0 then trapOwn u s g p (p.trapRec c)
          else if p.active == 0 then finishUse u s g p
          else if !z && tilePoisoned s g (tileIdx s s.cur g t.toNat) (List.range m) then trapOwn u s g p (p.trapRec cPOISON)
          else
            let scA := (List.range m).map fun i =>
              let r : VR := BitVec.ofNat 6 (sa.toNat + i / (2 * g.w))
              BitVec.ofNat 32 ((g.val r (i % (2 * g.w) / 2)).toNat / 2 ^ (32 * (i % 2)))
            let sv := g.uval p sb
            let scB := [BitVec.ofNat 32 sv.toNat, BitVec.ofNat 32 (sv.toNat / 2 ^ 32)]
            issueMat u s g p (.mma ra rb (tileIdx s s.cur g t.toNat) z m ks.toNat (mmaP p0) pl.toNat
              (if sc then some (scA, scB) else none) none) none 1
        | _, _ => trapOwn u s g p (p.trapRec cBADREC)

/-- Read n more lines of a gather block through the record cache, in order. -/
def readLines (u : Use) (s : State) (g : Group) (p : Path) (va : Word) (body : State → Group → List Byte → Result) :
    Nat → List Byte → Result
  | 0, acc => body s g acc
  | n + 1, acc => readRecord u s g p (va + BitVec.ofNat 64 acc.length) fun s g l => readLines u s g p va body n (acc ++ l)

/-- A gather block of n lines, checked as a whole (R191), once the stage-1 entries it needs are here: the lowest line that faults or meets a stage-2 fault is read first,
and every absent Silo line is waited for at once. -/
def withBlock (u : Use) (s : State) (g : Group) (p : Path) (va : Word) (n : Nat) (body : State → Group → List Byte → Result) :
    Result :=
  let vas := (List.range n).map fun i => va + BitVec.ofNat 64 (64 * i)
  let x (v : Word) := translate s (coreOf s.cur) g.ten p.code.level .read (v.toNat % 2 ^ 56)
  let bad := (vas.find? fun v => (x v).askOf.isSome).orElse fun _ => (vas.find? fun v => (x v).isFault).orElse fun _ =>
    vas.find? fun v => (x v).isS2
  let absent := vas.filterMap fun v => match tget g.recs (v.toNat / 64), x v with
    | none, .ok y => (hereOf s y).filter (lineAbsent s)
    | _, _ => none
  if bits va.toNat 63 56 != 0 || va.toNat % 64 != 0 then readLines u s g p va body n []
  else match bad with
    | some v => readLines u s g p v body n []
    | none =>
      if absent.isEmpty then readLines u s g p va body n []
      else parkAgain u s g p (.line (absent.foldl (fun l pa => sadd l (pa / 64)) []))

/-- The M pairs of a gather block: source row and destination row. -/
def gatherPairs (m : Nat) (l : List Byte) : List (Nat × Nat) :=
  (List.range m).map fun i => (field l (2 * i) 2, field l (2 * (m + i)) 2)

def execMmag (a b : VR) (t : TR) (z : Bool) (mq : BitVec 4) (ks : BitVec 8) (p0 : BitVec 2) (pl : BitVec 5) (x : VR)
    (s : State) : Result :=
  withGang s fun g _ =>
    let m := mmaM mq
    let u : Use := { rd := [a, b, x], uni := [a, b, x], len := 2, beyond := tileOver s g t }
    begin_ u s fun g p =>
      withRec u s g p a fun s g ra => withRec u s g p b fun s g rb =>
        withBlock u s g p (g.uval p x) ((4 * m + 63) / 64) fun s g blk =>
          match ra, rb with
          | some ra, some rb =>
            let c := mmaCheck ra rb m ks.toNat pl.toNat false true
            let pairs := gatherPairs m blk
            if c ≠ 0 then trapOwn u s g p (p.trapRec c)
            else if pairs.any fun (r, d) => decide (ra.rows ≤ r) || !(decide (d < 128) || d == 0xFFFF) then
              trapOwn u s g p (p.trapRec cBADGATHER)
            else if p.active == 0 then finishUse u s g p
            else if !z && tilePoisoned s g (tileIdx s s.cur g t.toNat) (pairs.map (·.2)) then trapOwn u s g p (p.trapRec cPOISON)
            else issueMat u s g p (.mma ra rb (tileIdx s s.cur g t.toNat) z m ks.toNat (mmaP p0) pl.toNat none (some pairs)) none 1
          | _, _ => trapOwn u s g p (p.trapRec cBADREC)

/-! ### mms (R197, R198) -/

/-- Byte i of a register run, as the SRC values of R129. -/
def runByte (g : Group) (r : VR) (i : Nat) : Byte :=
  let reg : VR := BitVec.ofNat 6 (r.toNat + i / (8 * g.w))
  let o := i % (8 * g.w)
  BitVec.ofNat 8 ((g.val reg (o / 8)).toNat / 256 ^ (o % 8))

/-- Element e of s bytes of a run. -/
def runElem (g : Group) (r : VR) (size e : Nat) : Nat := leNat ((List.range size).map fun b => runByte g r (e * size + b))

/-- The product: the m × n words of C, row-major, and the flags. -/
def mmsMath (t : CT) (m n k : Nat) (a b c : Nat → Nat) : List Nat × BitVec 3 :=
  let el (i j : Nat) : Nat × BitVec 3 :=
    (List.range k).foldl (fun acc x =>
      let r := fmtF32.fma .rne (ctValue t (a (i * k + x))) (ctValue t (b (x * n + j))) (fmtF32.decode acc.1)
      (r.bits, acc.2 ||| mflags r)) (c (i * n + j), 0)
  let l := ((List.range m).map fun i => (List.range n).map fun j => el i j).flatten
  (l.map (·.1), l.foldl (fun f x => f ||| x.2) 0)

/-- R198's choice: cost t + ρ·E, then the lower t, then ARR. True for VEC. -/
def autoVec (s : State) (core : Nat) (g : Group) (ty m n k : Nat) : Bool :=
  let rho := if g.ratel == 0 then s.wb.rate.toNat else (clampRate (tcbOf s g.ten) g.ratel.toNat).toNat
  let (t0, e0) := costOf s core 0 ty m n k
  let (t1, e1) := costOf s core 1 ty m n k
  let c0 := t0 * 65536 + rho * e0
  let c1 := t1 * 65536 + rho * e1
  decide (c1 < c0) || (c1 == c0 && decide (t1 < t0))

def ctNum : CT → Nat
  | .f16 => 0 | .bf16 => 1 | .f32 => 2 | .f64 => 3 | .e4m3 => 4 | .e5m2 => 5 | .s4 => 6 | .s8 => 7 | .s16 => 8 | .s32 => 9
  | .s64 => 10 | .n8 => 11 | .n16 => 12 | .n32 => 13 | .n64 => 14

/-- Lanes of register i of C's run that hold its bytes. -/
def runLanes (w total i : Nat) : Mask := maskOf lanes64 fun l => decide (l < w) && decide (i * 8 * w + 8 * l < total)

/-- A register of a run with its bytes replaced; the other bytes of the last lane are kept. -/
def runWrite (g : Group) (sl : BitVec 16) (live : Mask) (d : Nat) (cc : CC) (bytes : List Byte) (i : Nat) : Group :=
  let r : VR := BitVec.ofNat 6 (d + i)
  let m := runLanes g.w bytes.length i &&& live
  let f := fun l => BitVec.ofNat 64 (leNat ((List.range 8).map fun b =>
    match bytes[i * 8 * g.w + 8 * l + b]? with
    | some x => x
    | none => BitVec.ofNat 8 (((g.reg r).src l).toNat / 256 ^ b)))
  (g.setReg r ((g.reg r).write g.w sl m false cc none f)).clearPoison r m

def runCount (w total : Nat) : Nat := (total + 8 * w - 1) / (8 * w)

def execMms (d a b : VR) (cc : CC) (eng : Eng) (fmt : CT) (m0 n0 k0 : BitVec 3) (s : State) : Result :=
  withGang s fun g _ =>
    let m := m0.toNat + 1
    let n := n0.toNat + 1
    let k := k0.toNat + 1
    let sz := CT.bytes fmt
    let (rd, od) := runOf d (runCount g.w (4 * m * n))
    let (ra, oa) := runOf a (runCount g.w (sz * m * k))
    let (rb, ob) := runOf b (runCount g.w (sz * k * n))
    let u : Use := { rd := rd ++ ra ++ rb, wr := rd, len := 2, beyond := od || oa || ob }
    begin_ u s fun g p =>
      let total := 4 * m * n
      let need := (List.range rd.length).foldl (fun x i => x ||| runLanes g.w total i) 0
      let g0 := released g p u
      let g1 := (List.range rd.length).foldl (fun g i => runWrite g p.slices p.active d.toNat cc (List.replicate total 0) i) g0
      withBudget u s g p g1 <|
      if need &&& ~~~p.active != 0 then trapOwn u s g p (p.trapRec cBADSHAPE)
      else
        let (l, fl) := mmsMath fmt m n k (runElem g a sz) (runElem g b sz) (runElem g d 4)
        let vec := match eng with | .arr => false | .vec => true | .auto => autoVec s (coreOf s.cur) g (ctNum fmt) m n k
        let kept := (List.range (total % 8)).map fun i => runByte g d (total + i)
        issueMat u s g p (.mms d.toNat ((l.map fun x => leBytes 4 x).flatten ++ kept) fl vec) (some (d, cc)) rd.length

/-! ### Tile instructions (R199) -/

def execMzero (t : TR) (s : State) : Result :=
  withGang s fun g _ =>
    let u : Use := { rd := [], len := 2, beyond := tileOver s g t }
    begin_ u s fun g p =>
      if p.active == 0 then finishUse u s g p else issueMat u s g p (.mzero (tileIdx s s.cur g t.toNat)) none 1

def mldaFmt : CT → Bool
  | .f32 | .bf16 | .f16 => true
  | .f64 | .e4m3 | .e5m2 | .s4 | .s8 | .s16 | .s32 | .s64 | .n8 | .n16 | .n32 | .n64 => false
def mstaFmt : CT → Bool
  | .f32 | .bf16 | .f16 | .e4m3 | .e5m2 => true
  | .f64 | .s4 | .s8 | .s16 | .s32 | .s64 | .n8 | .n16 | .n32 | .n64 => false

/-- mlda and msta: the record and its checks. -/
def tileMove (a : VR) (t : TR) (roff coff : Nat) (fmtOk : CT → Bool) (sat : Bool) (reads : Bool) (mk : Rec → Nat → OpKind)
    (s : State) : Result :=
  withGang s fun g _ =>
    let u : Use := { rd := [a], uni := [a], len := 2, beyond := tileOver s g t }
    begin_ u s fun g p =>
      withRec u s g p a fun s g r =>
        match r with
        | none => trapOwn u s g p (p.trapRec cBADREC)
        | some r =>
          if r.layout = 2 || !fmtOk r.fmt || (sat && r.fmt != .e4m3) then trapOwn u s g p (p.trapRec cBADFMT)
          else if 128 < roff + r.rows || 256 < coff + r.cols then trapOwn u s g p (p.trapRec cBADSHAPE)
          else if p.active == 0 then finishUse u s g p
          else if reads && tilePoisoned s g (tileIdx s s.cur g t.toNat) ((List.range r.rows).map (roff + ·)) then
            trapOwn u s g p (p.trapRec cPOISON)
          else issueMat u s g p (mk r (tileIdx s s.cur g t.toNat)) none 1

def execMlda (a : VR) (t : TR) (roff : BitVec 7) (coff : BitVec 8) (s : State) : Result :=
  tileMove a t roff.toNat coff.toNat mldaFmt false false (fun r i => .mlda r i roff.toNat coff.toNat) s
def execMsta (a : VR) (t : TR) (roff : BitVec 7) (coff : BitVec 8) (sat : Bool) (s : State) : Result :=
  tileMove a t roff.toNat coff.toNat mstaFmt sat true (fun r i => .msta r i roff.toNat coff.toNat sat) s

def execMrow (d : VR) (cc : CC) (t : TR) (row : BitVec 7) (col : BitVec 8) (s : State) : Result :=
  withGang s fun g _ =>
    let u : Use := { rd := [], wr := [d], len := 2, beyond := tileOver s g t }
    begin_ u s fun g p =>
      withBudget u s g p (g.setReg d ((g.reg d).write g.w p.slices p.active false cc none fun _ => 0)) <|
      if 256 < col.toNat + 2 * g.w then trapOwn u s g p (p.trapRec cBADSHAPE)
      else if p.active != 0 && tilePoisoned s g (tileIdx s s.cur g t.toNat) [row.toNat] then trapOwn u s g p (p.trapRec cPOISON)
      else issueMat u s g p (.mrow (tileIdx s s.cur g t.toNat) row.toNat col.toNat) (some (d, cc)) 1

/-- mfence closes the open batch (R190). -/
def execMfence (s : State) : Result :=
  let u : Use := { rd := [], len := 2 }
  begin_ u s fun g p =>
    if g.counterFull .x then stallWith s 4
    else
      let n := g.nbatch
      let join (o : POp) : POp := if o.cls == .mat && o.batch.isNone then { o with batch := some n } else o
      let rep (r : Report) : Report := if r.cls == .mat && r.batch.isNone then { r with batch := some n } else r
      let g := { g with ops := g.ops.map join, reports := g.reports.map rep, closed := g.closed ++ [n], nbatch := n + 1 }
      finish s g.settle p 2

/-! ### Completion of a matrix operation (R192, R193, R195) -/

def OpKind.tile : OpKind → Option Nat
  | .mma _ _ t _ _ _ _ _ _ _ => some t
  | .mzero t | .mlda _ t _ _ | .msta _ t _ _ _ | .mrow t _ _ => some t
  | _ => none

/-- The group's older operations on the tile, or on the registers of an mms, have completed (R193). -/
def matTurn (g : Group) (o : POp) : Bool :=
  match OpKind.tile o.kind with
  | some t => (olderOps g o).all fun q => q.done || OpKind.tile q.kind != some t
  | none => true

/-- A report of an engine error (R192). DESIGN CHOICE (log entry 11). -/
def engReport (o : POp) (cause code : Nat) (va : Nat) (pa : Option Nat) : Report :=
  ⟨o.id, cause, code, BitVec.ofNat 64 va, o.word, o.lanes, o.dest.map fun (d, _) => (d.toNat, o.nregs), o.flag, o.cls, o.batch, pa⟩

/-- Hold a report and stop the transfer until it has been taken; poison is passed on from then on. -/
def haltOp (s : State) (k : Nat) (g : Group) (o : POp) (r : Report) (pois : Bool) : State :=
  let g := { g.putOp { o with halted := true, okPoison := o.okPoison || pois } with reports := g.reports ++ [r] }
  putGroup s k g

/-- What a stopped engine access does to its operation: a report, a pause, or a wait, in which the operation goes on using
the translations of what it has sent. DESIGN CHOICE (log entry 22). -/
def engStop (e : Xfer) (k : Nat) (g : Group) (o : POp) : EStop → State
  | .fault c va => haltOp e.s k g o (engReport o cENGFAULT c va none) false
  | .poison va pa => haltOp e.s k g o (engReport o cENGFAULT (Config.engCode 0).toNat va pa) true
  | .tier va => haltOp e.s k g o (engReport o cENGFAULT (Config.engCode 1).toNat va none) false
  | .stage2 va => { e.s with s2faults := if e.s.s2faults.contains (k, 65536 + o.id, BitVec.ofNat 64 va) then e.s.s2faults
                              else e.s.s2faults ++ [(k, 65536 + o.id, BitVec.ofNat 64 va)] }
  | .wait => putGroup e.s k (g.putOp { o with pages := e.pages.foldl addPage o.pages })

def engWho (k : Nat) (g : Group) (o : POp) (silo : Bool) : EWho := ⟨k, g.ten, o.level, .op o.id, silo, o.okPoison⟩

/-- Mark a matrix operation complete. -/
def matDone (s : State) (k : Nat) (g : Group) (o : POp) : State := putGroup s k (g.putOp { o with done := true }).settle

/-- Rows of A that a product reads, with the tile rows they go to. -/
def mmaRows (m : Nat) (gather : Option (List (Nat × Nat))) : List (Nat × Nat) :=
  match gather with
  | some l => l.filter fun (_, d) => d < 128
  | none => (List.range m).map fun i => (i, i)

/-- The product into the tile. -/
def mmaTile (a b : Rec) (z : Bool) (ks p pl : Nat) (scales : Option (List (BitVec 32) × List (BitVec 32)))
    (rows : List (Nat × Nat)) (rd : Nat → Byte) (t : Tile) : Tile × BitVec 3 :=
  let t := if z then rows.foldl (fun t (_, d) => (List.range 256).foldl (fun t j => t.put d j 0) (t.clearRow d)) t else t
  let scale (i j : Nat) : Option (BitVec 32) := scales.map fun (sa, sb) =>
    BitVec.ofNat 32 (fmtF32.mul .rne (fmtF32.decode (sa.getD i 0).toNat) (fmtF32.decode (sb.getD (j / 128) 0).toNat)).bits
  let scaleInv (i j : Nat) : BitVec 3 := match scale i j with
    | some x => if (fmtF32.decode x.toNat).isNan then mINV else 0
    | none => 0
  rows.foldl (fun acc (i, d) =>
    (List.range 256).foldl (fun (acc : Tile × BitVec 3) j =>
      let prod (k : Nat) := prodNa (truncA a.fmt pl (a.elem rd i k)) (ctValue b.fmt (b.elem rd k j))
      let (v, fl) := dot ks p (scale i j) prod (acc.1.get d j)
      (acc.1.put d j v, acc.2 ||| fl ||| scaleInv i j)) acc) (t, 0)

/-- A matrix operation completes at its turn: its reads, its arithmetic and its writes. DEDUCED (log entry 88). A row that an
older operation has poisoned since mrow was issued is passed on to the lanes' marks. DESIGN CHOICE (log entry 85). -/
def completeMat (s : State) (k : Nat) (g : Group) (o : POp) : State :=
  match o.kind with
  | .mzero t => matDone (setTile s g t ⟨none, [], []⟩) k g o
  | .mrow t row col =>
    (match o.dest with
    | some (d, cc) =>
      let tl := tileAt s g t
      let m := o.lanes &&& g.live
      let v := fun l => BitVec.ofNat 64 ((tl.get row (col + 2 * l)).toNat + (tl.get row (col + 2 * l + 1)).toNat * 2 ^ 32)
      let g := g.setReg d ((g.reg d).write g.w (o.slices &&& slicesOf g.live) m false cc none v)
      matDone s k (if tilePoisoned s g t [row] then g.addPoison d m else g.clearPoison d m) o
    | none => matDone s k g o)
  | .mms d bytes fl _ =>
    (match o.dest with
    | some (_, cc) =>
      let g := (List.range o.nregs).foldl (fun g i => runWrite g (o.slices &&& slicesOf g.live) (o.lanes &&& g.live) d cc bytes i) g
      matDone s k { g with mstat := g.mstat ||| fl } o
    | none => matDone s k g o)
  | .mlda r t roff coff =>
    let w := engWho k g o false
    let ij := ((List.range r.rows).map fun i => (List.range r.cols).map fun j => (i, j)).flatten
    let e := (Xfer.start s).readAll w ((ij.map fun (i, j) => r.elemBytes i j).flatten)
    (match e.stop with
    | some x => engStop e k g o x
    | none =>
      let tl := ij.foldl (fun tl (i, j) =>
        tl.put (roff + i) (coff + j) (BitVec.ofNat 32 (toFloat fmtF32 false .rne (ctValue r.fmt (r.elem e.byte i j))).bits)) (tileAt s g t)
      let tl := (List.range r.rows).foldl (fun tl i => if e.poisonMet then { tl with poison := sadd tl.poison (roff + i) } else tl.clearRow (roff + i)) tl
      matDone (setTile (e.settle w) g t tl) k g o)
  | .msta r t roff coff sat =>
    let w := engWho k g o false
    let tl := tileAt s g t
    let el (i j : Nat) : Nat := match CT.kind r.fmt with
      | .flt f => (toFloat f sat .rne (fmtF32.decode (tl.get (roff + i) (coff + j)).toNat)).bits
      | .int _ _ => 0
    let bs := r.destBytes.map fun (va, x) => (va, r.destValue el 0 x)
    let (e, puts) := (Xfer.start s).places w bs
    let e := e.sendPuts w puts
    (match e.stop with
    | some x => engStop e k g o x
    | none =>
      let bad := tilePoisoned s g t ((List.range r.rows).map (roff + ·))
      matDone (e.settle w |> fun s => writePuts s w bad puts) k g o)
  | .mma a b t z m ks p pl scales gather =>
    let w := engWho k g o true
    let rows := mmaRows m gather
    let kk := 32 * (ks + 1)
    let pa := (rows.map fun (i, _) => (List.range kk).map fun c => a.elemPlanes pl i c).flatten
    let ra := (pa.map (·.1)).flatten
    let rb := ((List.range kk).map fun r => ((List.range 256).map fun c => b.elemBytes r c).flatten).flatten
    let e := (pa.map (·.2)).flatten.foldl (Xfer.peek w) ((Xfer.start s).readAll w (ra ++ rb))
    (match e.stop with
    | some x => engStop e k g o x
    | none =>
      let (tl, fl) := mmaTile a b z ks p pl scales rows e.byte (tileAt s g t)
      let tl := if e.poisonMet then rows.foldl (fun tl (_, d) => { tl with poison := sadd tl.poison d }) tl else tl
      let g := { g with mstat := g.mstat ||| fl }
      matDone (setTile (e.settle w) g t tl) k g o)
  | _ => s

end Sys2Proof.Machine
end

