-- ==== Sys2Proof/Machine/Copy.lean ====
section
/-! DEFINITION. The Streamer: copy and copyg at issue (R200 to R202), their transfer in 4 KiB units of the destination
(R192, R201, R263, R268, R320), and their completion. -/

namespace Sys2Proof.Machine

/-! ### Destinations -/

/-- The coordinates of element (i, j) in a view: (i·COLS + j), or (j, i) in a view of rank 2. -/
def copyCoord (v : ViewDesc) (cols i j : Nat) : Word :=
  if v.rank = 1 then BitVec.ofNat 64 (i * cols + j) else BitVec.ofNat 64 (j + i * 2 ^ 16)

/-- Every byte of a view destination, row by row. -/
def viewBytes (src : Rec) (v : ViewDesc) : List (Nat × DByte) :=
  ((List.range src.rows).map fun i => ((List.range src.cols).map fun j => (List.range (2 ^ v.esize)).map fun b =>
    ((viewAddr v (copyCoord v src.cols i j)).toNat + b, DByte.elem i j b)).flatten).flatten

/-- Every byte of the destination with its address, in the order of the transfer. -/
def copyBytes (src : Rec) : CopyDst → List (Nat × DByte)
  | .record r => r.destBytes
  | .view _ v => viewBytes src v.desc

/-- The record by which destination bytes are built. -/
def copyForm (src : Rec) : CopyDst → Rec
  | .record r => r
  | .view _ _ => src

/-- The 4 KiB units of a destination, in the order in which the transfer reaches them. DEDUCED (log entry 52). -/
def copyUnits (l : List (Nat × DByte)) : List Nat :=
  l.foldl (fun acc x => if acc.contains (x.1 / 4096) then acc else acc ++ [x.1 / 4096]) []

/-- The elements that a destination byte holds. -/
def destCoords (r : Rec) : DByte → List (Nat × Nat)
  | .elem i j _ => [(i, j)]
  | .pair i j =>
    let n := if r.layout = 1 then (i + 1, j) else (i, j + 1)
    if n.1 < r.rows && n.2 < r.cols then [(i, j), n] else [(i, j)]
  | .plane i _ b => ((List.range 8).map fun c => (i, 8 * b + c)).filter fun (_, c) => decide (c < r.cols)

/-- The home address of a byte that an engine would write, where one is known. -/
def destPa (s : State) (k ten : Nat) (lvl : Level) (va : Nat) : Option Nat :=
  match translate s (coreOf k) ten lvl .write (va % 2 ^ 56) with
  | .ok x => hereOf s x
  | .fault _ | .stage2 | .pte _ => none

/-- The Silo lines that destination bytes touch. -/
def destLines (s : State) (k ten : Nat) (lvl : Level) (l : List (Nat × DByte)) : List Nat :=
  l.foldl (fun acc x =>
    match destPa s k ten lvl x.1 with
    | some pa => if isSilo pa then sadd acc (pa / 64) else acc
    | none => acc) []

/-! ### Issue -/

/-- The group is the team's producer group (R26). -/
def isProducer (s : State) (g : Group) : Bool :=
  match kdescOf s g with
  | some k => k.producer == g.gid
  | none => true

/-- Formats that R216 lays out in planes. -/
def recFmtOk (r : Rec) : Bool := r.layout != 2 || (planeExp r.fmt).isSome

/-- Issue a transfer: the presence bits of the destination's Silo lines are cleared (R201). -/
def issueCopy (u : Use) (s : State) (g : Group) (p : Path) (sva dva : Word) (src : Rec) (dst : CopyDst) (list : Option Word)
    (sat : Bool) (rm : RM) : Result :=
  if g.counterFull .c then stallWith s 4
  else
    let lines := destLines s s.cur g.ten p.code.level (copyBytes src dst)
    let view := match dst with | .view w v => some (w, v) | .record _ => none
    let o := { newOp s g p .copy (.copy sva dva src dst list sat rm 0 lines) (setFlag hSetB p) with view := view }
    let g1 := released g p u
    let s := { s with serial := s.serial + 1, absent := lines.foldl sadd s.absent }
    finish s { g1 with ops := g1.ops ++ [o] } (joinFlag s g p 2 o.flag) 2

/-- copy between records. An empty EXEC meets the checks of the instruction as a whole, and nothing else (R35, R189;
DEDUCED, log entry 89). -/
def copyRecords (u : Use) (a b : VR) (x : Option VR) (sat : Bool) (rm : RM) (s : State) : Result :=
  begin_ u s fun g p =>
    withRec u s g p a fun s g ra => withRec u s g p b fun s g rb =>
      if !isProducer s g then trapOwn u s g p (p.trapRec cNOTPROD)
      else match ra, rb with
        | some ra, some rb =>
          if !recFmtOk ra || !recFmtOk rb || (sat && rb.fmt != .e4m3) then trapOwn u s g p (p.trapRec cBADFMT)
          else if ra.cols ≠ rb.cols || (x.isNone && ra.rows ≠ rb.rows) then trapOwn u s g p (p.trapRec cBADSHAPE)
          else if p.active == 0 then finishUse u s g p
          else issueCopy u s g p (g.uval p a) (g.uval p b) ra (.record rb) (x.map (g.uval p)) sat rm
        | _, _ => trapOwn u s g p (p.trapRec cBADREC)

/-- copy into a view. DEDUCED (log entry 89). -/
def copyToView (u : Use) (a : VR) (w : WR) (sat : Bool) (rm : RM) (s : State) : Result :=
  begin_ u s fun g p =>
    withRec u s g p a fun s g ra =>
      if !isProducer s g then trapOwn u s g p (p.trapRec cNOTPROD)
      else match ra, g.view w with
        | none, _ => trapOwn u s g p (p.trapRec cBADREC)
        | some ra, none =>
          if !recFmtOk ra || sat || rm != .rne || ra.fmt == .s4 then trapOwn u s g p (p.trapRec cBADFMT)
          else if p.active == 0 then finishUse u s g p
          else trapOwn u s g p (p.trapRec cVCLOSED)
        | some ra, some v =>
          let n := ra.rows * ra.cols
          let fits := (v.desc.rank == 1 && v.desc.ext.getD 0 0 == n) ||
            (v.desc.rank == 2 && v.desc.ext.getD 0 0 == ra.cols && v.desc.ext.getD 1 0 == ra.rows)
          if !recFmtOk ra || sat || rm != .rne || ra.fmt == .s4 || CT.bytes ra.fmt ≠ 2 ^ v.desc.esize then
            trapOwn u s g p (p.trapRec cBADFMT)
          else if !fits then trapOwn u s g p (p.trapRec cBADSHAPE)
          else if p.active == 0 then finishUse u s g p
          else if v.desc.mode == 1 then trapOwn u s g p (p.trapRec cVMODE)
          else issueCopy u s g p (g.uval p a) 0 ra (.view w.toNat v) none false .rne

/-- With DV the B field names a view register. -/
def execCopy (a b : VR) (dv sat : Bool) (rm : RM) (s : State) : Result :=
  if dv then copyToView { rd := [a], uni := [a], len := 2 } a (BitVec.ofNat 4 b.toNat) sat rm s
  else copyRecords { rd := [a, b], uni := [a, b], len := 2 } a b none sat rm s
def execCopyg (a b x : VR) (sat : Bool) (rm : RM) (s : State) : Result :=
  copyRecords { rd := [a, b, x], uni := [a, b, x], len := 2 } a b (some x) sat rm s

/-! ### One unit of a transfer -/

/-- The row list's entry for destination row i. -/
def listBytes (l : Word) (i : Nat) : List Nat := (List.range 4).map fun b => vaOf ((l.toNat + 4 * i + b : Nat) : Int)

/-- Whether source and destination bytes of a copy overlap: the part then promises no result (R200).
DESIGN CHOICE (log entry 14). -/
def copyOverlaps (s : State) (k ten : Nat) (lvl : Level) (src : Rec) (bytes : List (Nat × DByte)) : Bool :=
  let at_ (va : Nat) : Option Nat := match translate s (coreOf k) ten lvl .read (va % 2 ^ 56) with
    | .ok x => hereOf s x
    | .fault _ | .stage2 | .pte _ => none
  let from_ := ((List.range src.rows).map fun i => ((List.range src.cols).map fun j => src.elemBytes i j).flatten).flatten
  let sp := from_.filterMap at_
  bytes.any fun x => match destPa s k ten lvl x.1 with | some pa => sp.contains pa | none => false

/-- The progress of a transfer that has performed one more unit: lines that no later unit touches become present.
DEDUCED (log entry 52). -/
def nextUnitOf (s : State) (k : Nat) (g : Group) (o : POp) : State :=
  match o.kind with
  | .copy sva dva src dst list sat rm n lines =>
    let bytes := copyBytes src dst
    let later := (copyUnits bytes).drop (n + 1)
    let left := destLines s k g.ten o.level (bytes.filter fun x => later.contains (x.1 / 4096))
    let ready := lines.filter fun l => !left.contains l
    let o := { o with kind := .copy sva dva src dst list sat rm (n + 1) (lines.filter left.contains), pages := [] }
    putGroup { s with absent := s.absent.filter fun l => !ready.contains l } k (g.putOp o)
  | _ => s

/-- The destination bytes of a unit that lie before a bad row entry, all of them where there is none. -/
def goodBytes (r : Rec) (bad : Option Nat) (l : List (Nat × DByte)) : List (Nat × DByte) :=
  match bad with
  | some i => l.filter fun x => (x.2.rows r.layout).all fun j => decide (j < i)
  | none => l

/-- Perform the next unit of a copy, or stop at what it meets. DESIGN CHOICE (log entry 14). DEDUCED (log entry 48). -/
def copyUnit (s : State) (k : Nat) (g : Group) (o : POp) : State :=
  match o.kind with
  | .copy _ _ src dst list sat rm n _ =>
    let bytes := copyBytes src dst
    let form := copyForm src dst
    match (copyUnits bytes)[n]? with
    | none => s
    | some unit =>
      if !o.granted s k then s
      else
        let w := engWho k g o false
        let mine := bytes.filter fun x => x.1 / 4096 = unit
        let rows := (mine.map fun x => (destCoords form x.2).map (·.1)).flatten.foldl sadd []
        let e := match list with
          | some l => (Xfer.start s).readAll w (rows.map (listBytes l)).flatten
          | none => Xfer.start s
        let rowOf (i : Nat) : Nat := match list with
          | some l => leNat ((listBytes l i).map e.byte)
          | none => i
        let bad := if list.isSome && e.stop.isNone then rows.find? fun i => decide (src.rows ≤ rowOf i) else none
        let good := goodBytes form bad mine
        let coords := (good.map fun x => destCoords form x.2).flatten
        let tails := (good.filter fun x => (match x.2 with
          | .pair _ _ => decide ((destCoords form x.2).length = 1)
          | .elem _ _ _ | .plane _ _ _ => false) && (destPa s k g.ten o.level x.1).isNone).map (·.1)
        let e := e.readAll w ((coords.map fun c => src.elemBytes (rowOf c.1) c.2).flatten ++ tails)
        let el (i j : Nat) : Nat := (cvtFn sat rm form.fmt src.fmt (BitVec.ofNat 64 (src.elem e.byte (rowOf i) j))).1.toNat
        let old (va : Nat) : Byte := match destPa s k g.ten o.level va with
          | some pa => readByte s g.ten pa
          | none => e.byte va
        let clash := copyOverlaps s k g.ten o.level src bytes
        let vals := good.map fun x =>
          (x.1, if clash then Config.freeByte s.free x.1 else form.destValue el (old x.1) x.2)
        let (e, puts) := e.places w vals
        let e := e.sendPuts w puts
        match e.stop with
        | some x => engStop e k g o x
        | none =>
          let s := writePuts (e.settle w) w e.poisonMet puts
          let s := { s with free := s.free + 1 }
          match bad with
          | some i => haltOp s k g o (engReport o cBADGATHER 0 (match list with | some l => vaOf ((l.toNat : Int) + 4 * i) | none => 0) none) false
          | none => nextUnitOf s k g o
  | _ => s

/-- The pending copy of a group with an identity, when it is not stopped. -/
def liveCopy (s : State) (k id : Nat) : Option (Group × POp) :=
  match tget s.groups k with
  | some g =>
    (match g.op id with
    | some o => if o.cls == .copy && !o.done && !o.halted then some (g, o) else none
    | none => none)
  | none => none

/-- One unit of a pending copy, when it can be performed. DEDUCED (log entry 52). -/
def copyOne (s : State) (k id : Nat) : State :=
  match liveCopy s k id with
  | some (g, o) => copyUnit s k g o
  | none => s

/-- Perform units until the transfer is done or stops. -/
def copyMany (k id : Nat) : Nat → State → State
  | 0, s => s
  | n + 1, s => copyMany k id n (copyOne s k id)

/-- Units that a copy has still to perform. -/
def unitsLeft (o : POp) : Nat :=
  match o.kind with
  | .copy _ _ src dst _ _ _ n _ => (copyUnits (copyBytes src dst)).length - n
  | _ => 0

/-- Copies of a group complete in issue order (R201). -/
def copyTurn (g : Group) (o : POp) : Bool := (olderOps g o).all fun q => q.done || q.cls != .copy

/-- COPY_COMPLETE: the rest of the transfer, and the end of the operation. -/
def execCopyComplete (k id : Nat) (s : State) : Result :=
  match liveCopy s k id with
  | none => .next s
  | some (g, o) =>
    if !copyTurn g o then .next s
    else
      let s := copyMany k id (unitsLeft o) s
      match liveCopy s k id with
      | some (g, o) =>
        if unitsLeft o = 0 then .next (reap (putGroup s k (g.putOp { o with done := true }).settle) k)
        else .next s
      | none => .next s

end Sys2Proof.Machine
end

