-- ==== Sys2Proof/Machine/Coll.lean ====
section
/-! DEFINITION. The collective port: ccol at issue (R203), the matching of calls and their results (R204), and the chunks
and aborts of R321. -/

namespace Sys2Proof.Machine

/-! ### Descriptors and checks -/

/-- A collective descriptor, none for a field outside its range (BADCOLL). -/
def parseColl (bcast : Bool) (l : List Byte) : Option CollDesc :=
  let n := field l 8 4
  let r := field l 12 4
  let root := field l 16 4
  if 1 ≤ n && n ≤ 524288 && r < n && (if bcast then decide (root < n) else root == 0) && zeroAt l 20 44 then
    some ⟨BitVec.ofNat 64 (field l 0 8), n, r, root⟩
  else none

def CollOp.isBcast : CollOp → Bool
  | .bcast => true
  | .allreduce _ | .redscat _ | .allgather | .alltoall => false

/-- Formats of a reduction, or of a movement (R203). -/
def collFmt (o : CollOp) (t : CT) : Bool :=
  match o with
  | .allreduce _ | .redscat _ =>
    (match t with
    | .f32 | .bf16 | .f16 | .s32 | .s64 | .n32 | .n64 => true
    | .f64 | .e4m3 | .e5m2 | .s4 | .s8 | .s16 | .n8 | .n16 => false)
  | .allgather | .bcast | .alltoall => true

/-- The shapes of R203. -/
def collShape (o : CollOp) (n : Nat) (a t : Rec) : Bool :=
  a.cols == t.cols &&
    (match o with
    | .allreduce _ | .bcast => t.rows == a.rows
    | .redscat _ => a.rows == n * t.rows
    | .allgather => t.rows == n * a.rows
    | .alltoall => a.rows == t.rows && a.rows % n == 0)

/-- Calls that a rank has made on a communicator: the number of the next one. -/
def callSeq (s : State) (ten : Nat) (cid : Word) (rank : Nat) : Nat :=
  (s.calls.filter fun c => c.ten == ten && c.cid == cid && c.rank == rank).length

/-- Issue a collective of a gang, with its place among the rank's calls. -/
def issueColl (u : Use) (s : State) (g : Group) (p : Path) (o : CollOp) (c : CollDesc) (a t : Rec) : Result :=
  if g.counterFull .l then stallWith s 4
  else
    let seq := callSeq s g.ten c.cid c.rank
    let call : Call := ⟨g.ten, c.cid, seq, c.rank, c.nrank, o, c.root, a.fmt, a.rows, a.cols, t.rows, [], false, false⟩
    let op := newOp s g p .coll (.ccol o c a t seq) (setFlag hSetB p)
    let g1 := released g p u
    let s := markEffects { s with serial := s.serial + 1, calls := s.calls ++ [call] } g
    finish s { g1 with ops := g1.ops ++ [op] } (joinFlag s g p 2 op.flag) 2

/-- The ccol row: the descriptor and the two records, then the checks of R191 and R203 in order. -/
def collective (o : CollOp) (a b d : VR) (s : State) : Result :=
  let u : Use := { rd := [a, b, d], uni := [a, b, d], len := 2 }
  begin_ u s fun g p =>
    readRecord u s g p (g.uval p a) fun s g l => withRec u s g p b fun s g ra => withRec u s g p d fun s g rb =>
      match parseColl o.isBcast l, ra, rb with
      | none, _, _ => trapOwn u s g p (p.trapRec cBADCOLL)
      | some c, some ra, some rb =>
        if ra.layout = 2 || rb.layout = 2 || ra.fmt != rb.fmt || !collFmt o ra.fmt then trapOwn u s g p (p.trapRec cBADFMT)
        else if !collShape o c.nrank ra rb then trapOwn u s g p (p.trapRec cBADSHAPE)
        else if !s.comms.contains (g.ten, c.cid, c.nrank) then trapOwn u s g p (p.trapRec cBADCOLL)
        else if p.active == 0 then finishUse u s g p
        else issueColl u s g p o c ra rb
      | some _, _, _ => trapOwn u s g p (p.trapRec cBADREC)

def execCcolAllreduce (a b d : VR) (red : Red) (s : State) : Result := collective (.allreduce red) a b d s
def execCcolRedscat (a b d : VR) (red : Red) (s : State) : Result := collective (.redscat red) a b d s
def execCcolAllgather (a b d : VR) (s : State) : Result := collective .allgather a b d s
def execCcolBcast (a b d : VR) (s : State) : Result := collective .bcast a b d s
def execCcolAlltoall (a b d : VR) (s : State) : Result := collective .alltoall a b d s

/-! ### Results (R204) -/

/-- x := RED(x, v) on encodings of a format. DEDUCED (log entry 50). -/
def redFn (r : Red) (t : CT) (x v : Nat) : Nat :=
  match CT.kind t with
  | .flt f =>
    (match r with
    | .add => (f.add .rne (f.decode x) (f.decode v)).bits
    | .min => (f.minmax false false x v).bits
    | .max => (f.minmax true false x v).bits)
  | .int w sg =>
    let less := if sg then decide (sval w v < sval w x) else decide (v < x)
    (match r with
    | .add => (x + v) % 2 ^ w
    | .min => if less then v else x
    | .max => if less then x else (if v = x then x else v))

def Call.el (c : Call) (i j : Nat) : Nat := ((tget c.elems (i * c.scols + j)).getD 0).toNat
def Call.full (c : Call) : Bool := c.elems.length == c.srows * c.scols

/-- Element (i, j) of the destination of rank r, from the calls of all ranks in rank order. DEDUCED (log entry 50). -/
def collResult (o : CollOp) (t : CT) (n root r drows : Nat) (calls : List Call) (i j : Nat) : Nat :=
  let from_ (q : Nat) (row : Nat) : Nat := match calls[q]? with | some c => c.el row j | none => 0
  let reduce (red : Red) (row : Nat) : Nat :=
    let first := match CT.kind t with
      | .flt f => if (f.decode (from_ 0 row)).isNan then f.nan else from_ 0 row
      | .int _ _ => from_ 0 row
    (List.range (n - 1)).foldl (fun x q => redFn red t x (from_ (q + 1) row)) first
  match o with
  | .allreduce red => reduce red i
  | .redscat red => reduce red (r * drows + i)
  | .allgather => let b := drows / n
                  from_ (i / b) (i % b)
  | .bcast => from_ root i
  | .alltoall => let b := drows / n
                 from_ (i / b) (r * b + i % b)

/-! ### Chunks -/

def redNum : Red → Nat | .add => 0 | .min => 1 | .max => 2
def redOf : Nat → Red | 1 => .min | 2 => .max | _ => .add
def collNums : CollOp → Nat × Nat
  | .allreduce r => (0, redNum r) | .redscat r => (1, redNum r) | .allgather => (2, 0) | .bcast => (3, 0) | .alltoall => (4, 0)
def collOf (o r : Nat) : CollOp :=
  match o with
  | 0 => .allreduce (redOf r) | 1 => .redscat (redOf r) | 2 => .allgather | 3 => .bcast | _ => .alltoall

/-- Elements that one message carries. -/
def chunkLen : Nat := 504

/-- The message with the elements of a call from number `at_` on. The payload's layout is the model's own.
DESIGN CHOICE (log entry 34). -/
def chunkFrame (s : State) (c : Call) (at_ : Nat) : Frame :=
  let els := (c.elems.drop at_).take chunkLen
  let (o, r) := collNums c.o
  let head := leBytes 1 o ++ leBytes 1 r ++ leBytes 1 (ctNum c.fmt) ++ leBytes 1 ((if c.failed then 1 else 0) + (if c.poisoned then 2 else 0)) ++
    leBytes 4 c.seq ++ leBytes 4 c.rank ++ leBytes 4 c.nrank ++ leBytes 4 c.root ++ leBytes 4 c.srows ++ leBytes 4 c.scols ++
    leBytes 4 c.drows ++ leBytes 8 at_ ++ leBytes 4 els.length ++ List.replicate 20 0
  let body := (els.map fun x => leBytes 8 x.2.toNat).flatten
  ⟨7, BitVec.ofNat 8 c.ten, 0, 12, 0, 0, c.cid, 0, head ++ body ++ List.replicate (4032 - body.length) 0, s.domidx.toNat, 0, true⟩

/-- Every chunk of a call. -/
def chunkFrames (s : State) (c : Call) : List Out :=
  (List.range ((c.elems.length + chunkLen - 1) / chunkLen)).map fun i => .coll c.cid c.rank (chunkFrame s c (i * chunkLen))

/-- The call that a chunk belongs to, with the elements it brings. -/
def chunkCall (ten : Nat) (cid : Word) (l : List Byte) : Call where
  ten := ten
  cid := cid
  seq := field l 4 4
  rank := field l 8 4
  nrank := field l 12 4
  o := collOf (field l 0 1) (field l 1 1)
  root := field l 16 4
  fmt := (ctOf (field l 2 1)).getD .n8
  srows := field l 20 4
  scols := field l 24 4
  drows := field l 28 4
  elems := (List.range (min chunkLen (field l 40 4))).map fun i => (field l 32 8 + i, BitVec.ofNat 64 (field l (64 + 8 * i) 8))
  poisoned := field l 3 1 / 2 % 2 == 1
  failed := field l 3 1 % 2 == 1

def sameCall (a b : Call) : Bool := a.ten == b.ten && a.cid == b.cid && a.seq == b.seq && a.rank == b.rank

/-- Data of another part's rank arrives: an abort, or elements of its call. -/
def takeChunk (s : State) (c : Call) : State :=
  if c.failed then failCalls s c.ten c.cid
  else if s.calls.any (sameCall c) then
    { s with calls := s.calls.map fun k =>
        if sameCall c k then { k with elems := c.elems.foldl (fun t x => tput t x.1 x.2) k.elems, poisoned := k.poisoned || c.poisoned }
        else k }
  else { s with calls := s.calls ++ [c] }

/-! ### Completion -/

/-- The call of rank r that matches call number seq. -/
def callAt (s : State) (ten : Nat) (cid : Word) (seq r : Nat) : Option Call :=
  s.calls.find? fun c => c.ten == ten && c.cid == cid && c.seq == seq && c.rank == r

/-- Two matched calls differ, or one was aborted (R204, R321). -/
def callClash (a b : Call) : Bool :=
  b.failed || a.o != b.o || a.fmt != b.fmt || a.srows != b.srows || a.scols != b.scols || a.drows != b.drows || a.nrank != b.nrank

/-- A rank whose call differs from another's before its chunks have been sent still sends its call, with no elements, so that the
ranks on other parts find the mismatch too (R204). DEDUCED (log entry 50). -/
def sendCall (s : State) (mine : Call) : State :=
  if mine.full || mine.failed || mine.nrank = 1 then s
  else { s with outbox := s.outbox ++ [.coll mine.cid mine.rank (chunkFrame s mine 0)] }

/-- A mismatch ends the operation with its report. -/
def failColl (s : State) (k : Nat) (g : Group) (o : POp) : State :=
  let g := { g.putOp { o with done := true } with reports := g.reports ++ [engReport o cBADCOLL 0 0 none] }
  reap (putGroup s k g.settle) k

/-- The rank's source elements are read and sent. -/
def readSource (s : State) (k : Nat) (g : Group) (o : POp) (mine : Call) (src : Rec) : State × Bool :=
  let w := engWho k g o false
  let ij := ((List.range src.rows).map fun i => (List.range src.cols).map fun j => (i, j)).flatten
  let e := (Xfer.start s).readAll w ((ij.map fun c => src.elemBytes c.1 c.2).flatten)
  match e.stop with
  | some x => (engStop e k g o x, false)
  | none =>
    let els := ij.map fun c => (c.1 * src.cols + c.2, BitVec.ofNat 64 (src.elem e.byte c.1 c.2))
    let c := { mine with elems := els, poisoned := e.poisonMet }
    let s := e.settle w
    let s := { s with calls := s.calls.map fun q => if sameCall mine q then c else q }
    (if mine.nrank = 1 then s else { s with outbox := s.outbox ++ chunkFrames s c }, true)

/-- Write the result, once every rank's elements are here. -/
def writeResult (s : State) (k : Nat) (g : Group) (o : POp) (co : CollOp) (c : CollDesc) (dst : Rec) (calls : List Call) : State :=
  let w := engWho k g o false
  let el := collResult co dst.fmt c.nrank c.root c.rank dst.rows calls
  let old (va : Nat) : Byte := match destPa s k g.ten o.level va with
    | some pa => readByte s g.ten pa
    | none => Config.freeByte s.free va
  let (e, puts) := (Xfer.start s).places w (dst.destBytes.map fun x => (x.1, dst.destValue el (old x.1) x.2))
  let e := e.sendPuts w puts
  match e.stop with
  | some x => engStop e k g o x
  | none =>
    let s := writePuts (e.settle w) w (calls.any (·.poisoned)) puts
    reap (putGroup s k (g.putOp { o with done := true }).settle) k

/-- CCOL_COMPLETE: the rank reads its source, then waits for every rank, then holds the result. -/
def ccolStep (s : State) (k : Nat) (g : Group) (o : POp) (co : CollOp) (c : CollDesc) (src dst : Rec) (seq : Nat) : State :=
  match callAt s g.ten c.cid seq c.rank with
  | none => s
  | some mine =>
    let here := (List.range c.nrank).filterMap (callAt s g.ten c.cid seq)
    if mine.failed || here.any (callClash mine) then failColl (sendCall s mine) k g o
    else
      let (s, ok) := if mine.full then (s, true) else readSource s k g o mine src
      let calls := (List.range c.nrank).filterMap (callAt s g.ten c.cid seq)
      if ok && calls.length == c.nrank && calls.all Call.full then writeResult s k g o co c dst calls else s

def execCcolComplete (k id : Nat) (s : State) : Result :=
  match tget s.groups k with
  | none => .next s
  | some g =>
    match g.op id with
    | none => .next s
    | some o =>
      if o.done || o.halted then .next s
      else
        match o.kind with
        | .ccol co c src dst seq => .next (ccolStep s k g o co c src dst seq)
        | _ => .next s

/-- A ccol of a communicator, rank and sequence number that is still pending here, in a resident or a saved team: the port keeps its chunks (R321). -/
def collPending (s : State) (ten : Nat) (cid : Word) (seq rank : Nat) : Bool :=
  (s.groups.map (·.2) ++ (s.teams.map fun x => x.2.saved).flatten).any fun g => g.ten == ten && g.ops.any fun o => !o.done && (match o.kind with
    | .ccol _ c _ _ n => c.cid == cid && c.rank == rank && n == seq
    | _ => false)

/-- CCOL_CHUNK_RESEND: a chunk of a pending call was lost on a port and is sent again over any live one, logged as replayed
(R315, R321): the communicator, the call, and the element at which the chunk starts. -/
def execCcolChunkResend (ten : Nat) (cid : Word) (seq rank at_ port : Nat) (s : State) : Result :=
  match callAt s ten cid seq rank with
  | some c =>
    if collPending s ten cid seq rank && c.full && !c.failed && at_ % chunkLen = 0 && at_ < c.elems.length then
      .next (logError { s with outbox := s.outbox ++ [.coll c.cid c.rank (chunkFrame s c at_)] } 3 6 port ten 3 0 0)
    else .next s
  | none => .next s

end Sys2Proof.Machine
end

