-- ==== Sys2Proof/Machine/View.lean ====
section
/-! DEFINITION. View instructions and the Trellis (R205 to R207, R266 to R268, R294). -/

namespace Sys2Proof.Machine

/-! ### Shards -/

/-- The homes of the page at a VA, as a core's die translates it (R267): none stands for every home. -/
def pageHomes (s : State) (core ten va : Nat) : Option (List Nat) :=
  let w := lookup s core ten va
  if w.code != 0 || w.s2 then none
  else match herePa s (w.x.pa + (va - w.base)) with
    | none => some []
    | some pa => (homeNum pa).map fun h => [h]

/-- The homes of n pages from a page number on, with the TLB that the walks leave (R305). -/
def boxHomes (core ten : Nat) : Nat → Nat → State × List Nat → State × List Nat
  | _, 0, acc => acc
  | pg, n + 1, (s, acc) =>
    if acc.length = 72 then (s, acc)
    else
      let va := pg * 4096 % 2 ^ 56
      let s := tlbFill s core ten va
      match pageHomes s core ten va with
      | none => (s, List.range 72)
      | some l => boxHomes core ten (pg + 1) n (s, l.foldl sadd acc)

/-- The homes of a view's box. -/
def viewHomes (s : State) (core ten : Nat) (v : ViewDesc) : State × List Nat :=
  let (lo, hi) := viewBox v
  boxHomes core ten (vaOf lo / 4096) ((hi / 4096 - lo / 4096).toNat + 1) (s, [])

/-- Entries in use at the shard of a home; a shard holds 2,048. -/
def shardUsed (s : State) (h : Nat) : Nat := (s.trellis.filter fun r => r.homes.contains h).length

/-- The parked vopens, with their homes and order. -/
def parkedOpens (s : State) : List (List Nat × Nat) :=
  (s.groups.map fun (_, g) => g.paths.toList.filterMap fun p =>
    match p with
    | some q => (match q.park with | some (.vopen homes order _ _) => some (homes, order) | _ => none)
    | none => none).flatten

/-- Every shard of a list has a free entry for a vopen that parked at `order`: one that an earlier parked vopen waits for has
none (R294). -/
def shardsFree (s : State) (homes : List Nat) (order : Nat) : Bool :=
  homes.all fun h => decide (shardUsed s h < 2048) && !(parkedOpens s).any fun (l, n) => l.contains h && decide (n < order)

/-! ### vopen and vretire (R205, R206) -/

/-- A group by a number that no later group has; the front end is 0. -/
def ticketId (g : Group) : Nat := g.team * 64 + g.gid + 1

/-- Register the view of a group and open its register. DEDUCED (log entry 51). -/
def registerView (u : Use) (s : State) (g : Group) (p : Path) (w : WR) (d : ViewDesc) (homes : List Nat) : Result :=
  let t : Ticket := ⟨s.time, coreOf s.cur, slotOf s.cur⟩
  let r : Reg := ⟨t, d, homes, some s.cur, g.team, g.ten, w.toNat⟩
  let s := dropReadCache { s with trellis := s.trellis ++ [r], lastTicket := some (s.time, ticketId g) } (coreOf s.cur)
  finishUse u s (g.setView w (some ⟨d, t, homes⟩)) p

/-- Another group has taken a ticket in this ns, its view retired or not: a vopen waits until TIME exceeds it, so that a
vopen that happens before this one has the older ticket (R281). DEDUCED (log entry 82). -/
def ticketTaken (s : State) (g : Group) : Bool :=
  match s.lastTicket with
  | some (t, k) => k != ticketId g && decide (s.time ≤ t)
  | none => false

/-- vopen, with its place in the order of parks when it executes again: it was issued before any ticket that has been taken since it
parked, so that no vopen of those happens before it. DEDUCED (log entry 82). -/
def openView (w : WR) (a : VR) (order : Option Nat) (s : State) : Result :=
  let u : Use := { rd := [a], uni := [a], len := 2 }
  begin_ u s fun g p =>
    if (g.view w).isSome then trapOwn u s g p (p.trapRec cVBUSY)
    else if p.active != 0 && order.isNone && ticketTaken s g then stallWith s 5
    else readRecord u s g p (g.uval p a) fun s g l =>
      match parseView l with
      | none => trapOwn u s g p (p.trapRec cBADVIEW)
      | some d =>
        if p.active == 0 then finishUse u s g p else
        let (s, homes) := viewHomes s (coreOf s.cur) g.ten d
        let n := order.getD s.serial
        if shardsFree s homes n then registerView u s g p w d homes
        else parkAgain u { s with serial := s.serial + 1 } g p (.vopen homes n w a)

def execVopen (w : WR) (a : VR) (s : State) : Result := openView w a none s

/-- Operations of the group through a view register that have not completed. -/
def viewBusy (g : Group) (w : Nat) : Bool :=
  g.ops.any fun o => !o.done && (match o.view with | some (v, _) => v == w | none => false)

def execVretire (w : WR) (s : State) : Result :=
  let u : Use := { rd := [], len := 2 }
  begin_ u s fun g p =>
    if p.active == 0 then finishUse u s g p
    else if (g.view w).isNone then trapOwn u s g p (p.trapRec cVCLOSED)
    else if viewBusy g w.toNat then stallWith s 5
    else
      let k := s.cur
      finishUse u (retireRelease s fun r => r.group == some k && r.wreg == w.toNat) (g.setView w none) p

/-! ### vinfo and vaddr (R207) -/

/-- Field of an open view. -/
def viewField (v : OpenView) (f : Nat) : Word :=
  let d := v.desc
  let s32 (i : Nat) : Nat := (BitVec.ofInt 32 (d.str.getD i 0)).toNat
  match f with
  | 0 => d.base
  | 1 => BitVec.ofNat 64 (d.esize + d.rank * 2 ^ 8 + d.mode * 2 ^ 16)
  | 2 => BitVec.ofNat 64 (d.ext.getD 0 0 + d.ext.getD 1 0 * 2 ^ 16 + d.ext.getD 2 0 * 2 ^ 32 + d.ext.getD 3 0 * 2 ^ 48)
  | 3 => BitVec.ofNat 64 (s32 0 + s32 1 * 2 ^ 32)
  | 4 => BitVec.ofNat 64 (s32 2 + s32 3 * 2 ^ 32)
  | 5 => BitVec.ofNat 64 v.ticket.time
  | 6 => BitVec.ofNat 64 (v.ticket.gslot + v.ticket.core * 2 ^ 8)
  | _ => 1

def execVinfo (d : VR) (w : WR) (cc : CC) (fld : BitVec 3) (s : State) : Result :=
  let u : Use := { rd := [], wr := [d], len := 2 }
  begin_ u s fun g p =>
    if p.active == 0 then finishUse u s g p
    else withBudget u s g p (g.writeReg s.path p d cc (some (.uni 0)) fun _ => 0) <|
    match g.view w with
      | some v => let x := viewField v fld.toNat
                  writeReg u d cc s g p (some (.uni x)) fun _ => x
      | none =>
        if fld == 7 then writeReg u d cc s g p (some (.uni 0)) fun _ => 0
        else trapOwn u s g p (p.trapRec cVCLOSED)

/-- U when A is U. -/
def execVaddr (d a : VR) (w : WR) (cc : CC) (s : State) : Result :=
  let u : Use := { rd := [a], wr := [d], len := 2, lanewise := true }
  begin_ u s fun g p =>
    let ea (v : Option OpenView) (x : Word) : Word := match v with | some v => viewAddr v.desc x | none => 0
    let sh (v : Option OpenView) : Option Shape := uni1 (ea v) (g.shp p a)
    let g0 := released g p u
    withBudget u s g p (g0.writeReg s.path p d cc (sh (g.view w)) fun _ => 0) <| withView u w 0 a none s g p fun v => writeReg u d cc s g p (sh v) fun l => ea v (g.val a l)

/-! ### Events -/

/-- TRELLIS_GRANT: the accesses, or the next unit, of an operation through a view are granted and perform (R268). -/
def execTrellisGrant (k id : Nat) (s : State) : Result :=
  match tget s.groups k with
  | none => .next s
  | some g =>
    match g.op id with
    | none => .next s
    | some o =>
      match o.view with
      | none => .next s
      | some (_, v) =>
        if o.done || o.halted || !granted s k v then .next s
        else if o.cls == .copy then .next (copyOne s k id)
        else
          let r := performAll s k g o [] o.accs
          .next (putGroup r.1 k (g.putOp { o with accs := r.2 }))

/-- VOPEN_REEXECUTE: a parked vopen executes again once every shard holds an entry for it (R294).
DESIGN CHOICE (log entry 21). DEDUCED (log entry 82). -/
def execVopenReexecute (k pi : Nat) (s : State) : Result :=
  match tget s.groups k with
  | none => .next s
  | some g =>
    match g.path pi with
    | none => .next s
    | some p =>
      match p.park with
      | some (.vopen homes order w a) =>
        if !shardsFree s homes order || p.latched || p.stop == .stopped then .next s
        else
          let g := g.setPath pi (some { p with park := none })
          openView w a (some order) { putGroup s k g with cur := k, path := pi }
      | _ => .next s

end Sys2Proof.Machine
end

