-- ==== Sys2Proof/Machine/Fe.lean ====
section
/-! DEFINITION. Accesses that the part makes for a tenancy outside any group: by the queue front end, the Gleaner and the
firmware agents (R36, R44, R46, R208 to R210). They translate in the tenancy's two stages at its supervisor level. A read
or an atomic on another part waits for its answer (R340), and a stage-2 fault is posted to the firmware agent and waits for
its release (R304). -/

namespace Sys2Proof.Machine

/-- The number of the front end where cores are named (R266). -/
def feCore : Nat := 64

/-- What the front end finds at an address: a translation, a fault, or a reason to wait. -/
inductive FeAt where
  | ok (x : Xlate)
  | bad
  /-- a stage-2 fault, until the agent releases it -/
  | stage2
  /-- a page that is being moved (R264), for a write -/
  | held
  /-- a stage-1 entry on another part, which has to be read first -/
  | pte (pa : Nat)
  deriving DecidableEq, Repr

/-- The posted stage-2 fault of a front-end access: it stands under the tenancy and the page. DEDUCED (log entry 54). -/
def feFault (ten va : Nat) : Nat × Nat × Word := (4096 + ten, va / 4096, BitVec.ofNat 64 va)

def feAt (s : State) (ten : Nat) (need : Need) (va : Nat) : FeAt :=
  if va / 2 ^ 56 != 0 then .bad
  else if s.s2faults.any fun f => f.1 == 4096 + ten && f.2.1 == va / 4096 then .stage2
  else match translate s feCore ten .supervisor need va with
    | .ok x => if x.mp && (need == .write || need == .atomic) then .held else .ok x
    | .fault _ => .bad
    | .stage2 => .stage2
    | .pte pa => .pte pa

/-- The local PA of an access by the front end, none where it cannot be made here. -/
def fePa (s : State) (ten : Nat) (need : Need) (va : Nat) : Option (Nat × Xlate) :=
  match feAt s ten need va with
  | .ok x => (hereOf s x).map fun pa => (pa, x)
  | .bad | .stage2 | .held | .pte _ => none

/-- An access of the front end: what it gave, a translation fault or poison, or that it has to wait. -/
inductive Got (α : Type) where
  | ok (a : α)
  | bad
  | wait
  deriving DecidableEq, Repr

def Got.isWait {α : Type} : Got α → Bool | .wait => true | .ok _ | .bad => false

/-- The answer that a message of `who` for n bytes at a PA has had. -/
def answered (s : State) (who : Asker) (pa n : Nat) : Option RWait := s.rwaits.find? fun r => r.who == who && r.pa == pa && r.n == n

/-- n bytes at a VA, which lie in one page: from the home at this part, or as another part has answered (R302, R340).
DEDUCED (log entry 54). -/
def feGet (s : State) (who : Asker) (ten : Nat) (need : Need) (va n : Nat) : Got (List Byte) :=
  match feAt s ten need va with
  | .ok x =>
    (match hereOf s x with
    | some pa => if poisoned s pa n then .bad else if lineAbsent s pa then .wait else .ok (readBytes s ten pa n)
    | none => (match (answered s who x.pa n).map (·.ans) with
      | some (some (st, bs)) => if st = 0 then .ok bs else .bad
      | some none | none => .wait))
  | .bad => .bad
  | .stage2 | .held | .pte _ => .wait

/-- Post a stage-2 fault of the front end, once; one that poison brings about is fatal to the tenancy (R315). -/
def fePost (s : State) (ten va : Nat) : State :=
  if s.s2faults.any fun f => f.1 == 4096 + ten && f.2.1 == va / 4096 then s
  else { doom2 s ten va with s2faults := s.s2faults ++ [feFault ten va] }

/-- Send a message of `who` and wait for its answer, unless it has been sent. DESIGN CHOICE (log entry 72). -/
def feSend (s : State) (who : Asker) (pa n : Nat) (f : Nat → Frame) : State :=
  match answered s who pa n with
  | some _ => s
  | none =>
    let tag := s.serial
    sendFrame { s with serial := s.serial + 1, rwaits := ⟨who, pa, n, tag, none⟩ :: s.rwaits } (remotePart pa) (f tag)

/-- What a read that has to wait sets going: its READ message, with the accessed bit set before it leaves (R263), the post of its
stage-2 fault, or the READ of a stage-1 entry. DEDUCED (log entry 54). -/
def feAsk (s : State) (who : Asker) (ten : Nat) (need : Need) (va n : Nat) : State :=
  match feAt s ten need va with
  | .ok x => (match hereOf s x with
    | some _ => s
    | none => feSend (setAD (tlbFill s feCore ten va) ten x false) who x.pa n fun tag => accFrame s 1 ten 0 0 n tag x.pa 0 [])
  | .stage2 => fePost s ten va
  | .pte pa => askPte s ten pa
  | .bad | .held => s

/-- The state after a read that has been made here: the accessed bits, the heat, and the translation in the front end's TLB. One
on another part left its accessed bit when it was sent. -/
def feTouch (s : State) (ten va n : Nat) : State :=
  match feAt s ten .read va with
  | .ok x => (match hereOf s x with
    | some pa => heatTouch (setAD (tlbFill s feCore ten va) ten x false) ten x pa n
    | none => s)
  | .bad | .stage2 | .held | .pte _ => s

/-- A WRITE of the front end's to another part that has not been answered. -/
def RWait.unacked (r : RWait) : Bool := r.n == 4097 && r.ans.isNone

/-- `who` has written to another part, and the write has not been answered (R38, R242). -/
def unacked (s : State) (who : Asker) : Bool := s.rwaits.any fun r => r.who == who && r.unacked

/-- The answers that `who` has had are used up; what it has written and is not yet answered goes on. -/
def feDone (s : State) (who : Asker) : State := { s with rwaits := s.rwaits.filter fun r => r.who != who || r.unacked }

/-- A write of the front end has to wait: a stage-2 fault, a page that is being moved, or a stage-1 entry on another part. -/
def feWriteWaits (s : State) (ten va : Nat) : Bool :=
  match feAt s ten .write va with
  | .stage2 | .held | .pte _ => true
  | .ok _ | .bad => false

/-- A write of `who` by the front end, where it can be made; one to another part is sent. DEDUCED (log entry 54). -/
def feWrite (s : State) (who : Asker) (ten va : Nat) (bs : List Byte) : State :=
  match feAt s ten .write va with
  | .ok x =>
    let s := setAD (tlbFill s feCore ten va) ten x true
    (match hereOf s x with
    | some pa => tellOut (storeBytes s feCore ten x pa bs) pa bs.length
    | none => sendWrite s who x.pa fun tag => accFrame s 2 ten 2 6 bs.length tag x.pa 0 bs)
  | .stage2 => fePost s ten va
  | .pte pa => askPte s ten pa
  | .bad | .held => s

/-- What a write that has to wait sets going: the post of its stage-2 fault, or the READ of a stage-1 entry. -/
def fePostAt (s : State) (ten va : Nat) : State :=
  match feAt s ten .write va with
  | .stage2 => fePost s ten va
  | .pte pa => askPte s ten pa
  | .ok _ | .bad | .held => s

/-- A release makes nothing else visible here, and an acquire by the part's agents drops every read cache, so that no team
that starts later reads a line cached before (R43, R243). -/
def feAcquire (s : State) : State := { s with rcache := [] }

/-! ### Signal words (R44, R46) -/

/-- The message of an atomic at a signal word on another part. DESIGN CHOICE (log entry 15). -/
def signalFrame (s : State) (ten pa rel b c tag : Nat) : Frame :=
  accFrame s 3 ten 2 rel 8 tag pa (AFun.code .sigdec + AT.num .n64 * 16) (leBytes 8 b ++ leBytes 8 c)

/-- The atomic of a packet at a signal word: performed here, sent and not yet answered, or answered. A translation fault and a
refusal are `bad`, and so is a poisoned word unless `blind`; nothing is written then. `b` and `c` are its operands. -/
def signalTry (s : State) (who : Asker) (blind : Bool) (ten va rel b c : Nat) : State × Got Unit :=
  match feAt s ten .atomic va with
  | .bad => (s, .bad)
  | .stage2 => (fePost s ten va, .wait)
  | .held => (s, .wait)
  | .pte pa => (askPte s ten pa, .wait)
  | .ok x =>
    match hereOf s x with
    | some pa =>
      if !blind && poisoned s pa 8 then (s, .bad)
      else if lineAbsent s pa then (s, .wait)
      else
        let s := setAD (tlbFill s feCore ten va) ten x true
        (tellOut (storeBytes s feCore ten x pa (leBytes 8 (signalWord (readNat s ten pa 8) b c))) pa 8, .ok ())
    | none =>
      match answered s who x.pa 4098 with
      | some r => (match r.ans with
        | some (st, _) => (s, if st = 0 then .ok () else .bad)
        | none => (s, .wait))
      | none => (feSend (setAD s ten x true) who x.pa 4098 (signalFrame s ten x.pa rel b c), .wait)

/-- The completion atomic of a launch has to wait: a stage-2 fault, a page that is being moved, a line that is absent, or a
word on another part that has not answered. -/
def signalWaits (s : State) (who : Asker) (ten va : Nat) : Bool :=
  match feAt s ten .atomic va with
  | .stage2 | .held | .pte _ => true
  | .ok x => (match hereOf s x with
    | some pa => lineAbsent s pa
    | none => (match answered s who x.pa 4098 with | some r => r.ans.isNone | none => true))
  | .bad => false

/-- The completion atomic of a launch at its signal word: a poisoned word is decremented like any other, with no report, and an
address that does not translate, or whose bits 63:56 are not zero, is left alone. DESIGN CHOICE (log entry 95). -/
def decSignal (s : State) (who : Asker) (ten va rel code : Nat) : State × Bool :=
  let r := signalTry s who true ten va rel code 0
  if r.2.isWait then (r.1, false) else (feDone r.1 who, true)

end Sys2Proof.Machine
end

