-- ==== Sys2Proof/Machine/Cover.lean ====
section
/-! DEFINITION. Coverage: lattices and blocks (R221), stcov and cvstat (R209, R211), reconstruction (R210, R222, R223), the
audit's error and the controller (R224, R225). -/

namespace Sys2Proof.Machine

/-! ### Lattices and blocks (R221) -/

abbrev Pt := Nat × Nat × Nat

/-- A point is in the kept set of a chain's level. -/
def keptPt (chain level : Nat) (q : Pt) : Bool :=
  let (x, y, z) := q
  match chain, level with
  | _, 0 => true
  | 1, l => x % 2 ^ l == 0
  | 2, 1 => (x + y) % 2 == 0
  | 2, 2 => x % 2 == 0 && y % 2 == 0
  | 2, 3 => x % 2 == 0 && y % 2 == 0 && (x / 2 + y / 2) % 2 == 0
  | 2, _ => x % 4 == 0 && y % 4 == 0
  | _, 1 => (x + y + z) % 2 == 0
  | _, 2 => x % 2 == y % 2 && z % 2 == 0
  | _, 3 => x % 2 == 0 && y % 2 == 0 && z % 2 == 0
  | _, _ => x % 2 == 0 && y % 2 == 0 && z % 2 == 0 && (x + y + z) / 2 % 2 == 0

/-- The points of a block in linear order. -/
def blockPts (l : Launch) (c : Cov) (b : Nat) : List Pt :=
  let bi := b % l.gx
  let bj := b / l.gx % l.gy
  let bk := b / (l.gx * l.gy)
  (List.range (c.bx * c.by_ * c.bz)).map fun i =>
    (bi * c.bx + i % c.bx, bj * c.by_ + i / c.bx % c.by_, bk * c.bz + i / (c.bx * c.by_))

def skippedPts (l : Launch) (c : Cov) (b : Nat) : List Pt := (blockPts l c b).filter fun q => !keptPt c.chain c.level q

/-- The audit points of a block: one skipped point in 2^AUDIT. -/
def auditPts (l : Launch) (c : Cov) (b : Nat) : List Pt :=
  ((skippedPts l c b).zipIdx.filter fun qi => qi.2 % 2 ^ c.audit == 0).map (·.1)

/-- The points that the block walker hands out, in order, with their kind (R32). -/
def handedPts (l : Launch) (c : Cov) (b : Nat) : List CovPoint :=
  let audits := auditPts l c b
  (blockPts l c b).filterMap fun q =>
    let kept := keptPt c.chain c.level q
    if kept || audits.contains q then some ⟨q.1, q.2.1, q.2.2, !kept, false⟩ else none

def blockCount (l : Launch) : Nat := l.gx * l.gy * l.gz

/-- Linear index of a point in the field. -/
def fieldIndex (l : Launch) (c : Cov) (q : Pt) : Nat := q.1 + l.gx * c.bx * (q.2.1 + l.gy * c.by_ * q.2.2)

/-- Where a point's value lies: address, bytes, and whether it is the high nibble (R209). -/
def pointPlace (l : Launch) (c : Cov) (q : Pt) : Nat × Nat × Bool :=
  let i := fieldIndex l c q
  if c.otype = .s4 then (vaOf ((c.out.toNat + i / 2 : Nat) : Int), 1, i % 2 == 1)
  else (vaOf ((c.out.toNat + i * CT.bytes c.otype : Nat) : Int), CT.bytes c.otype, false)

/-! ### stcov and cvstat (R209, R211) -/

/-- The coverage stream of a group's launch. -/
def covOf (s : State) (g : Group) : Option (Launch × Cov) :=
  match launchOf s g with
  | some l => (match l.cov with | some c => some (l, c) | none => none)
  | none => none

def covAcc (l : Launch) (c : Cov) (lane : Nat) (q : CovPoint) (v : Word) : Acc :=
  let (va, n, hi) := pointPlace l c (q.x, q.y, q.z)
  ⟨lane, BitVec.ofNat 64 va, n, v, if hi then 1 else 0, noXlate, false, none, 0, 0, 0⟩

def markWrote (g : Group) (m : Mask) : Group :=
  { g with points := g.points.zipIdx.map fun pi => if bitOf m pi.2 then pi.1.map fun q => { q with wrote := true } else pi.1 }

/-- DEDUCED (log entry 59). -/
def execStcov (s0 : VR) (s : State) : Result :=
  let u : Use := { rd := [s0], len := 2 }
  begin_ u s fun g p =>
    match covOf s g with
    | none => trapOwn u s g p (p.trapRec cCOVOFF)
    | some (l, c) =>
      let accs := p.lanes.filterMap fun lane => match (g.points[lane]?).join with
        | some q => some (covAcc l c lane q (g.val s0 lane))
        | none => none
      let o := { newOp s g p .cov (.stcov (c.otype == .s4)) (setFlag hSetB p) with accs := accs }
      let g1 := markWrote (released g p u) p.active
      let s := { s with serial := s.serial + 1 }
      finish s { g1 with ops := g1.ops ++ [o] } (joinFlag s g p 2 o.flag) 2

def covField (l : Launch) (c : Cov) (block f : Nat) : Nat :=
  match f with
  | 0 => c.level
  | 1 => c.bx + c.by_ * 2 ^ 16 + c.bz * 2 ^ 32
  | 2 => block
  | 3 => (blockPts l c block).length - (skippedPts l c block).length
  | 4 => (auditPts l c block).length
  | _ => c.chain + c.audit * 2 ^ 8 + c.rmode * 2 ^ 16 + ctNum c.otype * 2 ^ 24

/-- FLD 6 and 7 have no encoding (R211). DEDUCED (log entry 89). -/
def execCvstat (d : VR) (cc : CC) (fld : BitVec 3) (s : State) : Result :=
  let u : Use := { rd := [], wr := [d], len := 2 }
  begin_ u s fun g p =>
    withBudget u s g p (if p.active == 0 then g else g.writeReg s.path p d cc (some (.uni 0)) fun _ => 0) <|
    match covOf s g, teamOf s g with
      | some (l, c), some t =>
        if p.active == 0 then finishUse u s g p else
        let x := BitVec.ofNat 64 (covField l c t.block fld.toNat)
        writeReg u d cc s g p (some (.uni x)) fun _ => x
      | _, _ => trapOwn u s g p (p.trapRec cCOVOFF)

/-- A stcov access may perform: older stcovs of the group have written the place. -/
def covTurn (g : Group) (o : POp) (a : Acc) : Bool :=
  (olderOps g o).all fun q => q.done || q.cls != .cov || q.accs.all fun b => b.va != a.va || (b.done && b.err = 0)

/-- Try the accesses of a stcov in lane order. The flag says that a stage-2 fault pauses one. -/
def covPerform (s : State) (k : Nat) (g : Group) (o : POp) : List Acc → State × List Acc
  | [] => (s, [])
  | a :: t =>
    if a.done || !covTurn g o a then
      let (s, l) := covPerform s k g o t
      (s, a :: l)
    else if a.va.toNat / 2 ^ 56 != 0 then
      let (s, l) := covPerform s k g o t
      (s, { a with done := true, err := 1 } :: l)
    else
      let (s, b, paused) := coverAcc s k g.ten o a
      if paused then
        let (s, l) := covPerform s k g o t
        (s, a :: l)
      else if b.err != 0 then
        let (s, l) := covPerform s k g o t
        (s, { b with done := true, err := b.code } :: l)
      else if mayPerform s k g { o with accs := [] } b [] then
        let (s, b) := performAcc s k g.ten o b
        let (s, l) := covPerform s k g o t
        (s, b :: l)
      else
        let (s, l) := covPerform s k g o t
        (s, a :: l)

/-- The report for the lanes whose writes faulted. -/
def covReport (o : POp) : Report :=
  let bad := o.accs.find? fun a => a.err != 0
  let code := match bad with | some a => a.err | none => 0
  let va := match bad with | some a => a.va | none => 0
  ⟨o.id, cENGFAULT, code, va, o.word, errLanes o fun _ => true, none, o.flag, o.cls, none, none⟩

/-- STCOV_PERFORM: the writes perform, or the faulting lanes are held as a report. -/
def execStcovPerform (k id : Nat) (s : State) : Result :=
  match tget s.groups k with
  | none => .next s
  | some g =>
    match g.op id with
    | none => .next s
    | some o =>
      if o.cls != .cov || o.done || o.halted then .next s
      else
        let (s, accs) := covPerform s k g o o.accs
        let o := { o with accs := accs }
        if accs.all fun a => a.done then
          if accs.any fun a => a.err != 0 then
            .next (putGroup s k { g.putOp { o with halted := true } with reports := g.reports ++ [covReport o] })
          else .next (reap (putGroup s k (g.putOp { o with done := true }).settle) k)
        else .next (putGroup s k (g.putOp o))

/-! ### Stages of reconstruction (R222) -/

inductive Stage where
  | pair (d : Nat)
  | face (d : Nat)
  | cell (d : Nat)
  | slab
  deriving DecidableEq, Repr

def stages (chain level : Nat) : List Stage :=
  match chain, level with
  | _, 0 => []
  | 1, 1 => [.pair 1]
  | 1, 2 => [.pair 2, .pair 1]
  | 1, 3 => [.pair 4, .pair 2, .pair 1]
  | 1, _ => [.pair 8, .pair 4, .pair 2, .pair 1]
  | 2, 1 => [.face 1]
  | 2, 2 => [.cell 1]
  | 2, 3 => [.face 2, .cell 1]
  | 2, _ => [.cell 2, .cell 1]
  | _, 1 => [.face 1]
  | _, 2 => [.slab]
  | _, 3 => [.cell 1]
  | _, _ => [.face 2, .cell 1]

/-- How far a level's neighbours lie, in each coordinate. -/
def reach (chain level : Nat) : Nat :=
  match chain, level with
  | _, 0 => 0
  | 1, l => 2 ^ l - 1
  | 2, l => if l ≤ 2 then 1 else 3
  | _, l => if l ≤ 3 then 1 else 3

/-- A stage's rule applies to a point that no earlier stage has filled. -/
def Stage.applies (chain : Nat) (q : Pt) : Stage → Bool
  | .pair d => q.1 % (2 * d) == d
  | .face d | .cell d =>
    q.1 % d == 0 && (decide (chain < 2) || q.2.1 % d == 0) && (decide (chain < 3) || q.2.2 % d == 0)
  | .slab => true

abbrev Off := Int × Int × Int

/-- Unit offset along an axis: 0 x, 1 y, 2 z. -/
def axis (a : Nat) (v : Int) : Off := (if a = 0 then v else 0, if a = 1 then v else 0, if a = 2 then v else 0)
def addOff (u v : Off) : Off := (u.1 + v.1, u.2.1 + v.2.1, u.2.2 + v.2.2)

/-- (−, −), (+, +), (−, +), (+, −) in the plane of axes a < b. -/
def diag (a b : Nat) (d : Int) : List Off :=
  [addOff (axis a (-d)) (axis b (-d)), addOff (axis a d) (axis b d), addOff (axis a (-d)) (axis b d), addOff (axis a d) (axis b (-d))]

/-- The neighbours of a point in their order. -/
def Stage.offsets (chain : Nat) (q : Pt) : Stage → List Off
  | .pair d => [axis 0 (-(d : Int)), axis 0 d]
  | .face d => ((List.range (min chain 3)).map fun a => [axis a (-(d : Int)), axis a d]).flatten
  | .cell d =>
    let odd (v : Nat) : Bool := v / d % 2 == 1
    let off := (List.range (min chain 3)).filter fun a => odd (if a = 0 then q.1 else if a = 1 then q.2.1 else q.2.2)
    (match off with
    | [a] => [axis a (-(d : Int)), axis a d]
    | [a, b] => diag a b d
    | [_, _, _] =>
      let n : Int := -(d : Int)
      let p : Int := d
      [(n, n, n), (p, p, p), (n, n, p), (p, p, n), (n, p, n), (p, n, p), (p, n, n), (n, p, p)]
    | _ => [])
  | .slab =>
    if q.2.2 % 2 = 0 then [axis 0 (-1), axis 0 1, axis 1 (-1), axis 1 1]
    else if (q.1 + q.2.1) % 2 = 0 then [axis 2 (-1), axis 2 1]
    else diag 0 2 1 ++ diag 1 2 1

/-! ### Neighbours and values (R223) -/

/-- Field sizes. -/
def fieldSize (l : Launch) (c : Cov) : Pt := (l.gx * c.bx, l.gy * c.by_, l.gz * c.bz)

/-- One coordinate of a neighbour, mirrored where it is outside: none where it stays outside. -/
def mirror (n x : Nat) (o : Int) : Option Nat :=
  let inside (v : Int) : Bool := decide (0 ≤ v) && decide (v < (n : Int))
  if inside ((x : Int) + o) then some ((x : Int) + o).toNat
  else if inside ((x : Int) - o) then some ((x : Int) - o).toNat else none

def neighbour (f q : Pt) (o : Off) : Option Pt :=
  match mirror f.1 q.1 o.1, mirror f.2.1 q.2.1 o.2.1, mirror f.2.2 q.2.2 o.2.2 with
  | some x, some y, some z => some (x, y, z)
  | _, _, _ => none

/-- Neighbours taken two by two, with the pairs that stay outside dropped. -/
def neighbours (f q : Pt) : List Off → List Pt
  | a :: b :: t =>
    (match neighbour f q a, neighbour f q b with
    | some u, some v => [u, v]
    | _, _ => []) ++ neighbours f q t
  | _ => []

/-- The pairwise sum of R223, and the quotient by the number of neighbours. -/
def meanFloat (inner out : Fmt) (l : List FV) : Nat :=
  let add (x y : FV) : FV := inner.decode (inner.add .rne x y).bits
  let pairs : List FV → List FV := fun l =>
    (List.range (l.length / 2)).map fun i => add (l.getD (2 * i) (.fin false 0 0)) (l.getD (2 * i + 1) (.fin false 0 0))
  let s := match pairs l with
    | [a] => a
    | [a, b] => add a b
    | [a, b, c] => add (add a b) c
    | [a, b, c, d] => add (add a b) (add c d)
    | _ => .fin false 0 0
  match s with
  | .fin n m e => (out.div .rne (.fin n m e) (.fin false l.length 0)).bits
  | x => (toFloat out true .rne x).bits

/-- The value of a point from its neighbours' encodings. -/
def meanOf (t : CT) (nearest : Bool) (l : List Nat) : Nat :=
  match l with
  | [] => 0
  | v :: _ =>
    if nearest then v
    else match CT.kind t with
      | .flt f => if t = .f64 then meanFloat fmtF64 fmtF64 (l.map f.decode) else meanFloat fmtF32 f (l.map f.decode)
      | .int w sg =>
        let sum := l.foldl (fun acc x => acc + ctInt w sg x) 0
        let q := divRne sum.natAbs l.length
        (BitVec.ofInt 64 (if sum < 0 then -(q : Int) else q)).toNat % 2 ^ w

/-- The interpolated value of a skipped point; `kept` gives the values of kept points. -/
def interp (l : Launch) (c : Cov) (kept : Pt → Nat) : Nat → Pt → Nat
  | 0, _ => 0
  | fuel + 1, q =>
    if keptPt c.chain c.level q then kept q
    else match (stages c.chain c.level).find? fun st => st.applies c.chain q with
      | some st => meanOf c.otype (c.rmode == 1) ((neighbours (fieldSize l c) q (st.offsets c.chain q)).map (interp l c kept fuel))
      | none => 0

/-- The kept points that a point's interpolated value uses. -/
def supports (l : Launch) (c : Cov) : Nat → Pt → List Pt
  | 0, _ => []
  | fuel + 1, q =>
    if keptPt c.chain c.level q then [q]
    else match (stages c.chain c.level).find? fun st => st.applies c.chain q with
      | some st => ((neighbours (fieldSize l c) q (st.offsets c.chain q)).map (supports l c fuel)).flatten
      | none => []

/-- Deeper than any chain of stages. -/
def interpFuel : Nat := 6

/-! ### Errors and the controller (R224, R225) -/

/-- The exact value of an encoding. -/
def typed (t : CT) (x : Nat) : FV := ctValue t x

def auditErr (t : CT) (r x : Nat) : Nat :=
  match typed t r, typed t x with
  | .nan _, .nan _ => 0
  | .nan _, _ => fmtF32.infBits
  | _, .nan _ => fmtF32.infBits
  | .inf a, .inf b => if a = b then 0 else fmtF32.infBits
  | .inf _, _ => fmtF32.infBits
  | _, .inf _ => fmtF32.infBits
  | .fin n m e, .fin n2 m2 e2 =>
    let (d, q) := addDyadic n m e (!n2) m2 e2
    if d = 0 then 0 else if m2 = 0 then fmtF32.infBits
    else (fmtF32.div .rne (.fin false d.natAbs q) (.fin false m2 e2)).bits

/-- E: the larger of FLOOR and the largest error, in which a NaN FLOOR counts as 0; FLOOR itself where the launch has no
audit point. -/
def covError (c : Cov) : BitVec 32 :=
  let fl := if (fmtF32.decode c.floor.toNat).isNan then 0 else c.floor
  if c.naudit = 0 then c.floor
  else if (fmtF32.decode fl.toNat).lt (fmtF32.decode c.emax.toNat) then c.emax else fl

def quarter : FV → FV
  | .fin n m e => .fin n m (e - 2)
  | .inf n => .inf n
  | .nan q => .nan q

/-- a ≤ b, false with a NaN. -/
def FV.le (a b : FV) : Bool := a.lt b || a.eq b

/-- The next level. -/
def nextLevel (c : Cov) (lmax : Nat) (rate : BitVec 32) : Nat :=
  let e := fmtF32.decode (covError c).toNat
  let t := fmtF32.decode c.target.toNat
  if t.lt e then c.level - 1
  else if FV.le e (quarter t) && decide (c.ratemin.toNat ≤ rate.toNat) then min (c.level + 1) lmax
  else c.level

/-- The record that the controller writes, from the one it finds. -/
def covRecord (c : Cov) (rate : BitVec 32) (old : List Byte) : List Byte :=
  let lmax := field old 1 1
  let new := nextLevel c lmax rate
  let step := if new < c.level then 0xFF else if c.level < new then 1 else 0
  leBytes 1 new ++ leBytes 1 lmax ++ leBytes 2 0 ++ leBytes 4 (covError c).toNat ++ leBytes 4 c.nkept ++ leBytes 4 c.naudit ++
    leBytes 4 c.nrecon ++ leBytes 1 step ++ leBytes 3 0 ++ leBytes 8 (field old 0x18 8 + 1) ++ leBytes 32 0

/-- The controller has to wait for its record: the read, or the write after it. -/
def controllerWaits (s : State) (lid : Nat) (l : Launch) (c : Cov) : Bool :=
  (feGet s (.launch lid) l.ten .read c.cvrec.toNat 64).isWait || feWriteWaits s l.ten c.cvrec.toNat

/-- R225: the controller's update after the launch's last reconstruction. -/
def runController (s : State) (lid : Nat) (l : Launch) (c : Cov) : State :=
  match feGet s (.launch lid) l.ten .read c.cvrec.toNat 64 with
  | .ok old =>
    feDone (feWrite (feTouch s l.ten c.cvrec.toNat 64) (.launch lid) l.ten c.cvrec.toNat (covRecord c s.wb.rate old)) (.launch lid)
  | .bad | .wait => s

/-! ### GLEANER_RECONSTRUCT (R210) -/

/-- Block that holds a point. -/
def blockOf (l : Launch) (c : Cov) (q : Pt) : Nat := q.1 / c.bx + l.gx * (q.2.1 / c.by_ + l.gy * (q.2.2 / c.bz))

/-- Blocks of the field that hold a point within the reach of a block's skipped points. DEDUCED (log entry 75). -/
def reachBlocks (l : Launch) (c : Cov) (b : Nat) : List Nat :=
  let r : Nat := reach c.chain c.level
  let f := fieldSize l c
  let span (n x : Nat) (on : Bool) : List Nat := if on then ((List.range (2 * r + 1)).map fun i => x + i - r).filter (· < n) else [x]
  (skippedPts l c b).foldl (fun acc q =>
    (span f.1 q.1 true).foldl (fun acc x => (span f.2.1 q.2.1 (c.chain ≥ 2)).foldl (fun acc y =>
      (span f.2.2 q.2.2 (c.chain ≥ 3)).foldl (fun acc z => sadd acc (blockOf l c (x, y, z))) acc) acc) acc) []

/-- DEDUCED (log entry 53). -/
def gleanWho (lid : Nat) (l : Launch) : EWho := ⟨feCore * 32, l.ten, .supervisor, .launch lid, false, true⟩

def pointBytes (l : Launch) (c : Cov) (q : Pt) : List Nat :=
  let (va, n, _) := pointPlace l c q
  (List.range n).map (va + ·)

def pointValue (l : Launch) (c : Cov) (rd : Nat → Byte) (q : Pt) : Nat :=
  let (va, n, hi) := pointPlace l c q
  let v := leNat ((List.range n).map fun i => rd (va + i))
  if c.otype = .s4 then (if hi then v / 16 else v % 16) else v

/-- Write one point's value, here or on another part; a value taken from poison is written as poisoned. Nothing is written
where the address cannot be translated. -/
def writePoint (s : State) (lid : Nat) (l : Launch) (c : Cov) (q : Pt) (v : Nat) (bad : Bool) : State :=
  let (va, n, hi) := pointPlace l c q
  match feAt s l.ten .write va with
  | .ok x =>
    let s := setAD (tlbFill s feCore l.ten va) l.ten x true
    (match hereOf s x with
    | some pa =>
      let s := if c.otype = .s4 then nibbleAt s feCore l.ten x pa hi v else storeBytes s feCore l.ten x pa (leBytes n v)
      if bad then poisonBytes s pa n else s
    | none => sendWrite s (.launch lid) x.pa fun tag =>
      if c.otype = .s4 then accFrame s 3 l.ten 0 0 1 tag x.pa (AFun.code .sigdec) [BitVec.ofNat 8 (v % 16 + (if hi then 16 else 0))]
      else accFrame s 2 l.ten 0 0 n tag x.pa 0 (leBytes n v))
  | .stage2 => fePost s l.ten va
  | .bad | .held | .pte _ => s

/-- A write of a point has to wait. -/
def pointWaits (s : State) (l : Launch) (c : Cov) (q : Pt) : Bool := feWriteWaits s l.ten (pointPlace l c q).1

/-- A point can be written, or its write waits. -/
def pointOk (s : State) (l : Launch) (c : Cov) (q : Pt) : Bool := feAt s l.ten .write (pointPlace l c q).1 != .bad

/-- The bytes that the reconstruction of a block reads: its skipped points' kept neighbours, and its audit points.
DEDUCED (log entry 53). -/
def gleanReads (l : Launch) (c : Cov) (b : Nat) : List Nat :=
  let audits := auditPts l c b
  ((skippedPts l c b).map fun q =>
    ((supports l c interpFuel q).map (pointBytes l c)).flatten ++ (if audits.contains q then pointBytes l c q else [])).flatten

/-- One skipped point: its value is written, or, at an audit point, compared. -/
def gleanPoint (lid : Nat) (l : Launch) (audits : List Pt) (e : Xfer) (a : State × Cov) (q : Pt) : State × Cov :=
  let (s, c) := a
  let v := interp l c (pointValue l c e.byte) interpFuel q
  if audits.contains q then
    let err := auditErr c.otype v (pointValue l c e.byte q)
    (s, { c with naudit := c.naudit + 1, emax := if c.emax.toNat < err then BitVec.ofNat 32 err else c.emax })
  else
    let bad := (supports l c interpFuel q).any fun r => (pointBytes l c r).any e.bads.contains
    (writePoint s lid l c q v bad, { c with nrecon := c.nrecon + 1 })

/-- A block's reconstruction may run. DEDUCED (log entry 75). -/
def mayGlean (l : Launch) (c : Cov) (b : Nat) : Bool :=
  l.code == 0 && decide (b < blockCount l) && c.finished.contains b && !c.reconstructed.contains b &&
    (reachBlocks l c b).all c.finished.contains

/-- DEDUCED (log entry 53). -/
def gleanStep (s : State) (lid b : Nat) : State :=
  match tget s.launches lid with
  | none => s
  | some l =>
    match l.cov with
    | none => s
    | some c =>
      if !mayGlean l c b then s
      else
        let audits := auditPts l c b
        let out := (skippedPts l c b).filter fun q => !audits.contains q
        let last := c.reconstructed.length + 1 = blockCount l
        let e := (Xfer.start s).readAll (gleanWho lid l) (gleanReads l c b)
        match e.stop with
        | some (.stage2 va) => fePost e.s l.ten va
        | some .wait => e.s
        | some _ => s
        | none =>
          match out.find? (pointWaits s l c) with
          | some q => fePostAt e.s l.ten (pointPlace l c q).1
          | none =>
            if !out.all (pointOk s l c) then s
            else if last && controllerWaits s lid l c then
              (if (feGet s (.launch lid) l.ten .read c.cvrec.toNat 64).isWait then feAsk e.s (.launch lid) l.ten .read c.cvrec.toNat 64
              else fePostAt e.s l.ten c.cvrec.toNat)
            else
              let (s, c) := (skippedPts l c b).foldl (gleanPoint lid l audits e) (e.settle (gleanWho lid l), c)
              let c := { c with reconstructed := sadd c.reconstructed b,
                                nkept := c.nkept + ((blockPts l c b).length - (skippedPts l c b).length) }
              let l := { l with cov := some c }
              let s := { s with launches := tput s.launches lid l }
              settleLaunch (if last then runController s lid l c else s) lid

def execGleanerReconstruct (lid b : Nat) (s : State) : Result := .next (gleanStep s lid b)

end Sys2Proof.Machine
end

