-- ==== Sys2Proof/Machine/Launch.lean ====
section
/-! DEFINITION. Packets and launches: the fields of a packet (R42 to R44), the kernel descriptor (R88, R89), the checks of a
launch in the order of R349, its start (R41, R43, R265), and enq (R183). -/

namespace Sys2Proof.Machine

/-! ### Packet fields (R42) -/

def pType (p : Packet) : Nat := field p 0 1
def pHead (p : Packet) : Nat := field p 0 4
def pBar (p : Packet) : Bool := bits (pHead p) 8 8 == 1
def pNote (p : Packet) : Bool := bits (pHead p) 15 15 == 1

/-- Scopes from dev to sys and zero reserved bits. -/
def headerOk (p : Packet) : Bool :=
  let acq := bits (pHead p) 11 9
  let rel := bits (pHead p) 14 12
  bits (pHead p) 31 16 == 0 && 4 ≤ acq && acq ≤ 6 && 4 ≤ rel && rel ≤ 6

/-- The completion signal's VA, 0 for none: of a launch and of a barrier packet. -/
def pSignal (p : Packet) : Nat :=
  if pType p = 1 then field p 0x28 8 else if pType p = 2 then field p 0x30 8 else 0

/-! ### The launch packet (R43) -/

def lForm (p : Packet) : Nat := field p 4 1 % 4
def lReplay (p : Packet) : Bool := field p 4 1 / 4 % 2 == 1
def lKdesc (p : Packet) : Nat := field p 8 8
def lArgs (p : Packet) : Nat := field p 0x10 8
def lG (p : Packet) (i : Nat) : Nat := field p (0x18 + 4 * i) 4
def lProdIx (p : Packet) : Nat := field p 0x30 8
def lProdQ (p : Packet) : Nat := field p 0x38 2
def lNin (p : Packet) : Nat := field p 0x3A 1
def lNout (p : Packet) : Nat := field p 0x3B 1
def lVtab (p : Packet) : Nat := field p 0x40 8

/-- A block size: a power of two from 1 to 256. -/
def blockSize (n : Nat) : Bool := [1, 2, 4, 8, 16, 32, 64, 128, 256].contains n

/-- The form fields of a dependent launch. -/
def depOk (p : Packet) : Bool :=
  lNin p + lNout p ≤ 16 && zeroAt p 0x3C 4 && lVtab p % 64 == 0 && zeroAt p 0x48 56

/-- The form fields of a coverage launch. -/
def covOk (p : Packet) : Bool :=
  let chain := field p 0x3E 1
  let audit := field p 0x3F 1
  let by_ := field p 0x3A 2
  let bz := field p 0x3C 2
  (match ctOf (field p 0x41 1) with
  | some t => t = .s4 || field p 0x48 8 % CT.bytes t == 0
  | none => false) &&
  field p 0x30 8 % 64 == 0 && blockSize (field p 0x38 2) && blockSize by_ && blockSize bz && 1 ≤ chain && chain ≤ 3 &&
  (decide (2 ≤ chain) || by_ == 1) && (chain == 3 || bz == 1) && 1 ≤ audit && audit ≤ 8 && field p 0x40 1 ≤ 1 &&
  zeroAt p 0x42 6 && zeroAt p 0x5C 36

/-- The launch packet's own fields, a breach of which is BADPKT. -/
def launchFieldsOk (p : Packet) : Bool :=
  headerOk p && lForm p != 3 && field p 4 1 / 8 == 0 && zeroAt p 5 3 && zeroAt p 0x24 4 && lKdesc p % 128 == 0 &&
    lArgs p % 64 == 0 && pSignal p % 8 == 0 &&
    (match lForm p with | 0 => zeroAt p 0x30 80 | 1 => depOk p | _ => covOk p)

/-! ### The kernel descriptor (R88, R89) -/

/-- `.team` and `.pair` (R25). -/
def teamgOk (pair : Bool) (n : Nat) : Bool := if pair then 2 ≤ n && n ≤ 32 && n % 2 == 0 else 1 ≤ n && n ≤ 16

/-- The bytes of a descriptor, none for a field outside its range or a reserved byte that is not zero.
DEDUCED (log entry 70). -/
def parseKDesc (l : List Byte) : Option KDesc :=
  let kbase := field l 0 8
  let klen := field l 8 4
  let wc := field l 0x0C 1
  let w := 16 * 2 ^ wc
  let allot := field l 0x0D 1
  let budget := field l 0x0E 2
  let teamg := field l 0x10 1
  let fl := field l 0x11 1
  let pair := fl % 2 == 1
  let clu := field l 0x12 1
  let acc := field l 0x13 1
  let prod := field l 0x14 1
  let silo := field l 0x18 4
  let spill := field l 0x1C 4
  let tbase := field l 0x20 8
  let trampn := field l 0x28 4
  let arglen := field l 0x2C 4
  let pool := field l 0x30 8
  let pooln := field l 0x38 4
  let hand := field l 0x3C 4
  if 1 ≤ klen && klen ≤ 2 ^ 19 && wc ≤ 2 && 8 ≤ allot && allot ≤ 64 && allot % 8 = 0 && 1 ≤ budget &&
      budget ≤ 64 * (w / 4) && teamgOk pair teamg && fl / 4 = 0 && 1 ≤ clu && clu ≤ (if pair then 2 else 4) && acc ≤ 8 &&
      prod < teamg && zeroAt l 0x15 3 && silo % 64 = 0 && silo ≤ 128 * MiB && 64 ≤ spill && spill ≤ 65536 && spill % 8 = 0 &&
      tbase % 8 = 0 && (tbase ≠ 0 || trampn = 0) && arglen % 8 = 0 && arglen ≤ 65536 && pool ≠ 0 && pool % 64 = 0 &&
      1 ≤ pooln && pooln ≤ 65535 && (hand = 2 ^ 32 - 1 || hand < klen) && zeroAt l 0x40 64 then
    some ⟨BitVec.ofNat 64 kbase, klen, w, allot, budget, teamg, pair, fl / 2 % 2 == 1, clu, acc, prod, silo, spill,
      BitVec.ofNat 64 tbase, trampn, arglen, BitVec.ofNat 64 pool, pooln, if hand = 2 ^ 32 - 1 then none else some hand⟩
  else none

/-- What a check of a launch finds: a value, a failure, or an access that has to wait (R302, R304, R340). -/
inductive Check (α : Type) where
  | ok (a : α)
  | fail
  | ask (need : Need) (va n : Nat)
  deriving DecidableEq, Repr

/-- A read of the front end as a check. -/
def checkRead (s : State) (who : Asker) (ten : Nat) (need : Need) (va n : Nat) : Check (List Byte) :=
  match feGet s who ten need va n with
  | .ok l => .ok l
  | .bad => .fail
  | .wait => .ask need va n

/-- The word at an offset of the kernel is marked TGT; one that cannot be read fails as one that is not, with BADKDESC.
DESIGN CHOICE (log entry 96). -/
def checkTgt (s : State) (who : Asker) (ten : Nat) (k : KDesc) (off : Nat) : Check Unit :=
  match checkRead s who ten .fetch ((k.kbase.toNat + 4 * off) % 2 ^ 64) 4 with
  | .ok l => if field l 0 4 / 8 % 2 = 1 then .ok () else .fail
  | .fail => .fail
  | .ask n va len => .ask n va len

/-- The descriptor of a launch packet, which the part reads once, at the launch's start (R89); a failure is BADKDESC. -/
def readKDesc (s : State) (who : Asker) (ten : Nat) (p : Packet) : Check KDesc :=
  match checkRead s who ten .read (lKdesc p) 128 with
  | .fail => .fail
  | .ask n va len => .ask n va len
  | .ok l =>
    match parseKDesc l with
    | none => .fail
    | some k =>
      if k.arglen ≠ 0 && lArgs p = 0 then .fail
      else match checkTgt s who ten k 0 with
        | .fail => .fail
        | .ask n va len => .ask n va len
        | .ok _ => match k.sphand with
          | none => .ok k
          | some o => match checkTgt s who ten k o with
            | .fail => .fail
            | .ask n va len => .ask n va len
            | .ok _ => .ok k

/-! ### Grid, producer, templates, coverage record (R29, R43, R208) -/

def dimsOk (p : Packet) : Bool := [0, 1, 2].all fun i => decide (1 ≤ lG p i) && decide (lG p i ≤ 2 ^ 20)

def gridOk (p : Packet) (k : KDesc) : Bool := dimsOk p && (lForm p = 2 || lG p 0 % k.cluster == 0)

/-- The type of the packet that a queue carries at an index, where it has been read; a skipped packet's as it was read
from the ring, and none where it was skipped unread. -/
def typeAt (q : Queue) (i : Nat) : Option Nat :=
  (q.flights.find? fun f => f.index = i && f.rep.isNone).bind fun f =>
    if !f.bytes.isEmpty then some (pType f.bytes) else if !f.orig.isEmpty then some (pType f.orig) else none

/-- The producer of a dependent launch: of the same tenancy, lower in the launch's own queue, and a launch where its packet
has been read; one that has not been read, or whose indirect packet has not been resolved, passes, and is not looked at again.
DESIGN CHOICE (log entry 90). -/
def producerOk (s : State) (ten queue index : Nat) (p : Packet) : Bool :=
  lForm p != 1 ||
    (match tget s.queues (lProdQ p) with
    | some q => q.desc.ten.toNat == ten && (lProdQ p != queue || decide (lProdIx p < index)) &&
        (match typeAt q (lProdIx p) with | some t => t == 1 || t == 4 | none => true)
    | none => false)

/-- Every team of the producer has been dispatched: it has completed, RD has passed it, or its launch has no team left to
place. -/
def producerDone (s : State) (l : Launch) : Bool :=
  l.form != 1 ||
    (match tget s.queues (lProdQ l.pkt) with
    | some q =>
      decide (lProdIx l.pkt < q.rd) ||
        (q.flights.any fun f => f.index = lProdIx l.pkt && f.rep.isNone && f.finished) ||
        (let ls := s.launches.filter fun (_, m) => m.queue = lProdQ l.pkt && m.index = lProdIx l.pkt && !m.child
         !ls.isEmpty && ls.all fun (_, m) => m.started && (m.finished || m.closed))
    | none => true)

/-- n templates of a dependent launch from number j on. -/
def readTemplatesFrom (s : State) (who : Asker) (ten : Nat) (p : Packet) : Nat → Nat → Check (List (List Byte))
  | _, 0 => .ok []
  | j, n + 1 =>
    match checkRead s who ten .read (lVtab p + 64 * j) 64 with
    | .fail => .fail
    | .ask n va len => .ask n va len
    | .ok l => match parseView l with
      | none => .fail
      | some v =>
        if (j < lNin p) = (v.mode = 1) then
          (match readTemplatesFrom s who ten p (j + 1) n with
          | .ok t => .ok (l :: t)
          | .fail => .fail
          | .ask n va len => .ask n va len)
        else .fail

/-- The templates of a dependent launch; a failure is BADVIEW, also where a template cannot be read, for which the spec names
no code. DESIGN CHOICE (log entry 96). -/
def readTemplates (s : State) (who : Asker) (ten : Nat) (p : Packet) : Check (List (List Byte)) :=
  if lForm p != 1 then .ok [] else readTemplatesFrom s who ten p 0 (lNin p + lNout p)

/-- The coverage stream of a launch; a failure is BADCVREC. -/
def readCov (s : State) (who : Asker) (ten : Nat) (p : Packet) : Check (Option Cov) :=
  if lForm p != 2 then .ok none
  else match checkRead s who ten .read (field p 0x30 8) 64, ctOf (field p 0x41 1) with
    | .ok l, some t =>
      let level := field l 0 1
      let lmax := field l 1 1
      if level ≤ lmax && lmax ≤ 4 && zeroAt l 2 2 && zeroAt l 0x15 3 && zeroAt l 0x20 32 then
        .ok (some
          { cvrec := BitVec.ofNat 64 (field p 0x30 8), bx := field p 0x38 2, by_ := field p 0x3A 2, bz := field p 0x3C 2,
            chain := field p 0x3E 1, audit := field p 0x3F 1, rmode := field p 0x40 1, otype := t,
            out := BitVec.ofNat 64 (field p 0x48 8), floor := BitVec.ofNat 32 (field p 0x50 4),
            target := BitVec.ofNat 32 (field p 0x54 4), ratemin := BitVec.ofNat 32 (field p 0x58 4), level := level,
            lmax := lmax, finished := [], reconstructed := [], nkept := 0, naudit := 0, nrecon := 0, emax := 0 })
      else .fail
    | .ask n va len, _ => .ask n va len
    | .ok _, none | .fail, _ => .fail

/-! ### Cores that can take a member (R25, R28, R48) -/

def inService (s : State) (c : Nat) : Bool :=
  s.caps.cores.toNat / 2 ^ c % 2 == 1 && (match s.cores[c]? with | some k => !k.lost | none => false)

/-- The cores, or pairs, in service among n cores from lo on. -/
def unitsIn (s : State) (k : KDesc) (lo n : Nat) : List (List Nat) :=
  if k.pair then ((List.range (n / 2)).map fun i => [lo + 2 * i, lo + 2 * i + 1]).filter (·.all (inService s))
  else ((List.range n).map fun i => [lo + i]).filter (·.all (inService s))

/-- The candidates of a head of n members: a core, a pair, or a quad with the units it has in service. -/
def candidates (s : State) (k : KDesc) (n : Nat) : List (List (List Nat)) :=
  if k.cluster ≤ 1 then (unitsIn s k 0 64).map fun u => [u]
  else ((List.range 16).map fun q => unitsIn s k (4 * q) 4).filter fun us => decide (n ≤ us.length)

/-! ### The checks in order (R349) -/

/-- What the checks give: what was read, the first failure's code, or an access that has to wait. -/
inductive Checked where
  | ok (kd : KDesc) (templates : List (List Byte)) (cov : Option Cov)
  | code (c : Nat)
  | ask (need : Need) (va n : Nat)
  deriving DecidableEq, Repr

/-- A packet's own fields are a matter of its bytes, as they were read at the claim; the descriptor, the templates and the
coverage record are read at the launch's start (R43, R89). DEDUCED (log entry 24). -/
def checkLaunch (s : State) (who : Asker) (ten queue index : Nat) (p : Packet) : Checked :=
  if !launchFieldsOk p then .code eBADPKT
  else match readKDesc s who ten p with
    | .fail => .code eBADKDESC
    | .ask n va len => .ask n va len
    | .ok k =>
      if !gridOk p k then .code eBADGRID
      else if !producerOk s ten queue index p then .code eBADPROD
      else match readTemplates s who ten p with
        | .fail => .code eBADVIEW
        | .ask n va len => .ask n va len
        | .ok ts => match readCov s who ten p with
          | .fail => .code eBADCVREC
          | .ask n va len => .ask n va len
          | .ok c =>
            if (candidates s k (if lForm p = 2 then 1 else k.cluster)).isEmpty then .code eNORES else .ok k ts c

/-! ### Teams of a launch in dispatch order (R29, R32) -/

/-- Teams of a coverage block. -/
def blockTeams (l : Launch) (k : KDesc) (c : Cov) (b : Nat) : Nat :=
  ((handedPts l c b).length + k.teamg * k.w - 1) / (k.teamg * k.w)

def totalTeams (l : Launch) (k : KDesc) : Nat :=
  match l.cov with
  | some c => (List.range (blockCount l)).foldl (fun n b => n + blockTeams l k c b) 0
  | none => l.gx * l.gy * l.gz

/-! ### The start of a launch (R41, R43, R265) -/

/-- A launch as accepted, before its start. -/
def newLaunch (ten queue index tree : Nat) (p : Packet) (child : Bool) : Launch where
  ten := ten
  queue := queue
  index := index
  pkt := p
  kdesc := none
  form := lForm p
  replay := lReplay p
  gx := lG p 0
  gy := lG p 1
  gz := lG p 2
  tree := tree
  child := child
  next := 0
  total := 0
  liveTeams := 0
  headSince := none
  headCore := none
  aged := false
  code := 0
  started := false
  finished := false
  closed := false
  cov := none
  pendViews := []
  redo := []
  templates := []
  order := 0
  taken := []

/-- The lines of a kernel's code at this part, by line number. -/
def codeLines (s : State) (ten : Nat) (k : KDesc) : List Nat :=
  let lo := k.kbase.toNat / 64
  (List.range ((k.kbase.toNat + 4 * k.klen - 1) / 64 - lo + 1)).filterMap fun i =>
    let va := (lo + i) * 64 % 2 ^ 56
    let w := walk s ten va
    if w.code = 0 && !w.s2 then (herePa s (w.x.pa + (va - w.base))).map (· / 64) else none

/-- Every core drops the instruction-cache lines of the kernel. -/
def discardCode (s : State) (ten : Nat) (k : KDesc) : State :=
  if s.icache.isEmpty then s
  else
    let ls := codeLines s ten k
    { s with icache := s.icache.filter fun l => !ls.contains l.line }

/-- The templates that the checks of a launch read, up to one that fails. -/
def templateReads (s : State) (who : Asker) (ten : Nat) (p : Packet) : Nat → Nat → List (Nat × Nat)
  | _, 0 => []
  | j, n + 1 => (lVtab p + 64 * j, 64) :: (match readTemplatesFrom s who ten p j 1 with
    | .ok _ => templateReads s who ten p (j + 1) n
    | .fail | .ask _ _ _ => [])

/-- The reads that the checks of a launch make, up to one that fails. -/
def launchReads (s : State) (who : Asker) (ten queue index : Nat) (p : Packet) : List (Nat × Nat) :=
  let desc := match checkRead s who ten .read (lKdesc p) 128 with
    | .ok l => (match parseKDesc l with
      | some k =>
        if k.arglen ≠ 0 && lArgs p = 0 then []
        else (k.kbase.toNat % 2 ^ 64, 4) :: (match checkTgt s who ten k 0, k.sphand with
          | .ok _, some o => [((k.kbase.toNat + 4 * o) % 2 ^ 64, 4)]
          | _, _ => [])
      | none => [])
    | .fail | .ask _ _ _ => []
  (lKdesc p, 128) :: desc ++ (match readKDesc s who ten p with
    | .ok k =>
      if !gridOk p k || !producerOk s ten queue index p then []
      else (if lForm p = 1 then templateReads s who ten p 0 (lNin p + lNout p) else []) ++ (if lForm p = 2 then [(field p 0x30 8, 64)] else [])
    | .fail | .ask _ _ _ => [])

/-- The reads that the checks of a launch make leave their accessed bits and count (R302, R308). -/
def touchLaunch (s : State) (who : Asker) (ten queue index : Nat) (p : Packet) : State :=
  if launchFieldsOk p then (launchReads s who ten queue index p).foldl (fun s r => feTouch s ten r.1 r.2) s else s

/-- Start an accepted launch, or fail it; the launch waits while one of its checks does. DEDUCED (log entry 24).
DESIGN CHOICE (log entry 25). -/
def startLaunch (s : State) (lid : Nat) (who : Asker) : State :=
  match tget s.launches lid with
  | none => s
  | some l =>
    match checkLaunch s who l.ten l.queue l.index l.pkt with
    | .ask need va n => feAsk s who l.ten need va n
    | .code c =>
      let s := touchLaunch s who l.ten l.queue l.index l.pkt
      settleLaunch (failLaunch (feDone { s with launches := tput s.launches lid { l with started := true } } who) lid c) lid
    | .ok k ts c =>
      let s := feDone (touchLaunch s who l.ten l.queue l.index l.pkt) who
      let (n, s) := newSerial s
      let l := { l with kdesc := some k, cov := c, templates := ts, started := true, order := n }
      let l := { l with total := totalTeams l k }
      discardCode (feAcquire { s with launches := tput s.launches lid l }) l.ten k

/-! ### enq (R183) -/

/-- Children of a tenancy accepted and not yet started. -/
def waitingChildren (s : State) (ten : Nat) : Nat :=
  (s.launches.filter fun (_, l) => l.ten = ten && l.child && !l.started).length

/-- A launch of the tree has failed. -/
def treeFailed (s : State) (tree : Nat) : Bool :=
  (s.launches.any fun (_, l) => l.tree = tree && l.code != 0) ||
    (match tget s.trees tree with | some t => t.code != 0 | none => false)

/-- DESIGN CHOICE (log entry 65). -/
def enqStatus (s : State) (g : Group) (l : Launch) (p : Packet) : Nat :=
  if pType p != 1 || lForm p = 2 || pNote p || pBar p || pSignal p != 0 || !launchFieldsOk p then 0x01
  else if !dimsOk p then 0x03
  else if !producerOk s g.ten l.queue l.index p then 0x05
  else if 1024 ≤ waitingChildren s g.ten then 0x40
  else if treeFailed s l.tree then 0x41
  else 0

/-- Add an accepted child to the tree. DESIGN CHOICE (log entry 25). -/
def addChild (s : State) (g : Group) (l : Launch) (p : Packet) : State :=
  let (n, s) := newSerial s
  markEffects
    { s with launches := tput s.launches n (newLaunch g.ten l.queue l.index l.tree p true),
             trees := tmod s.trees l.tree fun t => { t with counter := t.counter + 1 } } g

/-- A group outside any launch has no tree, and its request fails as in a failed one. DESIGN CHOICE (log entry 25).
DESIGN CHOICE (log entry 65). -/
def execEnq (d a : VR) (cc : CC) (s : State) : Result :=
  let u : Use := { rd := [a], uni := [a], wr := [d] }
  begin_ u s fun g p =>
    if p.active == 0 then finishUse u s g p
    else withBudget u s g p ((released g p u).writeReg s.path p d cc (some (.uni 0)) fun _ => 0) <|
    if !visibleBefore g s.serial .dev then stallSince s g p 5
    else readStruct u s g p (g.uval p a) 128 128 none fun s bs =>
      match launchOf s g with
      | none => writeReg u d cc s g p (some (.uni 0x41)) fun _ => 0x41
      | some l =>
        let st := enqStatus s g l bs
        let s := if st = 0 then addChild s g l bs else s
        writeReg u d cc s g p (some (.uni (BitVec.ofNat 64 st))) fun _ => BitVec.ofNat 64 st

end Sys2Proof.Machine
end

