-- ==== Sys2Proof/Machine/Distrib.lean ====
section
/-! DEFINITION. The distributor (R25 to R32, R53, R59, R95, R266, R290 to R292): the next team or cluster of a launch, the
core, pair or quad it needs, its placement, the templates of a dependent team, and the end of a team. -/

namespace Sys2Proof.Machine

/-! ### Teams by their place in dispatch order (R29, R32) -/

/-- A team to place: its coordinates, its points in a coverage launch, and for a replacement the team replaced. -/
structure Seat where
  index : Nat
  tx : Nat
  ty : Nat
  tz : Nat
  clu : Nat
  crank : Nat
  block : Nat
  pts : Option (List CovPoint)
  redone : Nat
  old : Option Nat
  deriving DecidableEq, Repr

/-- The block that holds team i of a coverage launch, the team's number in it, and the clusters of the blocks before; the
first argument counts the blocks left. -/
def covLocate (l : Launch) (k : KDesc) (c : Cov) : Nat → Nat → Nat → Nat → Nat × Nat × Nat
  | 0, b, i, clu => (b, i, clu)
  | n + 1, b, i, clu =>
    let t := blockTeams l k c b
    if i < t then (b, i, clu) else covLocate l k c n (b + 1) (i - t) (clu + (t + k.cluster - 1) / k.cluster)

def seatOf (l : Launch) (k : KDesc) (i : Nat) : Seat :=
  match l.cov with
  | some c =>
    let (b, j, clu) := covLocate l k c (blockCount l) 0 i 0
    let n := k.teamg * k.w
    ⟨i, i, 0, 0, clu + j / k.cluster, j % k.cluster, b, some (((handedPts l c b).drop (j * n)).take n), 0, none⟩
  | none =>
    let tx := i % l.gx
    let ty := i / l.gx % l.gy
    let tz := i / (l.gx * l.gy)
    ⟨i, tx, ty, tz, tx / k.cluster + l.gx / k.cluster * (ty + l.gy * tz), tx % k.cluster, 0, none, 0, none⟩

/-- The next team of a launch, or its next cluster. -/
def nextSeats (l : Launch) (k : KDesc) : List Seat :=
  if l.total ≤ l.next then []
  else
    let n := match l.cov with
      | some c =>
        let (b, j, _) := covLocate l k c (blockCount l) 0 l.next 0
        min k.cluster (blockTeams l k c b - j)
      | none => k.cluster
    (List.range n).map fun i => seatOf l k (l.next + i)

/-- The head of a launch (R291): replacement teams first (R322), a cluster's together. -/
def headSeats (l : Launch) (k : KDesc) : List Seat :=
  let redo := l.redo.map fun (i, n, t) => { seatOf l k i with redone := n, old := some t }
  match redo with
  | [] => nextSeats l k
  | st :: _ => redo.filter fun r => r.clu = st.clu

/-! ### What is free (R12, R26, R59) -/

def freeSlots (s : State) (c : Nat) : List Nat := (List.range 31).filter fun n => (tget s.groups (c * 32 + n)).isNone

/-- Storage units reserved on scheduler k of a core. -/
def unitsUsed (s : State) (c k : Nat) : Nat :=
  (List.range 8).foldl (fun n i =>
    match tget s.groups (c * 32 + 8 * k + i) with
    | some g => if 8 * k + i = 31 then n else n + g.budget
    | none => n) 0

/-- The lowest slots of a list that have room for a budget each, at most `need` of them. -/
def pickSlots (s : State) (c budget : Nat) : List Nat → Nat → List Nat → List Nat
  | [], _, acc => acc
  | n :: t, need, acc =>
    if need ≤ acc.length then acc
    else
      let mine := (acc.filter fun m => m / 8 = n / 8).length
      if unitsUsed s c (n / 8) + budget * (mine + 1) ≤ s.caps.units.toNat then pickSlots s c budget t need (acc ++ [n])
      else pickSlots s c budget t need acc

def accOfTeam (s : State) (t : Team) : Nat :=
  match tget s.launches t.launch with
  | some l => (match l.kdesc with | some k => k.acc | none => 0)
  | none => 0

/-- Accumulator tiles of a core that no resident team owns. -/
def freeTiles (s : State) (c : Nat) : Nat :=
  8 - s.teams.foldl (fun n (_, t) =>
    match t.mode with
    | .saved _ => n
    | .running | .asked _ => if !t.ended && t.cores.contains c then n + accOfTeam s t else n) 0

/-- A granule that a tenancy's window may use. -/
def granOk (s : State) (ten gr : Nat) : Bool := match tget s.owner gr with | some t => t == ten | none => true

/-- Windows in the slice of a core. -/
def windowsIn (s : State) (c : Nat) : List (Nat × Nat) :=
  s.teams.filterMap fun (_, t) => if t.win / (128 * MiB) = c && t.winLen ≠ 0 then some (t.win, t.winLen) else none

/-- Window bytes of a slice that a tenancy could use. -/
def freeSilo (s : State) (ten c : Nat) : Nat :=
  ((List.range 128).filter fun i => granOk s ten (c * 128 + i)).length * MiB -
    (windowsIn s c).foldl (fun n (a, len) => if granOk s ten (a / MiB) then n + len else n) 0

def windowFits (s : State) (ten c len a : Nat) : Bool :=
  a + len ≤ (c + 1) * (128 * MiB) &&
    ((windowsIn s c).all fun (b, n) => decide (a + len ≤ b) || decide (b + n ≤ a)) &&
    ((List.range ((a + len - 1) / MiB - a / MiB + 1)).all fun i => granOk s ten (a / MiB + i))

/-- The lowest place of a slice for a window: the slice's start, a granule's, or the end of another window. -/
def findWindow (s : State) (ten c len : Nat) : Option Nat :=
  let base := c * (128 * MiB)
  if len = 0 then some base
  else
    let starts := ((List.range 128).map fun i => base + i * MiB) ++ (windowsIn s c).map fun (a, n) => a + n
    (starts.filter (windowFits s ten c len)).foldl (fun acc a => match acc with
      | some b => some (min a b)
      | none => some a) none

/-! ### What other heads hold (R291) -/

/-- What the waiting heads of other launches have taken on a core: slots, tiles and bytes. -/
def takenBy (s : State) (lid c : Nat) : Nat × Nat × Nat :=
  s.launches.foldl (fun acc (m, l) =>
    if m = lid then acc
    else l.taken.foldl (fun acc (core, a, b, d) =>
      if core = c then (acc.1 + a, acc.2.1 + b, acc.2.2 + d) else acc) acc) (0, 0, 0)

/-- The lowest core of a candidate. -/
def candIndex (k : KDesc) (us : List (List Nat)) : Nat :=
  let c := (us.headD []).headD 0
  if k.cluster ≤ 1 then c else c / 4 * 4

/-- The cores of the candidate that a head has picked. -/
def candCores (k : KDesc) (h : Nat) : List Nat :=
  if 1 < k.cluster then [h, h + 1, h + 2, h + 3] else if k.pair then [h, h + 1] else [h]

/-- The head has waited AGELIM. DESIGN CHOICE (log entry 29). -/
def isAged (s : State) (l : Launch) : Bool :=
  l.aged || (match l.headSince with | some t => decide (t + s.agelim * 1000 ≤ s.time) | none => false)

/-- The place of a launch among the heads: teams to be replaced go ahead of every waiting team (R322), and the others
follow in order of start (R290). -/
def headOrder (l : Launch) : Nat := (if l.redo.isEmpty then 2 ^ 64 else 0) + l.order

/-- An earlier aged head needs the core. -/
def agedOn (s : State) (order c : Nat) : Bool :=
  s.launches.any fun (_, l) => isAged s l && decide (headOrder l < order) &&
    (match l.headCore, l.kdesc with | some h, some k => (candCores k h).contains c | _, _ => false)

/-- A team and, in a cluster, its fellow members. -/
def mates (s : State) (k : KDesc) (t : Team) : List Team :=
  if k.cluster ≤ 1 then [t] else (s.teams.filter fun (_, u) => u.launch = t.launch && u.clu = t.clu && !u.ended).map (·.2)

/-- The units, or quads of units, at which saved members can resume: their own, or, where one of those cores is lost, any of the
die (R293, R322). -/
def resumeUnits (s : State) (k : KDesc) (own : List (List Nat)) : List (List (List Nat)) :=
  if own.all fun u => u.all (inService s) then [own]
  else
    let die := ((own.headD []).headD 0) / 16
    if k.cluster ≤ 1 then (unitsIn s k (16 * die) 16).map fun u => [u]
    else (List.range 4).map fun q => unitsIn s k (16 * die + 4 * q) 4

/-- The cores that a saved team resumes on, or may resume on. -/
def wantedCores (s : State) (t : Team) : List Nat :=
  match (tget s.launches t.launch).bind (·.kdesc) with
  | some k => (resumeUnits s k ((mates s k t).map (·.cores))).flatten.flatten
  | none => []

/-- A pre-empted team that can resume is placed ahead of every waiting team on its cores (R293).
DESIGN CHOICE (log entry 27). -/
def savedOn (s : State) (c : Nat) : Bool :=
  s.teams.any fun (_, t) =>
    (match t.mode with | .saved _ => (wantedCores s t).contains c | .running | .asked _ => false) &&
      (match tget s.launches t.launch with | some l => !(tcbOf s l.ten).frozen | none => false)

/-! ### Fitting a member on a core or a pair -/

/-- Group keys and window of a team on a unit, where it fits beside what others hold. -/
def fitUnit (s : State) (lid : Nat) (l : Launch) (k : KDesc) (u : List Nat) : Option (List Nat × Nat) :=
  let need := k.teamg / u.length
  let core := fun c : Nat =>
    let (a, b, _) := takenBy s lid c
    let free := freeSlots s c
    let slots := pickSlots s c k.budget free need []
    if !agedOn s (headOrder l) c && !savedOn s c && need + a ≤ free.length && slots.length = need && k.acc + b ≤ freeTiles s c then
      some (slots.map (c * 32 + ·))
    else none
  let c0 := u.headD 0
  let (_, _, d) := takenBy s lid c0
  if k.silo + d ≤ freeSilo s l.ten c0 then
    match u.mapM core, findWindow s l.ten c0 k.silo with
    | some keys, some w => some (keys.flatten, w)
    | _, _ => none
  else none

/-- Members to units in order. -/
def assign (s : State) (lid : Nat) (l : Launch) (k : KDesc) : List (List Nat) → List Seat → Option (List (Seat × List Nat × List Nat × Nat))
  | _, [] => some []
  | [], _ :: _ => none
  | u :: us, st :: ss =>
    match fitUnit s lid l k u with
    | some (keys, w) => (assign s lid l k us ss).map fun r => (st, u, keys, w) :: r
    | none => assign s lid l k us (st :: ss)

/-- Free slots, tiles and window bytes of a candidate, summed over its cores. DESIGN CHOICE (log entry 27). -/
def candFree (s : State) (lid ten : Nat) (us : List (List Nat)) : Nat × Nat × Nat :=
  us.flatten.foldl (fun acc c =>
    let (a, b, d) := takenBy s lid c
    (acc.1 + ((freeSlots s c).length - a), acc.2.1 + (freeTiles s c - b), acc.2.2 + (freeSilo s ten c - d))) (0, 0, 0)

def moreFree (x y : Nat × Nat × Nat) : Bool :=
  decide (y.1 < x.1) || (x.1 == y.1 && (decide (y.2.1 < x.2.1) || (x.2.1 == y.2.1 && decide (y.2.2 < x.2.2))))

/-- The candidate that R291 picks. -/
def bestCand (s : State) (lid ten : Nat) : List (List (List Nat)) → Option (List (List Nat))
  | [] => none
  | us :: t =>
    match bestCand s lid ten t with
    | some vs => if moreFree (candFree s lid ten vs) (candFree s lid ten us) then some vs else some us
    | none => some us

/-! ### Placing -/

/-- Spill blocks held by teams of a launch. -/
def usedBlks (s : State) (lid : Nat) : List Nat :=
  s.teams.filterMap fun (_, t) => if t.launch = lid && !t.ended then some t.spblk else none

/-- The lowest n free blocks of the pool; which free block a team is given is left open. DESIGN CHOICE (log entry 27). -/
def freeBlks (s : State) (lid : Nat) (k : KDesc) (n : Nat) : Option (List Nat) :=
  let used := usedBlks s lid
  let l := (((List.range (used.length + n)).filter fun b => !used.contains b).take n).filter fun b => decide (b < k.sppooln)
  if l.length = n then some l else none

/-- TSB of R95. -/
def spillBlock (k : KDesc) : Nat := k.teamg * k.w * k.spill + k.teamg * 64 * (16 + 8 * k.w)

/-- Assign the unowned granules of a window to the tenancy, each scrubbed to zero (R300). -/
def ownWindow (s : State) (ten a len : Nat) : State :=
  if len = 0 then s
  else (List.range ((a + len - 1) / MiB - a / MiB + 1)).foldl (fun s i =>
    let gr := a / MiB + i
    match tget s.owner gr with
    | some _ => s
    | none => { s with owner := tput s.owner gr ten,
                       mem := s.mem.filter fun c => c.1 / MiB != gr,
                       poison := s.poison.filter (· / MiB != gr),
                       absent := s.absent.filter (· * 64 / MiB != gr) }) s

/-- Sixteen tiles of unspecified contents (R53). DESIGN CHOICE (log entry 12). -/
def freshTiles (n : Nat) : Vector Tile 16 :=
  ⟨#[Tile.fresh n, Tile.fresh (n + 1), Tile.fresh (n + 2), Tile.fresh (n + 3), Tile.fresh (n + 4), Tile.fresh (n + 5),
     Tile.fresh (n + 6), Tile.fresh (n + 7), Tile.fresh (n + 8), Tile.fresh (n + 9), Tile.fresh (n + 10), Tile.fresh (n + 11),
     Tile.fresh (n + 12), Tile.fresh (n + 13), Tile.fresh (n + 14), Tile.fresh (n + 15)], rfl⟩

/-- Open views of a team's templates, by register. -/
def templateRegs (vs : List (Nat × OpenView)) : Vector (Option OpenView) 16 :=
  vs.foldl (fun acc (j, v) => if h : j < 16 then acc.set j (some v) h else acc) (Vector.replicate 16 none)

/-- Lanes that hold a point, or every lane (R32). -/
def liveLanes (w : Nat) (pts : Option (List (Option CovPoint))) : Mask :=
  match pts with
  | some l => maskOf lanes64 fun i => (l[i]?).join.isSome
  | none => widthMask w

/-- A group at its start (R53). DESIGN CHOICE (log entry 5). -/
def startGroup (s : State) (ten tid gid : Nat) (k : KDesc) (pts : Option (List (Option CovPoint)))
    (views : Vector (Option OpenView) 16) : Group :=
  let live := liveLanes k.w pts
  let p : Path := ⟨slicesOf live, live, .boundary 0, ⟨k.kbase, k.klen, .user⟩, none, none, none, false, false, none, [], 0, .none, false, false⟩
  { team := tid, gid := gid, w := k.w, ten := ten,
    regs := Vector.replicate 64 VReg.reset,
    masks := Vector.replicate 8 0,
    live := live,
    views := views,
    allot := k.allot, budget := k.budget, ratel := 0, mstat := 0, fstat := 0, fpinv := k.fpinv,
    tvec := (tcbOf s ten).tvinit,
    tlink := Vector.replicate 16 0,
    rstack := Vector.replicate 16 [],
    paths := if live == 0 then Vector.replicate 16 none else (Vector.replicate 16 none).set 0 (some p),
    last := 15, ops := [], closed := [], nbatch := 0, reports := [], recs := [], handler := none, wcount := 0, tried := [], wlast := 0,
    barAt := Vector.replicate 32 0,
    points := pts.getD [], rpoison := [] }

/-- The points of group gid of a team, by lane. -/
def groupPts (k : KDesc) (gid : Nat) (pts : Option (List CovPoint)) : Option (List (Option CovPoint)) :=
  pts.map fun l => (List.range k.w).map fun i => l[gid * k.w + i]?

/-- A slot takes a new group: its trace starts afresh with a SYNC (R331). -/
def seatTrace (s : State) (key : Nat) : State :=
  let o := obsOf s (coreOf key)
  syncStart (setObs s (coreOf key) { o with synced := sdel o.synced (slotOf key) }) key

/-- Place one team: its window, its spill block, its tiles and its groups. -/
def placeTeam (s : State) (lid : Nat) (l : Launch) (k : KDesc) (views : List (Nat × OpenView)) (tid : Nat)
    (st : Seat) (u keys : List Nat) (win blk : Nat) : State :=
  let s := ownWindow s l.ten win k.silo
  let t : Team :=
    { launch := lid, index := st.index, tx := st.tx, ty := st.ty, tz := st.tz, clu := st.clu, crank := st.crank, cores := u,
      gkeys := keys, win := win, winLen := k.silo, spb := k.sppool + BitVec.ofNat 64 (blk * spillBlock k), spblk := blk,
      block := st.block, mode := .running, saved := [], tiles := freshTiles s.free, bars := Vector.replicate 16 0,
      effects := false, redispatched := st.redone, ended := false }
  let s := { s with free := s.free + 16, teams := tput s.teams tid t }
  let regs := templateRegs views
  let s := { s with groups := keys.zipIdx.foldl (fun gs (key, gid) =>
    tput gs key (startGroup s l.ten tid gid k (groupPts k gid st.pts) regs)) s.groups }
  let s := if views.isEmpty then s else u.foldl dropReadCache s
  keys.foldl seatTrace s

/-- The views of a seat: those opened for it, or those of the team it replaces. DESIGN CHOICE (log entry 26). -/
def seatViews (s : State) (l : Launch) (st : Seat) (i : Nat) : List (Nat × OpenView) :=
  match st.old with
  | some t => s.trellis.filterMap fun r => if r.team = t && r.group.isNone then some (r.wreg, ⟨r.desc, r.ticket, r.homes⟩) else none
  | none =>
    let n := l.templates.length
    ((l.pendViews.drop (i * n)).take n).zipIdx.map fun (v, j) => (j, v)

/-- The registered templates of a seat take its team. -/
def tagViews (s : State) (lid tid : Nat) (views : List (Nat × OpenView)) : State :=
  { s with trellis := s.trellis.map fun r =>
      if r.team = pendTeam lid && r.group.isNone && views.any (fun (_, v) => v.ticket == r.ticket) then { r with team := tid } else r }

/-- Place every member of a head, in rank order; the teams placed. -/
def placeAll (s : State) (lid : Nat) (l : Launch) (k : KDesc) : List ((Seat × List Nat × List Nat × Nat) × Nat) → Nat → State × List Nat
  | [], _ => (s, [])
  | ((st, u, keys, w), blk) :: t, i =>
    let vs := seatViews s l st i
    let (tid, s) : Nat × State := match st.old with | some o => (o, s) | none => newSerial s
    let s := placeTeam (tagViews s lid tid vs) lid l k vs tid st u keys w blk
    let (s, l) := placeAll s lid l k t (i + 1)
    (s, tid :: l)

/-- The launch after its head has been placed. DESIGN CHOICE (log entry 29). -/
def headPlaced (l : Launch) (seats : List Seat) : Launch :=
  let redo := l.redo.filter fun (i, _, _) => !(seats.any fun st => st.index = i)
  let l := { l with liveTeams := l.liveTeams + seats.length, headSince := none, headCore := none, aged := false, taken := [] }
  if l.redo.isEmpty then
    { l with next := l.next + seats.length, pendViews := [], finished := decide (l.total ≤ l.next + seats.length) }
  else { l with redo := redo }

/-- Each input view of the waiting head has no older live view that may meet it with a write (R31), the head's own templates apart.
DEDUCED (log entry 99). -/
def inputsFree (s : State) (lid : Nat) (l : Launch) : Bool :=
  !l.redo.isEmpty || s.trellis.all fun v =>
    !(v.team == pendTeam lid && decide (v.wreg < lNin l.pkt)) ||
      s.trellis.all fun u => (u.team == v.team && u.ticket.time == v.ticket.time) || !waitsOn u v

/-- A launch has a head that waits to be placed. -/
def headReady (s : State) (l : Launch) (k : KDesc) : Bool :=
  l.started && l.code == 0 && !l.closed && !(tcbOf s l.ten).frozen &&
    (!l.redo.isEmpty ||
      (decide (l.next < l.total) && producerDone s l &&
        decide (l.templates.length * (nextSeats l k).length ≤ l.pendViews.length)))

/-- The members of the head, each with its place, where the head can be placed now. -/
def findPlace (s : State) (lid : Nat) (l : Launch) (k : KDesc) (seats : List Seat) :
    Option (List (Seat × List Nat × List Nat × Nat)) :=
  let cands := (candidates s k seats.length).filter fun us => match l.headCore with
    | some h => candIndex k us == h
    | none => true
  (bestCand s lid l.ten (cands.filter fun us => (assign s lid l k us seats).isSome)).bind fun us => assign s lid l k us seats

/-- Place the head of a launch, where that can be done now. -/
def tryPlace (s : State) (lid : Nat) : Option State :=
  match tget s.launches lid with
  | none => none
  | some l => match l.kdesc with
    | none => none
    | some k =>
      if !headReady s l k || !inputsFree s lid l then none
      else
        let seats := headSeats l k
        match freeBlks s lid k seats.length, findPlace s lid l k seats with
        | some blks, some places =>
          let (s, tids) := placeAll s lid l k (places.zip blks) 0
          let s := { s with launches := tmod s.launches lid fun l => headPlaced l seats }
          let (n, s) := newSerial s
          some { s with clusters := tput s.clusters n ⟨lid, (seats.headD (seatOf l k 0)).clu, tids, Vector.replicate 16 0⟩ }
        | _, _ => none

/-! ### A head that waits (R291) -/

/-- What a waiting head takes on one core of its candidate. DESIGN CHOICE (log entry 29). -/
def takeOn (s : State) (lid : Nat) (l : Launch) (k : KDesc) (c : Nat) (first : Bool) (units : Nat) : Nat × Nat × Nat × Nat :=
  let (a, b, d) := takenBy s lid c
  let (x, y, z) := match l.taken.find? fun (core, _, _, _) => core == c with
    | some (_, t) => t
    | none => (0, 0, 0)
  if isAged s l && agedOn s (headOrder l) c then (c, x, y, z)
  else
    (c, max x (min (k.teamg / units) ((freeSlots s c).length - a)), max y (min k.acc (freeTiles s c - b)),
      if first then max z (min k.silo (freeSilo s l.ten c - d)) else z)

/-- A head that cannot be placed picks its candidate, and takes what is free there. DESIGN CHOICE (log entry 29). -/
def takeMore (s : State) (lid : Nat) : State :=
  match tget s.launches lid with
  | none => s
  | some l => match l.kdesc with
    | none => s
    | some k =>
      if !headReady s l k then s
      else
        let n := (headSeats l k).length
        let cands := candidates s k n
        let cand := match l.headCore with
          | some h => cands.find? fun us => candIndex k us == h
          | none => bestCand s lid l.ten cands
        match cand with
        | none => settleLaunch (failLaunch s lid eNORES) lid
        | some us =>
          let taken := ((us.take n).map fun u => u.map fun c => takeOn s lid l k c (c == u.headD 0) u.length).flatten
          let l := { l with headSince := some (l.headSince.getD s.time), headCore := some (candIndex k us), taken := taken }
          { s with launches := tput s.launches lid l }

/-- Started launches that are tried before one, in order. -/
def olderLaunches (s : State) (order : Nat) : List Nat :=
  let l := s.launches.filterMap fun (m, l) =>
    if l.started && decide (headOrder l < order) && l.code = 0 && !l.closed then some (headOrder l, m) else none
  (l.foldl (fun t (o, m) => tput t o m) []).map (·.2)

/-- A head that takes what is free before a younger head can: one that has picked nothing yet, and an aged one. What another
head has not yet taken a younger one may be placed on (R291). -/
def takesFirst (s : State) (lid : Nat) : Bool :=
  match tget s.launches lid with
  | some l => l.headCore.isNone || isAged s l
  | none => false

/-- One decision of the distributor for a launch: launches are tried oldest first, so nothing happens while an older one can
be placed. A child starts here. DESIGN CHOICE (log entry 25). DESIGN CHOICE (log entry 29). -/
def placementStep (s : State) (lid : Nat) : State :=
  match tget s.launches lid with
  | none => s
  | some l =>
    if !l.started then (if l.child && !(tcbOf s l.ten).frozen then startLaunch s lid (.launch lid) else s)
    else
      let older := olderLaunches s (headOrder l)
      if older.any fun m => (tryPlace s m).isSome then s
      else
        let s := older.foldl (fun s m => if takesFirst s m then takeMore s m else s) s
        match tryPlace s lid with
        | some s => s
        | none => takeMore s lid

def execTeamPlacement (lid : Nat) (s : State) : Result := .next (placementStep s lid)

/-- HEAD_AGED: the head has waited AGELIM. -/
def headAgedStep (s : State) (lid : Nat) : State :=
  match tget s.launches lid with
  | some l =>
    (match l.headSince with
    | some t => if !l.aged && decide (t + s.agelim * 1000 ≤ s.time) then { s with launches := tput s.launches lid { l with aged := true } } else s
    | none => s)
  | none => s

def execHeadAged (lid : Nat) (s : State) : Result := .next (headAgedStep s lid)

/-! ### Dependent teams (R31, R43, R266) -/

/-- The view of template bytes for a team. -/
def templateView (l : List Byte) (st : Seat) : Option ViewDesc :=
  (parseView l).map fun v =>
    let step := (st.tx : Int) * sval 64 (field l 0x28 8) + st.ty * sval 64 (field l 0x30 8) + st.tz * sval 64 (field l 0x38 8)
    { v with base := BitVec.ofNat 64 (vaOf ((v.base.toNat : Int) + step) % 2 ^ 56) }

/-- The views of a team's templates, with tickets of this ns; the walks fill the front end's TLB. DEDUCED (log entry 51). -/
def openTemplates (s : State) (l : Launch) (st : Seat) : State × List OpenView :=
  l.templates.zipIdx.foldl (fun (s, vs) (bs, j) =>
    match templateView bs st with
    | some v => let (s, homes) := viewHomes s feCore l.ten v; (s, vs ++ [⟨v, ⟨s.time, 64, j⟩, homes⟩])
    | none => (s, vs)) (s, [])

/-- Every shard has an entry free for each of a team's templates that it takes (R268, R294). -/
def templatesFit (s : State) (vs : List OpenView) : Bool :=
  vs.all fun v => shardsFree s v.homes s.serial &&
    v.homes.all fun h => decide (shardUsed s h + vs.countP (fun u => u.homes.contains h) ≤ 2048)

/-- The next team's templates are opened, at most one team's in each ns and with an entry free at every shard. -/
def dependentStep (s : State) (lid : Nat) : State :=
  match tget s.launches lid with
  | none => s
  | some l => match l.kdesc with
    | none => if l.child && !l.started && !(tcbOf s l.ten).frozen then startLaunch s lid (.launch lid) else s
    | some k =>
      let n := l.templates.length
      let seats := nextSeats l k
      let done := l.pendViews.length / n
      match seats[done]? with
      | none => s
      | some st =>
        if l.form != 1 || n == 0 || l.code != 0 || (tcbOf s l.ten).frozen || !producerDone s l || decide (s.time < s.lastOpen) then s
        else
          let (s, vs) := openTemplates s l st
          if !templatesFit s vs then s
          else
            let regs := vs.zipIdx.map fun (v, j) => (⟨v.ticket, v.desc, v.homes, none, pendTeam lid, l.ten, j⟩ : Reg)
            { s with trellis := s.trellis ++ regs, lastOpen := s.time + 1, lastTicket := some (s.time, 0),
                     launches := tput s.launches lid { l with pendViews := l.pendViews ++ vs } }

def execDependentTeamDispatch (lid : Nat) (s : State) : Result := .next (dependentStep s lid)

/-! ### The end of a team (R27, R32, R209, R210, R269) -/

/-- Kept and audit points that no stcov wrote. DEDUCED (log entry 30). -/
def unwritten (s : State) (t : Team) : List CovPoint :=
  (t.gkeys.map fun k => match tget s.groups k with
    | some g => g.points.filterMap fun p => p.bind fun q => if q.wrote then none else some q
    | none => []).flatten

/-- Write them as zero of OTYPE. -/
def zeroPoints (s : State) (lid : Nat) (l : Launch) (c : Cov) (ps : List Pt) : State := ps.foldl (fun s q => writePoint s lid l c q 0 false) s

/-- The blocks that are finished once every team placed so far of them has ended. -/
def markBlock (s : State) (lid b : Nat) : State :=
  match tget s.launches lid with
  | none => s
  | some l => match l.cov, l.kdesc with
    | some c, some k =>
      let passed := l.finished || decide (b < (covLocate l k c (blockCount l) 0 l.next 0).1)
      let live := s.teams.any fun (_, t) => t.launch = lid && t.block = b && !t.ended
      let again := l.redo.any fun (i, _, _) => (seatOf l k i).block = b
      if passed && !live && !again then
        { s with launches := tput s.launches lid { l with cov := some { c with finished := sadd c.finished b } } }
      else s
    | _, _ => s

/-- The end of a team whose last group is gone. -/
def endTeam (s : State) (tid : Nat) (t : Team) : State :=
  let s := retireRelease s fun r => r.team = tid && r.group.isNone
  let s := dropTeam s tid false
  let s := { s with launches := tmod s.launches t.launch fun l => { l with liveTeams := l.liveTeams - 1 } }
  settleLaunch (markBlock s t.launch t.block) t.launch

/-- DEDUCED (log entry 30). -/
def teamEndStep (s : State) (tid : Nat) : State :=
  match tget s.teams tid with
  | none => s
  | some t =>
    if t.ended || t.gkeys.isEmpty || !(t.gkeys.all fun k => match tget s.groups k with | some g => g.gone | none => false) then s
    else match tget s.launches t.launch with
      | none => s
      | some l =>
        match l.cov with
        | none => endTeam s tid t
        | some c =>
          let ps := (unwritten s t).map fun q => (q.x, q.y, q.z)
          match ps.find? (pointWaits s l c) with
          | some q => fePostAt s l.ten (pointPlace l c q).1
          | none => if ps.all (pointOk s l c) then endTeam (zeroPoints s t.launch l c ps) tid t else s

def execTeamEnd (tid : Nat) (s : State) : Result := .next (teamEndStep s tid)

end Sys2Proof.Machine
end

