-- ==== Sys2Proof/Machine/Flt.lean ====
section
/-! DEFINITION. The FLT class: floating-point and conversion instructions (R132 to R148). -/

namespace Sys2Proof.Machine

/-! ### Writing a result with its flags (R132, R134, R135) -/

/-- A lane's result: its word and the flags it raises. -/
abbrev LaneRes := Word × BitVec 5

def laneFlags (m : Mask) (f : Nat → LaneRes) : BitVec 5 :=
  lanes64.foldl (fun fl l => if bitOf m l then fl ||| (f l).2 else fl) 0

/-- The active lanes that would raise NV. -/
def invalidLanes (p : Path) (f : Nat → LaneRes) : Mask :=
  maskOf lanes64 fun l => bitOf p.active l && (f l).2 &&& fNV != 0

/-- FPINV traps for this instruction (R135): INVEN is 1 and this is no re-execution after FPINV. -/
def invTraps (g : Group) (p : Path) : Bool := g.fpinv && !p.noinv

/-- The group after the lanes of `p` have been written and their flags added to FSTAT. -/
def fltGroup (u : Use) (d : VR) (cc : CC) (g : Group) (pi : Nat) (p : Path) (sh : Option Shape) (f : Nat → LaneRes) : Group :=
  let g1 := ((released g p u).writeReg pi p d cc sh fun l => (f l).1).clearPoison d p.active
  { g1 with fstat := g1.fstat ||| laneFlags p.active f }

/-- The group after a trap of some lanes: the lanes `done` have been written, and none where there is no such lane. -/
def fltDone (u : Use) (d : VR) (cc : CC) (g : Group) (pi : Nat) (p : Path) (done : Mask) (sh : Option Shape)
    (f : Nat → LaneRes) : Group :=
  if done == 0 then released g p u else fltGroup u d cc g pi { p with only := some done } sh f

/-- Write a floating-point result. REGBUDGET comes first (R108): it is judged on the write of the lanes that complete, or, with
none, on the write of every active lane. Then POISON, then FPINV, then the write and the flags. Where one lane reads a poisoned
register and another would raise NV, POISON is taken and the NV lane completes with its default result and its flag: the spec
orders the traps and does not say what becomes of that lane. DESIGN CHOICE (log entry 98). -/
def writeFlt (u : Use) (d : VR) (cc : CC) (s : State) (g : Group) (p : Path) (sh : Option Shape) (f : Nat → LaneRes) :
    Result :=
  let bad := poisonLanes g p u.rd
  let nv := invalidLanes p f
  let off := if bad != 0 then bad else if invTraps g p then nv else 0
  let done := p.active &&& ~~~off
  let g1 := fltGroup u d cc g s.path (if done == 0 then p else { p with only := some done }) sh f
  if overBudget (released g p u) g1 then trapOut s g p (budgetTrap s g p)
  else if bad != 0 then
    trapOut s (fltDone u d cc g s.path p done sh f) p { p.trapRec cPOISON with fault := bad, done := done }
  else if invTraps g p && nv != 0 then
    trapOut s (fltDone u d cc g s.path p done sh f) p { p.trapRec cFPINV with fault := nv, done := done }
  else finish s (fltGroup u d cc g s.path p sh f) p u.len

/-- One-operand row. -/
def flt1 (u : Use) (f : Word → LaneRes) (d a : VR) (cc : CC) (s : State) : Result :=
  begin_ u s fun g p =>
    writeFlt u d cc s g p (uni1 (fun x => (f x).1) (g.shp p a)) fun l => f (g.val a l)

/-- Two-operand row. -/
def flt2 (f : Word → Word → LaneRes) (d a b : VR) (cc : CC) (s : State) : Result :=
  let u : Use := { rd := [a, b], wr := [d], lanewise := true }
  begin_ u s fun g p =>
    writeFlt u d cc s g p (uni2 (fun x y => (f x y).1) (g.shp p a) (g.shp p b)) fun l => f (g.val a l) (g.val b l)

/-- Row that also reads its destination. -/
def flt3 (f : Word → Word → Word → LaneRes) (d a b : VR) (cc : CC) (s : State) : Result :=
  let u : Use := { rd := [d, a, b], lanewise := true }
  begin_ u s fun g p =>
    writeFlt u d cc s g p (uni3 (fun z x y => (f z x y).1) (g.shp p d) (g.shp p a) (g.shp p b)) fun l =>
      f (g.val d l) (g.val a l) (g.val b l)

/-- A result as a lane's word, zero-extended. -/
def FR.lane (r : FR) : LaneRes := (BitVec.ofNat 64 r.bits, r.fl)

def un1 (t : FT) (op : Fmt → FV → FR) (d a : VR) (cc : CC) (s : State) : Result :=
  flt1 { rd := [a], wr := [d], lanewise := true } (fun x => (op (fmtOf t) ((fmtOf t).decode x.toNat)).lane) d a cc s
def bin2 (t : FT) (op : Fmt → FV → FV → FR) (d a b : VR) (cc : CC) (s : State) : Result :=
  flt2 (fun x y => (op (fmtOf t) ((fmtOf t).decode x.toNat) ((fmtOf t).decode y.toNat)).lane) d a b cc s
def tri3 (t : FT) (op : Fmt → FV → FV → FV → FR) (d a b : VR) (cc : CC) (s : State) : Result :=
  flt3 (fun z x y => (op (fmtOf t) ((fmtOf t).decode x.toNat) ((fmtOf t).decode y.toNat) ((fmtOf t).decode z.toNat)).lane)
    d a b cc s

/-! ### R136 -/

def execFadd (d a b : VR) (cc : CC) (rm : RM) (t : FT) (s : State) : Result := bin2 t (fun f => f.add rm) d a b cc s
def execFsub (d a b : VR) (cc : CC) (rm : RM) (t : FT) (s : State) : Result := bin2 t (fun f => f.sub rm) d a b cc s
def execFmul (d a b : VR) (cc : CC) (rm : RM) (t : FT) (s : State) : Result := bin2 t (fun f => f.mul rm) d a b cc s
def execFma (d a b : VR) (cc : CC) (rm : RM) (t : FT) (s : State) : Result := tri3 t (fun f => f.fma rm) d a b cc s
def execFms (d a b : VR) (cc : CC) (rm : RM) (t : FT) (s : State) : Result :=
  tri3 t (fun f x y z => f.fma rm x y z.neg) d a b cc s
def execFnma (d a b : VR) (cc : CC) (rm : RM) (t : FT) (s : State) : Result :=
  tri3 t (fun f x y z => f.fma rm x.neg y z) d a b cc s
def execFrcp (d a : VR) (cc : CC) (rm : RM) (t : FT) (s : State) : Result := un1 t (fun f => f.rcp rm) d a cc s
def execFrsq (d a : VR) (cc : CC) (rm : RM) (t : FT) (s : State) : Result := un1 t (fun f => f.rsqrt rm) d a cc s
def execFsqrt (d a : VR) (cc : CC) (rm : RM) (t : FT) (s : State) : Result := un1 t (fun f => f.sqrt rm) d a cc s
def execFdiv (d a b : VR) (cc : CC) (rm : RM) (t : FT) (s : State) : Result := bin2 t (fun f => f.div rm) d a b cc s
def execFscaleb (d a b : VR) (cc : CC) (rm : RM) (t : FT) (s : State) : Result :=
  flt2 (fun x y => ((fmtOf t).scaleb rm ((fmtOf t).decode x.toNat) y.toInt).lane) d a b cc s

/-! ### R137, R138 -/

def minmaxRow (isMax nanWins : Bool) (t : FT) (d a b : VR) (cc : CC) (s : State) : Result :=
  flt2 (fun x y => ((fmtOf t).minmax isMax nanWins x.toNat y.toNat).lane) d a b cc s
def execFmin (d a b : VR) (cc : CC) (t : FT) (s : State) : Result := minmaxRow false false t d a b cc s
def execFmax (d a b : VR) (cc : CC) (t : FT) (s : State) : Result := minmaxRow true false t d a b cc s
def execFminm (d a b : VR) (cc : CC) (t : FT) (s : State) : Result := minmaxRow false true t d a b cc s
def execFmaxm (d a b : VR) (cc : CC) (t : FT) (s : State) : Result := minmaxRow true true t d a b cc s

/-- The encoding with sign bit `neg`, or the canonical NaN. -/
def signFn (t : FT) (neg : Bool) (x : Word) : LaneRes :=
  let f := fmtOf t
  (BitVec.ofNat 64 (if (f.decode x.toNat).isNan then f.nan else x.toNat % f.signBit + f.sgn neg), 0)
def signOf (t : FT) (x : Word) : Bool := x.toNat / (fmtOf t).signBit % 2 == 1
def execFabs (d a : VR) (cc : CC) (t : FT) (s : State) : Result :=
  flt1 { rd := [a], wr := [d], lanewise := true } (signFn t false) d a cc s
def execFneg (d a : VR) (cc : CC) (t : FT) (s : State) : Result :=
  flt1 { rd := [a], wr := [d], lanewise := true } (fun x => signFn t (!signOf t x) x) d a cc s
def execFcopysign (d a b : VR) (cc : CC) (t : FT) (s : State) : Result :=
  flt2 (fun x y => signFn t (signOf t y) x) d a b cc s

/-! ### R139 to R142 -/

def execFcmp (d a b : VR) (cc : CC) (r : FRel) (t : FT) (s : State) : Result :=
  flt2 (fun x y => let (h, fl) := fcmpFn (fmtOf t) r x.toNat y.toNat
                   (if h then 1 else 0, fl)) d a b cc s
def execFclass (d a : VR) (cc : CC) (t : FT) (s : State) : Result :=
  flt1 { rd := [a], wr := [d], lanewise := true } (fun x => (BitVec.ofNat 64 (fclassFn (fmtOf t) x.toNat), 0)) d a cc s
def execFexp2 (d a : VR) (cc : CC) (t : FT) (s : State) : Result := un1 t Fmt.exp2 d a cc s
def execFlog2 (d a : VR) (cc : CC) (t : FT) (s : State) : Result := un1 t Fmt.log2 d a cc s
def execFsin (d a : VR) (cc : CC) (t : FT) (s : State) : Result := un1 t Fmt.sin d a cc s
def execFcos (d a : VR) (cc : CC) (t : FT) (s : State) : Result := un1 t Fmt.cos d a cc s
def execFrnd (d a : VR) (cc : CC) (rm : RM) (t : FT) (s : State) : Result := un1 t (fun f => f.rnd rm) d a cc s
def execFfrac (d a : VR) (cc : CC) (t : FT) (s : State) : Result := un1 t Fmt.frac d a cc s

/-! ### R143 to R148 -/

def execCvt (d a : VR) (cc : CC) (sat : Bool) (rm : RM) (ct from_ : CT) (s : State) : Result :=
  flt1 { rd := [a], wr := [d], len := 2, lanewise := true } (cvtFn sat rm ct from_) d a cc s

/-- RNE16 or RNEBF of two f32 values into one word. -/
def packFn (h : Fmt) (x y : Word) : LaneRes :=
  let lo := toFloat h false .rne (fmtF32.decode x.toNat)
  let hi := toFloat h false .rne (fmtF32.decode y.toNat)
  (BitVec.ofNat 64 (lo.bits + hi.bits * 2 ^ 16), lo.fl ||| hi.fl)
def execPackF16x2 (d a b : VR) (cc : CC) (s : State) : Result := flt2 (packFn fmtF16) d a b cc s
def execPackBf16x2 (d a b : VR) (cc : CC) (s : State) : Result := flt2 (packFn fmtBf16) d a b cc s
/-- A half of a word, widened exactly to f32. -/
def unpackFn (h : Fmt) (lo : Nat) (x : Word) : LaneRes := (toFloat fmtF32 false .rne (h.decode (x.toNat / 2 ^ lo))).lane
def execUnpackLoF16x2 (d a : VR) (cc : CC) (s : State) : Result :=
  flt1 { rd := [a], wr := [d], lanewise := true } (unpackFn fmtF16 0) d a cc s
def execUnpackHiF16x2 (d a : VR) (cc : CC) (s : State) : Result :=
  flt1 { rd := [a], wr := [d], lanewise := true } (unpackFn fmtF16 16) d a cc s
def execUnpackLoBf16x2 (d a : VR) (cc : CC) (s : State) : Result :=
  flt1 { rd := [a], wr := [d], lanewise := true } (unpackFn fmtBf16 0) d a cc s
def execUnpackHiBf16x2 (d a : VR) (cc : CC) (s : State) : Result :=
  flt1 { rd := [a], wr := [d], lanewise := true } (unpackFn fmtBf16 16) d a cc s

/-- R148: the key of a value and an index. -/
def ordkeyFn (nanlo : Bool) (t : FT) (x y : Word) : LaneRes :=
  let v := (fmtOf t).decode x.toNat
  let e := (toFloat fmtF32 false .rne v).bits
  let key := if v.isNan then (if nanlo then 0 else 0xFFFFFFFF)
    else if e < 2 ^ 31 then e + 2 ^ 31 else 2 ^ 32 - 1 - e
  (BitVec.ofNat 64 (key * 2 ^ 32 + (0xFFFFFFFF - y.toNat % 2 ^ 32)), 0)
def execOrdkey (d a b : VR) (cc : CC) (nanlo : Bool) (t : FT) (s : State) : Result :=
  flt2 (ordkeyFn nanlo t) d a b cc s

def halfFmt (bf : Bool) : Fmt := if bf then fmtBf16 else fmtF16
/-- Two independent halves, each with one rounding (R147). -/
def packedFn (bf : Bool) (op : Fmt → FV → FV → FV → FR) (z x y : Word) : LaneRes :=
  let f := halfFmt bf
  let half (w : Word) (o : Nat) : FV := f.decode (w.toNat / 2 ^ o)
  let lo := op f (half x 0) (half y 0) (half z 0)
  let hi := op f (half x 16) (half y 16) (half z 16)
  (BitVec.ofNat 64 (lo.bits + hi.bits * 2 ^ 16), lo.fl ||| hi.fl)
def execPackedFadd (d a b : VR) (cc : CC) (bf : Bool) (s : State) : Result :=
  flt2 (packedFn bf (fun f x y _ => f.add .rne x y) 0) d a b cc s
def execPackedFsub (d a b : VR) (cc : CC) (bf : Bool) (s : State) : Result :=
  flt2 (packedFn bf (fun f x y _ => f.sub .rne x y) 0) d a b cc s
def execPackedFmul (d a b : VR) (cc : CC) (bf : Bool) (s : State) : Result :=
  flt2 (packedFn bf (fun f x y _ => f.mul .rne x y) 0) d a b cc s
def execPackedFma (d a b : VR) (cc : CC) (bf : Bool) (s : State) : Result :=
  flt3 (packedFn bf fun f => f.fma .rne) d a b cc s

end Sys2Proof.Machine
end

