-- ==== Sys2Proof/Machine/Frames.lean ====
section
/-! DEFINITION. Messages that arrive from other parts (R312, R314, R339, R340): the checks, the home's accesses, captures for
a frozen tenancy, and responses. -/

namespace Sys2Proof.Machine

/-! ### Malformed messages (R340) -/

/-- A message that the part drops and counts. -/
def frameBad (f : Frame) : Bool :=
  let op := f.op.toNat
  op < 1 || 7 < op || f.rsv != 0 || f.ordscp.toNat / 32 != 0 || 12 < f.size.toNat ||
    f.addr.toNat / 2 ^ 42 != 0 || f.addr.toNat % 2 ^ f.size.toNat != 0 || (op == 3 && f.arg.toNat / 2 ^ 7 != 0) || (op == 4 && f.arg.toNat / 2 ^ 8 != 0) ||
    (f.ten == 0xFF && op != 5)

/-- A message of operation code `op` that arrives at a port that is up (R14) is handled; one that is malformed or unauthenticated
is dropped, and counted there (R339, R340). A part that has stopped drops and counts, and handles none (R315). -/
def onFrame (op : Nat) (s : State) (f : Frame) (body : State → State) : Result :=
  if bits s.ready.toNat (8 + f.port) (8 + f.port) = 0 then .next s
  else if frameBad f || !f.auth then .next (dropAt s f.port)
  else if f.op.toNat = op && !s.stopped then .next (body s) else .next s

/-- The response to a message. DESIGN CHOICE (log entry 34). -/
def respond (s : State) (f : Frame) (status : Nat) (data : List Byte) : State :=
  { s with outbox := s.outbox ++ [.resp f.src
      ⟨4, f.ten, 0, f.size, f.tag, f.addr, BitVec.ofNat 64 status, 0, data, s.domidx.toNat, portOf f.src f.addr.toNat, true⟩] }

/-! ### Whose page an address is (R312) -/

/-- Addresses of the listed entries of a table of 2^n entries: a table entry that nothing has written is invalid. -/
def listedEntries (s : State) (table n : Nat) : List Nat :=
  (s.mem.filter fun c => decide (table ≤ c.1) && decide (c.1 < table + 8 * 2 ^ n)).foldl (fun l c => sadd l ((c.1 - table) / 8)) []

/-- The intermediate addresses that a stage-2 table maps to a PA; `ia` is the address so far. -/
def revWalk2 (s : State) (pa : Nat) : List (Nat × Nat × Nat) → Nat → Nat → List Nat
  | [], _, _ => []
  | (level, hi, lo) :: rest, table, ia =>
    let table := normPa s table
    ((listedEntries s table (hi + 1 - lo)).map fun i =>
      let e := readNat s 32 (table + 8 * i) 8
      let ia := ia + i * 2 ^ lo
      let out := normPa s (pteOut e)
      if !pteV e || pteBad level lo e then []
      else if pteLeaf e then (if out ≤ pa && pa < out + 2 ^ lo then [ia + (pa - out)] else [])
      else revWalk2 s pa rest (pteNext e) ia).flatten

/-- The intermediate addresses at which a tenancy's stage 2 maps a PA. -/
def iasOf (s : State) (ten pa : Nat) : List Nat := revWalk2 s pa walkLevels (tcbOf s ten).s2root.toNat 0

/-- Whether a stage-1 leaf with SIG covers an intermediate address. -/
def sigWalk (s : State) (ten ia : Nat) : List (Nat × Nat × Nat) → Nat → Bool
  | [], _ => false
  | (level, hi, lo) :: rest, table =>
    match stage2 s ten table with
    | none => false
    | some t => (listedEntries s t.pa (hi + 1 - lo)).any fun i =>
      let e := readNat s ten (t.pa + 8 * i) 8
      if !pteV e || pteBad level lo e then false
      else if pteLeaf e then pteSig e && decide (pteOut e ≤ ia) && decide (ia < pteOut e + 2 ^ lo)
      else sigWalk s ten ia rest (pteNext e)

/-- A PA lies in a SIG page of a tenancy. -/
def inSigPage (s : State) (ten pa : Nat) : Bool :=
  (iasOf s ten pa).any fun ia => sigWalk s ten ia walkLevels (tcbOf s ten).s1root.toNat

/-- A tenancy owns the page at a PA: its granule, a page that its stage 2 maps, or one that is being moved for it (R264). -/
def ownsPage (s : State) (ten pa : Nat) : Bool :=
  if isSilo pa then ownerOf s pa == some ten
  else !(iasOf s ten pa).isEmpty || s.moves.any fun (_, m) => m.ten = ten && decide (m.old ≤ pa) && decide (pa < m.old + m.size)

/-- The tenancy that a message names, 32 for firmware. -/
def senderOf (f : Frame) : Nat := if f.ten == 0xFE then 32 else if f.ten.toNat < 32 then f.ten.toNat else 256

/-- The tenancy that owns the target and has registered the sender's tenancy as a peer, none for a refusal: a Silo granule is
its owner's alone, whoever is a peer (R300). DEDUCED (log entry 33). -/
def homeTen (s : State) (f : Frame) : Option Nat :=
  (List.range 32).find? fun t =>
    s.peers.contains (t, f.src, senderOf f) && (tcbOf s t).keyok && !resetting s t && ownsPage s t f.addr.toNat &&
      (!isSilo f.addr.toNat || t == senderOf f)

/-! ### The accesses of the home -/

/-- The attributes of a home's own page for heat (R308). -/
def homeXlate (s : State) (ten pa : Nat) : Xlate :=
  let cnt := if isSilo pa then false
    else match (iasOf s ten pa).head? with
      | some ia => (match stage2 s ten ia with | some u => pteCnt u.e | none => false)
      | none => false
  { Xlate.none with pa := pa, cnt := cnt }

/-- What the home does with a message: it waits, it refuses, or it answers. -/
inductive Served where
  | wait
  | done (s : State) (status : Nat) (data : List Byte)
  deriving Repr

/-- A performed access counts for the tenancy that its tag names (R308). -/
def heatFor (s : State) (ten : Nat) (f : Frame) (pa n : Nat) : State := heatTouch s (senderOf f) (homeXlate s ten pa) pa n

/-- A read at the home, under the key of the message's tag (R311), as every access here. DEDUCED (log entry 33). -/
def serveRead (s : State) (ten : Nat) (f : Frame) (pa : Nat) : Served :=
  let n := 2 ^ f.size.toNat
  if lineAbsent s pa then .wait
  else if poisoned s pa n then .done s 2 []
  else .done (heatFor s ten f pa n) 0 (readBytes s (senderOf f) pa n)

def serveWrite (s : State) (ten : Nat) (f : Frame) (pa : Nat) : Served :=
  let n := 2 ^ f.size.toNat
  if lineAbsent s pa || migrating s pa then .wait
  else .done (tellOut (storeBytes (heatFor s ten f pa n) feCore (senderOf f) Xlate.none pa (f.data.take n)) pa n) 0 []

/-- The function and type of an atomic message, none for a code that R160 does not give. DESIGN CHOICE (log entry 15). -/
def atomFn (f : Frame) : Option (AFun × AT) :=
  let sub := bits f.arg.toNat 3 0
  let ty : Option AT := [AT.n32, .s32, .n64, .s64, .f32, .bf16x2, .f16x2][bits f.arg.toNat 6 4]?
  let fn : Option AFun := [AFun.add, .and, .or, .xor, .min, .max, .exch, .cas, .fadd][sub]?
  match fn, ty with
  | some fn, some ty => some (fn, ty)
  | none, some ty => if sub = Config.sigdecSub.toNat then some (.sigdec, ty) else none
  | _, none => none

/-- A message that writes half a byte of a coverage output (R209): bit 4 of its operand picks the upper half.
DESIGN CHOICE (log entry 55). -/
def isNibble (f : Frame) : Bool := f.op == 3 && f.size == 0 && bits f.arg.toNat 3 0 == Config.sigdecSub.toNat

def serveNibble (s : State) (ten : Nat) (f : Frame) (pa : Nat) : Served :=
  if lineAbsent s pa || migrating s pa then .wait
  else
    let v := field f.data 0 1
    .done (tellOut (nibbleAt (heatFor s ten f pa 1) feCore (senderOf f) Xlate.none pa (bits v 4 4 == 1) (v % 16)) pa 1) 0 []

def serveAtomic (s : State) (ten : Nat) (f : Frame) (pa : Nat) : Served :=
  let n := 2 ^ f.size.toNat
  match atomFn f with
  | none => .done s 1 []
  | some (fn, ty) =>
    if 8 * n != AT.width ty then .done s 1 []
    else if lineAbsent s pa || migrating s pa then .wait
    else if poisoned s pa n then .done s 2 []
    else
      let (s, old) := atomicAt (heatFor s ten f pa n) feCore (senderOf f) Xlate.none pa n fn ty (field f.data 0 n) (field f.data n n)
      .done (tellOut s pa n) 0 (leBytes n old)

/-- One access message, performed at a PA for a tenancy. -/
def serve (s : State) (ten : Nat) (f : Frame) (pa : Nat) : Served :=
  match f.op.toNat with
  | 1 => serveRead s ten f pa
  | 2 => serveWrite s ten f pa
  | _ => if isNibble f then serveNibble s ten f pa else serveAtomic s ten f pa

/-- An accepted message waits, behind those that have waited longer. -/
def holdFrame (s : State) (h : HeldFrame) : State := { s with held := s.held ++ [h] }

/-- A message waits for an earlier one of its tenancy: one that a stub had logged, or one of the same bytes. -/
def heldBefore (s : State) (ten pa n : Nat) : Bool :=
  s.held.any fun h => h.ten = ten && (h.acked || (decide (h.pa < pa + n) && decide (pa < h.pa + 2 ^ h.frame.size.toNat)))

/-- One message of a log: one that has to wait is held, and those of the log behind it with it. DEDUCED (log entry 32). -/
def replayOne (ten : Nat) (s : State) (f : Frame) : State :=
  let pa := f.addr.toNat
  let h : HeldFrame := ⟨ten, pa, true, f⟩
  if heldBefore s ten pa (2 ^ f.size.toNat) then holdFrame s h
  else match serve s ten f pa with
    | .done s _ _ => s
    | .wait => holdFrame s h

/-- Messages of a log in order; a refused one has no effect (R314). DEDUCED (log entry 32). -/
def replayFrames (s : State) (ten : Nat) (l : List Frame) : State := l.foldl (replayOne ten) s

/-! ### Live migration (R314) -/

def setTcb (s : State) (ten : Nat) (t : Tcb) : State := if h : ten < 32 then { s with tcbs := s.tcbs.set ten t h } else s

/-- The migration aborts and the tenancy thaws: what its stub acknowledged is performed here. DEDUCED (log entry 32). -/
def abortMigration (s : State) (ten : Nat) : State :=
  let t := tcbOf s ten
  let s := setTcb s ten { t with frozen := false, freezing := none, target := none, log := [] }
  postNote (replayFrames s ten t.log) 7 ten (leBytes 1 1)

/-- Writes, sigdec and signal packets, and the atomics that carry one operand: they return nothing.
DESIGN CHOICE (log entry 31). -/
def nonReturning (f : Frame) : Bool :=
  f.op.toNat = 2 || isNibble f || (f.op.toNat = 3 && (match atomFn f with
    | some (.exch, _) | some (.cas, _) | none => false
    | some (.sigdec, _) => true
    | some _ => decide (f.data.length ≤ 2 ^ f.size.toNat)))

/-- An access to a frozen tenancy: captured, forwarded after the replay, or refused. DESIGN CHOICE (log entry 31). -/
def frozenFrame (s : State) (ten : Nat) (f : Frame) : State :=
  let t := tcbOf s ten
  if nonReturning f && inSigPage s ten f.addr.toNat then
    if t.freezing.isSome then
      let s := respond (setTcb s ten { t with log := t.log ++ [f] }) f 0 []
      if 65536 < t.log.length + 1 then abortMigration s ten else s
    else match t.target with
      | some part => sendFrame s part { f with port := portOf part f.addr.toNat }
      | none => respond s f 1 []
  else respond s f 1 []

/-- An access message at its home: none is accepted until READY.ALL, or by a part that has stopped (R315, R326), and a part with no
image answers none (R345). -/
def accessFrame (s : State) (f : Frame) : State :=
  if s.bootst = 3 then s
  else match (if readyAll s && !s.stopped && f.addr.toNat < 2 ^ 42 && populated s f.addr.toNat then homeTen s f else none) with
  | none => respond s f 1 []
  | some ten =>
    let pa := f.addr.toNat
    if (tcbOf s ten).frozen then frozenFrame s ten f
    else if heldBefore s ten pa (2 ^ f.size.toNat) then holdFrame s ⟨ten, pa, false, f⟩
    else match serve s ten f pa with
      | .wait => holdFrame s ⟨ten, pa, false, f⟩
      | .done s st bs => respond s f st bs

/-- A held message tries again, behind those before it that still wait. -/
def retryFrame (s : State) (h : HeldFrame) : State :=
  if !h.acked && (tcbOf s h.ten).frozen then frozenFrame s h.ten h.frame
  else if heldBefore s h.ten h.pa (2 ^ h.frame.size.toNat) then holdFrame s h
  else match serve s h.ten h.frame h.pa with
    | .wait => holdFrame s h
    | .done s st bs => if h.acked then s else respond s h.frame st bs

/-- Every held message tries again, in order. -/
def retryFrames (s : State) : State := s.held.foldl retryFrame { s with held := [] }

/-- The held messages of a page that has moved perform at the new copy (R264 step 7). -/
def moveHeld (s : State) (m : Move) : State :=
  { s with held := s.held.map fun h =>
      if decide (m.old ≤ h.pa) && decide (h.pa < m.old + m.size) then { h with pa := m.new + (h.pa - m.old) } else h }

def execFrameRead (f : Frame) (s : State) : Result := onFrame 1 s f fun s => accessFrame s f
def execFrameWrite (f : Frame) (s : State) : Result := onFrame 2 s f fun s => accessFrame s f
def execFrameAtomic (f : Frame) (s : State) : Result := onFrame 3 s f fun s => accessFrame s f

/-! ### Responses (R156, R243, R340) -/

/-- An access after its response: done, refused, or poison. -/
def answerAcc (cov : Bool) (a : Acc) (st : Nat) (bs : List Byte) : Acc :=
  match st with
  | 0 => { a with done := true, res := BitVec.ofNat 64 (field bs 0 a.size) }
  | 2 => { a with done := true, err := if cov then 6 else cPOISON }
  | _ => { a with done := true, err := if cov then 5 else cXLATE, code := 5 }

/-- The operation that sent a message takes its response. -/
def answerOp (o : POp) (tag st : Nat) (bs : List Byte) : POp :=
  { o with accs := o.accs.map fun a => if a.sent.map (· % 2 ^ 32) == some tag && !a.done then answerAcc (o.cls == .cov) a st bs else a }

def answerGroup (g : Group) (tag st : Nat) (bs : List Byte) : Group :=
  { g with ops := g.ops.map fun o => answerOp o tag st bs }

/-- A response, or a loss, for the access that carries a tag, which a message has 32 bits of (R340). A write of the part's own is
over with it; what an operation or a trap entry waits for is kept until it is used. -/
def answer (s : State) (tag st : Nat) (bs : List Byte) : State :=
  { s with
    groups := s.groups.map fun (k, g) => (k, answerGroup g tag st bs),
    rwaits := (s.rwaits.map fun r => if r.tag % 2 ^ 32 = tag && r.ans.isNone then { r with ans := some (st, bs) } else r).filter fun r =>
      !(r.n == 4097 && r.ans.isSome && (match r.who with | .queue _ | .packet _ _ | .launch _ => true | .group _ | .op _ | .walk _ => false)) }

def execFrameResp (f : Frame) (s : State) : Result :=
  onFrame 4 s f fun s => answer s f.tag.toNat (f.arg.toNat % 256) f.data

/-- TRANSPORT_LOSS_REPORT: the access whose message was lost is held as a REMOTE report. -/
def execTransportLossReport (tag : BitVec 32) (s : State) : Result := .next (answer s tag.toNat 1 [])

/-- A notification message is carried to its endpoint: at a part it has no further effect. DESIGN CHOICE (log entry 34). -/
def execFrameNote (f : Frame) (s : State) : Result := onFrame 6 s f fun s => s

/-- FRAME_CCOL: a chunk or an abort of a registered communicator. -/
def execFrameCcol (f : Frame) (s : State) : Result := onFrame 7 s f fun s =>
  if s.comms.any fun (t, c, _) => t == f.ten.toNat && c == f.arg then takeChunk s (chunkCall f.ten.toNat f.arg f.data) else s

end Sys2Proof.Machine
end

