-- ==== Sys2Proof/Machine/Queue.lean ====
section
/-! DEFINITION. The queue front end (R36 to R50, R295, R349, R350): the scanner, tickets, every packet type, loops and
skips, completion, halts and restarts. -/

namespace Sys2Proof.Machine

/-! ### Queues -/

def putQueue (s : State) (qn : Nat) (q : Queue) : State := { s with queues := tput s.queues qn q }
def Queue.ten (q : Queue) : Nat := q.desc.ten.toNat
def Queue.size (q : Queue) : Nat := 2 ^ q.desc.logn.toNat

/-- VA of the slot of a packet index. -/
def Queue.slotVa (q : Queue) (i : Nat) : Nat := q.desc.ring.toNat + i % q.size * 128

/-- The tenancy's queues are scanned (R301, R311, R314). -/
def scanned (s : State) (q : Queue) : Bool :=
  let t := tcbOf s q.ten
  readyAll s && !s.stopped && t.en && t.keyok && !t.frozen && !resetting s q.ten && q.halted.isNone

def freshFlight (i : Nat) (p : Packet) (rep : Option Nat) : Flight :=
  ⟨i, p, p, false, false, 0, none, rep, none, 0, none⟩

/-- A packet of the queue has completed. -/
def Queue.completed (q : Queue) (i : Nat) : Bool := decide (i < q.rd) || q.flights.any fun f => f.index = i && f.rep.isNone && f.finished

/-- Every packet of the queue before an index has completed. -/
def Queue.doneBefore (q : Queue) (i : Nat) : Bool := (List.range (i - q.rd)).all fun j => q.completed (q.rd + j)

def Queue.putFlight (q : Queue) (f : Flight) : Queue :=
  { q with flights := q.flights.map fun x => if x.index = f.index && x.rep == f.rep then f else x }

/-- The next index to start passes over packets that have started or completed. -/
def advStart : Nat → Queue → Queue
  | 0, q => q
  | n + 1, q =>
    if q.flights.any fun f => f.index = q.nstart && f.rep.isNone && (f.started || f.finished) then advStart n { q with nstart := q.nstart + 1 } else q
def Queue.adv (q : Queue) : Queue := advStart (q.flights.length + 1) q

/-! ### Halts (R49, R50) -/

/-- A loop that has started and not completed, and that does not halt the queue itself. -/
def Queue.looping (q : Queue) (h l : Nat) : Bool :=
  l != h && q.flights.any fun x => x.index = l && x.rep.isNone && x.started && !x.finished

/-- What a halt at packet h leaves in flight: packets that have started run on, among them loops with their repetitions, and
a loop that halts the queue, or that a kill ends, keeps the repeated packets that have started (R50, R313). -/
def Queue.runsOn (q : Queue) (h code : Nat) (f : Flight) : Bool :=
  match f.rep with
  | some l => (q.looping h l && code != eKILLED) || (f.started && !f.finished)
  | none => f.index != h && (f.started || f.finished)

/-- The queue halts at packet h: tickets and packets that have not started are withdrawn. -/
def haltQueue (s : State) (qn : Nat) (q : Queue) (h code : Nat) : State :=
  let q := { q with halted := some code, nstart := h, flights := q.flights.filter (q.runsOn h code) }
  let s := putQueue { s with tickets := s.tickets.filter fun t => t.1 != qn } qn q
  postNote s 2 q.ten (leBytes 8 qn ++ leBytes 8 q.rd ++ leBytes 8 code)

/-- A packet cannot be carried out: the queue halts there; a packet of a loop's repetition halts it at the loop.
DESIGN CHOICE (log entry 90). -/
def haltAt (s : State) (qn : Nat) (q : Queue) (f : Flight) (code : Nat) : State :=
  let q := q.putFlight { f with started := false }
  haltQueue s qn q (match f.rep with | some l => if q.looping (l + 1) l then l else q.nstart | none => f.index) code

/-! ### Completion (R37, R38, R45 to R47, R349) -/

/-- RD passes the packet at it, whose TYPE byte has been cleared. -/
def Queue.pass (q : Queue) : Queue :=
  { q with rd := q.rd + 1, skips := sdel q.skips q.rd, cleared := false,
           flights := q.flights.filter fun f => f.index != q.rd || f.rep.isSome }

/-- RD passes completed packets, whose TYPE bytes are cleared first: RD is written once that write has been acknowledged, and
either write waits where its page does (R38, R304). -/
def advanceRd : Nat → State → Nat → Queue → State × Queue
  | 0, s, _, q => (s, q)
  | n + 1, s, qn, q =>
    match q.flights.find? fun f => f.index = q.rd && f.rep.isNone && f.finished with
    | none => (s, q)
    | some _ =>
      if !q.cleared && feWriteWaits s q.ten (q.slotVa q.rd) then (fePostAt s q.ten (q.slotVa q.rd), q)
      else
        let s := if q.cleared then s else feWrite s (.queue qn) q.ten (q.slotVa q.rd) [0]
        if unacked s (.queue qn) then (s, { q with cleared := true })
        else if feWriteWaits s q.ten q.desc.rda.toNat then (fePostAt s q.ten q.desc.rda.toNat, { q with cleared := true })
        else advanceRd n (feWrite s (.queue qn) q.ten q.desc.rda.toNat (leBytes 8 (q.rd + 1))) qn q.pass

/-- A new poll interval, with fetch-ahead and copies afresh (R50). -/
def resumeQueue (s : State) (qn : Nat) (q : Queue) : State :=
  let q := { q with halted := none, interval := 1, due := s.time + 1000, copies := [], first := q.rd, cleared := false, polling := false,
                    flights := q.flights.filter fun f => f.rep.isNone }.adv
  if q.size < q.wr - q.rd then haltQueue s qn q q.nstart eOVERRUN else putQueue s qn q

/-- How many packets a restart discards. -/
def Queue.discards (q : Queue) (mode rd : Nat) : Nat := if mode = 0 then 0 else if mode = 1 then 1 else rd - q.rd

/-- Clear the TYPE bytes of n packets from RD on. -/
def clearTypes (s : State) (qn : Nat) (q : Queue) (n : Nat) : State :=
  (List.range n).foldl (fun s i => feWrite s (.queue qn) q.ten (q.slotVa (q.rd + i)) [0]) s

/-- The queue after n packets from RD on have been discarded. -/
def Queue.discard (q : Queue) (n : Nat) : Queue :=
  { q with rd := q.rd + n, nstart := q.rd + n, skips := q.skips.filter (q.rd + n ≤ ·),
           flights := q.flights.filter fun f => decide (q.rd + n ≤ f.index) }

/-- What a restart does once every started packet has completed, and the TYPE bytes of what it discards have been cleared. SKIP
at an index that holds no packet, as after KILLED, clears the slot's TYPE byte and moves RD past it all the same.
DESIGN CHOICE (log entry 90). -/
def doRestart (s : State) (qn : Nat) (q : Queue) (n : Nat) : State :=
  resumeQueue (if n = 0 then s else feWrite s (.queue qn) q.ten q.desc.rda.toNat (leBytes 8 (q.rd + n))) qn
    (if n = 0 then q else q.discard n)

/-- No started packet of the queue is still running. -/
def Queue.quiet (q : Queue) : Bool := q.flights.all fun f => f.finished || !f.started

/-- A RESTARTQ fails, and changes nothing (R50). -/
def restartBad (s : State) (q : Queue) (mode rd wr : Nat) : Bool :=
  q.halted.isNone || decide (2 < mode) || (mode == 2 && (decide (rd < q.nstart) || decide (wr < rd))) ||
    (q.halted == some eKILLED && (!(tcbOf s q.ten).keyok || resetting s q.ten))

/-- The front-end writes of a restart that have to wait. -/
def restartWaits (s : State) (q : Queue) (n : Nat) : List Nat :=
  if n = 0 then []
  else if q.cleared then [q.desc.rda.toNat].filter (feWriteWaits s q.ten)
  else ((List.range (min n q.size)).map fun i => q.slotVa (q.rd + i)).filter (feWriteWaits s q.ten)

/-- The RESTARTQ messages that wait at a queue, in their order: the first takes effect once every started packet has completed
and RD stands at H, and what it writes has been acknowledged (R38), and each is answered then; one that finds the queue running
again fails. -/
def settleRestarts : Nat → State → Nat → State
  | 0, s, _ => s
  | n + 1, s, qn =>
    match tget s.queues qn with
    | none => s
    | some q =>
      match q.restart with
      | [] => s
      | (m, mode, rd) :: rest =>
        let q1 := { q with restart := rest }
        if restartBad s q mode rd q.wr then settleRestarts n (endMgmt (putQueue s qn q1) m 1) qn
        else if q.quiet && q.rd == q.nstart then
          let k := q.discards mode rd
          match restartWaits s q k with
          | va :: _ => fePostAt s q.ten va
          | [] =>
            let s := if q.cleared || k = 0 then s else clearTypes s qn q k
            if k != 0 && unacked s (.queue qn) then putQueue s qn { q with cleared := true }
            else if k != 0 && feWriteWaits s q.ten q.desc.rda.toNat then fePostAt (putQueue s qn { q with cleared := true }) q.ten q.desc.rda.toNat
            else settleRestarts n (endMgmt (doRestart s qn q1 k) m 0) qn
        else s

def settleRestart (s : State) (qn : Nat) : State :=
  match tget s.queues qn with
  | some q => settleRestarts q.restart.length s qn
  | none => s

/-- The copies that a loop's body may need (R45): 64 packets before a loop, and the loop and the 8 that fetch-ahead lets
complete while it runs. DEDUCED (log entry 80). -/
def keepCopies (t : Tbl Packet) : Tbl Packet := t.drop (t.length - 73)

/-- Scope of the completion's release. -/
def pRel (p : Packet) : Nat := bits (pHead p) 14 12

/-- A packet whose signal has been seen to completes with a code: its notifications, its copy, and RD. -/
def endPacket (s : State) (qn : Nat) (f : Flight) (code : Nat) : State :=
  match tget s.queues qn with
  | none => s
  | some q =>
    let detail := leBytes 8 qn ++ leBytes 8 f.index ++ leBytes 8 code
    let s := if pNote f.bytes then postNote s 1 q.ten detail else s
    let s := if code ≠ 0 && pSignal f.bytes = 0 then postNote s 8 q.ten detail else s
    let q := q.putFlight { f with started := true, finished := true }
    let q := if f.rep.isSome then { q with flights := q.flights.filter fun x => match x.rep with
        | some l => q.looping (l + 1) l || !x.finished
        | none => true }
      else { q with copies := keepCopies (tput q.copies f.index f.orig) }
    let q := q.adv
    let (s, q) := advanceRd (q.flights.length + 1) s qn q
    settleRestart (putQueue s qn q) qn

/-- Who asks for a packet: the repetitions of an index are told apart by their loop. -/
def askerOf (qn : Nat) (f : Flight) : Asker :=
  .packet qn (match f.rep with | some l => 2 ^ 64 * (l + 1) + f.index | none => f.index)

/-- The completion of a packet begins. -/
def Flight.release (f : Flight) (s : State) : Flight := { f with relAt := some (f.relAt.getD s.serial) }

/-- A completion whose release reaches other parts waits for what this part sent them before it began (R242, R245).
DEDUCED (log entry 100). -/
def relHeld (s : State) (f : Flight) : Bool :=
  decide (5 ≤ pRel f.bytes) && !domSettled s (f.relAt.getD s.serial) .sys

/-- A packet completes with a code once its release has been made and the atomic at its signal word, if it names one, is visible
(R46, R47, R242); until then it is ending. -/
def completePacket (s : State) (qn : Nat) (f : Flight) (code : Nat) : State :=
  match tget s.queues qn with
  | none => s
  | some q =>
    let f := { f with ending := some code }.release s
    if relHeld s f then putQueue s qn (q.putFlight { f with started := true })
    else if pSignal f.bytes = 0 then endPacket s qn f code
    else
      let r := decSignal s (askerOf qn f) q.ten (pSignal f.bytes) (pRel f.bytes) code
      if r.2 then endPacket r.1 qn f code else putQueue r.1 qn (q.putFlight { f with started := true })

/-! ### QUEUE_POLL (R37 to R40, R295) -/

/-- The TYPE byte of the slot of a packet index, 0 where it cannot be read. -/
def slotType (s : State) (qn : Nat) (q : Queue) (i : Nat) : Nat :=
  match feGet s (.queue qn) q.ten .read (q.slotVa i) 1 with
  | .ok l => field l 0 1
  | .bad | .wait => 0

/-- A fetch-fence before the index whose own earlier packets have not all completed (R40); a skipped one has no effect
(R45). -/
def fenced (s : State) (qn : Nat) (q : Queue) (i : Nat) : Bool :=
  (List.range (i - q.rd)).any fun j => decide (0 < j) && !q.skips.contains (q.rd + j) && slotType s qn q (q.rd + j) == 7

/-- Indices that get a ticket now: written, within fetch-ahead, and neither ticketed nor read yet. -/
def ticketable (s : State) (qn : Nat) (q : Queue) : List Nat :=
  ((List.range (min 9 (q.wr - q.rd))).map (q.rd + ·)).filter fun i =>
    !s.tickets.contains (qn, i) && !(q.flights.any fun f => f.index = i && f.rep.isNone) && !q.skips.contains i &&
      slotType s qn q i != 0 && !fenced s qn q i

/-- Skipped indices whose TYPE the scanner finds non-zero complete (R45). -/
def finishSkips (s : State) (qn : Nat) (q : Queue) : State × Queue :=
  let now := q.skips.filter fun i => decide (i < q.wr) && !q.completed i && slotType s qn q i != 0
  let q := { q with flights := q.flights ++ now.map fun i => { freshFlight i [] none with finished := true } }.adv
  advanceRd (q.flights.length + 1) s qn q

/-- Another queue's poll comes first (R295); one that waits for its reads has been made. -/
def pollBefore (s : State) (qn : Nat) (q : Queue) : Bool :=
  s.queues.any fun (m, r) => scanned s r && !r.polling && decide (r.due ≤ s.time) &&
    (decide (r.due < q.due) || (r.due == q.due && decide (m < qn)))

/-- WR as a poll reads it; where it cannot be read, as the last poll saw it. DESIGN CHOICE (log entry 90). -/
def pollWr (s : State) (qn : Nat) (q : Queue) : Nat :=
  match feGet s (.queue qn) q.ten .read q.desc.wra.toNat 8 with
  | .ok l => field l 0 8
  | .bad | .wait => q.wr

/-- The reads of a poll beside WR's: the TYPE bytes of the slots in the window of fetch-ahead, and of skipped ones. -/
def pollSlots (q : Queue) (wr : Nat) : List Nat :=
  (((List.range (min 9 (wr - q.rd))).map (q.rd + ·)) ++ q.skips.filter (· < wr)).map q.slotVa

/-- Reads that have to wait, among a list of addresses for one byte each. -/
def pollWaits (s : State) (qn : Nat) (q : Queue) (l : List Nat) : List Nat :=
  l.filter fun va => (feGet s (.queue qn) q.ten .read va 1).isWait

/-- A poll begins, and the next may begin 10 ns later; one that is under way goes on. -/
def pollBegins (s : State) (q : Queue) : State := if q.polling then s else { s with nextPoll := s.time + 10 }

/-- One poll of a queue, once its reads have been answered. A WR below RD finds nothing and is no overrun.
DESIGN CHOICE (log entry 90). -/
def pollDone (s : State) (qn : Nat) (q : Queue) (wr : Nat) : State :=
  let s := pollBegins (feTouch s q.ten q.desc.wra.toNat 8) q
  let q1 := { q with wr := wr, polling := false }
  if q.size < wr - q.rd then haltQueue (feDone s (.queue qn)) qn q1 q.nstart eOVERRUN
  else
    let s := (pollSlots q wr).foldl (fun s va => feTouch s q.ten va 1) s
    let (s, q1) := finishSkips s qn q1
    let new := ticketable s qn q1
    let found := decide (q.wr < wr) || !new.isEmpty
    let iv := if found then 1 else min (2 * q.interval) (2 ^ q.desc.maxi.toNat)
    putQueue { feDone s (.queue qn) with tickets := s.tickets ++ new.map fun i => (qn, i) } qn { q1 with interval := iv, due := s.time + iv * 1000 }

def pollStep (s : State) (qn : Nat) : State :=
  match tget s.queues qn with
  | none => s
  | some q =>
    if !scanned s q || decide (s.time < q.due) || (!q.polling && (decide (s.time < s.nextPoll) || pollBefore s qn q)) then s
    else
      let t := putQueue (pollBegins s q) qn { q with polling := true }
      if (feGet s (.queue qn) q.ten .read q.desc.wra.toNat 8).isWait then feAsk t (.queue qn) q.ten .read q.desc.wra.toNat 8
      else
        let wr := pollWr s qn q
        match (if q.size < wr - q.rd then [] else pollWaits s qn q (pollSlots q wr)) with
        | [] => pollDone s qn q wr
        | l => l.foldl (fun s va => feAsk s (.queue qn) q.ten .read va 1) t

def execQueuePoll (qn : Nat) (s : State) : Result := .next (pollStep s qn)

/-! ### TICKET_CLAIM (R38, R40, R349) -/

/-- The oldest ticket is claimed and its packet read. A slot that cannot be read, for a fault or poison, loses its ticket, and
the packet waits as one not yet written. DESIGN CHOICE (log entry 90). A read that has to wait leaves the ticket, behind the
others. -/
def claimStep (s : State) : State :=
  match s.tickets with
  | [] => s
  | (qn, i) :: t =>
    match tget s.queues qn with
    | none => { s with tickets := t, claimed := s.claimed + 1 }
    | some q =>
      match feGet s (.packet qn i) q.ten .read (q.slotVa i) 128 with
      | .wait => feAsk { s with tickets := t ++ [(qn, i)] } (.packet qn i) q.ten .read (q.slotVa i) 128
      | .bad => feDone { s with tickets := t, claimed := s.claimed + 1 } (.packet qn i)
      | .ok p =>
        let s := feDone (feTouch { s with tickets := t, claimed := s.claimed + 1 } q.ten (q.slotVa i) 128) (.packet qn i)
        if pType p = 0 || q.halted.isSome then s
        else putQueue s qn { q with flights := q.flights ++ [freshFlight i p none] }

def execTicketClaim (s : State) : Result := .next (claimStep s)

/-! ### A packet's turn (R41) -/

/-- It is the next to start, and with BAR every earlier packet has completed. In a loop's repetition, the packets of the
same repetition go before it, and a fetch-fence among them has completed (R40, R270). -/
def myTurn (q : Queue) (f : Flight) : Bool :=
  !f.started &&
    (if f.rep.isSome then
      (!pBar f.bytes || q.doneBefore f.index) &&
        q.flights.all fun x => x.rep != f.rep || decide (f.index ≤ x.index) || x.finished ||
          (!pBar f.bytes && x.started && pType x.bytes != 7)
    else q.halted.isNone && f.index == q.nstart && (!pBar f.bytes || q.doneBefore f.index))

/-- The packet that an event acts on, of those of its index that have not completed: the one whose turn has come. -/
def flightAt (q : Queue) (i : Nat) : Option Flight :=
  let l := q.flights.filter fun f => f.index = i && !f.finished
  (l.find? (myTurn q)).orElse fun _ => l.head?

/-- The started packet of an index that satisfies a condition. -/
def runningAt (q : Queue) (i : Nat) (c : Flight → Bool) : Option Flight :=
  q.flights.find? fun f => f.index = i && f.started && !f.finished && c f

/-- Run `body` for an unstarted packet of a type whose turn has come and whose header is legal. -/
def onTurn (s : State) (qn i type : Nat) (fieldsOk : Packet → Bool) (body : Queue → Flight → State) : Result :=
  match tget s.queues qn with
  | none => .next s
  | some q => match flightAt q i with
    | none => .next s
    | some f =>
      if pType f.bytes != type || !myTurn q f then .next s
      else if !headerOk f.bytes || !fieldsOk f.bytes then .next (haltAt s qn q f eBADPKT)
      else .next (body q f)

/-- The packet has started; its start is an acquire at ACQ. -/
def startFlight (s : State) (qn : Nat) (q : Queue) (f : Flight) : State × Flight :=
  let f := { f with started := true }
  (feAcquire (putQueue s qn (q.putFlight f).adv), f)

/-- Start and complete at once. -/
def runAtOnce (s : State) (qn : Nat) (q : Queue) (f : Flight) (code : Nat) : State :=
  let (s, f) := startFlight s qn q f
  completePacket s qn f code

/-! ### LAUNCH_PACKET (R41, R43, R349) -/

/-- A launch packet starts, or fails, once its checks have been made. DEDUCED (log entry 24). -/
def execLaunchPacket (qn i : Nat) (s : State) : Result := onTurn s qn i 1 launchFieldsOk fun q f =>
  let who := askerOf qn f
  match checkLaunch s who q.ten qn i f.bytes with
  | .ask need va n => feAsk s who q.ten need va n
  | .ok _ _ _ | .code _ =>
    let (tree, s) := newSerial s
    let (lid, s) := newSerial s
    let s := { s with launches := tput s.launches lid (newLaunch q.ten qn i tree f.bytes false),
                      trees := tput s.trees tree ⟨lid, 1, 0⟩ }
    let (s, _) := startFlight s qn q { f with launch := some lid }
    startLaunch s lid who

/-! ### Other packets (R44, R350) -/

def barrierFieldsOk (p : Packet) : Bool :=
  zeroAt p 4 4 && ((List.range 6).all fun i => field p (8 + 8 * i) 8 % 8 == 0) && zeroAt p 0x38 72

/-- The named signals of a barrier packet. -/
def depVas (p : Packet) : List Nat := ((List.range 5).map fun i => field p (8 + 8 * i) 8).filter (· != 0)

/-- The counts of the named signals: what each read gives. -/
def depCounts (s : State) (who : Asker) (ten : Nat) (p : Packet) : List (Got Nat) :=
  (depVas p).map fun va => match feGet s who ten .read va 8 with
    | .ok l => .ok (field l 0 7)
    | .bad => .bad
    | .wait => .wait

/-- The atomic of a packet whose turn has come, at a word that it names, once its release has been made (R242): it completes when
the atomic has performed, the queue halts with NOREAD where the word cannot be written (R44), and where the word lies on another part the packet has
started and waits for the answer. -/
def packetAtomic (s : State) (qn : Nat) (q : Queue) (f : Flight) (va b c : Nat) : State :=
  let who := askerOf qn f
  let f := f.release s
  if relHeld s f then putQueue s qn (q.putFlight f)
  else
  let r := signalTry s who false q.ten va (pRel f.bytes) b c
  match r.2 with
  | .ok _ => (let (s, f) := startFlight (feDone r.1 who) qn q f
              endPacket s qn f 0)
  | .bad => haltAt (feDone r.1 who) qn q f eNOREAD
  | .wait => if r.1.rwaits.any fun w => w.who == who && w.n == 4098 then (startFlight r.1 qn q f).1 else r.1

/-- The signals have been read: all zero, and the packet completes at once. -/
def barrierGo (s : State) (qn : Nat) (q : Queue) (f : Flight) : State :=
  if pSignal f.bytes = 0 then runAtOnce s qn q f 0 else packetAtomic s qn q f (pSignal f.bytes) 0 0

def execBarrierPacket (qn i : Nat) (s : State) : Result :=
  match (tget s.queues qn).bind fun q => (runningAt q i fun f => pType f.bytes = 2).map fun f => (q, f) with
  | some (q, f) => .next (packetAtomic s qn q f (pSignal f.bytes) 0 0)
  | none => onTurn s qn i 2 barrierFieldsOk fun q f =>
    let who := askerOf qn f
    let l := depCounts s who q.ten f.bytes
    if s.time < f.due then s
    else if l.any Got.isWait then (depVas f.bytes).foldl (fun s va => feAsk s who q.ten .read va 8) s
    else
      let s := feDone ((depVas f.bytes).foldl (fun s va => feTouch s q.ten va 8) s) who
      if l.contains .bad then haltAt s qn q f eNOREAD
      else if l.all (· == .ok 0) then barrierGo s qn q f
      else putQueue s qn (q.putFlight { f with due := s.time + q.interval * 1000 })

def signalFieldsOk (p : Packet) : Bool :=
  zeroAt p 4 4 && field p 8 8 % 8 == 0 && field p 0x10 1 ≤ 2 && zeroAt p 0x11 7 && zeroAt p 0x20 96

/-- The operands of a signal packet's atomic. -/
def signalGo (s : State) (qn : Nat) (q : Queue) (f : Flight) : State :=
  packetAtomic s qn q f (field f.bytes 8 8) ((field f.bytes 0x10 1 + 1) * 256) (field f.bytes 0x18 8)

def execSignalPacket (qn i : Nat) (s : State) : Result :=
  match (tget s.queues qn).bind fun q => (runningAt q i fun f => pType f.bytes = 3).map fun f => (q, f) with
  | some (q, f) => .next (signalGo s qn q f)
  | none => onTurn s qn i 3 signalFieldsOk fun q f => signalGo s qn q f

def indirectFieldsOk (p : Packet) : Bool := zeroAt p 4 4 && field p 8 8 % 128 == 0 && zeroAt p 0x10 112

def execIndirectPacket (qn i : Nat) (s : State) : Result := onTurn s qn i 4 indirectFieldsOk fun q f =>
  let who := askerOf qn f
  match feGet s who q.ten .read (field f.bytes 8 8) 128 with
  | .wait => feAsk s who q.ten .read (field f.bytes 8 8) 128
  | .bad => haltAt (feDone s who) qn q f eNOREAD
  | .ok t =>
    let s := feAcquire (feDone (feTouch s q.ten (field f.bytes 8 8) 128) who)
    if pType t = 0 then haltAt s qn q f eBADPKT
    else if pType t = 4 || pType t = 6 || pType t = 7 then
      runAtOnce s qn q { f with bytes := List.replicate 128 0 } eNESTIND
    else putQueue s qn (q.putFlight { f with bytes := t })

def predicateFieldsOk (p : Packet) : Bool :=
  zeroAt p 4 4 && field p 8 8 % 8 == 0 && field p 0x10 1 ≤ 3 && 1 ≤ field p 0x11 1 && zeroAt p 0x12 6 && zeroAt p 0x20 96

def predicateHolds (cmp w v : Nat) : Bool :=
  match cmp with
  | 0 => w == v
  | 1 => w != v
  | 2 => decide (w < v)
  | _ => decide (v ≤ w)

/-- The next n packets complete without effect: those already read at once, each leaving its copy, the others as the
scanner finds them. DEDUCED (log entry 80). In a loop's repetition only packets of the repetition are skipped, also where SKIP
reaches past the body. DESIGN CHOICE (log entry 90). -/
def skipNext (s : State) (qn : Nat) (q : Queue) (f : Flight) (n : Nat) : State :=
  let hit (x : Flight) : Bool := x.rep == f.rep && decide (f.index < x.index) && decide (x.index ≤ f.index + n) && !x.started
  let read := q.flights.filter fun x => hit x && x.rep.isNone && !x.finished
  let q := { q with flights := q.flights.map fun x => if hit x then { x with bytes := [], finished := true } else x,
                    copies := keepCopies (read.foldl (fun t x => tput t x.index x.orig) q.copies) }
  if f.rep.isSome then putQueue s qn q
  else
    putQueue { s with tickets := s.tickets.filter fun t => !(t.1 == qn && decide (f.index < t.2) && decide (t.2 ≤ f.index + n)) } qn
      { q with skips := (List.range n).foldl (fun l j => sadd l (f.index + 1 + j)) q.skips }

def execPredicatePacket (qn i : Nat) (s : State) : Result := onTurn s qn i 5 predicateFieldsOk fun q f =>
  let p := f.bytes
  let who := askerOf qn f
  match feGet s who q.ten .read (field p 8 8) 8 with
  | .wait => feAsk s who q.ten .read (field p 8 8) 8
  | .bad => haltAt (feDone s who) qn q f eNOREAD
  | .ok l =>
    let s := feDone (feTouch s q.ten (field p 8 8) 8) who
    let (s, f) := startFlight s qn q f
    let s := if predicateHolds (field p 0x10 1) (field l 0 8) (field p 0x18 8) then s
      else match tget s.queues qn with
        | some q => skipNext s qn q f (field p 0x11 1)
        | none => s
    completePacket s qn f 0

def loopFieldsOk (p : Packet) : Bool :=
  zeroAt p 4 4 && 1 ≤ field p 8 1 && field p 8 1 ≤ 64 && zeroAt p 9 3 && zeroAt p 0x10 112

/-- Indices of a loop's body. -/
def loopBody (f : Flight) : List Nat :=
  let back := field f.bytes 8 1
  (List.range back).map fun j => f.index - back + j

/-- The TYPE of a body packet, as it was read. -/
def bodyType (q : Queue) (i : Nat) : Nat :=
  match q.flights.find? fun x => x.index = i && x.rep.isNone with
  | some x => pType x.orig
  | none => (match tget q.copies i with | some p => pType p | none => 0)

/-- The next repetition's packets, from the copies; an index that never was read completes at once.
DEDUCED (log entry 80). -/
def repFlights (q : Queue) (f : Flight) : List Flight :=
  (loopBody f).map fun i => match tget q.copies i with
    | some p => freshFlight i p (some f.index)
    | none => { freshFlight i [] (some f.index) with finished := true }

/-- A running loop: the next repetition, the end of one, or the loop's completion. -/
def loopRun (s : State) (qn : Nat) (q : Queue) (f : Flight) : State :=
  let reps := q.flights.filter fun x => x.rep == some f.index
  if !(loopBody f).all q.completed then s
  else if reps.isEmpty then
    if f.loopLeft = 0 then completePacket s qn f 0 else putQueue s qn { q with flights := q.flights ++ repFlights q f }
  else if reps.all (·.finished) then
    putQueue s qn ({ q with flights := q.flights.filter fun x => x.rep != some f.index }.putFlight { f with loopLeft := f.loopLeft - 1 })
  else s

def execLoopPacket (qn i : Nat) (s : State) : Result :=
  match (tget s.queues qn).bind fun q => (runningAt q i fun f => pType f.bytes = 6).map fun f => (q, f) with
  | some (q, f) => .next (loopRun s qn q f)
  | none => onTurn s qn i 6 loopFieldsOk fun q f =>
    if decide (f.index < q.first + field f.bytes 8 1) || (loopBody f).any (fun j => bodyType q j == 6) then haltAt s qn q f eBADPKT
    else (startFlight s qn q { f with loopLeft := field f.bytes 12 4 }).1

/-- FETCH_FENCE_PACKET: it completes when every earlier packet of its queue has completed. -/
def execFetchFencePacket (qn i : Nat) (s : State) : Result :=
  match (tget s.queues qn).bind fun q => (runningAt q i fun f => pType f.bytes = 7).map fun f => (q, f) with
  | some (q, f) =>
    .next (if (if f.rep.isSome then q.flights.all fun x => x.rep != f.rep || decide (f.index ≤ x.index) || x.finished else q.doneBefore f.index)
      then completePacket s qn f 0 else s)
  | none => onTurn s qn i 7 (fun p => zeroAt p 4 124) fun q f => (startFlight s qn q f).1

/-! ### PACKET_COMPLETE (R30, R46) -/

/-- A launch of a tree has written to another part, and the write has not been acknowledged (R210, R242). -/
def treeWrites (s : State) (tree : Nat) : Bool := s.launches.any fun (lid, m) => m.tree = tree && unacked s (.launch lid)

/-- The spawn tree of a launch that a packet started, once it has completed and its writes have been acknowledged. -/
def treeOf (s : State) (f : Flight) : Option (Launch × Tree) :=
  match f.launch.bind (tget s.launches) with
  | none => none
  | some l => match tget s.trees l.tree with
    | some t => if t.counter = 0 && !treeWrites s l.tree then some (l, t) else none
    | none => none

/-- A launch whose spawn tree has completed: it and its children are gone, and its packet completes. -/
def finishLaunch (s : State) (qn : Nat) (f : Flight) : State :=
  match treeOf s f with
  | none => s
  | some (l, t) =>
    completePacket { s with launches := s.launches.filter fun (_, m) => m.tree != l.tree, trees := tdel s.trees l.tree } qn
      { f with launch := none } t.code

def execPacketComplete (qn i : Nat) (s : State) : Result :=
  match tget s.queues qn with
  | none => .next s
  | some q =>
    match runningAt q i fun f => f.ending.isSome || (treeOf s f).isSome with
    | some f => .next (match f.ending with | some code => completePacket s qn f code | none => finishLaunch s qn f)
    | none =>
      match flightAt q i with
      | some f =>
        if f.launch.isNone && (pType f.bytes = 0 || 7 < pType f.bytes) then onTurn s qn i (pType f.bytes) (fun _ => false) fun _ _ => s
        else .next (if q.halted.isSome then settleRestart s qn else s)
      | none =>
        let r := advanceRd (q.flights.length + 1) s qn q
        .next (settleRestart (putQueue r.1 qn r.2) qn)

end Sys2Proof.Machine
end

