-- ==== Sys2Proof/Machine/Preempt.lean ====
section
/-! DEFINITION. Pre-emption (R34, R293), the saved context as a dump (R335), and resumption (R64, R293, R348). -/

namespace Sys2Proof.Machine

/-! ### Members -/

/-- A team, or every member of its cluster. -/
def membersOf (s : State) (tid : Nat) : List Nat :=
  match tget s.teams tid with
  | none => []
  | some t =>
    let clustered := match tget s.launches t.launch with
      | some l => (match l.kdesc with | some k => decide (1 < k.cluster) | none => false)
      | none => false
    if clustered then (s.teams.filter fun (_, u) => u.launch = t.launch && u.clu = t.clu && !u.ended).map (·.1)
    else if t.ended then [] else [tid]

def setMode (s : State) (tids : List Nat) (f : TeamMode → TeamMode) : State :=
  { s with teams := tids.foldl (fun ts t => tmod ts t fun u => { u with mode := f u.mode }) s.teams }

/-- PREEMPT_REQUEST: for a cluster, all members. -/
def requestPreempt (s : State) (tid : Nat) : State :=
  setMode s (membersOf s tid) fun m => match m with
    | .running => .asked s.time
    | .asked t => .asked t
    | .saved t => .saved t

def execPreemptRequest (tid : Nat) (s : State) : Result := .next (requestPreempt s tid)

/-! ### Eligible points (R34) -/

/-- The gang stands before a clause whose header has SP = 1, or is parked. -/
def pathEligible (s : State) (k : Nat) (g : Group) (p : Path) : Bool :=
  p.park.isSome || p.stop == .stopped ||
    (match p.spot with
    | .inside _ _ _ => false
    | .boundary off => p.trap.isNone && decide (off < p.code.klen) &&
        (match (fetchWord s k g p off).2 with
        | .word h => clauseOk h off p.code.klen && hSp h
        | .fault _ | .poison | .stage2 | .wait => false))

/-- An access through a view that still waits at the Trellis: the drain does not wait for it, it is withdrawn, saved with the
team and issued again on resume (R159). DEDUCED (log entry 77). -/
def waitsAtTrellis (s : State) (k : Nat) (g : Group) (o : POp) : Bool :=
  o.cls == .mem && !o.done && (o.accs.all fun a => !a.done && a.sent.isNone) &&
    (match o.view with
    | some (_, v) => !granted s k v
    | none => false)

/-- A gang of a team that is to be saved has reached its eligible point, and issues nothing further from then on (R34). -/
def latchPath (s : State) (k : Nat) (g : Group) (p : Path) : Path :=
  if g.counter .c == 0 && pathEligible s k g p then { p with latched := true } else p

/-- The gangs that have come to an eligible point without issuing: those that parked, or whose group's CNTC has become zero. -/
def latchAsked (s : State) : State :=
  { s with groups := s.groups.map fun (k, g) => (k, if asked s g then { g with paths := vmap (fun p => p.map (latchPath s k g)) g.paths } else g) }

/-- The group has nothing left to drain: an operation that a held report has stopped, or one that waits at the Trellis, is
saved with it. DEDUCED (log entry 77). -/
def groupEligible (s : State) (k : Nat) (g : Group) : Bool :=
  g.paths.toList.all (fun p => match p with | some p => p.latched || pathEligible s k g p | none => true) &&
    g.counter .c == 0 && g.ops.all fun o => o.done || o.halted || waitsAtTrellis s k g o

def teamEligible (s : State) (tid : Nat) : Bool :=
  match tget s.teams tid with
  | some t => (match t.mode with | .asked _ => true | .running | .saved _ => false) &&
      t.gkeys.all fun k => match tget s.groups k with | some g => groupEligible s k g | none => true
  | none => false

/-! ### The saved context as a dump (R335). The layout of an entry's contents beyond R335's words is the model's own. -/

def maskBytes (m : Mask) : List Byte := leBytes 8 m.toNat
def bodyBytes (v : ViewDesc) : List Byte :=
  leBytes 8 v.base.toNat ++ leBytes 1 v.esize ++ leBytes 1 v.rank ++ leBytes 1 v.mode ++ leBytes 1 0 ++
    ((List.range 4).map fun i => leBytes 2 (v.ext.getD i 1)).flatten ++
    ((List.range 4).map fun i => leBytes 4 (BitVec.ofInt 32 (v.str.getD i 0)).toNat).flatten ++ leBytes 4 0

def stateByte (g : Group) (i : Nat) (p : Path) : Nat :=
  (match p.spot with | .boundary _ => 0 | .inside _ _ _ => 1) + (if p.park.isSome then 2 else 0) +
    (if g.isHandler i then 4 else 0) + (if p.stop == .stopped then 8 else 0)

def pathBytes (g : Group) (i : Nat) (p : Path) : List Byte :=
  let (c, w) := match p.trap with | some t => (t.cause, t.word) | none => (0, 0)
  leBytes 4 (stateByte g i p) ++ leBytes 4 p.spot.offset ++ leBytes 8 p.slices.toNat ++ maskBytes p.exec ++ leBytes 4 c ++ leBytes 4 w

def reportBytes (r : Report) : List Byte :=
  leBytes 4 r.cause ++ leBytes 4 r.code ++ leBytes 4 r.word ++ leBytes 4 r.op ++ leBytes 8 r.addr.toNat ++ maskBytes r.lanes

/-- The accesses of an operation that the save withdrew. -/
def withdrawnBytes (o : POp) : List Byte :=
  (o.accs.map fun a => leBytes 4 o.word ++ leBytes 4 a.lane ++ leBytes 8 a.va.toNat ++ leBytes 8 a.data.toNat).flatten

/-- One entry: KIND, GROUP, ITEM and contents. -/
abbrev DumpEntry := Nat × Nat × Nat × List Byte

def groupDump (g : Group) (frame : List Byte) : List DumpEntry :=
  let id := g.gid
  ((List.range g.allot).map fun i => (1, id, i, ((g.regs[i]?).getD VReg.reset).image g.w i)) ++
  [(2, id, 0, (g.masks.toList.map maskBytes).flatten ++
    maskBytes (g.paths.toList.foldl (fun m p => match p with | some p => m ||| p.exec | none => m) 0))] ++
  ((List.range 16).filterMap fun i => (g.path i).map fun p => (3, id, i, pathBytes g i p)) ++
  ((List.range (g.w / 4)).map fun sl => let st := (g.rstack[sl]?).getD []
    (4, id, sl, leBytes 4 st.length ++ ((List.range 16).map fun i => leBytes 4 (st.getD i 0)).flatten)) ++
  [(5, id, 0, leBytes 8 g.flags.toNat ++ leBytes 8 g.cnts.toNat ++ leBytes 8 g.allot ++ leBytes 8 g.budget ++
    leBytes 8 g.ratel.toNat ++ leBytes 8 g.mstatWord.toNat ++ leBytes 8 g.fstatWord.toNat ++ leBytes 8 g.tvec.toNat ++
    (g.tlink.toList.map fun x => leBytes 8 x.toNat).flatten)] ++
  ((List.range 16).filterMap fun i => ((g.views[i]?).join).map fun v =>
    (6, id, i, bodyBytes v.desc ++ leBytes 8 v.ticket.time ++ leBytes 1 v.ticket.core ++ leBytes 1 v.ticket.gslot ++ leBytes 6 1)) ++
  (match g.handler with
  | some h => [(9, id, 0, leBytes 8 h.path ++ frame)]
  | none => []) ++
  [(10, id, 0, (g.reports.map reportBytes).flatten ++ ((g.ops.filter fun o => !o.done && !o.halted).map withdrawnBytes).flatten)]

/-- The 128 bytes of a handler's frame as they stand in its frame block, none where they are not at this part. -/
def frameNow (s : State) (g : Group) : List Byte :=
  match g.handler with
  | some h =>
    let w := walk s g.ten (h.fb.toNat % 2 ^ 56)
    (match (if w.code = 0 && !w.s2 && w.ask.isNone then herePa s (w.x.pa + (h.fb.toNat % 2 ^ 56 - w.base)) else none) with
    | some pa => readBytes s g.ten pa 128
    | none => [])
  | none => []

/-- The group has arrived at a barrier: each of its live gangs has, or has exited (R169). -/
def Group.arrivedAt (g : Group) (i : Nat) : Bool :=
  g.exited || (g.lastArrival i != 0 && g.paths.toList.all fun p => match p with | some p => p.hasArrived i | none => true)

/-- Entry of a tile: its written elements over its background. -/
def tileWord (t : Tile) (i : Nat) : Nat :=
  match tget t.cells i with
  | some x => x.toNat
  | none => (match t.back with | some n => (Config.freeTile n i).toNat | none => 0)

def teamDump (s : State) (t : Team) (k : KDesc) (clu : Vector Nat 16) (gs : List Group) : List DumpEntry :=
  let all := ((s.teams.filter fun (_, u) => u.launch = t.launch && u.clu = t.clu && u.index != t.index).map fun (_, u) => teamGroups s u).flatten ++ gs
  (gs.map fun g => groupDump g (frameNow s g)).flatten ++
  ((List.range t.cores.length).map fun c => (List.range k.acc).map fun i =>
    (7, c, i, ((List.range 32768).map fun e => leBytes 4 (tileWord ((t.tiles[c * 8 + i]?).getD (Tile.fresh 0)) e)).flatten)).flatten ++
  ((List.range 16).map fun b =>
    (8, 0, b, leBytes 4 ((t.bars[b]?).getD 0) ++ leBytes 4 ((gs.filter fun g => g.arrivedAt b).length) ++
      leBytes 4 ((clu[b]?).getD 0) ++ leBytes 4 ((all.filter fun g => g.arrivedAt (16 + b)).length)))

/-- The index entries and contents, from an offset on. -/
def layDump : Nat → List DumpEntry → List Byte × List Byte
  | _, [] => ([], [])
  | off, (kind, g, item, bs) :: t =>
    let (es, cs) := layDump (off + bs.length) t
    (leBytes 1 kind ++ leBytes 1 g ++ leBytes 2 item ++ leBytes 4 bs.length ++ leBytes 8 off ++ es, bs ++ cs)

/-- DESIGN CHOICE (log entry 34). -/
def dumpBytes (s : State) (l : Launch) (k : KDesc) (t : Team) (time : Nat) (gs : List Group) : List Byte :=
  let clu := match clusterOf s t with | some (_, c) => c.bars | none => Vector.replicate 16 0
  let es := teamDump s t k clu gs
  let (idx, body) := layDump (64 + 16 * es.length) es
  [0x42, 0x44, 0x4D, 0x50] ++ leBytes 2 1 ++ leBytes 2 es.length ++ leBytes 1 l.ten ++ leBytes 1 k.teamg ++
    leBytes 1 (if k.w = 16 then 0 else if k.w = 32 then 1 else 2) ++ leBytes 1 0 ++ leBytes 4 t.index ++ leBytes 8 (lKdesc l.pkt) ++
    leBytes 8 time ++ leBytes 32 0 ++ idx ++ body

/-- The dump that the first management message asks of a team has ended with a status, which is still to be sent (R341). -/
def answerDump (s : State) (tid status : Nat) : State :=
  match s.mgmtq with
  | (m, .dumpRequest t pa) :: rest => if t = tid then { s with mgmtq := (m, .answer status) :: rest } else s
  | _ => s

/-- Bytes to a PA, at its home (R343): one by one to another part, where a message's size and address are aligned (R340). -/
def fwWriteAll (s : State) (pa : Nat) (l : List Byte) : State :=
  if (herePa s pa).isSome then fwWrite s pa l else l.zipIdx.foldl (fun s x => fwWrite s (pa + x.2) [x.1]) s

/-- Copy the context of a saved team, as its dump, to the addresses that dump requests gave. -/
def writeDumps (s : State) (tid : Nat) : State :=
  match tget s.teams tid with
  | none => s
  | some t =>
    match t.mode, tget s.launches t.launch with
    | .saved time, some l => (match l.kdesc with
      | some k =>
        let mine := s.dumps.filter fun d => d.team = tid
        let s := mine.foldl (fun s d => fwWriteAll s (d.pa.toNat % 2 ^ 56) (dumpBytes s l k t time t.saved)) s
        answerDump { s with dumps := s.dumps.filter fun d => d.team != tid } tid 0
      | none => s)
    | _, _ => s

/-- A dump request: it pre-empts the team; the context of a team that is saved already is copied at once. The action ends, and is
answered, when the context has been copied, or with status 1 when the pre-emption is withdrawn or the team has ended (R341). -/
def doDumpRequest (m : Mgmt) (tid : Nat) (pa : BitVec 64) (s : State) : State × Bool :=
  if (membersOf s tid).isEmpty then (mgmtResp s m 1 [], true)
  else if s.dumps.contains ⟨tid, pa⟩ then (s, false)
  else
    let s := writeDumps (requestPreempt { s with dumps := s.dumps ++ [⟨tid, pa⟩] } tid) tid
    if s.dumps.contains ⟨tid, pa⟩ then (s, false) else (mgmtResp s m 0 [], true)

/-- DUMP_REQUEST. DESIGN CHOICE (log entry 34). -/
def execDumpRequest (m : Mgmt) (tid : Nat) (pa : BitVec 64) (s : State) : Result :=
  onMgmt m (.dumpRequest tid pa) true s (doDumpRequest m tid pa)

/-! ### Saving -/

/-- The key under which a saved team's group keeps its views. -/
def savedKey (tid gid : Nat) : Nat := 1000000 + tid * 64 + gid

/-- A saved gang executes its parked instruction again, except a held trap and an arrival that is already counted.
DEDUCED (log entry 57). -/
def Path.save (p : Path) : Path :=
  let keep := match p.park with
    | some .heldTrap => p.park
    | some (.barrier _ _ _) => p.park
    | _ => none
  { p with park := keep, since := none, latched := false }

/-- The accesses that wait at the Trellis are withdrawn: they have no translation until they are issued again (R159). -/
def POp.withdraw (o : POp) : POp :=
  if o.done || o.halted || o.view.isNone || o.cls != .mem then o
  else { o with accs := o.accs.map fun a => if a.done then a else { a with x := noXlate } }

def Group.saved (g : Group) : Group := { g with paths := vmap (fun p => p.map Path.save) g.paths, ops := g.ops.map POp.withdraw }

/-- Views and tlbi of a group take another key. -/
def rekey (s : State) (old new : Nat) : State :=
  { s with
    trellis := s.trellis.map fun r => if r.group = some old then { r with group := some new } else r,
    tlbis := s.tlbis.map fun t => if t.group = old then { t with group := new } else t }

/-- DEDUCED (log entry 68). -/
def saveTeam (s : State) (tid : Nat) : State :=
  match tget s.teams tid with
  | none => s
  | some t =>
    let gs := t.gkeys.filterMap fun k => tget s.groups k
    let s := t.gkeys.zipIdx.foldl (fun s (k, gid) =>
      let s := rekey s k (savedKey tid gid)
      { s with groups := tdel s.groups k, s2faults := s.s2faults.filter fun f => f.1 != k,
               rwaits := s.rwaits.filter fun r => r.who != .group k }) s
    writeDumps { s with teams := tput s.teams tid { t with mode := .saved s.time, saved := gs.map Group.saved, gkeys := [] } } tid

/-- The request is no older than PRELIM (R293). -/
def inTime (s : State) (tid : Nat) : Bool :=
  match tget s.teams tid with
  | some t => (match t.mode with | .asked since => decide (s.time ≤ since + s.prelim * 1000) | .running | .saved _ => false)
  | none => false

def saveStep (s : State) (tid : Nat) : State :=
  let m := membersOf s tid
  if !m.isEmpty && m.all (fun i => teamEligible s i && inTime s i) then m.foldl saveTeam s else s

/-- DESIGN CHOICE (log entry 23). -/
def execPreemptSave (tid : Nat) (s : State) : Result := .next (saveStep s tid)

/-! ### Withdrawal (R293, R314) -/

def withdrawStep (s : State) (tid : Nat) : State :=
  match tget s.teams tid with
  | none => s
  | some t =>
    match t.mode with
    | .running | .saved _ => s
    | .asked since =>
      if s.time < since + s.prelim * 1000 then s
      else
        let ids := membersOf s tid
        let s := setMode s ids fun m => match m with | .asked _ => .running | .running => .running | .saved x => .saved x
        let s := { s with groups := s.groups.map fun (k, g) => (k, if ids.contains g.team then { g with paths := vmap (fun p => p.map fun p => { p with latched := false }) g.paths } else g) }
        let s := ids.foldl (fun s i => answerDump { s with dumps := s.dumps.filter fun d => d.team != i } i 1) s
        match tget s.launches t.launch with
        | some l =>
          let s := postNote s 5 l.ten (leBytes 8 l.queue ++ leBytes 8 l.index ++ leBytes 8 t.index)
          if (tcbOf s l.ten).frozen && (tcbOf s l.ten).freezing.isSome then abortMigration s l.ten else s
        | none => s

def execPreemptWithdraw (tid : Nat) (s : State) : Result := .next (withdrawStep s tid)

/-! ### Resumption -/

/-- Group keys on a unit, where slots, storage and tiles are free: reservations of waiting heads do not count. -/
def resumeFit (s : State) (k : KDesc) (u : List Nat) : Option (List Nat) :=
  (u.mapM fun c =>
    let need := k.teamg / u.length
    let slots := pickSlots s c k.budget (freeSlots s c) need []
    if slots.length = need && k.acc ≤ freeTiles s c then some (slots.map (c * 32 + ·)) else none).map List.flatten

/-- Members to units in order. -/
def resumeOn (s : State) (k : KDesc) : List (List Nat) → List Nat → Option (List (Nat × List Nat × List Nat))
  | _, [] => some []
  | [], _ :: _ => none
  | u :: us, t :: ts =>
    match resumeFit s k u with
    | some keys => (resumeOn s k us ts).map fun r => (t, u, keys) :: r
    | none => resumeOn s k us (t :: ts)

/-- Where the members resume, among the units that they may resume on; `wanted` says that a team saved earlier is to go first on one of some cores. DESIGN CHOICE (log entry 27). -/
def resumePlace (s : State) (k : KDesc) (ms : List (Nat × Team)) (wanted : List Nat → Bool) :
    Option (List (Nat × List Nat × List Nat)) :=
  ((resumeUnits s k (ms.map fun (_, t) => t.cores)).filter fun us => !wanted us.flatten).findSome? fun us => resumeOn s k us (ms.map (·.1))

/-- A group of a saved team takes a slot again; its watchdog count starts at 0 (R287). DEDUCED (log entry 77). -/
def resumeGroup (tid : Nat) (s : State) (x : (Nat × Nat) × Group) : State :=
  let ((key, gid), g) := x
  seatTrace (rekey { s with groups := tput s.groups key { g with wcount := 0 } } (savedKey tid gid) key) key

/-- A team takes its place again; its cores read afresh, as its views' grants ask (R159, R247). -/
def resumeTeam (s : State) (x : Nat × List Nat × List Nat) : State :=
  let (tid, u, keys) := x
  match tget s.teams tid with
  | some t =>
    let s := { s with teams := tput s.teams tid { t with mode := .running, cores := u, gkeys := keys, saved := [] } }
    u.foldl dropReadCache ((keys.zipIdx.zip t.saved).foldl (resumeGroup tid) s)
  | none => s

/-- An earlier save wants one of the cores. DESIGN CHOICE (log entry 27). -/
def earlierSave (s : State) (ms : List Nat) (time : Nat) (cores : List Nat) : Bool :=
  s.teams.any fun (i, t) =>
    !ms.contains i &&
      (match t.mode with
      | .saved x => (decide (x < time) || (x == time && decide (i < ms.headD 0))) && (wantedCores s t).any cores.contains
      | .running | .asked _ => false) &&
      (match tget s.launches t.launch with | some l => !(tcbOf s l.ten).frozen | none => false)

/-- DESIGN CHOICE (log entry 27). -/
def resumeStep (s : State) (tid : Nat) : State :=
  let ids := membersOf s tid
  let ms := ids.filterMap fun i => (tget s.teams i).map fun t => (i, t)
  let times := ms.filterMap fun (_, t) => match t.mode with | .saved x => some x | .running | .asked _ => none
  match ms, tget s.teams tid with
  | _ :: _, some t =>
    if times.length != ms.length then s
    else match tget s.launches t.launch with
      | some l => (match l.kdesc with
        | some k =>
          if (tcbOf s l.ten).frozen then s
          else match resumePlace s k ms (earlierSave s ids (times.headD 0)) with
            | some places => places.foldl resumeTeam s
            | none => s
        | none => s)
      | none => s
  | _, _ => s

def execTeamResume (tid : Nat) (s : State) : Result := .next (resumeStep s tid)

end Sys2Proof.Machine
end

