-- ==== Sys2Proof/Machine/Wake.lean ====
section
/-! DEFINITION. Steps of resident groups that no instruction names: merges (R21), trap entries (R176, R179), completions
(R149, R189, R190, R192), resumptions (R152, R161), barrier generations (R169, R170) and the watchdog (R287). -/

namespace Sys2Proof.Machine

/-- Run `f` for a resident group, and for one of its gangs. -/
def onGroup (s : State) (k : Nat) (f : Group → State) : Result :=
  match tget s.groups k with
  | some g => .next (f g)
  | none => .next s
def onPath (s : State) (k pi : Nat) (f : Group → Path → State) : Result :=
  onGroup s k fun g => match g.path pi with | some p => f g p | none => s

/-- Run `f` for a pending operation of a group. -/
def onOp (s : State) (k id : Nat) (f : Group → POp → State) : Result :=
  onGroup s k fun g => match g.op id with | some o => if o.done || o.halted then s else f g o | none => s

/-! ### REGANG_MERGE (R21) -/

/-- A live gang is parked at a regang; a stopped path is not (R334). -/
def atRegang (p : Path) : Bool := p.park == some .regang && p.stop != .stopped

/-- Gangs at the same regang. -/
def sameRegang (p q : Path) : Bool := p.spot == q.spot && p.code == q.code

/-- The merged gang of a list, under the first one's index. -/
def mergePaths : Path → List Path → Path
  | p, [] => p
  | p, q :: t =>
    mergePaths { p with slices := p.slices ||| q.slices, exec := p.exec ||| q.exec, arrived := p.arrived &&& q.arrived,
                        wdog := p.wdog || q.wdog, stop := if p.stop == .none then q.stop else p.stop } t

/-- Merge the gangs of a group, in order of path index; with the indices that took others in. -/
def mergeAll (g : Group) : List Nat → Group × List Nat
  | [] => (g, [])
  | i :: t =>
    match g.path i with
    | none => mergeAll g t
    | some p =>
      if !atRegang p then mergeAll g t
      else
        let mates := t.filter fun j => match g.path j with | some q => atRegang q && sameRegang p q | none => false
        let q := mergePaths p (mates.filterMap g.path)
        let g := mates.foldl (fun g j => g.setPath j none) g
        let g := { g with handler := g.handler.map fun (h : Handler) => if mates.contains h.path then { h with path := i } else h,
                          wlast := if mates.contains g.wlast then i else g.wlast }
        let q := { q.moved (p.spot.after 1) with arrived := q.arrived }
        let (g, l) := mergeAll (g.setPath i (some q)) t
        (g, if mates.isEmpty then l else i :: l)

def regangStep (s : State) (k : Nat) (g : Group) : State :=
  let live := g.paths.toList.filterMap id
  if live.isEmpty || !live.all atRegang || live.any (·.latched) then s
  else
    let (g, l) := mergeAll g (List.range 16)
    l.foldl (fun s i => match g.path i with | some p => emit s k i 1 1 (lanesField g.w p.exec) | none => s) (putGroup s k g)

/-- DESIGN CHOICE (log entry 21). -/
def execRegangMerge (k : Nat) (s : State) : Result := onGroup s k (regangStep s k)

/-! ### Trap entries (R176, R179) -/

/-- TRAP_ENTRY: a trap that waits for its entry enters once nothing is pending for v0 to v3. -/
def execTrapEntry (k pi : Nat) (s : State) : Result := onPath s k pi fun g p =>
  match p.trap with
  | some t => if p.park.isSome || lowHeld g then s else takeTrap s k g pi { p with trap := none } t
  | none => s

/-- HELD_TRAP_ENTRY: after a handler's tret, the held trap with the lowest path index. -/
def execHeldTrapEntry (k : Nat) (s : State) : Result := onGroup s k fun _ => enterHeld s k

/-! ### Completions -/

/-- MEM_OP_COMPLETE: every access that may perform does, and the operation completes when all have.
DESIGN CHOICE (log entry 7). -/
def execMemOpComplete (k id : Nat) (s : State) : Result := onOp s k id fun g o =>
  if o.cls != .mem then s
  else
    let (s, accs) := performAll s k g o [] o.accs
    let o := { o with accs := accs }
    if accs.all fun a => a.done then reap (completeMem s k g o) k else putGroup s k (g.putOp o)

/-- MATRIX_OPERATION_COMPLETE. -/
def execMatrixOperationComplete (k id : Nat) (s : State) : Result := onOp s k id fun g o =>
  if o.cls != .mat || !matTurn g o then s else reap (completeMat s k g o) k

/-- MATRIX_BATCH_COMPLETE: complete batches leave CNTX in batch order. -/
def execMatrixBatchComplete (k : Nat) (s : State) : Result := onGroup s k fun g => reap (putGroup s k g.settle) k

/-- The next unit of an engine operation. -/
def engineTry (s : State) (k : Nat) (g : Group) (o : POp) : State :=
  match o.cls with
  | .copy => if copyTurn g o then copyOne s k o.id else s
  | .mat => if matTurn g o then completeMat s k g o else s
  | .coll => (match o.kind with
    | .ccol co c src dst seq => ccolStep s k g o co c src dst seq
    | _ => s)
  | .mem | .cov => s

/-- Reports that a group holds. -/
def reportCount (s : State) (k : Nat) : Nat := match tget s.groups k with | some g => g.reports.length | none => 0

/-- ENGINE_TRANSFER_FAULT: the operation's next unit meets an error, which is held as its report. -/
def execEngineTransferFault (k id : Nat) (s : State) : Result := onOp s k id fun g o =>
  let t := engineTry s k g o
  if g.reports.length < reportCount t k then reap t k else s

/-! ### Resumptions -/

/-- ABSENT_LINE_RESUME: the presence bits are set, and the instruction executes again. DESIGN CHOICE (log entry 21). -/
def execAbsentLineResume (k pi : Nat) (s : State) : Result := onPath s k pi fun g p =>
  match p.park with
  | some (.line l) =>
    if p.latched || l.any s.absent.contains then s else putGroup s k (g.setPath pi (some { p with park := none }))
  | _ => s

/-- WAITV_RECHECK: the words not yet satisfied are read again. DESIGN CHOICE (log entry 21). -/
def execWaitvRecheck (k pi : Nat) (s : State) : Result := onPath s k pi fun g p =>
  match p.park with
  | some (.waitv id sat a b r w64 acq) => if p.latched then s else waitRound s k pi g p id sat a b r w64 acq
  | _ => s

/-! ### BARRIER_GENERATION_COMPLETE (R169, R170) -/

/-- The group has arrived, its accesses before the arrival visible at the scope, or has exited. -/
def groupThere (clu : Bool) (i : Nat) (g : Group) : Bool :=
  let n := g.lastArrival i
  (n == 0 || visibleBefore g (n - 1) (barScope clu)) && g.arrivedAt i

/-- The next generation: no gang has arrived. -/
def nextGen (i : Nat) (g : Group) : Group :=
  { g.setArrival i 0 with paths := vmap (fun p => p.map fun p => { p with arrived := p.arrived &&& ~~~(BitVec.ofNat 32 (2 ^ i)) }) g.paths }

/-- Teams of a barrier's span. -/
def spanTeams (s : State) (clu : Bool) (t : Team) (tid : Nat) : List Nat :=
  if clu then (s.teams.filter fun (_, u) => u.launch = t.launch && u.clu = t.clu).map (·.1) else [tid]

def bumpBar (v : Vector Nat 16) (id : Nat) : Vector Nat 16 := if h : id < 16 then v.set id (v[id] + 1) h else v

def clearTeam (i : Nat) (s : State) (tid : Nat) : State :=
  match tget s.teams tid with
  | some t =>
    { s with teams := tput s.teams tid { t with saved := t.saved.map (nextGen i) },
             groups := t.gkeys.foldl (fun gs k => tmod gs k (nextGen i)) s.groups }
  | none => s

def barrierStep (s : State) (clu : Bool) (tid id : Nat) : State :=
  match tget s.teams tid with
  | none => s
  | some t =>
    let i := barIdx clu id
    let span := spanTeams s clu t tid
    let gs := (span.map fun x => match tget s.teams x with | some u => teamGroups s u | none => []).flatten
    if !(gs.any fun g => g.lastArrival i != 0) || !gs.all (groupThere clu i) then s
    else
      let s := span.foldl (clearTeam i) s
      if clu then
        match clusterOf s t with
        | some (c, x) => { s with clusters := tput s.clusters c { x with bars := bumpBar x.bars id } }
        | none => s
      else { s with teams := tmod s.teams tid fun t => { t with bars := bumpBar t.bars id } }

def execBarrierGenerationComplete (clu : Bool) (team : Nat) (id : BitVec 4) (s : State) : Result :=
  .next (barrierStep s clu team id.toNat)

/-! ### WATCHDOG (R287) -/

/-- The limit in force at the group's scheduler (R286). -/
def watchLimit (s : State) (k ten : Nat) : Nat :=
  match s.scheds[coreOf k * 4 + slotOf k / 8]? with
  | some c => 2 ^ ((c.wdexp[ten]?).getD 22)
  | none => 2 ^ 22

/-- A gang of the group has WATCHDOG raised, or holds its trap. -/
def Group.wdogUp (g : Group) : Bool := g.paths.toList.any fun p => match p with
  | some p => p.wdog || (match p.trap with | some t => t.cause = cWATCHDOG | none => false)
  | none => false

/-- The count has reached the tenancy's limit: once, the gang that made the last counted issue traps at its next boundary. -/
def raiseWatchdog (s : State) (k : Nat) (g : Group) : State :=
  if slotOf k != 31 && !g.wdogUp && decide (watchLimit s k g.ten ≤ g.wcount) then
    match g.path g.wlast with
    | some p => putGroup s k (g.setPath g.wlast (some { p with wdog := true }))
    | none => s
  else s

def execWatchdog (k pi : Nat) (s : State) : Result := onGroup s k fun g => if g.wlast = pi then raiseWatchdog s k g else s

end Sys2Proof.Machine
end

