-- ==== Sys2Proof/Machine/Iso.lean ====
section
/-! DEFINITION. Isolation steps: the firmware agents' pools, stage-2 faults and page moves (R185, R236, R264, R304, R306, R308),
and the firmware services of R341 for tenancies: queues, keys, peers, communicators, reset and migration (R36, R50, R203,
R311 to R314). -/

namespace Sys2Proof.Machine

/-! ### POOL_REFILL (R306) -/

/-- A 4 KiB page at a PA becomes zero under whatever key reads it. -/
def scrubPage (s : State) (pa : Nat) : State :=
  { s with mem := s.mem.filter fun c => c.1 / 4096 != pa / 4096,
           poison := s.poison.filter (· / 4096 != pa / 4096),
           unitKey := s.unitKey.filter fun u => u.1 * 32 / 4096 != pa / 4096 }

/-- The 64 KiB page at an intermediate address of a tenancy, zeroed. -/
def scrubIa (s : State) (ten ia : Nat) : State :=
  (List.range 16).foldl (fun s i => match stage2 s ten (ia + 4096 * i) with
    | some u => (match herePa s u.pa with | some pa => scrubPage s pa | none => s)
    | none => s) s

/-- Add one scrubbed page, while the ring has room. -/
def pushPool (ten : Nat) (s : State) (e : BitVec 64) : State :=
  let t := tcbOf s ten
  if (t.ptail - t.phead).toNat ≥ 2 ^ t.plog then s
  else
    let s := scrubIa s ten (bits e.toNat 55 16 * 65536)
    let s := writeNat s 32 (normPa s (t.pbase.toNat + t.ptail.toNat % 2 ^ t.plog * 8)) 8 (bits e.toNat 55 16 * 65536 + bits e.toNat 11 10 * 1024)
    setTcb s ten { t with ptail := t.ptail + 1 }

/-- The agent answers the POOLLOW that a poolget posted; what its reserve cannot cover is posted to the host. -/
def execPoolRefill (ten : Nat) (pages : List (BitVec 64)) (s : State) : Result :=
  let low (s : State) : Bool := decide (((tcbOf s ten).ptail - (tcbOf s ten).phead).toNat < (tcbOf s ten).lowat.toNat)
  if 32 ≤ ten || !(tcbOf s ten).poollow then .next s
  else
    let s := pages.foldl (pushPool ten) (setTcb s ten { tcbOf s ten with poollow := false })
    .next (if low s then postNote s 3 ten [] else s)

/-! ### Tenancy reset (R313) -/

/-- A launch flight of a killed tenancy completes with KILLED in its signal, or with the code with which it was ending; any other
completes without effect. -/
def killFlight (s : State) (qn : Nat) (f : Flight) : State :=
  if f.finished || !f.started then s
  else if pType f.bytes = 1 then completePacket s qn { f with launch := none } (f.ending.getD eKILLED)
  else
    let s := feDone s (askerOf qn f)
    match tget s.queues qn with
    | some q =>
      let (s, q) := advanceRd (q.flights.length + 1) s qn (q.putFlight { f with finished := true })
      putQueue s qn q
    | none => s

/-- A queue halts with KILLED (step 1); a RESTARTQ that still waits for it fails, as one after the kill does (R50).
DEDUCED (log entry 28). -/
def killQueue (ten : Nat) (s : State) (x : Nat × Queue) : State :=
  if x.2.ten = ten then
    haltQueue (x.2.restart.foldl (fun s r => endMgmt s r.1 1) s) x.1 { x.2 with restart := [], cleared := false, polling := false } x.2.nstart eKILLED
  else s

/-- The started packets of a killed queue (step 4). -/
def killFlights (ten : Nat) (s : State) (x : Nat × Queue) : State :=
  if x.2.ten = ten then x.2.flights.foldl (fun s f => killFlight s x.1 f) s else s

/-- Granules of a tenancy are scrubbed and lose their tag (step 6). -/
def freeGranules (s : State) (ten : Nat) : State :=
  let mine (pa : Nat) : Bool := isSilo pa && ownerOf s pa == some ten
  { s with mem := s.mem.filter fun c => !mine c.1,
           poison := s.poison.filter fun p => !mine p,
           absent := s.absent.filter fun l => !mine (l * 64),
           owner := s.owner.filter fun g => g.2 != ten }

/-- Every team of a tenancy ends without being saved (step 2), and the requests of its front end are dropped. -/
def killTeams (s : State) (ten : Nat) : State :=
  let lids := (s.launches.filter fun (_, l) => l.ten = ten).map (·.1)
  let tids := (s.teams.filter fun (_, t) => lids.contains t.launch).map (·.1)
  let s := tids.foldl (fun s t => dropTeam s t false) s
  let trees := (s.launches.filter fun (_, l) => l.ten = ten).map fun (_, l) => l.tree
  let mine (q : Nat) : Bool := match tget s.queues q with | some q => q.ten = ten | none => false
  { s with teams := s.teams.filter fun (_, t) => !lids.contains t.launch,
           clusters := s.clusters.filter fun (_, c) => !lids.contains c.launch,
           launches := s.launches.filter fun (_, l) => l.ten != ten,
           trees := s.trees.filter fun (t, _) => !trees.contains t,
           groups := s.groups.filter fun (_, g) => g.ten != ten,
           s2faults := s.s2faults.filter fun f => match tget s.groups f.1 with
             | some g => g.ten != ten
             | none => decide (4096 ≤ f.1) && f.1 != 4096 + ten,
           rwaits := s.rwaits.filter fun r => match r.who with
             | .group _ | .op _ => true
             | .queue q => !mine q
             | .packet q _ => !mine q || r.n == 4098
             | .launch l => !lids.contains l
             | .walk t => t != ten,
           dumps := s.dumps.filter fun d => !tids.contains d.team }

/-- The messages for a tenancy that still wait here are refused, but those that a stub had acknowledged (R312, R313). -/
def refuseHeld (s : State) (ten : Nat) : State :=
  let out := s.held.filter fun h => h.ten = ten && !h.acked
  out.foldl (fun s h => respond s h.frame 1 []) { s with held := s.held.filter fun h => h.ten != ten }

/-- Launches of a tenancy that is being reset whose signals have not been written (step 4). -/
def signalsLeft (s : State) (ten : Nat) : Bool :=
  s.queues.any fun (_, q) => q.ten = ten && q.flights.any fun f => f.ending.isSome && !f.finished

/-- Steps 1 to 4 of a tenancy's reset. -/
def beginReset (s : State) (ten : Nat) (svc : Bool) : State :=
  let s := s.queues.foldl (killQueue ten) s
  let s := killTeams s ten
  let s := retireViews s fun r => r.ten = ten
  s.queues.foldl (killFlights ten) { s with resets := s.resets ++ [(ten, svc)] }

/-- Steps 5 to 8. -/
def endReset (s : State) (ten : Nat) : State :=
  let s := invalidate s ten (fun _ => true) fun _ => true
  let s := { s with resets := s.resets.filter (fun r => r.1 != ten), tlbis := s.tlbis.filter fun t => t.ten != ten, moves := s.moves.filter fun (_, m) => m.ten != ten,
                    s2faults := s.s2faults.filter fun f => f.1 != 4096 + ten }
  let s := freeGranules (refuseHeld s ten) ten
  let s := setTcb s ten { tcbOf s ten with
    key := none, en := false, keyok := false, frozen := false, freezing := none, target := none, log := [], poollow := false }
  postNote s 6 ten []

/-- The signals of a reset that had to wait are tried again, and the reset goes on when all have been written. -/
def goReset (s : State) (ten : Nat) : State :=
  let tryAll (s : State) (x : Nat × Queue) : State :=
    if x.2.ten = ten then x.2.flights.foldl (fun s f => if f.ending.isSome then killFlight s x.1 f else s) s else s
  let s := s.queues.foldl tryAll s
  if signalsLeft s ten then s else endReset s ten

/-- Tenancy reset; it waits at step 4 while a signal's atomic has to. DEDUCED (log entry 28). -/
def resetTenancy (s : State) (ten : Nat) : State :=
  if resetting s ten then s
  else
    let s := beginReset s ten false
    if signalsLeft s ten then s else endReset s ten

/-- A firmware service whose parameters are good or not: it is carried out and answered with status 0, or refused. -/
def service (m : Mgmt) (good : Bool) (s t : State) : State × Bool := (if good then mgmtResp t m 0 [] else mgmtResp s m 1 [], true)

/-- TENANCY_RESET is answered when the reset has ended; one that is under way for another reason ends first. -/
def doTenancyReset (m : Mgmt) (ten : Nat) (s : State) : State × Bool :=
  if 32 ≤ ten then (mgmtResp s m 1 [], true)
  else if s.resets.contains (ten, false) then (s, false)
  else
    let s := if resetting s ten then s else beginReset s ten true
    let s := goReset s ten
    if resetting s ten then (s, false) else (mgmtResp s m 0 [], true)

/-- DESIGN CHOICE (log entry 23). -/
def execTenancyReset (m : Mgmt) (ten : Nat) (s : State) : Result := onMgmt m (.tenancyReset ten) true s (doTenancyReset m ten)

/-! ### STAGE2_FAULT_RESOLVE (R304) -/

/-- RD's advance and the restart of a queue go on where a front-end write had to wait, for its page or its acknowledgement. -/
def retryQueue (s : State) (x : Nat × Queue) : State :=
  match tget s.queues x.1 with
  | some q =>
    let (s, q) := advanceRd (q.flights.length + 1) s x.1 q
    settleRestart (putQueue s x.1 q) x.1
  | none => s

def retryQueues (s : State) (ten : Nat) : State := (s.queues.filter fun x => x.2.ten = ten).foldl retryQueue s

/-- The signals that a reset cannot write, since the host has refused their pages, are given up. DEDUCED (log entry 28). -/
def giveUpSignals (s : State) (ten : Nat) : State :=
  let one (s : State) (x : Nat × Queue) : State :=
    if x.2.ten = ten then x.2.flights.foldl (fun s f => if f.ending.isSome && !f.finished then endPacket s x.1 f (f.ending.getD 0) else s) s else s
  s.queues.foldl one { s with s2faults := s.s2faults.filter fun f => f.1 != 4096 + ten }

/-- The posted fault of a front end: it tries again, with the stale entries gone, or the tenancy is reset. -/
def resolveFe (s : State) (ten k page : Nat) : S2Answer → State
  | .refused => if resetting s ten then giveUpSignals s ten else resetTenancy s ten
  | .mapped => retryQueues (invalidateVa { s with s2faults := s.s2faults.filter fun f => !(f.1 == k && f.2.1 == page) } ten (page * 4096)) ten

/-- The agent has mapped the page, removes what the TLBs hold of it, and releases the gang, the transfer or the front end; a refusal
by the host resets the tenancy. DESIGN CHOICE (log entry 22). -/
def execStage2FaultResolve (k pi : Nat) (ans : S2Answer) (s : State) : Result :=
  if 4096 ≤ k then .next (if s.s2faults.any fun f => f.1 == k && f.2.1 == pi then resolveFe s (k - 4096) k pi ans else s)
  else onGroup s k fun g =>
  if !(s.s2faults.any fun f => f.1 == k && f.2.1 == pi) then s
  else match ans with
    | .refused => resetTenancy s g.ten
    | .mapped =>
      let vas := (s.s2faults.filter fun f => f.1 == k && f.2.1 == pi).map fun f => f.2.2.toNat % 2 ^ 56
      let t := vas.foldl (fun s va => invalidateVa s g.ten va) { s with s2faults := s.s2faults.filter fun f => !(f.1 == k && f.2.1 == pi) }
      match g.path pi with
      | some p => (match p.park with
        | some (.stage2 _) => if p.latched then s else putGroup t k (g.setPath pi (some { p with park := none }))
        | _ => t)
      | none => t

/-! ### Migration of a tenancy (R314) -/

/-- Every team of a tenancy. -/
def teamsOf (s : State) (ten : Nat) : List Nat :=
  (s.teams.filter fun (_, t) => match tget s.launches t.launch with | some l => l.ten = ten && !t.ended | none => false).map (·.1)

/-- FROZEN is set, and every team of the tenancy is to be saved. DEDUCED (log entry 68). -/
def doTenancyFreeze (m : Mgmt) (ten target : Nat) (s : State) : State × Bool :=
  service m (decide (ten < 32) && !(tcbOf s ten).frozen) s <|
    (teamsOf s ten).foldl requestPreempt
      (setTcb s ten { tcbOf s ten with frozen := true, freezing := some s.time, target := some target, log := [] })

def execTenancyFreeze (m : Mgmt) (ten target : Nat) (s : State) : Result :=
  onMgmt m (.tenancyFreeze ten target) true s (doTenancyFreeze m ten target)

/-- At the target the log is performed in order before any team resumes. At the source, where the tenancy is frozen, the
replay ends the capture, and later arrivals are forwarded. DEDUCED (log entry 68). -/
def execLogReplay (ten : Nat) (log : List Frame) (s : State) : Result :=
  let t := tcbOf s ten
  if 32 ≤ ten then .next s
  else if t.frozen then
    (if t.freezing.isNone then .next s else .next (postNote (setTcb s ten { t with freezing := none, log := [] }) 7 ten (leBytes 1 0)))
  else if t.keyok then .next (postNote (replayFrames s ten log) 7 ten (leBytes 1 0))
  else .next s

/-! ### Page moves (R236, R264, R308) -/

/-- A page of a view's box lies in [old, old + size). -/
def viewTouches (s : State) (r : Reg) (old size : Nat) : Bool :=
  let (lo, hi) := viewBox r.desc
  let pages := (hi / 4096 - lo / 4096).toNat + 1
  (List.range pages).any fun i =>
    let va := (vaOf lo / 4096 + i) * 4096 % 2 ^ 56
    let w := walk s r.ten va
    w.code == 0 && !w.s2 && (match herePa s (w.x.pa + (va - w.base)) with
      | some pa => decide (pa < old + size) && decide (old < pa + 4096)
      | none => false)

/-- The page lies inside the box of a live view. -/
def inLiveView (s : State) (ten old size : Nat) : Bool := s.trellis.any fun r => r.ten == ten && viewTouches s r old size

/-- t + RATE × E in units of 2^−16 ns. -/
def priced (s : State) (t e : Nat) : Nat := t * 65536 + s.wb.rate.toNat * e

/-- The byte ranges of a stack that a smaller CAPCH no longer has. -/
def lostRanges (s : State) (st cap : Nat) : List (Nat × Nat) :=
  let old := (s.caps.chans.getD st 0).toNat
  let hb := hbmBase + st * (48 * GiB)
  let ce := cellarBase + st * (256 * GiB)
  [(hb + bits cap 63 32 * GiB, hb + bits old 63 32 * GiB),
   (ce + popcount 32 (cap % 2 ^ 32) * (8 * GiB), ce + popcount 32 (old % 2 ^ 32) * (8 * GiB))]

/-- CAPCH of a stack without a channel, with the HBM GiB that remain. -/
def capWithout (s : State) (st ch gib : Nat) : Nat :=
  let old := (s.caps.chans.getD st 0).toNat
  min gib (bits old 63 32) * 2 ^ 32 + (BitVec.ofNat 32 old &&& ~~~(BitVec.ofNat 32 (2 ^ ch))).toNat

/-- A PA lies where a channel that is being quarantined has its capacity (R324). -/
def isLeaving (s : State) (pa : Nat) : Bool :=
  s.leaving.any fun (st, ch, gib) => (lostRanges s st (capWithout s st ch gib)).any fun (a, b) => decide (a ≤ pa) && decide (pa < b)

/-- MIGRATION_DECISION: a page of a tenancy, by intermediate address, is to move to a PA of the other tier; times in ns and
energies in nJ are the agent's. A page of a quarantined channel is moved off it to any place, whatever the gain (R324). -/
def execMigrationDecision (ten page dst gainT gainE costT costE : Nat) (s : State) : Result :=
  match stage2 s ten (page / 4096 * 4096) with
  | none => .next s
  | some u =>
    let old := u.pa / u.size * u.size
    let other := match homeOf old, homeOf dst with
      | some (.hbm, _), some (.cellar, _) | some (.cellar, _), some (.hbm, _) => true
      | _, _ => false
    let worth := isLeaving s old || (other && decide (16 * priced s costT costE < 15 * priced s gainT gainE))
    if (u.size = 4096 || u.size = 65536) && worth && dst % u.size = 0 && populated s dst && !isLeaving s dst && !isRemote old &&
        !(s.moves.any fun (_, m) => m.old == old) && !inLiveView s ten old u.size then
      let (n, s) := newSerial s
      .next { s with moves := tput s.moves n ⟨ten, u.leaf, old, dst, u.size, 0⟩ }
    else .next s

/-- Every TLB entry of a tenancy into [a, a + n) goes: tlbi and tlbsync. -/
def dropPage (s : State) (ten a n : Nat) : State :=
  invalidate s ten (fun e => decide (e.x.pa < a + n) && decide (a < e.x.pa + e.size)) fun _ => false

/-- A write past translation to the old copy has not performed. -/
def oldWrites (s : State) (m : Move) : Bool :=
  s.groups.any fun (_, g) => g.ops.any fun o => !o.done && OpKind.isWrite o.kind &&
    o.accs.any fun a => !a.done && !a.x.mp && decide (m.old ≤ a.x.pa) && decide (a.x.pa < m.old + m.size)

/-- Copy a page with its poison and under its keys; no heat, no A or D bit. -/
def copyPage (s : State) (m : Move) : State :=
  let d (x : Nat) : Nat := m.new + (x - m.old)
  let inOld (x : Nat) : Bool := decide (m.old ≤ x) && decide (x < m.old + m.size)
  let inNew (x : Nat) : Bool := decide (m.new ≤ x) && decide (x < m.new + m.size)
  let cells := s.mem.filter fun c => inOld c.1
  let keys := s.unitKey.filter fun u => inOld (u.1 * 32)
  { s with mem := cells.foldl (fun t c => Memory.set t (d c.1) c.2) (s.mem.filter fun c => !inNew c.1),
           unitKey := keys.foldl (fun t u => tput t (d (u.1 * 32) / 32) u.2) (s.unitKey.filter fun u => !inNew (u.1 * 32)),
           poison := (s.poison.filter inOld).foldl (fun t p => sadd t (d p)) (s.poison.filter fun p => !inNew p) }

/-- A move of a page clears Q and the count of both copies (R308). -/
def clearHeat (s : State) (pa : Nat) : State := { s with heat := tdel s.heat (pa / 65536) }

/-- The leaf with MP set, or with the new PA and MP clear. -/
def movedLeaf (m : Move) (done : Bool) (e : Nat) : Nat :=
  let e := e / 512 * 512 + e % 256
  if done then e / 2 ^ 56 * 2 ^ 56 + m.new + (match tierCode m.new with | some t => t * 1024 | none => 0) + e % 1024
  else e + 256

/-- The accesses that took their translation from the old entry perform at the new copy (R262, R264). -/
def movePending (s : State) (m : Move) : State :=
  let place (a : Acc) : Acc :=
    if !a.done && decide (m.old ≤ a.x.pa) && decide (a.x.pa < m.old + m.size) then
      { a with x := { a.x with pa := m.new + (a.x.pa - m.old), mp := false } }
    else a
  let move (g : Group) : Group := { g with ops := g.ops.map fun o => { o with accs := o.accs.map place } }
  { s with groups := s.groups.map fun (k, g) => (k, move g),
           teams := s.teams.map fun (t, x) => (t, { x with saved := x.saved.map move }) }

/-- Steps 5 to 7 of a move: the new PA with MP clear, the old entries gone, and what waited performs at the new copy. No
cache keeps a line of either copy. -/
def endMove (s : State) (n : Nat) (m : Move) : State :=
  let s := writeNat s 32 m.leaf 8 (movedLeaf m true (readNat s 32 m.leaf 8))
  let s := dropPage s m.ten m.old m.size
  let s := dropEverywhere (dropEverywhere s m.old m.size) m.new m.size
  let s := moveHeld (movePending { s with moves := tdel s.moves n } m) m
  retryQueues (clearHeat (clearHeat s m.old) m.new) m.ten

/-- The next step of a move. It waits while the page lies inside the box of a live view, and gives MP and its copy up again for one
that is opened before the new entry is written, since the view stands registered at the old home (R264). -/
def moveStep (s : State) (n : Nat) (m : Move) : State :=
  let next (s : State) (i : Nat) : State := { s with moves := tput s.moves n { m with stepNo := i } }
  let live := inLiveView s m.ten m.old m.size
  let mark (b : Bool) : State :=
    let e := readNat s 32 m.leaf 8
    dropPage (writeNat s 32 m.leaf 8 (if b then movedLeaf m false e else e / 512 * 512 + e % 256)) m.ten m.old m.size
  match m.stepNo with
  | 0 => if live then s else next (mark true) 1
  | 1 => if live then next (mark false) 0 else if oldWrites s m then s else next s 2
  | 2 => if live then next (mark false) 0 else next (copyPage s m) 3
  | _ => if live then next (mark false) 0 else endMove s n m

/-- DESIGN CHOICE (log entry 23). -/
def execPageMigration (n : Nat) (s : State) : Result :=
  match tget s.moves n with
  | some m => .next (moveStep s n m)
  | none => .next s

/-- MIGRATION_ACK: the agent acknowledges the oldest ring entry. -/
def execMigrationAck (ten : Nat) (s : State) : Result :=
  let t := tcbOf s ten
  if t.mrrd == t.mrwr then .next s
  else
    let e := readNat s 32 (normPa s (t.mrbase.toNat + t.mrrd.toNat % 2 ^ t.mrlog * 16)) 8
    .next (clearHeat (setTcb s ten { t with mrrd := t.mrrd + 1 }) (bits e 55 16 * 65536))

/-! ### Firmware services (R341) -/

/-- A descriptor's fields in their ranges (R36). -/
def queueDescOk (q : QueueDesc) : Bool :=
  q.ring.toNat % 128 == 0 && q.wra.toNat % 8 == 0 && q.rda.toNat % 8 == 0 && 4 ≤ q.logn.toNat && q.logn.toNat ≤ 16 &&
    q.maxi.toNat ≤ 10 && q.qnum.toNat < 4096 && q.ten.toNat < 32 && q.rsv == 0

/-- The queue that CREATE_QUEUE makes, which counts from an RD. -/
def newQueue (s : State) (q : QueueDesc) (rd : Nat) : Queue :=
  { desc := q, rd := rd, wr := rd, interval := 1, due := s.time + 1000, halted := none, flights := [], skips := [],
    copies := [], first := rd, nstart := rd, restart := [], cleared := false, polling := false }

/-- A word of a queue's that a service needs: its read goes on, or the service waits for it. DESIGN CHOICE (log entry 90). -/
def feWord (s : State) (qn ten va : Nat) (missing : Nat) (f : State → Nat → State × Bool) : State × Bool :=
  match feGet s (.queue qn) ten .read va 8 with
  | .ok l => f (feDone (feTouch s ten va 8) (.queue qn)) (field l 0 8)
  | .bad => f (feDone s (.queue qn)) missing
  | .wait => (feAsk s (.queue qn) ten .read va 8, false)

/-- CREATE_QUEUE: RD starts from the word at RDA, and from 0 where that cannot be read. A descriptor with a field out of
range, or a QNUM in use, creates nothing and is answered with status 1. DESIGN CHOICE (log entry 90). -/
def doCreateQueue (m : Mgmt) (q : QueueDesc) (s : State) : State × Bool :=
  if !queueDescOk q || (tget s.queues q.qnum.toNat).isSome || !readyAll s then (mgmtResp s m 1 [], true)
  else feWord s q.qnum.toNat q.ten.toNat q.rda.toNat 0 fun s rd => (mgmtResp (putQueue s q.qnum.toNat (newQueue s q rd)) m 0 [], true)

def execCreateQueue (m : Mgmt) (q : QueueDesc) (s : State) : Result := onMgmt m (.createQueue q) true s (doCreateQueue m q)

/-- The message's restart waits at the queue. -/
def restartPending (s : State) (qn : Nat) (m : Mgmt) : Bool :=
  match tget s.queues qn with
  | some q => q.restart.any fun r => r.1 == m
  | none => false

/-- RESTARTQ (R50): it fails at once, or waits for the queue's started packets, and the messages behind it with it (R341); WR is
read first. DESIGN CHOICE (log entry 90). -/
def doRestartq (m : Mgmt) (qn : Nat) (mode : RestartMode) (rd : Nat) (s : State) : State × Bool :=
  match tget s.queues qn with
  | none => (mgmtResp s m 1 [], true)
  | some q => if restartPending s qn m then (s, false) else feWord s qn q.ten q.desc.wra.toNat q.wr fun s wr =>
    if restartBad s q mode.toNat rd wr then (mgmtResp s m 1 [], true)
    else
      let s := settleRestart (putQueue s qn { q with wr := wr, restart := q.restart ++ [(m, mode.toNat, rd)] }) qn
      (s, !restartPending s qn m)

def execRestartq (m : Mgmt) (qn : Nat) (mode : RestartMode) (rd : Nat) (s : State) : Result :=
  onMgmt m (.restartq qn mode rd) true s (doRestartq m qn mode rd)

/-- LOAD_KEY: equal keys have equal numbers, and no tenancy's key has firmware's number 0. -/
def doLoadKey (m : Mgmt) (ten : Nat) (key : BitVec 256) (s : State) : State × Bool :=
  service m (decide (ten < 32)) s (setTcb s ten { tcbOf s ten with key := some (key.toNat + 1), keyok := true })

def execLoadKey (m : Mgmt) (ten : Nat) (key : BitVec 256) (s : State) : Result :=
  onMgmt m (.loadKey ten key) true s (doLoadKey m ten key)

/-- A peer of a tenancy: a tenancy of another part, or its firmware as number 32. -/
def doRegisterPeer (m : Mgmt) (ten part peer : Nat) (s : State) : State × Bool :=
  service m (decide (ten < 32) && decide (part < 8192) && decide (peer ≤ 32)) s
    { s with peers := if s.peers.contains (ten, part, peer) then s.peers else s.peers ++ [(ten, part, peer)] }

def execRegisterPeer (m : Mgmt) (ten part peer : Nat) (s : State) : Result :=
  onMgmt m (.registerPeer ten part peer) true s (doRegisterPeer m ten part peer)

def doRegisterCommunicator (m : Mgmt) (ten cid nrank : Nat) (s : State) : State × Bool :=
  let c : Nat × Word × Nat := (ten, BitVec.ofNat 64 cid, nrank)
  service m (decide (ten < 32) && decide (nrank ≠ 0) && decide (nrank ≤ 524288)) s
    { s with comms := c :: s.comms.filter fun x => !(x.1 == ten && x.2.1 == c.2.1) }

def execRegisterCommunicator (m : Mgmt) (ten cid nrank : Nat) (s : State) : Result :=
  onMgmt m (.registerCommunicator ten cid nrank) true s (doRegisterCommunicator m ten cid nrank)

/-! ### The published costs (R233) -/

/-- Entry n of the mms table, whose formats have the codes 0, 1, 2, 4 and 5: CYC, then ENJ at every point; the order and the layout are the model's own.
DESIGN CHOICE (log entry 10). -/
def costRow (n : Nat) : List Byte :=
  let i := n % 512
  let e := fun op => costEntry (n / 2560) ([0, 1, 2, 4, 5].getD (n / 512 % 5) 0) (i / 64 + 1) (i / 8 % 8 + 1) (i % 8 + 1) op
  leBytes 4 (e 0).1 ++ ((List.range 8).map fun op => leBytes 4 (e op).2).flatten

/-- Every descriptor: the 5,120 entries of the mms table, then e and s of a core at every point. -/
def costImage : List Byte :=
  ((List.range 5120).map costRow).flatten ++
    ((List.range 8).map fun k => leBytes 4 (Config.coreE k) ++ leBytes 4 (Config.coreS k)).flatten

/-- The answer of PUBLISH_COSTS: the descriptors in pieces of 4 KiB, one response each. DESIGN CHOICE (log entry 10). -/
def sendCosts (s : State) (m : Mgmt) : State :=
  (List.range ((costImage.length + 4095) / 4096)).foldl (fun s i => mgmtResp s m 0 ((costImage.drop (4096 * i)).take 4096)) s

def doPublishCosts (m : Mgmt) (s : State) : State × Bool := ({ sendCosts s m with published := true }, true)

def execPublishCosts (m : Mgmt) (s : State) : Result := onMgmt m .publishCosts true s (doPublishCosts m)

end Sys2Proof.Machine
end

