-- ==== Sys2Proof/Machine/Power.lean ====
section
/-! DEFINITION. The exchange rate and the choosers that read it (R228 to R237): the law of a tick, clock stretches, operating
points and link lanes. Power, active cycles and carried bytes are measurements, which the steps take as their arguments. -/

namespace Sys2Proof.Machine

/-! ### The law (R229) -/

/-- The largest number below 2^n times `base` + 2^n whose 256th power does not exceed x, found bit by bit.
DEDUCED (log entry 46). -/
def root256 (x : Nat) : Nat → Nat → Nat
  | 0, acc => acc
  | n + 1, acc => if (acc + 2 ^ n) ^ 256 ≤ x then root256 x n (acc + 2 ^ n) else root256 x n acc

/-- ρ × 2^(j/256), rounded once; irrational but for j = 0, so that no tie arises. -/
def scaleRate (rho : Nat) (j : Int) : Nat :=
  if j = 0 then rho
  else
    let y := (2 * rho) ^ 256
    let x := if 0 < j then y * 2 ^ j.natAbs else y / 2 ^ j.natAbs
    (root256 x 40 0 + 1) / 2

/-- j of R229 from the power, the target and G. -/
def rateStep (p tgt gsel : Nat) : Int :=
  let d : Int := (p : Int) - (tgt : Int)
  let j : Int := if d < 0 then -((d.natAbs * (32 * 2 ^ gsel) / tgt : Nat) : Int) else ((d.natAbs * (32 * 2 ^ gsel) / tgt : Nat) : Int)
  max (-16) (min 16 j)

/-- The rate that a tick computes, before its clamp. -/
def nextRate (w : Weigh) (p : Nat) : Nat :=
  match w.rset with
  | some r => r
  | none =>
    if w.fix then w.rate.toNat
    else scaleRate w.rate.toNat (if w.capNow then 16 else rateStep p (w.ptgt * 1000) w.gsel)

/-- A rate whose effective TIME has come is in force (R228). -/
def applyRate (s : State) : State :=
  match s.wb.pending with
  | some (r, t) => if t ≤ s.time then { s with wb := { s.wb with rate := r, pending := none } } else s
  | none => s

/-- Weighbridge after a tick with power p in mW. With FIX the rate changes only through WBRSET, and nothing is clamped. -/
def tickWeigh (w : Weigh) (p : Nat) (stretched : Bool) : Weigh :=
  let x := nextRate w p
  let held := w.fix && w.rset.isNone
  let lo := !held && decide (x < w.rmin)
  let hi := !held && decide (w.rmax < x)
  let y := if held then x else max w.rmin (min w.rmax x)
  let n := w.tick + 1
  { w with rset := none, cap := w.capNow, satlo := lo, sathi := hi, tick := n, pmw := BitVec.ofNat 32 p,
           capn := if w.capNow && w.capn.toNat < 2 ^ 32 - 1 then w.capn + 1 else w.capn, capNow := stretched,
           run := if hi then min 65 (w.run + 1) else 0, pending := some (BitVec.ofNat 32 y, n * 1000 + 250), capEff := w.pcap }

/-- A rate notice to the host's management endpoint (R230). DESIGN CHOICE (log entry 66). DESIGN CHOICE (log entry 34). -/
def rateNotice (s : State) : State := mgmtNote s (leBytes 32 0)

/-- RATE_TICK: one tick a µs; the power is the step's argument. DESIGN CHOICE (log entry 18). -/
def execRateTick (p : Nat) (s : State) : Result :=
  let s := applyRate s
  if s.time < (s.wb.tick + 1) * 1000 then .next s
  else
    let s := { s with wb := tickWeigh s.wb p (s.domains.toList.any fun d => d.stretched),
                      tcbs := vmap (fun (t : Tcb) => { t with floor := t.trmin, ceil := t.trmax }) s.tcbs }
    .next (applyRate (if s.wb.run = 64 then rateNotice s else s))

/-! ### Clock stretches (R235, R237) -/

def setStretch (s : State) (d : Nat) (b : Bool) : State :=
  if h : d < 81 then { s with domains := s.domains.set d { s.domains[d] with stretched := b } h } else s

/-- Regulator phases of a domain (R344). -/
def domainPhases (d : Nat) : Nat := if d < 64 then 4 else if d < 68 then 8 else if d < 80 then 4 else 8

/-- Phases of a domain that have failed. -/
def failedPhases (s : State) (d : Nat) : Nat := match s.domains[d]? with | some x => x.failed | none => 0

/-- A domain's current ceiling in mA: the share of the Pcap in effect (R230) that the image gives it, times the fraction of its phases that remain
(R237, R344). DESIGN CHOICE (log entry 91). -/
def ceilingOf (s : State) (d : Nat) : Nat := Config.ceiling s.wb.capEff d * (domainPhases d - failedPhases s d) / domainPhases d

/-- CLOCK_STRETCH: a current in mA above the ceiling. -/
def execClockStretch (d current : Nat) (s : State) : Result :=
  if d < 81 && decide (ceilingOf s d < current) then .next { setStretch s d true with wb := { s.wb with capNow := true } } else .next s

/-- CLOCK_STRETCH_END: the current has fallen below the ceiling. -/
def execClockStretchEnd (d current : Nat) (s : State) : Result :=
  .next (if decide (current < ceilingOf s d) then setStretch s d false else s)

/-! ### Operating points (R13, R232) -/

/-- t(k) × f(k), for active cycles and memory waits in ns. -/
def opTime (a mw k : Nat) : Nat := a * 1000 + mw * Config.coreMhz k
/-- cost(k) × f(k) × 2^32. DESIGN CHOICE (log entry 10). -/
def opCost (rate a mw k : Nat) : Nat :=
  opTime a mw k * 2 ^ 32 + rate * (Config.coreE k * a * Config.coreMhz k + Config.coreS k * opTime a mw k)

/-- k is better than b: the lower cost, or the lower t on equal cost. -/
def opBetter (rate a mw k b : Nat) : Bool :=
  let x := opCost rate a mw k * Config.coreMhz b
  let y := opCost rate a mw b * Config.coreMhz k
  decide (x < y) || (x == y && decide (opTime a mw k * Config.coreMhz b < opTime a mw b * Config.coreMhz k))

def bestOp (rate a mw limit : Nat) : Nat :=
  (List.range limit).foldl (fun b k => if opBetter rate a mw (k + 1) b then k + 1 else b) 0

def setCore (s : State) (c : Nat) (k : Core) : State := if h : c < 64 then { s with cores := s.cores.set c k h } else s
def coreAt (s : State) (c : Nat) : Core := (s.cores[c]?).getD Core.reset

/-- OP_DECISION, at TIME 8 µs × n + 125 ns × c. DEDUCED (log entry 47). -/
def execOpDecision (c active memWait : Nat) (s : State) : Result :=
  let k := coreAt s c
  if 64 ≤ c || k.lost || k.move.isSome || s.time % 8000 != 125 * c % 8000 then .next s
  else
    let rate := s.wb.rate.toNat
    let b := bestOp rate active memWait k.limit
    if b != k.op && 16 * opCost rate active memWait b * Config.coreMhz k.op < 15 * opCost rate active memWait k.op * Config.coreMhz b then
      .next (setCore s c { k with move := some (b, s.time + 2000) })
    else .next s

/-- OP_MOVE_COMPLETE: OP reads the new point. DESIGN CHOICE (log entry 19). -/
def execOpMoveComplete (c : Nat) (s : State) : Result :=
  let k := coreAt s c
  match k.move with
  | some (b, _) => .next (setCore s c { k with op := b, move := none })
  | none => .next s

/-! ### Link lanes (R234) -/

/-- cost(w) × w × 200 × 2^16 for Q bytes. -/
def laneCost (rate q w : Nat) : Nat := q * 8 * 65536 + rate * (w * 64000) * (w * 200)

/-- w costs less than v, or as much with the lower t. -/
def laneBetter (rate q w v : Nat) : Bool :=
  let x := laneCost rate q w * v
  let y := laneCost rate q v * w
  decide (x < y) || (x == y && decide (v < w))

def bestLanes (rate q maxL : Nat) : Nat :=
  ([8, 4].filter (· ≤ maxL)).foldl (fun v w => if laneBetter rate q w v then w else v) 2

def setPort (s : State) (i : Nat) (p : Port) : State := if h : i < 16 then { s with ports := s.ports.set i p h } else s
def portAt (s : State) (i : Nat) : Port := (s.ports[i]?).getD Port.reset

/-- LANE_DECISION, at TIME 64 µs × n + 4 µs × p. DEDUCED (log entry 47). -/
def execLaneDecision (i bytes : Nat) (s : State) : Result :=
  let p := portAt s i
  if 16 ≤ i || p.change.isSome || s.time % 64000 != 4000 * i % 64000 then .next s
  else
    let rate := s.wb.rate.toNat
    let b := bestLanes rate bytes p.maxLanes
    if b != p.lanes && 16 * laneCost rate bytes b * p.lanes < 15 * laneCost rate bytes p.lanes * b then
      .next (setPort s i { p with change := some (b, s.time + 1000) })
    else .next s

/-- LANE_CHANGE_COMPLETE. DESIGN CHOICE (log entry 19). -/
def execLaneChangeComplete (i : Nat) (s : State) : Result :=
  let p := portAt s i
  match p.change with
  | some (w, _) => .next (setPort s i { p with lanes := w, change := none })
  | none => .next s

end Sys2Proof.Machine
end

