-- ==== Sys2Proof/Machine/Recover.lean ====
section
/-! DEFINITION. Recovery, resets and bring-up (R315 to R326, R344, R345): errors by class, the scrubber, links, a lost core,
regulator phases, warm reset, cold boot and the training of port 0. -/

namespace Sys2Proof.Machine

/-! ### A lost core (R322 to R324) -/

def Team.isSaved (t : Team) : Bool := match t.mode with | .saved _ => true | .running | .asked _ => false

/-- Teams of a core, whole clusters together, a running cluster's ended members among them. -/
def lostTeams (s : State) (c : Nat) : List (Nat × Team) :=
  let on := s.teams.filter fun (_, t) => t.cores.contains c && !t.ended
  s.teams.filter fun (_, t) => on.any fun (_, u) => u.launch = t.launch && u.clu = t.clu && (!t.ended || !u.isSaved)

/-- The team can be dispatched again. -/
def replayable (s : State) (t : Team) : Bool :=
  (match tget s.launches t.launch with | some l => l.replay | none => false) && !t.effects && decide (t.redispatched < 2)

/-- A launch of the lost core ends with CORELOST: a team of it is neither saved nor replayable. -/
def endsLost (s : State) (ts : List (Nat × Team)) (lid : Nat) : Bool :=
  ts.any fun (_, t) => t.launch = lid && !t.isSaved && !replayable s t

/-- A replayable team is killed and is to be dispatched again, ahead of the teams that wait; a launch that has failed
dispatches nothing further, and the team ends with it (R46). DESIGN CHOICE (log entry 26). -/
def redoTeam (s : State) (x : Nat × Team) : State :=
  let (tid, t) := x
  let failed := match tget s.launches t.launch with | some l => l.code != 0 | none => true
  let s := dropTeam s tid (!failed)
  let s := { s with launches := tmod s.launches t.launch fun l =>
      { l with redo := if failed then l.redo else l.redo ++ [(t.index, t.redispatched + 1, tid)],
               liveTeams := if t.ended then l.liveTeams else l.liveTeams - 1 } }
  if failed then settleLaunch s t.launch else s

/-- CORELOST: the launch dispatches nothing further, and its other teams are killed (R323). -/
def loseLaunch (s : State) (lid : Nat) : State :=
  let s := failLaunch s lid eCORELOST
  let tids := (s.teams.filter fun (_, t) => t.launch = lid).map (·.1)
  settleLaunch (tids.foldl (fun s t => killTeam s t eCORELOST) s) lid

/-- A waiting head gives up what it holds on the lost core, and its candidate where that can no longer serve. -/
def loseHead (s : State) (c : Nat) (l : Launch) : Launch :=
  let l := { l with taken := l.taken.filter fun (core, _) => core != c }
  match l.headCore, l.kdesc with
  | some h, some k =>
    if (candidates s k (headSeats l k).length).any fun us => candIndex k us == h then l
    else { l with headCore := none, taken := [] }
  | _, _ => l

/-- The core is out of service; its Silo slice and its home stay. -/
def quarantine (s : State) (c : Nat) : State :=
  let s := setCore s c { coreAt s c with lost := true, move := none }
  { s with caps := { s.caps with cores := s.caps.cores &&& ~~~(BitVec.ofNat 64 (2 ^ c)) },
           rcache := s.rcache.filter fun l => l.core != c,
           icache := s.icache.filter fun l => l.core != c }

/-- The record of one launch that had a team on the core. -/
def lossRecord (c : Nat) (any : List Nat) (s : State) (lid : Nat) : State :=
  let ten := match tget s.launches lid with | some l => l.ten | none => 0xFF
  if any.contains lid then logError s 6 3 c ten 8 0 0 else logError s 3 3 c ten 3 0 0

def coreLossStep (s : State) (c : Nat) : State :=
  if 64 ≤ c || (coreAt s c).lost then s
  else
    let s := quarantine s c
    let ts := lostTeams s c
    let lids := (ts.foldl (fun l (_, t) => sadd l t.launch) [])
    let lost := lids.filter (endsLost s ts)
    let s := logError s (if lost.isEmpty then 3 else 6) 3 c 0xFF 5 0 0
    let s := lids.foldl (lossRecord c lost) s
    let s := (ts.filter fun (_, t) => !t.isSaved && !lost.contains t.launch).foldl redoTeam s
    let s := lost.foldl loseLaunch s
    { s with launches := s.launches.map fun (i, l) => (i, loseHead s c l) }

def execCoreLoss (c : Nat) (s : State) : Result := .next (coreLossStep s c)

/-- The core's regulator holds no point above h: the core moves at once where it stands or goes higher. -/
def limitCore (s : State) (c h : Nat) : State :=
  let k := coreAt s c
  if k.lost then s
  else
    let goal := match k.move with | some (b, _) => max b k.op | none => k.op
    setCore s c { k with limit := h, move := if h < goal then some (h, s.time + 2000) else k.move }

/-- REGULATOR_LIMIT_MOVE: the highest point that the regulator can hold, none where it cannot hold OP0 (R232, R322). -/
def execRegulatorLimitMove (c : Nat) (highest : Option (BitVec 3)) (s : State) : Result :=
  match highest with
  | none => .next (coreLossStep s c)
  | some h => .next (limitCore s c h.toNat)

/-! ### Errors (R315 to R317) -/

/-- A fatal error: every scheduler stops, and only management and warm reset are accepted. -/
def stopPart (s : State) (src unit ten pa synd : Nat) : State :=
  { logError s 5 src unit ten 7 pa synd with stopped := true }

/-- Mark a register lane or a tile row of a core poisoned. SYND names it in a form of the model's own: the group slot in
bits 4:0, the register or tile in bits 10:5, the lane or row in bits 18:11, bit 31 for a tile row.
DESIGN CHOICE (log entry 67). -/
def poisonUnit (s : State) (core synd : Nat) : State :=
  let key := core * 32 + bits synd 4 0
  let item := bits synd 10 5
  let pos := bits synd 18 11
  match tget s.groups key with
  | none => s
  | some g =>
    if bits synd 31 31 = 0 then
      (if pos < 64 then
        putGroup s key (g.addPoison (BitVec.ofNat 6 item) (BitVec.ofNat 64 (2 ^ pos)))
      else s)
    else
      { s with teams := tmod s.teams g.team fun t =>
          let i := (if t.cores.headD 0 = core then 0 else 8) + item % 8
          if h : i < 16 then { t with tiles := t.tiles.set i { t.tiles[i] with poison := sadd t.tiles[i].poison (pos % 128) } h } else t }

/-! ### Units taken out of service (R12, R319, R324) -/

/-- The pages of a tenancy's stage-2 leaves: first PA and size. -/
def leavesOf (s : State) : List (Nat × Nat × Nat) → Nat → List (Nat × Nat)
  | [], _ => []
  | (level, hi, lo) :: rest, table =>
    ((listedEntries s table (hi + 1 - lo)).map fun i =>
      let e := readNat s 32 (table + 8 * i) 8
      if !pteV e || pteBad level lo e then []
      else if pteLeaf e then [(pteOut e, 2 ^ lo)]
      else leavesOf s rest (pteNext e)).flatten

/-- No tenancy's page lies in [a, b): each has been moved off, and is in no pool. -/
def emptyRange (s : State) (a b : Nat) : Bool :=
  (List.range 32).all fun t => (leavesOf s walkLevels (tcbOf s t).s2root.toNat).all fun (pa, n) => decide (pa + n ≤ a) || decide (b ≤ pa)

/-- A pool of a tenancy without the pages that lie on a leaving channel: the rest keep their order from PHEAD on, and the pages
that go are no longer mapped. DESIGN CHOICE (log entry 67). -/
def purgePool (s : State) (ten : Nat) : State :=
  let t := tcbOf s ten
  let slot (i : Nat) : Nat := normPa s (t.pbase.toNat + (t.phead.toNat + i) % 2 ^ t.plog * 8)
  let es := (List.range (t.ptail - t.phead).toNat).map fun i => readNat s 32 (slot i) 8
  let leaf (e : Nat) : Option S2Leaf := stage2 s ten (bits e 55 16 * 65536)
  let goes (e : Nat) : Bool := match leaf e with | some u => isLeaving s u.pa | none => false
  let keep := es.filter fun e => !goes e
  if keep.length = es.length then s
  else
    let s1 := (es.filter goes).foldl (fun s2 e => match leaf e with | some u => writeNat s2 32 u.leaf 8 0 | none => s2) s
    let s1 := keep.zipIdx.foldl (fun s2 x => writeNat s2 32 (slot x.2) 8 x.1) s1
    setTcb (invalidate s1 ten (fun _ => true) fun _ => true) ten { t with ptail := t.phead + BitVec.ofNat 32 keep.length }

/-- A channel of a stack is to leave service: its pages leave the pools, and MIGRATION_DECISION moves the others off (R324).
DESIGN CHOICE (log entry 67). -/
def quarantineChannel (s : State) (st ch gib : Nat) : State :=
  if 8 ≤ st || bits (s.caps.chans.getD st 0).toNat ch ch = 0 then s
  else (List.range 32).foldl purgePool { s with leaving := s.leaving ++ [(st, ch, gib)] }

/-- A channel of a stack leaves service once no page lies on it: its bit of CHMASK and its part of HBMGIB go, and with the
last channel the stack. DESIGN CHOICE (log entry 67). -/
def dropChannel (s : State) (x : Nat × Nat × Nat) : State :=
  let (st, ch, gib) := x
  let cap := capWithout s st ch gib
  let mask := cap % 2 ^ 32
  let ranges := lostRanges s st cap
  if !(ranges.all fun (a, b) => emptyRange s a b) || s.moves.any fun (_, m) => ranges.any fun (a, b) => decide (a ≤ m.new) && decide (m.new < b) then s
  else
    let out (pa : Nat) : Bool := ranges.any fun (a, b) => decide (a ≤ pa) && decide (pa < b)
    let s := { s with
      leaving := s.leaving.filter (· != x),
      mem := s.mem.filter fun c => !out c.1, poison := s.poison.filter fun p => !out p,
      caps := { s.caps with chans := s.caps.chans.set st (BitVec.ofNat 64 cap),
                            stks := if mask = 0 then s.caps.stks &&& ~~~(BitVec.ofNat 8 (2 ^ st)) else s.caps.stks } }
    logError s 1 1 (64 + st) 0xFF 5 0 0

/-- Lanes of a port have failed and `n` remain: the widths above leave the choices of R234, and a port with fewer than two
leaves service. DESIGN CHOICE (log entry 67). -/
def dropLanes (s : State) (p n : Nat) : State :=
  if 16 ≤ p then s
  else if n < 2 then logError { s with caps := { s.caps with ports := s.caps.ports &&& ~~~(BitVec.ofNat 16 (2 ^ p)) } } 1 6 p 0xFF 5 0 0
  else
    let x := portAt s p
    let w := min x.maxLanes (if n < 4 then 2 else if n < 8 then 4 else 8)
    logError (setPort s p { x with maxLanes := w, lanes := min x.lanes w, change := if x.change.any fun c => w < c.1 then none else x.change })
      1 6 p 0xFF 1 0 0

/-- A corrected error whose SYND has bit 31 set names a part of a memory stack or of a port that is to leave service: the
channel in bits 4:0 and the HBM GiB that remain in bits 13:8, or the lanes that remain in bits 3:0.
DESIGN CHOICE (log entry 67). -/
def dropUnit (s : State) (src unit synd : Nat) : State :=
  if src = 1 || src = 2 then (let s := quarantineChannel s (unit - 64) (bits synd 4 0) (bits synd 13 8)
    s.leaving.foldl dropChannel s)
  else if src = 6 then dropLanes s unit (bits synd 3 0)
  else logError s 1 src unit 0xFF 1 0 synd

/-- ERROR_DETECTED, by class. DESIGN CHOICE (log entry 67). -/
def errorStep (s : State) (e : ErrInfo) : State :=
  let src := e.src.toNat
  let unit := e.unit.toNat
  let ten := e.ten.toNat
  let pa := e.pa.toNat % 2 ^ 56
  let synd := e.synd.toNat
  match e.cls.toNat with
  | 1 => if bits synd 31 31 = 1 then dropUnit s src unit synd else logError s 1 src unit ten 1 pa synd
  | 2 =>
    let s := if src ≤ 2 then poisonBytes s pa (granuleSize pa) else if src = 3 then poisonUnit s unit synd else s
    logError s 2 src unit ten 2 pa synd
  | 3 => logError s 3 src unit ten 3 pa synd
  | 4 => if ten < 32 then logError (resetTenancy s ten) 4 src unit ten 6 pa synd else s
  | 5 => stopPart s src unit ten pa synd
  | 6 => coreLossStep s unit
  | _ => s

def execErrorDetected (e : ErrInfo) (s : State) : Result := .next (errorStep s e)

/-! ### The scrubber (R318) -/

def scrubAt (s : State) (k : Nat) : Scrub := (s.scrubs[k]?).getD Scrub.reset
def setScrub (s : State) (k : Nat) (x : Scrub) : State := if h : k < 8 then { s with scrubs := s.scrubs.set k x h } else s

/-- A corrected granule. DESIGN CHOICE (log entry 39). -/
def logFixed (stack : Nat) (s : State) (pa : Nat) : State :=
  logError s 1 (if pa < cellarBase then 1 else 2) (64 + stack) 0xFF 1 pa 0

/-- A granule that cannot be corrected is poisoned. -/
def logBad (stack : Nat) (s : State) (pa : Nat) : State :=
  logError (poisonBytes s pa 32) 2 (if pa < cellarBase then 1 else 2) (64 + stack) 0xFF 2 pa 0

/-- SCRUB_ROW: a row of a stack is read; the granules at `fixed` are corrected, and those at `bad` cannot be. A bad row is
reported in every pass, and its repair recorded; the record of the repair is no further error in HIST. DESIGN CHOICE (log entries 35
and 39). DESIGN CHOICE (log entry 35). DESIGN CHOICE (log entry 39). -/
def scrubStep (s : State) (stack row : Nat) (fixed bad : List Nat) : State :=
  let x := scrubAt s stack
  if 8 ≤ stack || !x.en then s
  else
    let s := setScrub s stack { x with passes := if row < x.row.toNat then x.passes + 1 else x.passes, row := BitVec.ofNat 32 row }
    let s := bad.foldl (logBad stack) (fixed.foldl (logFixed stack) s)
    if x.rowthr ≤ fixed.length || !bad.isEmpty then
      freshError { s with repairs := if s.repairs.contains (stack, row) then s.repairs else s.repairs ++ [(stack, row)] } (if bad.isEmpty then 1 else 2)
        (if (bad ++ fixed).headD 0 < cellarBase then 1 else 2) (64 + stack) 0xFF 4 0 0
    else s

def execScrubRow (stack row : Nat) (fixed bad : List Nat) (s : State) : Result := .next (scrubStep s stack row fixed bad)

/-! ### Links and regulators (R319, R344) -/

def execLinkFlitResend (link : Nat) (d2d : Bool) (s : State) : Result :=
  .next (logError s 1 (if d2d then 5 else 6) link 0xFF 1 0 0)

def execD2dLinkFailure (link : Nat) (s : State) : Result := .next (stopPart s 5 link 0xFF 0 0)

/-- The domain's ceiling holds an operating point, or its minimum as point 0. -/
def holdsPoint (s : State) (d k : Nat) : Bool :=
  decide (failedPhases s d < domainPhases d) && decide (Config.domCurrent d k ≤ ceilingOf s d)

/-- The highest point up to a limit that a core's ceiling holds. -/
def highestPoint (s : State) (d : Nat) : Nat → Nat
  | 0 => 0
  | k + 1 => if holdsPoint s d (k + 1) then k + 1 else highestPoint s d k

/-- REGULATOR_PHASE_FAILURE: the ceiling falls, and a core moves at once to a point that it still holds; one that cannot hold
OP0 is lost, and any other domain that cannot hold its minimum is fatal to the part. -/
def execRegulatorPhaseFailure (d : Nat) (s : State) : Result :=
  if h : d < 81 then
    let f := s.domains[d].failed
    let s := { s with domains := s.domains.set d { s.domains[d] with failed := min (domainPhases d) (f + 1) } h,
                      wb := { s.wb with capNow := true } }
    let s := logError s 1 7 d 0xFF 0 0 0
    .next (if holdsPoint s d 0 then (if d < 64 then limitCore s d (highestPoint s d (coreAt s d).limit) else s)
      else if d < 64 then coreLossStep s d else stopPart s 7 d 0xFF 0 0)
  else .next s

/-! ### Resets and bring-up (R324 to R326, R345) -/

/-- READY with ALL as the AND of bits 1 to 5; ports 1 to 15 in service come up after port 0 and the agents (R14, R345).
DEDUCED (log entry 40). DEDUCED (log entry 41). -/
def setReady (s : State) (r : Nat) : State :=
  let r := r % 512 / 2 * 2 + (if bits r 1 1 = 1 && bits r 5 5 = 1 then s.caps.ports.toNat / 2 * 512 else 0)
  { s with ready := BitVec.ofNat 24 (if bits r 5 1 = 31 then r + 1 else r) }

/-- Bits that the steps after the image set: D2D, HBM, CELLAR and AGENTS. -/
def trained : Nat := 0x3C

/-- PORT0_TRAINING: ETH0 and bit 0 of PORTS. DEDUCED (log entry 41). -/
def execPort0Training (s : State) : Result :=
  .next (setReady s (s.ready.toNat / 4 * 4 % 256 + 2 + 256))

/-- Phases that have failed stay failed; no clock is stretched. DEDUCED (log entry 40). -/
def keepDomain (d : Domain) : Domain := { d with stretched := false }

/-- WARM_RESET: what R325 keeps, and everything else at its reset value; links and agents start again, and port 0 trains.
DEDUCED (log entry 40). -/
def warmState (s : State) : State :=
  let z := State.reset
  let z := { z with
    mem := s.mem.filter fun c => !isSilo c.1,
    poison := s.poison.filter fun p => !isSilo p,
    unitKey := s.unitKey,
    repairs := s.repairs, idkey := s.idkey, caps := s.caps, leaving := s.leaving, bootst := s.bootst,
    cores := vmap (fun k => { Core.reset with lost := k.lost, limit := k.limit, op := min Core.reset.op k.limit }) s.cores,
    ports := vmap (fun p => { Port.reset with maxLanes := p.maxLanes, lanes := min p.maxLanes 8 }) s.ports,
    domains := vmap keepDomain s.domains,
    errs := { Recovery.reset with hist := s.errs.hist },
    time := s.time, clk := s.clk, pace := s.pace, cpace := s.cpace,
    wb := { Weigh.reset with tick := s.time / 1000 },
    outbox := s.outbox, agenda := s.agenda, cursor := s.cursor, free := s.free, serial := s.serial }
  setReady z trained

/-- DEDUCED (log entry 40). -/
def execWarmReset (s : State) : Result :=
  .next (if isEth0 s && (s.bootst = 1 || s.bootst = 2) then warmState s else s)

/-- COLD_BOOT with what flash and the fuses hold: the identity key, the repair map and the capability block, whose storage units
are the Fyger 9's 4,096 a scheduler (R59, R324). The first boot goes on from power-on; a later one is a new power-on.
DEDUCED (log entry 41). -/
def bootState (s : State) (img : BootImage) : State :=
  let z := if s.bootst = 0 then s
    else { State.reset with outbox := s.outbox, agenda := s.agenda, cursor := s.cursor, free := s.free, serial := s.serial }
  if img.slot0 || img.slot1 then
    let z := { z with bootst := if img.slot0 then 1 else 2,
                      caps := ⟨img.cores, img.stks, (List.range 8).map fun i => img.chans.getD i 0, img.ports, 4096⟩,
                      idkey := some img.idkey, repairs := img.repairs }
    setReady z (z.ready.toNat % 4 + z.ready.toNat / 256 % 2 * 256 + trained)
  else { z with bootst := 3 }

/-- DEDUCED (log entry 41). -/
def execColdBoot (img : BootImage) (s : State) : Result := .next (bootState s img)

end Sys2Proof.Machine
end

