-- ==== Sys2Proof/Machine/Mgmt.lean ====
section
/-! DEFINITION. Management actions 0 to 2 (R341): the register space (R230, R286, R301, R316, R318, R324, R326, R327, R334,
R336, R342, R343, R345), device memory writes, and the debugger's commands. -/

namespace Sys2Proof.Machine

/-! ### The register map -/

def wbBase : Nat := 0x3FF00010000
def progressBase : Nat := 0x3FF00030000
def tenBase : Nat := 0x3FF00040000
def recoverBase : Nat := 0x3FF00050000
def capBase : Nat := 0x3FF00060000
def obsBase : Nat := 0x3FF00070000
def domBase : Nat := 0x3FF00080000

/-- Two 32-bit halves. -/
def halves (hi lo : Nat) : Nat := hi * 2 ^ 32 + lo
/-- Bits 55:a of a register's base field. -/
def baseBits (v a : Nat) : BitVec 64 := BitVec.ofNat 64 (bits v 55 a * 2 ^ a)
def flag01 (b : Bool) : Nat := if b then 1 else 0
/-- 0 taken as 1. DEDUCED (log entry 37). -/
def atLeast1 (x : Nat) : Nat := max 1 x
/-- DEDUCED (log entry 37). -/
def clampTo (lo hi x : Nat) : Nat := max lo (min hi x)

/-! ### Reads: none where no register lies at the offset -/

/-- Weighbridge (R230). -/
def readWb (s : State) (o : Nat) : Option Nat :=
  let w := s.wb
  match o with
  | 0x00 => some (flag01 w.fix * 16 + w.gsel)
  | 0x08 => some w.ptgt
  | 0x10 => some w.pcap
  | 0x18 => some w.rmin
  | 0x20 => some w.rmax
  | 0x28 => some 0
  | 0x30 => some (flag01 w.cap * 2 ^ 34 + flag01 w.satlo * 2 ^ 33 + halves (flag01 w.sathi) w.rate.toNat)
  | 0x38 => some (halves (w.tick % 2 ^ 32) w.pmw.toNat)
  | 0x40 => some w.capn.toNat
  | _ =>
    if 0x100 ≤ o && o < 0x300 then
      let t := tcbOf s ((o - 0x100) / 16)
      some (if o % 16 = 0 then t.trmin else t.trmax)
    else none

/-- Progress controls (R286). -/
def readProgress (s : State) (o : Nat) : Option Nat :=
  if o = 0 then some (s.prelim * 2 ^ 16 + s.agelim)
  else if 0x100 ≤ o && o < 0x200 then let t := tcbOf s ((o - 0x100) / 8); some (t.wdexp * 256 + t.ishare)
  else none

/-- A tenancy control block (R301, R336, R342). -/
def readTcb (t : Tcb) (o : Nat) : Option Nat :=
  match o with
  | 0x00 => some (flag01 t.frozen * 8 + flag01 t.keyok * 4 + flag01 t.toolen * 2 + flag01 t.en)
  | 0x08 => some t.s1root.toNat
  | 0x10 => some t.s2root.toNat
  | 0x18 => some (t.pbase.toNat + t.plog)
  | 0x20 => some (halves t.ptail.toNat t.phead.toNat)
  | 0x28 => some t.lowat.toNat
  | 0x30 => some (t.mrbase.toNat + t.mrlog)
  | 0x38 => some (halves t.mrrd.toNat t.mrwr.toNat)
  | 0x40 => some (halves t.mrovf.toNat t.hthr.toNat)
  | 0x48 => some (t.lshare * 256 + t.hshare)
  | 0x50 => some (t.ncoal * 2 ^ 48)
  | 0x58 => some t.tvinit.toNat
  | 0x60 => some t.nepa.toNat
  | 0x68 => some t.nepb.toNat
  | _ => none

/-- Recovery block (R316, R318, R326, R345). -/
def readRecover (s : State) (o : Nat) : Option Nat :=
  match o with
  | 0x00 => some (s.errs.base.toNat + s.errs.log)
  | 0x08 => some (halves s.errs.rdi.toNat s.errs.wri.toNat)
  | 0x10 => some s.errs.lost.toNat
  | 0x18 => some s.ready.toNat
  | 0x20 => some s.bootst
  | _ =>
    if 0x100 ≤ o && o < 0x340 then
      let (ue, ce) := (tget s.errs.hist ((o - 0x100) / 8)).getD (0, 0)
      some (halves ue.toNat ce.toNat)
    else if 0x400 ≤ o && o < 0x600 then
      let x := scrubAt s ((o - 0x400) / 64)
      if o % 64 = 0 then some (x.rowthr * 2 ^ 16 + x.period * 256 + flag01 x.en)
      else if o % 64 = 8 then some (halves x.passes.toNat x.row.toNat)
      else none
    else none

/-- Capability block (R324). -/
def readCaps (s : State) (o : Nat) : Option Nat :=
  match o with
  | 0x00 => some s.caps.cores.toNat
  | 0x08 => some (s.caps.stks.toNat * 2 ^ 56)
  | 0x50 => some s.caps.ports.toNat
  | 0x58 => some s.caps.units.toNat
  | _ => if 0x10 ≤ o && o < 0x50 then some (s.caps.chans.getD ((o - 0x10) / 8) 0).toNat else none

/-- An observation block (R327). -/
def readObs (b : Obs) (o : Nat) : Option Nat :=
  match o with
  | 0x00 => some (halves b.gmask.toNat (flag01 b.hnd * 8 + flag01 b.mark * 4 + flag01 b.bm * 2 + flag01 b.en))
  | 0x08 => some (b.tbase.toNat + b.tlog)
  | 0x10 => some (halves b.trd.toNat b.twr.toNat)
  | 0x18 => some b.tlost.toNat
  | 0x20 => some (flag01 b.smen * 256 + b.sper)
  | 0x28 => some (b.sbase.toNat + b.slog)
  | 0x30 => some (halves b.srd.toNat b.swr.toNat)
  | 0x38 => some b.cntsel.toNat
  | _ => if 0x40 ≤ o && o < 0x80 then some ((b.cnt[(o - 0x40) / 8]?).getD 0).toNat else none

/-- DOMIDX and the route table (R343): ADDRHI first. DEDUCED (log entry 38). -/
def readDomain (s : State) (o : Nat) : Option Nat :=
  if o = 0 then some s.domidx.toNat
  else if 0x1000 ≤ o && o < 0x21000 then
    let a := ((tget s.routes ((o - 0x1000) / 16)).getD 0).toNat
    some (if o % 16 = 0 then a / 2 ^ 64 else a % 2 ^ 64)
  else none

/-- The 64-bit register at an address, a write-only one reading as zero (R4); none where there is no register.
DESIGN CHOICE (log entry 36). -/
def regRead (s : State) (a : Nat) : Option Nat :=
  if a % 8 ≠ 0 then none
  else if wbBase ≤ a && a < wbBase + 0x10000 then readWb s (a - wbBase)
  else if progressBase ≤ a && a < progressBase + 0x10000 then readProgress s (a - progressBase)
  else if tenBase ≤ a && a < tenBase + 0x2000 then readTcb (tcbOf s ((a - tenBase) / 0x100)) (a % 0x100)
  else if recoverBase ≤ a && a < recoverBase + 0x10000 then readRecover s (a - recoverBase)
  else if capBase ≤ a && a < capBase + 0x10000 then readCaps s (a - capBase)
  else if a = obsBase + 0xF000 then some s.dbarm.toNat
  else if a = obsBase + 0xF008 then some 0
  else if obsBase ≤ a && a < obsBase + 0x4000 then readObs (obsOf s ((a - obsBase) / 0x100)) (a % 0x100)
  else if domBase ≤ a && a < domBase + 0x40000 then readDomain s (a - domBase)
  else none

/-! ### The debugger's commands (R334) -/

/-- Run `f` for a resident path; a command that names an empty path has no effect. DESIGN CHOICE (log entry 36). -/
def onSlot (s : State) (core slot path : Nat) (f : Nat → Group → Path → State) : State :=
  if 64 ≤ core || 32 ≤ slot then s
  else
    let k := core * 32 + slot
    match tget s.groups k with
    | some g => (match g.path path with | some p => f k g p | none => s)
    | none => s

def putStop (s : State) (k : Nat) (g : Group) (pi : Nat) (p : Path) (x : Stop) : State :=
  putGroup s k (g.setPath pi (some { p with stop := x }))

/-- CMD 1: the path stops at its next unit boundary. -/
def debugStopAt (s : State) (core slot path : Nat) : State := onSlot s core slot path fun k g p =>
  if p.stop == .stopped then s else putStop s k g path p .atNext

/-- A stopped path goes on, and its stream says so; not while its team is about to be saved, which takes the path as it
stands (R34, R334). DEDUCED (log entry 92). DESIGN CHOICE (log entry 36). -/
def goOn (s : State) (core slot path : Nat) (x : Path → Stop) : State := onSlot s core slot path fun k g p =>
  if p.stop == .stopped && !p.latched then emit (putStop s k g path p (x p)) k path 4 1 (leBytes 3 p.spot.offset) else s

/-- CMD 2. -/
def debugResumeAt (s : State) (core slot path : Nat) : State := goOn s core slot path fun _ => .none
/-- CMD 3: it runs to its next unit boundary, from a boundary through the unit there, and from inside a unit to its end. -/
def debugStepAt (s : State) (core slot path : Nat) : State := goOn s core slot path fun p => match p.spot with
  | .boundary _ => .stepping
  | .inside _ _ _ => .atNext

/-- DBCMD. DESIGN CHOICE (log entry 36). -/
def debugCommand (s : State) (v : Nat) : State :=
  let core := bits v 21 16
  let slot := bits v 12 8
  let path := bits v 7 4
  match bits v 1 0 with
  | 1 => debugStopAt s core slot path
  | 2 => debugResumeAt s core slot path
  | 3 => debugStepAt s core slot path
  | _ => s

/-! ### Writes: read-only and reserved fields keep what they read as (R5) -/

/-- WBRSET: the next tick publishes this value, clamped. -/
def setRset (s : State) (v : Nat) : State := { s with wb := { s.wb with rset := some (v % 2 ^ 32) } }

/-- DEDUCED (log entry 37). -/
def writeWb (s : State) (o v : Nat) : State :=
  let w := s.wb
  match o with
  | 0x00 => { s with wb := { w with fix := bits v 4 4 == 1, gsel := bits v 1 0 } }
  | 0x08 => let p := clampTo 600 2400 (bits v 11 0); { s with wb := { w with ptgt := p, pcap := max w.pcap p } }
  | 0x10 => { s with wb := { w with pcap := clampTo w.ptgt 2600 (bits v 11 0) } }
  | 0x18 => { s with wb := { w with rmin := min w.rmax (max 0x1000 (v % 2 ^ 32)) } }
  | 0x20 => { s with wb := { w with rmax := max w.rmin (v % 2 ^ 32) } }
  | 0x28 => setRset s v
  | _ =>
    if 0x100 ≤ o && o < 0x300 then
      let n := (o - 0x100) / 16
      let t := tcbOf s n
      setTcb s n (if o % 16 = 0 then { t with trmin := min t.trmax (v % 2 ^ 32) } else { t with trmax := max t.trmin (v % 2 ^ 32) })
    else s

/-- DEDUCED (log entry 37). -/
def writeProgress (s : State) (o v : Nat) : State :=
  if o = 0 then { s with prelim := atLeast1 (bits v 31 16), agelim := bits v 15 0 }
  else if 0x100 ≤ o && o < 0x200 then
    let n := (o - 0x100) / 8
    setTcb s n { tcbOf s n with wdexp := clampTo 16 30 (bits v 12 8), ishare := atLeast1 (bits v 7 0) }
  else s

def writeTcb (t : Tcb) (o v : Nat) : Tcb :=
  match o with
  | 0x00 => { t with toolen := bits v 1 1 == 1, en := if v % 2 = 0 then false else if t.keyok then true else t.en }
  | 0x08 => { t with s1root := baseBits v 11 }
  | 0x10 => { t with s2root := baseBits v 11 }
  | 0x18 => { t with pbase := baseBits v 12, plog := bits v 4 0 }
  | 0x20 => { t with ptail := BitVec.ofNat 32 (bits v 63 32) }
  | 0x28 => { t with lowat := BitVec.ofNat 16 v }
  | 0x30 => { t with mrbase := baseBits v 12, mrlog := bits v 4 0 }
  | 0x38 => { t with mrrd := BitVec.ofNat 32 (bits v 63 32) }
  | 0x40 => { t with hthr := BitVec.ofNat 12 (atLeast1 (bits v 11 0)) }
  | 0x48 => { t with lshare := atLeast1 (bits v 15 8), hshare := atLeast1 (bits v 7 0) }
  | 0x50 => { t with ncoal := bits v 63 48 }
  | 0x58 => { t with tvinit := BitVec.ofNat 64 (bits v 55 0) }
  | 0x60 => { t with nepa := BitVec.ofNat 64 v }
  | 0x68 => { t with nepb := BitVec.ofNat 64 v }
  | _ => t

/-- Held records enter the error ring while it has room. -/
def drainErrs (s : State) : Nat → State
  | 0 => s
  | n + 1 => drainErrs (errDrain s) n

/-- DEDUCED (log entry 37). -/
def writeRecover (s : State) (o v : Nat) : State :=
  match o with
  | 0x00 => drainErrs { s with errs := { s.errs with base := baseBits v 12, log := clampTo 6 16 (bits v 4 0) } } 64
  | 0x08 => drainErrs { s with errs := { s.errs with rdi := BitVec.ofNat 32 (bits v 63 32) } } 64
  | _ =>
    if 0x100 ≤ o && o < 0x340 then
      { s with errs := { s.errs with
        hist := tput s.errs.hist ((o - 0x100) / 8) (BitVec.ofNat 32 (bits v 63 32), BitVec.ofNat 32 (bits v 31 0)) } }
    else if 0x400 ≤ o && o < 0x600 && o % 64 = 0 then
      let n := (o - 0x400) / 64
      setScrub s n { scrubAt s n with en := v % 2 == 1, period := atLeast1 (bits v 15 8), rowthr := atLeast1 (bits v 23 16) }
    else s

/-- TRCTL: setting EN clears LOST; a group that becomes traced starts its stream, and one that no longer is ends it. -/
def writeTrctl (s : State) (c v : Nat) : State :=
  let b := obsOf s c
  let en := bits v 0 0 == 1
  let b := { b with gmask := BitVec.ofNat 32 (bits v 63 32), hnd := bits v 3 3 == 1, mark := bits v 2 2 == 1, bm := bits v 1 1 == 1,
                    en := en, tlost := if en && !b.en then 0 else b.tlost }
  let s := setObs s c { b with synced := b.synced.filter b.traced }
  (List.range 31).foldl (fun s n => syncStart s (c * 32 + n)) s

/-- DEDUCED (log entry 37). -/
def writeObs (s : State) (c o v : Nat) : State :=
  let b := obsOf s c
  match o with
  | 0x00 => writeTrctl s c v
  | 0x08 => setObs s c { b with tbase := baseBits v 12, tlog := clampTo 12 30 (bits v 4 0) }
  | 0x10 => setObs s c { b with trd := BitVec.ofNat 32 (bits v 63 32) }
  | 0x20 => setObs s c { b with smen := bits v 8 8 == 1, sper := clampTo 8 24 (bits v 4 0) }
  | 0x28 => setObs s c { b with sbase := baseBits v 12, slog := clampTo 12 30 (bits v 4 0) }
  | 0x30 => setObs s c { b with srd := BitVec.ofNat 32 (bits v 63 32) }
  | 0x38 => setObs s c { b with cntsel := BitVec.ofNat 64 v }
  | _ =>
    if h : 0x40 ≤ o ∧ o < 0x80 then setObs s c { b with cnt := b.cnt.set ((o - 0x40) / 8) (BitVec.ofNat 48 v) (by omega) } else s

/-- DEDUCED (log entry 38). -/
def writeDomain (s : State) (o v : Nat) : State :=
  if o = 0 then { s with domidx := BitVec.ofNat 13 v }
  else if 0x1000 ≤ o && o < 0x21000 then
    let n := (o - 0x1000) / 16
    let a := ((tget s.routes n).getD 0).toNat
    let x := BitVec.ofNat 128 (if o % 16 = 0 then v * 2 ^ 64 + a % 2 ^ 64 else a / 2 ^ 64 * 2 ^ 64 + v)
    { s with routes := if x == 0 then tdel s.routes n else tput s.routes n x }
  else s

/-- A write of 64 bits to a register; nothing changes where there is none, or none that can be written.
DESIGN CHOICE (log entry 36). -/
def regWrite (s : State) (a v : Nat) : State :=
  if a % 8 ≠ 0 then s
  else if wbBase ≤ a && a < wbBase + 0x10000 then writeWb s (a - wbBase) v
  else if progressBase ≤ a && a < progressBase + 0x10000 then writeProgress s (a - progressBase) v
  else if tenBase ≤ a && a < tenBase + 0x2000 then
    let n := (a - tenBase) / 0x100
    setTcb s n (writeTcb (tcbOf s n) (a % 0x100) v)
  else if recoverBase ≤ a && a < recoverBase + 0x10000 then writeRecover s (a - recoverBase) v
  else if a = obsBase + 0xF000 then { s with dbarm := BitVec.ofNat 32 v }
  else if a = obsBase + 0xF008 then debugCommand s v
  else if obsBase ≤ a && a < obsBase + 0x4000 then writeObs s ((a - obsBase) / 0x100) (a % 0x100) v
  else if domBase ≤ a && a < domBase + 0x40000 then writeDomain s (a - domBase) v
  else s

/-! ### The registers of a stopped path (R64, R334, R335) -/

/-- The addresses at which management reaches them lie above Silo, where the map of R347 has no memory.
DESIGN CHOICE (log entry 36). -/
def inWindow (a : Nat) : Bool := decide (2 ^ 38 ≤ a) && decide (a < 2 ^ 40)

/-- The group of a key, where one of its paths is stopped. -/
def stoppedGroup (s : State) (k : Nat) : Option Group :=
  match tget s.groups k with
  | some g => if g.paths.toList.any fun p => match p with | some p => p.stop == .stopped | none => false then some g else none
  | none => none

/-- Eight bytes of an entry of the group, in the formats of R335 and read quietly. DESIGN CHOICE (log entry 36). -/
def readImage (s : State) (a : Nat) : Option Nat :=
  match Config.imageWindow a with
  | some (k, kind, i, off) => (stoppedGroup s k).bind fun g =>
    ((groupDump g (frameNow s g)).find? fun e => e.1 == kind && e.2.2.1 == i).map fun e => field e.2.2.2 off 8
  | none => none

/-- A register is written from its image, as ldspill restores one. -/
def setImage (s : State) (k i : Nat) (g : Group) (bs : List Byte) : Option State :=
  if i < g.allot then (VReg.ofImage g.w bs).map fun v => putGroup s k ((g.setReg (BitVec.ofNat 6 i) v).clearPoison (BitVec.ofNat 6 i) (widthMask g.w))
  else none

/-- k0 to k7, and EXEC in the slices of the paths that are stopped. -/
def setMasks (s : State) (k : Nat) (g : Group) (bs : List Byte) : Option State :=
  if bs.length = 72 then
    let m (i : Nat) : Mask := BitVec.ofNat 64 (field bs (8 * i) 8) &&& widthMask g.w
    some (putGroup s k { g with
      masks := Vector.ofFn fun i => m i.val,
      paths := vmap (fun p => p.map fun p => if p.stop == .stopped then { p with exec := m 8 &&& g.live &&& laneMask p.slices } else p) g.paths })
  else none

/-- A register, or the masks, of a stopped path's group are written from an entry; none where the entry breaks its format, and for
the entries that hold no register. DESIGN CHOICE (log entry 36). -/
def writeImage (s : State) (a : Nat) (bs : List Byte) : Option State :=
  match Config.imageWindow a with
  | some (k, kind, i, _) => (stoppedGroup s k).bind fun g =>
    if kind = 1 then setImage s k i g bs else if kind = 2 then setMasks s k g bs else none
  | none => none

/-- A register lies at the address. DESIGN CHOICE (log entry 36). -/
def isReg (s : State) (a : Nat) : Bool := (regRead s a).isSome

/-! ### The actions -/

/-- The header of an action's message: a register's address, aligned to 8, or a device address (R340). -/
def addrFits (addr : BitVec 64) (n : Nat) : Bool := decide (addr.toNat < 2 ^ 42) && addr.toNat % n == 0

/-- The only registers that a part with no image answers for: READY and BOOTST (R345). -/
def bootReg (a : Nat) : Bool := a == recoverBase + 0x18 || a == recoverBase + 0x20

def doRegRead (m : Mgmt) (addr : BitVec 64) (s : State) : State × Bool :=
  let a := addr.toNat
  match (if inWindow a then readImage s a else regRead s a) with
  | some v => (mgmtResp s m 0 (leBytes 8 v), true)
  | none => (mgmtResp s m 1 [], true)

/-- MGMT_REG_READ: action 0. DESIGN CHOICE (log entry 36). -/
def execMgmtRegRead (m : Mgmt) (addr : BitVec 64) (s : State) : Result :=
  if s.bootst = 3 && isEth0 s && m.auth && m.ten == 0xFF && addrFits addr 8 && bootReg addr.toNat then .next (doRegRead m addr s).1
  else onMgmt m (.regRead addr) (addrFits addr 8) s (doRegRead m addr)

/-- The source of the first write accepted is the management endpoint (R342). DESIGN CHOICE (log entry 66). -/
def acceptWrite (s : State) (m : Mgmt) : State := { s with mgmtEp := some (s.mgmtEp.getD m.src) }

def doRegWrite (m : Mgmt) (addr val : BitVec 64) (s : State) : State × Bool :=
  if isReg s addr.toNat then (mgmtResp (regWrite (acceptWrite s m) addr.toNat val.toNat) m 0 [], true)
  else (mgmtResp s m 1 [], true)

/-- MGMT_REG_WRITE: action 1. DESIGN CHOICE (log entry 36). -/
def execMgmtRegWrite (m : Mgmt) (addr val : BitVec 64) (s : State) : Result :=
  onMgmt m (.regWrite addr val) (addrFits addr 8) s (doRegWrite m addr val)

/-- WBRSET: the write of that register. -/
def execWbrset (m : Mgmt) (val : BitVec 32) (s : State) : Result :=
  let a : BitVec 64 := BitVec.ofNat 64 (wbBase + 0x28)
  onMgmt m (.regWrite a (val.setWidth 64)) true s (doRegWrite m a (val.setWidth 64))

/-- The word that DBCMD takes. DESIGN CHOICE (log entry 36). -/
def debugWord (cmd core slot path : Nat) : BitVec 64 := BitVec.ofNat 64 (core % 64 * 2 ^ 16 + slot % 32 * 2 ^ 8 + path % 16 * 2 ^ 4 + cmd)

/-- A command of the debugger's: the write of DBCMD (R334), a core, slot or path that the register has no number for being none. -/
def debugWrite (m : Mgmt) (cmd core slot path : Nat) (s : State) : Result :=
  let a : BitVec 64 := BitVec.ofNat 64 (obsBase + 0xF008)
  if 64 ≤ core || 32 ≤ slot || 16 ≤ path then .next s
  else onMgmt m (.regWrite a (debugWord cmd core slot path)) true s (doRegWrite m a (debugWord cmd core slot path))

def execDebugStop (m : Mgmt) (core slot path : Nat) (s : State) : Result := debugWrite m 1 core slot path s
def execDebugResume (m : Mgmt) (core slot path : Nat) (s : State) : Result := debugWrite m 2 core slot path s
def execDebugStep (m : Mgmt) (core slot path : Nat) (s : State) : Result := debugWrite m 3 core slot path s

/-- Every byte of [a, a + n) is populated. -/
def allPopulated (s : State) (a n : Nat) : Bool := populated s a && populated s (a + n - 1)

/-- A write to [a, a + n) waits: a page under it is being moved, or a line is absent. -/
def memWriteWaits (s : State) (a n : Nat) : Bool :=
  migrating s a || migrating s (a + n - 1) ||
    (List.range (n / 64 + 2)).any fun i => lineAbsent s (a + 64 * i) && decide ((a + 64 * i) / 64 ≤ (a + n - 1) / 64)

/-- The bytes go to device memory, or into the register of a stopped path. DEDUCED (log entry 42). -/
def doMemWrite (m : Mgmt) (addr : BitVec 64) (data : List Byte) (s : State) : State × Bool :=
  let a := addr.toNat
  let n := data.length
  if inWindow a then
    (match writeImage (acceptWrite s m) a data with | some t => (mgmtResp t m 0 [], true) | none => (mgmtResp s m 1 [], true))
  else if n = 0 || 4096 < n || !allPopulated s a n then (mgmtResp s m 1 [], true)
  else if memWriteWaits s a n then (s, false)
  else (mgmtResp (tellOut (storeBytes (acceptWrite s m) feCore 32 Xlate.none a data) a n) m 0 [], true)

/-- MGMT_MEM_WRITE: action 2. DEDUCED (log entry 42). -/
def execMgmtMemWrite (m : Mgmt) (addr : BitVec 64) (data : List Byte) (s : State) : Result :=
  onMgmt m (.memWrite addr data) (addrFits addr (2 ^ Nat.log2 (max 1 data.length))) s (doMemWrite m addr data)

/-! ### Messages that have waited (R341) -/

/-- One waiting message is carried out. -/
def carryOut (m : Mgmt) : MgmtReq → State → State × Bool
  | .regRead a, s => doRegRead m a s
  | .regWrite a v, s => doRegWrite m a v s
  | .memWrite a d, s => doMemWrite m a d s
  | .createQueue q, s => doCreateQueue m q s
  | .restartq q mode rd, s => doRestartq m q mode rd s
  | .loadKey t k, s => doLoadKey m t k s
  | .registerPeer t p q, s => doRegisterPeer m t p q s
  | .registerCommunicator t c n, s => doRegisterCommunicator m t c n s
  | .publishCosts, s => doPublishCosts m s
  | .tenancyReset t, s => doTenancyReset m t s
  | .tenancyFreeze t p, s => doTenancyFreeze m t p s
  | .dumpRequest t pa, s => doDumpRequest m t pa s
  | .answer st, s => (mgmtResp s m st [], true)

/-- The messages that wait, from the first on, until one still has to. -/
def drainMgmt : List (Mgmt × MgmtReq) → State → State
  | [], s => { s with mgmtq := [] }
  | (m, r) :: t, s =>
    match carryOut m r { s with mgmtq := [] } with
    | (s, true) => drainMgmt t s
    | (s, false) => { s with mgmtq := (m, r) :: t }

end Sys2Proof.Machine
end

