-- ==== Sys2Proof/Machine/Observe.lean ====
section
/-! DEFINITION. Observation steps (R310, R329 to R333): sync points and losses of a trace stream, stall samples, and the
sending of notifications. -/

namespace Sys2Proof.Machine

/-! ### The trace stream (R329, R332) -/

def execTraceSyncPoint (c : Nat) (s : State) : Result := .next (traceSync s c)

/-- TRACE_LOSS_WRITE: the LOSS packet and its SYNC packets enter all together, once there is room. -/
def traceLoss (s : State) (c : Nat) : State :=
  let b := obsOf s c
  if 64 ≤ c || b.pendLoss = 0 then s
  else
    let gs := tracedGroups s c
    let bs := pktBytes 5 0 0 0 0 (leBytes 4 (min b.pendLoss (2 ^ 32 - 1))) ++
      (gs.map fun (n, g) => pktBytes 6 n 0 2 0 (syncPayload s g)).flatten
    if 2 ^ b.tlog < b.used + bs.length then s
    else
      let s := putStream s c bs (1 + gs.length)
      setObs s c { obsOf s c with pendLoss := 0, synced := gs.map (·.1) }

def execTraceLossWrite (c : Nat) (s : State) : Result := .next (traceLoss s c)

/-! ### Stall samples (R333) -/

/-- The vector registers that an instruction names, for a group of width w. -/
def namedRegs (w : Nat) : Instr → List VR
  | .movi r0 .. | .movhi r0 .. | .mpopc r0 .. | .mfirst r0 .. | .mfrom _ r0 | .mto r0 .. | .mset _ r0 | .ldlit r0 ..
  | .jmpi r0 | .sigdec r0 .. | .trmark r0 .. | .rdsr r0 .. | .wrsr r0 .. | .tlbi r0 .. | .poolget r0 ..
  | .setratel r0 | .mlda r0 .. | .msta r0 .. | .mrow r0 .. | .vopen _ r0 | .vinfo r0 .. | .stcov r0 | .cvstat r0 .. => [r0]
  | .inegB64 r0 r1 .. | .iabsB64 r0 r1 .. | .notB64 r0 r1 .. | .popcB64 r0 r1 .. | .clzB64 r0 r1 ..
  | .ctzB64 r0 r1 .. | .brevB64 r0 r1 .. | .bswapB64 r0 r1 .. | .movB64 r0 r1 .. | .inegB32 r0 r1 ..
  | .iabsB32 r0 r1 .. | .notB32 r0 r1 .. | .popcB32 r0 r1 .. | .clzB32 r0 r1 .. | .ctzB32 r0 r1 ..
  | .brevB32 r0 r1 .. | .bswapB32 r0 r1 .. | .iaddi r0 r1 .. | .andi r0 r1 .. | .ori r0 r1 .. | .xori r0 r1 ..
  | .shli r0 r1 .. | .unif r0 r1 .. | .matz r0 r1 .. | .shape r0 r1 .. | .ballot r0 r1 .. | .xbfly r0 r1 ..
  | .xshift r0 r1 .. | .xbcast r0 r1 .. | .scanadd r0 r1 .. | .greduceAdd r0 r1 .. | .greduceMin r0 r1 ..
  | .greduceMax r0 r1 .. | .fabs r0 r1 .. | .fneg r0 r1 .. | .fclass r0 r1 .. | .frcp r0 r1 .. | .frsq r0 r1 ..
  | .fsqrt r0 r1 .. | .fexp2 r0 r1 .. | .flog2 r0 r1 .. | .fsin r0 r1 .. | .fcos r0 r1 .. | .frnd r0 r1 ..
  | .ffrac r0 r1 .. | .cvt r0 r1 .. | .unpackLoF16x2 r0 r1 .. | .unpackHiF16x2 r0 r1 .. | .unpackLoBf16x2 r0 r1 ..
  | .unpackHiBf16x2 r0 r1 .. | .ldN8 r0 r1 .. | .ldN16 r0 r1 .. | .ldN32 r0 r1 .. | .ldN64 r0 r1 .. | .ldS8 r0 r1 ..
  | .ldS16 r0 r1 .. | .ldS32 r0 r1 .. | .stB8 r0 r1 .. | .stB16 r0 r1 .. | .stB32 r0 r1 .. | .stB64 r0 r1 ..
  | .lduN64 r0 r1 .. | .ldv r0 r1 .. | .stv r0 r1 .. | .atomnAdd r0 r1 .. | .atomnAnd r0 r1 .. | .atomnOr r0 r1 ..
  | .atomnXor r0 r1 .. | .atomnMin r0 r1 .. | .atomnMax r0 r1 .. | .atomnFadd r0 r1 .. | .waitv _ r0 r1 ..
  | .stspill r0 r1 | .ldspill r0 r1 | .enq r0 r1 .. | .rdcost r0 r1 .. | .vaddr r0 r1 .. => [r0, r1]
  | .iadd r0 r1 r2 .. | .isub r0 r1 r2 .. | .imul r0 r1 r2 .. | .imulh r0 r1 r2 .. | .imac r0 r1 r2 ..
  | .idiv r0 r1 r2 .. | .irem r0 r1 r2 .. | .imin r0 r1 r2 .. | .imax r0 r1 r2 .. | .iadds r0 r1 r2 ..
  | .iaddc r0 r1 r2 .. | .shl r0 r1 r2 .. | .shr r0 r1 r2 .. | .sar r0 r1 r2 .. | .rot r0 r1 r2 ..
  | .andb r0 r1 r2 .. | .orb r0 r1 r2 .. | .xorb r0 r1 r2 .. | .andn r0 r1 r2 .. | .bfx r0 r1 r2 ..
  | .bfi r0 r1 r2 .. | .icmp r0 r1 r2 .. | .sel r0 r1 r2 .. | .lea r0 r1 r2 .. | .affine r0 r1 r2 ..
  | .xlane r0 r1 r2 .. | .fadd r0 r1 r2 .. | .fsub r0 r1 r2 .. | .fmul r0 r1 r2 .. | .fma r0 r1 r2 ..
  | .fms r0 r1 r2 .. | .fnma r0 r1 r2 .. | .fmin r0 r1 r2 .. | .fmax r0 r1 r2 .. | .fminm r0 r1 r2 ..
  | .fmaxm r0 r1 r2 .. | .fcopysign r0 r1 r2 .. | .fcmp r0 r1 r2 .. | .fdiv r0 r1 r2 .. | .fscaleb r0 r1 r2 ..
  | .packF16x2 r0 r1 r2 .. | .packBf16x2 r0 r1 r2 .. | .ordkey r0 r1 r2 .. | .packedFadd r0 r1 r2 ..
  | .packedFsub r0 r1 r2 .. | .packedFmul r0 r1 r2 .. | .packedFma r0 r1 r2 .. | .atomAdd r0 r1 r2 ..
  | .atomAnd r0 r1 r2 .. | .atomOr r0 r1 r2 .. | .atomXor r0 r1 r2 .. | .atomMin r0 r1 r2 .. | .atomMax r0 r1 r2 ..
  | .atomExch r0 r1 r2 .. | .atomFadd r0 r1 r2 .. | .mmag r0 r1 _ _ _ _ _ _ r2
  | .copyg r0 r1 r2 .. | .ccolAllreduce r0 r1 r2 .. | .ccolRedscat r0 r1 r2 .. | .ccolAllgather r0 r1 r2
  | .ccolBcast r0 r1 r2 | .ccolAlltoall r0 r1 r2 => [r0, r1, r2]
  | .atomCas r0 r1 r2 r3 .. => [r0, r1, r2, r3]
  | .brNz k _ | .brZ k _ => [k.zeroExtend 6]
  | .copy r0 r1 dv _ _ => if dv then [r0] else [r0, r1]
  | .mma a b _ _ mq _ _ _ sc sa sb => [a, b] ++ (if sc then sb :: (runOf sa ((mmaM mq + 2 * w - 1) / (2 * w))).1 else [])
  | .mms d a b _ _ fmt m n k =>
    let sz := CT.bytes fmt
    (runOf d (runCount w (4 * (m.toNat + 1) * (n.toNat + 1)))).1 ++ (runOf a (runCount w (sz * (m.toNat + 1) * (k.toNat + 1)))).1 ++
      (runOf b (runCount w (sz * (k.toNat + 1) * (n.toNat + 1)))).1
  | _ => []

/-- A sample's REASON, BREG and BPC. -/
structure Blame where
  reason : Nat
  breg   : Nat := 0xFF
  bpc    : Nat := 0xFFFFFFFF
  deriving DecidableEq, Repr

/-- Word offset of the oldest pending operation that satisfies a condition. -/
def oldestWord (g : Group) (c : POp → Bool) : Nat :=
  match g.ops.find? fun o => !o.done && c o with
  | some o => o.word
  | none => 0xFFFFFFFF

/-- The oldest operation of the lowest pending flag of a set. -/
def flagWord (g : Group) (m : BitVec 12) : Nat := oldestWord g fun o => o.flag == some (lowBit 12 (g.flags &&& m).toNat)

def ctrClass : Ctr → OpClass | .m => .mem | .c => .copy | .x => .mat | .l => .coll

/-- The lines that a copy of the group has cleared. -/
def clearsLine (l : List Nat) (o : POp) : Bool :=
  match o.kind with
  | .copy _ _ _ _ _ _ _ _ c => c.any l.contains
  | _ => false

/-- DEDUCED (log entry 61). -/
def parkBlame (g : Group) : Park → Blame
  | .waitv .. => ⟨9, 0xFF, 0xFFFFFFFF⟩
  | .barrier .. | .early .. => ⟨7, 0xFF, 0xFFFFFFFF⟩
  | .waitf m => ⟨7, 0xFF, flagWord g m⟩
  | .waitc c _ => ⟨7, 0xFF, oldestWord g fun o => o.cls == ctrClass c⟩
  | .line l => ⟨8, 0xFF, oldestWord g (clearsLine l)⟩
  | .vopen .. => ⟨10, 0xFF, 0xFFFFFFFF⟩
  | .regang => ⟨11, 0xFF, 0xFFFFFFFF⟩
  | .heldTrap => ⟨6, 0xFF, match g.handler with | some h => h.trap.word | none => 0xFFFFFFFF⟩
  | .stage2 _ => ⟨5, 0xFF, 0xFFFFFFFF⟩

/-- The class counter that an instruction raises at issue (R52). -/
def instrCtr : Instr → Option Ctr
  | .ldN8 .. | .ldN16 .. | .ldN32 .. | .ldN64 .. | .ldS8 .. | .ldS16 .. | .ldS32 .. | .stB8 .. | .stB16 .. | .stB32 ..
  | .stB64 .. | .lduN64 .. | .ldv .. | .stv .. | .atomAdd .. | .atomAnd .. | .atomOr .. | .atomXor .. | .atomMin ..
  | .atomMax .. | .atomExch .. | .atomCas .. | .atomFadd .. | .atomnAdd .. | .atomnAnd .. | .atomnOr .. | .atomnXor ..
  | .atomnMin .. | .atomnMax .. | .atomnFadd .. | .stspill .. | .ldspill .. | .sigdec .. => some .m
  | .copy .. | .copyg .. => some .c
  | .mfence => some .x
  | .ccolAllreduce .. | .ccolRedscat .. | .ccolAllgather .. | .ccolBcast .. | .ccolAlltoall .. => some .l
  | _ => none

/-- The lowest-numbered held register of a list. -/
def lowestHeld (g : Group) (l : List VR) : Option Nat :=
  (List.range 64).find? fun r => g.isHeld r && l.any fun v => v.toNat == r

/-- The words of the instruction at which a gang stands, as its core's instruction cache has them. -/
def wordsAt (s : State) (k : Nat) (g : Group) (p : Path) (off : Nat) : Option (Nat × Option Nat) :=
  match (fetchWord s k g p off).2 with
  | .word w => some (w.toNat, match (fetchWord s k g p (off + 1)).2 with | .word v => some v.toNat | _ => none)
  | _ => none

/-- The group holds its scheduler's turn. -/
def holdsTurn (s : State) (k : Nat) : Bool :=
  match s.scheds[coreOf k * 4 + slotOf k / 8]? with
  | some c => c.turn == some (slotOf k)
  | none => false

/-- Why a gang does not issue, at the instruction or boundary where it stands; a gang that holds the turn and could have issued
is short of pipes. DEDUCED (log entry 61). -/
def blame (s : State) (k pi : Nat) (g : Group) (p : Path) : Blame :=
  let (code, at_) := (tget g.tried pi).getD (13, 0)
  if code = 0 && at_ = s.clk then ⟨0, 0xFF, 0xFFFFFFFF⟩
  else if p.stop == .stopped then ⟨12, 0xFF, 0xFFFFFFFF⟩
  else match p.park with
    | some pk => parkBlame g pk
    | none =>
      let ready : Blame := ⟨if holdsTurn s k then 3 else 13, 0xFF, 0xFFFFFFFF⟩
      if p.since.isSome || code = 5 then ⟨5, 0xFF, 0xFFFFFFFF⟩
      else match p.spot with
        | .boundary off =>
          (match wordsAt s k g p off with
          | some (h, _) => if g.anyFlag (hWait (BitVec.ofNat 32 h)) then ⟨1, 0xFF, flagWord g (hWait (BitVec.ofNat 32 h))⟩ else ready
          | none => ready)
        | .inside _ _ pc =>
          match wordsAt s k g p pc with
          | none => ready
          | some (w, v) =>
            match decodeWords w v with
            | .bad _ => ready
            | .ok i =>
              let l := namedRegs g.w i
              match lowestHeld g l with
              | some r => ⟨2, r, oldestWord g fun o => o.writes r⟩
              | none =>
                if handlerBlocked g pi l then ⟨6, 0xFF, match g.handler with | some h => h.trap.word | none => 0xFFFFFFFF⟩
                else match instrCtr i with
                  | some c => if g.counterFull c then ⟨4, 0xFF, oldestWord g fun o => o.cls == ctrClass c⟩ else ready
                  | none => ready

/-- The path to sample next in a group: the one after the last, in index order, going round. -/
def nextPath (g : Group) (last : Nat) : Option Nat :=
  ((List.range 16).map fun i => (last + 1 + i) % 16).find? fun i => (g.path i).isSome

/-- The next traced resident group with a path, in slot order after the last one, with that path. -/
def nextSample (s : State) (c : Nat) : Option (Nat × Group × Nat × Path) :=
  let b := obsOf s c
  ((List.range 32).map fun i => (b.lastSlot + 1 + i) % 32).findSome? fun n =>
    if b.traced n then
      match tget s.groups (c * 32 + n) with
      | some g => (nextPath g ((tget b.lastPath n).getD 15)).bind fun i => (g.path i).map fun p => (n, g, i, p)
      | none => none
    else none

/-- The 32 bytes of a sample. -/
def sampleBytes (s : State) (n pi : Nat) (p : Path) (x : Blame) : List Byte :=
  leBytes 8 s.time ++ leBytes 1 n ++ leBytes 1 pi ++ leBytes 1 x.reason ++ leBytes 1 x.breg ++ leBytes 4 p.spot.offset ++
    leBytes 4 x.bpc ++ leBytes 4 0 ++ leBytes 8 p.code.kbase.toNat

/-- A period of the sampler has ended since its last sample. -/
def sampleDue (s : State) (c : Nat) : Bool := (obsOf s c).smen && s.clk / 2 ^ (obsOf s c).sper != (obsOf s c).sampledAt / 2 ^ (obsOf s c).sper

/-- DEDUCED (log entry 61). -/
def sampleStep (s : State) (c : Nat) : State :=
  let b := obsOf s c
  if 64 ≤ c || !sampleDue s c then s
  else
    let s := setObs s c { b with sampledAt := s.clk }
    match nextSample s c with
    | none => s
    | some (n, g, pi, p) =>
      let b := obsOf s c
      let full := decide (2 ^ b.slog < (b.swr - b.srd).toNat + 32)
      let b := { b with lastSlot := n, lastPath := tput b.lastPath n pi }
      if full then setObs s c b
      else
        let x := blame s (c * 32 + n) pi g p
        let s := ringWrite s b.sbase.toNat b.slog b.swr.toNat (sampleBytes s n pi p x)
        setObs s c { b with swr := b.swr + 32 }

def execStallSample (c : Nat) (s : State) : Result := .next (sampleStep s c)

/-! ### Notifications (R310, R342) -/

/-- DESIGN CHOICE (log entry 34). -/
def Note.record (n : Note) : List Byte :=
  leBytes 1 n.kind ++ leBytes 1 n.ten ++ leBytes 6 0 ++ (n.detail ++ List.replicate 24 0).take 24

/-- The first n records of a tenancy, and the others. -/
def takeNotes (ten : Nat) : Nat → List Note → List Note × List Note
  | _, [] => ([], [])
  | 0, l => ([], l)
  | n + 1, x :: t =>
    if x.ten = ten then let (a, b) := takeNotes ten n t; (x :: a, b)
    else let (a, b) := takeNotes ten (n + 1) t; (a, x :: b)

/-- Where a tenancy's notifications go: its endpoint, or the management endpoint where that is all zero (R342).
DESIGN CHOICE (log entry 34). -/
def noteTo (s : State) (ten : Nat) : Option (BitVec 128) :=
  let t := tcbOf s ten
  if t.nepa == 0 && t.nepb == 0 then s.mgmtEp else some (t.nepa ++ t.nepb)

/-- Records of one message: a payload's SIZE is a power of two (R340), of at most 128 records.
DESIGN CHOICE (log entry 34). -/
def noteCount (n : Nat) : Nat := min 128 (2 ^ Nat.log2 n)

/-- NOTIFICATION_SEND: one message carries records of one tenancy, in their order. They wait for an endpoint, and for port 0 (R14).
DESIGN CHOICE (log entry 34). -/
def notesOut (s : State) (ten : Nat) : State :=
  let n := (s.notes.filter fun x => x.ten = ten).length
  match noteTo s ten with
  | some dst =>
    if n = 0 || !isEth0 s then s
    else
      let (mine, rest) := takeNotes ten (noteCount n) s.notes
      { s with notes := rest, outbox := s.outbox ++ [.note dst (noteFrame s ten (mine.map Note.record).flatten)] }
  | none => s

def execNotificationSend (ten : Nat) (s : State) : Result := .next (notesOut s ten)

end Sys2Proof.Machine
end

