-- ==== Sys2Proof/Machine/Dispatch.lean ====
section
/-! DEFINITION. The meaning of every constructor of `Instr`, one arm each, in the order of the opcode table. -/

namespace Sys2Proof.Machine

def exec (i : Instr) (s : State) : Host.Outcome State Fault Refusal :=
  match i with
  | .iadd d a b cc t => Sys2Proof.Machine.execIadd d a b cc t s
  | .isub d a b cc t => Sys2Proof.Machine.execIsub d a b cc t s
  | .imul d a b cc t => Sys2Proof.Machine.execImul d a b cc t s
  | .imulh d a b cc t => Sys2Proof.Machine.execImulh d a b cc t s
  | .imac d a b cc t => Sys2Proof.Machine.execImac d a b cc t s
  | .idiv d a b cc t => Sys2Proof.Machine.execIdiv d a b cc t s
  | .irem d a b cc t => Sys2Proof.Machine.execIrem d a b cc t s
  | .imin d a b cc t => Sys2Proof.Machine.execImin d a b cc t s
  | .imax d a b cc t => Sys2Proof.Machine.execImax d a b cc t s
  | .iadds d a b cc t => Sys2Proof.Machine.execIadds d a b cc t s
  | .iaddc d a b cc t => Sys2Proof.Machine.execIaddc d a b cc t s
  | .inegB64 d a cc => Sys2Proof.Machine.execInegB64 d a cc s
  | .iabsB64 d a cc => Sys2Proof.Machine.execIabsB64 d a cc s
  | .notB64 d a cc => Sys2Proof.Machine.execNotB64 d a cc s
  | .popcB64 d a cc => Sys2Proof.Machine.execPopcB64 d a cc s
  | .clzB64 d a cc => Sys2Proof.Machine.execClzB64 d a cc s
  | .ctzB64 d a cc => Sys2Proof.Machine.execCtzB64 d a cc s
  | .brevB64 d a cc => Sys2Proof.Machine.execBrevB64 d a cc s
  | .bswapB64 d a cc => Sys2Proof.Machine.execBswapB64 d a cc s
  | .movB64 d a cc => Sys2Proof.Machine.execMovB64 d a cc s
  | .inegB32 d a cc => Sys2Proof.Machine.execInegB32 d a cc s
  | .iabsB32 d a cc => Sys2Proof.Machine.execIabsB32 d a cc s
  | .notB32 d a cc => Sys2Proof.Machine.execNotB32 d a cc s
  | .popcB32 d a cc => Sys2Proof.Machine.execPopcB32 d a cc s
  | .clzB32 d a cc => Sys2Proof.Machine.execClzB32 d a cc s
  | .ctzB32 d a cc => Sys2Proof.Machine.execCtzB32 d a cc s
  | .brevB32 d a cc => Sys2Proof.Machine.execBrevB32 d a cc s
  | .bswapB32 d a cc => Sys2Proof.Machine.execBswapB32 d a cc s
  | .shl d a b cc t => Sys2Proof.Machine.execShl d a b cc t s
  | .shr d a b cc t => Sys2Proof.Machine.execShr d a b cc t s
  | .sar d a b cc t => Sys2Proof.Machine.execSar d a b cc t s
  | .rot d a b cc t => Sys2Proof.Machine.execRot d a b cc t s
  | .andb d a b cc t => Sys2Proof.Machine.execAndb d a b cc t s
  | .orb d a b cc t => Sys2Proof.Machine.execOrb d a b cc t s
  | .xorb d a b cc t => Sys2Proof.Machine.execXorb d a b cc t s
  | .andn d a b cc t => Sys2Proof.Machine.execAndn d a b cc t s
  | .bfx d a b cc t => Sys2Proof.Machine.execBfx d a b cc t s
  | .bfi d a b cc t => Sys2Proof.Machine.execBfi d a b cc t s
  | .icmp d a b cc w r => Sys2Proof.Machine.execIcmp d a b cc w r s
  | .sel d a b cc k => Sys2Proof.Machine.execSel d a b cc k s
  | .lea d a b cc sh => Sys2Proof.Machine.execLea d a b cc sh s
  | .movi d cc imm => Sys2Proof.Machine.execMovi d cc imm s
  | .movhi d cc imm => Sys2Proof.Machine.execMovhi d cc imm s
  | .iaddi d a cc imm => Sys2Proof.Machine.execIaddi d a cc imm s
  | .andi d a cc imm => Sys2Proof.Machine.execAndi d a cc imm s
  | .ori d a cc imm => Sys2Proof.Machine.execOri d a cc imm s
  | .xori d a cc imm => Sys2Proof.Machine.execXori d a cc imm s
  | .shli d a cc imm => Sys2Proof.Machine.execShli d a cc imm s
  | .unif d a cc => Sys2Proof.Machine.execUnif d a cc s
  | .matz d a cc => Sys2Proof.Machine.execMatz d a cc s
  | .affine d a b cc => Sys2Proof.Machine.execAffine d a b cc s
  | .shape d a cc => Sys2Proof.Machine.execShape d a cc s
  | .mand d a b => Sys2Proof.Machine.execMand d a b s
  | .mor d a b => Sys2Proof.Machine.execMor d a b s
  | .mxor d a b => Sys2Proof.Machine.execMxor d a b s
  | .mandn d a b => Sys2Proof.Machine.execMandn d a b s
  | .mnot d a => Sys2Proof.Machine.execMnot d a s
  | .mpopc d a cc => Sys2Proof.Machine.execMpopc d a cc s
  | .mfirst d a cc => Sys2Proof.Machine.execMfirst d a cc s
  | .mfrom d a => Sys2Proof.Machine.execMfrom d a s
  | .mto d a cc => Sys2Proof.Machine.execMto d a cc s
  | .ballot d a cc => Sys2Proof.Machine.execBallot d a cc s
  | .exget d => Sys2Proof.Machine.execExget d s
  | .exset a => Sys2Proof.Machine.execExset a s
  | .mset d a => Sys2Proof.Machine.execMset d a s
  | .xlane d a b cc => Sys2Proof.Machine.execXlane d a b cc s
  | .xbfly d a cc imm => Sys2Proof.Machine.execXbfly d a cc imm s
  | .xshift d a cc imm => Sys2Proof.Machine.execXshift d a cc imm s
  | .xbcast d a cc imm => Sys2Proof.Machine.execXbcast d a cc imm s
  | .scanadd d a cc exc t => Sys2Proof.Machine.execScanadd d a cc exc t s
  | .greduceAdd d a cc t => Sys2Proof.Machine.execGreduceAdd d a cc t s
  | .greduceMin d a cc t => Sys2Proof.Machine.execGreduceMin d a cc t s
  | .greduceMax d a cc t => Sys2Proof.Machine.execGreduceMax d a cc t s
  | .fadd d a b cc rm t => Sys2Proof.Machine.execFadd d a b cc rm t s
  | .fsub d a b cc rm t => Sys2Proof.Machine.execFsub d a b cc rm t s
  | .fmul d a b cc rm t => Sys2Proof.Machine.execFmul d a b cc rm t s
  | .fma d a b cc rm t => Sys2Proof.Machine.execFma d a b cc rm t s
  | .fms d a b cc rm t => Sys2Proof.Machine.execFms d a b cc rm t s
  | .fnma d a b cc rm t => Sys2Proof.Machine.execFnma d a b cc rm t s
  | .fmin d a b cc t => Sys2Proof.Machine.execFmin d a b cc t s
  | .fmax d a b cc t => Sys2Proof.Machine.execFmax d a b cc t s
  | .fminm d a b cc t => Sys2Proof.Machine.execFminm d a b cc t s
  | .fmaxm d a b cc t => Sys2Proof.Machine.execFmaxm d a b cc t s
  | .fabs d a cc t => Sys2Proof.Machine.execFabs d a cc t s
  | .fneg d a cc t => Sys2Proof.Machine.execFneg d a cc t s
  | .fcopysign d a b cc t => Sys2Proof.Machine.execFcopysign d a b cc t s
  | .fcmp d a b cc r t => Sys2Proof.Machine.execFcmp d a b cc r t s
  | .fclass d a cc t => Sys2Proof.Machine.execFclass d a cc t s
  | .frcp d a cc rm t => Sys2Proof.Machine.execFrcp d a cc rm t s
  | .frsq d a cc rm t => Sys2Proof.Machine.execFrsq d a cc rm t s
  | .fsqrt d a cc rm t => Sys2Proof.Machine.execFsqrt d a cc rm t s
  | .fdiv d a b cc rm t => Sys2Proof.Machine.execFdiv d a b cc rm t s
  | .fexp2 d a cc t => Sys2Proof.Machine.execFexp2 d a cc t s
  | .flog2 d a cc t => Sys2Proof.Machine.execFlog2 d a cc t s
  | .fsin d a cc t => Sys2Proof.Machine.execFsin d a cc t s
  | .fcos d a cc t => Sys2Proof.Machine.execFcos d a cc t s
  | .frnd d a cc rm t => Sys2Proof.Machine.execFrnd d a cc rm t s
  | .ffrac d a cc t => Sys2Proof.Machine.execFfrac d a cc t s
  | .fscaleb d a b cc rm t => Sys2Proof.Machine.execFscaleb d a b cc rm t s
  | .cvt d a cc sat rm ct from0 => Sys2Proof.Machine.execCvt d a cc sat rm ct from0 s
  | .packF16x2 d a b cc => Sys2Proof.Machine.execPackF16x2 d a b cc s
  | .packBf16x2 d a b cc => Sys2Proof.Machine.execPackBf16x2 d a b cc s
  | .unpackLoF16x2 d a cc => Sys2Proof.Machine.execUnpackLoF16x2 d a cc s
  | .unpackHiF16x2 d a cc => Sys2Proof.Machine.execUnpackHiF16x2 d a cc s
  | .unpackLoBf16x2 d a cc => Sys2Proof.Machine.execUnpackLoBf16x2 d a cc s
  | .unpackHiBf16x2 d a cc => Sys2Proof.Machine.execUnpackHiBf16x2 d a cc s
  | .ordkey d a b cc nanlo t => Sys2Proof.Machine.execOrdkey d a b cc nanlo t s
  | .packedFadd d a b cc bf => Sys2Proof.Machine.execPackedFadd d a b cc bf s
  | .packedFsub d a b cc bf => Sys2Proof.Machine.execPackedFsub d a b cc bf s
  | .packedFmul d a b cc bf => Sys2Proof.Machine.execPackedFmul d a b cc bf s
  | .packedFma d a b cc bf => Sys2Proof.Machine.execPackedFma d a b cc bf s
  | .ldN8 d a cc acq off => Sys2Proof.Machine.execLdN8 d a cc acq off s
  | .ldN16 d a cc acq off => Sys2Proof.Machine.execLdN16 d a cc acq off s
  | .ldN32 d a cc acq off => Sys2Proof.Machine.execLdN32 d a cc acq off s
  | .ldN64 d a cc acq off => Sys2Proof.Machine.execLdN64 d a cc acq off s
  | .ldS8 d a cc acq off => Sys2Proof.Machine.execLdS8 d a cc acq off s
  | .ldS16 d a cc acq off => Sys2Proof.Machine.execLdS16 d a cc acq off s
  | .ldS32 d a cc acq off => Sys2Proof.Machine.execLdS32 d a cc acq off s
  | .stB8 s0 a rel off => Sys2Proof.Machine.execStB8 s0 a rel off s
  | .stB16 s0 a rel off => Sys2Proof.Machine.execStB16 s0 a rel off s
  | .stB32 s0 a rel off => Sys2Proof.Machine.execStB32 s0 a rel off s
  | .stB64 s0 a rel off => Sys2Proof.Machine.execStB64 s0 a rel off s
  | .lduN64 d a cc acq off => Sys2Proof.Machine.execLduN64 d a cc acq off s
  | .ldlit d cc w64 lit => Sys2Proof.Machine.execLdlit d cc w64 lit s
  | .ldv d a w cc sx => Sys2Proof.Machine.execLdv d a w cc sx s
  | .stv s0 a w => Sys2Proof.Machine.execStv s0 a w s
  | .atomAdd d a b cc ord scp ty => Sys2Proof.Machine.execAtomAdd d a b cc ord scp ty s
  | .atomAnd d a b cc ord scp ty => Sys2Proof.Machine.execAtomAnd d a b cc ord scp ty s
  | .atomOr d a b cc ord scp ty => Sys2Proof.Machine.execAtomOr d a b cc ord scp ty s
  | .atomXor d a b cc ord scp ty => Sys2Proof.Machine.execAtomXor d a b cc ord scp ty s
  | .atomMin d a b cc ord scp ty => Sys2Proof.Machine.execAtomMin d a b cc ord scp ty s
  | .atomMax d a b cc ord scp ty => Sys2Proof.Machine.execAtomMax d a b cc ord scp ty s
  | .atomExch d a b cc ord scp ty => Sys2Proof.Machine.execAtomExch d a b cc ord scp ty s
  | .atomCas d a b c cc ord scp ty => Sys2Proof.Machine.execAtomCas d a b c cc ord scp ty s
  | .atomFadd d a b cc ord scp ty => Sys2Proof.Machine.execAtomFadd d a b cc ord scp ty s
  | .atomnAdd a b ord scp ty => Sys2Proof.Machine.execAtomnAdd a b ord scp ty s
  | .atomnAnd a b ord scp ty => Sys2Proof.Machine.execAtomnAnd a b ord scp ty s
  | .atomnOr a b ord scp ty => Sys2Proof.Machine.execAtomnOr a b ord scp ty s
  | .atomnXor a b ord scp ty => Sys2Proof.Machine.execAtomnXor a b ord scp ty s
  | .atomnMin a b ord scp ty => Sys2Proof.Machine.execAtomnMin a b ord scp ty s
  | .atomnMax a b ord scp ty => Sys2Proof.Machine.execAtomnMax a b ord scp ty s
  | .atomnFadd a b ord scp ty => Sys2Proof.Machine.execAtomnFadd a b ord scp ty s
  | .waitv r a b acq w64 => Sys2Proof.Machine.execWaitv r a b acq w64 s
  | .stspill d a => Sys2Proof.Machine.execStspill d a s
  | .ldspill d a => Sys2Proof.Machine.execLdspill d a s
  | .br tgt => Sys2Proof.Machine.execBr tgt s
  | .brNz k tgt => Sys2Proof.Machine.execBrNz k tgt s
  | .brZ k tgt => Sys2Proof.Machine.execBrZ k tgt s
  | .brcAny k tgt => Sys2Proof.Machine.execBrcAny k tgt s
  | .brcAll k tgt => Sys2Proof.Machine.execBrcAll k tgt s
  | .brcNone k tgt => Sys2Proof.Machine.execBrcNone k tgt s
  | .brz tgt => Sys2Proof.Machine.execBrz tgt s
  | .call tgt => Sys2Proof.Machine.execCall tgt s
  | .ret => Sys2Proof.Machine.execRet s
  | .jmpi a => Sys2Proof.Machine.execJmpi a s
  | .regang => Sys2Proof.Machine.execRegang s
  | .yield => Sys2Proof.Machine.execYield s
  | .exit => Sys2Proof.Machine.execExit s
  | .nop => Sys2Proof.Machine.execNop s
  | .bar id => Sys2Proof.Machine.execBar id s
  | .arriveTeam id => Sys2Proof.Machine.execArriveTeam id s
  | .arriveClu id => Sys2Proof.Machine.execArriveClu id s
  | .waitbTeam id => Sys2Proof.Machine.execWaitbTeam id s
  | .waitbClu id => Sys2Proof.Machine.execWaitbClu id s
  | .waitf flg => Sys2Proof.Machine.execWaitf flg s
  | .waitc cls thr => Sys2Proof.Machine.execWaitc cls thr s
  | .fence ord scp => Sys2Proof.Machine.execFence ord scp s
  | .rfence => Sys2Proof.Machine.execRfence s
  | .ifence => Sys2Proof.Machine.execIfence s
  | .sigdec a scp => Sys2Proof.Machine.execSigdec a scp s
  | .trap code => Sys2Proof.Machine.execTrap code s
  | .tret => Sys2Proof.Machine.execTret s
  | .bkpt code => Sys2Proof.Machine.execBkpt code s
  | .trmark a id => Sys2Proof.Machine.execTrmark a id s
  | .rdsr d n cc => Sys2Proof.Machine.execRdsr d n cc s
  | .wrsr s0 n => Sys2Proof.Machine.execWrsr s0 n s
  | .grow n => Sys2Proof.Machine.execGrow n s
  | .shrink n => Sys2Proof.Machine.execShrink n s
  | .enq d a cc => Sys2Proof.Machine.execEnq d a cc s
  | .tlbi a all => Sys2Proof.Machine.execTlbi a all s
  | .tlbsync => Sys2Proof.Machine.execTlbsync s
  | .poolget d cc => Sys2Proof.Machine.execPoolget d cc s
  | .setratel a => Sys2Proof.Machine.execSetratel a s
  | .rdcost d a cc => Sys2Proof.Machine.execRdcost d a cc s
  | .mma a b t z mq ks p pl sc sa sb => Sys2Proof.Machine.execMma a b t z mq ks p pl sc sa sb s
  | .mmag a b t z mq ks p pl x => Sys2Proof.Machine.execMmag a b t z mq ks p pl x s
  | .mms d a b cc eng fmt m n k => Sys2Proof.Machine.execMms d a b cc eng fmt m n k s
  | .mzero t => Sys2Proof.Machine.execMzero t s
  | .mlda a t roff coff => Sys2Proof.Machine.execMlda a t roff coff s
  | .msta a t roff coff sat => Sys2Proof.Machine.execMsta a t roff coff sat s
  | .mrow d cc t row col => Sys2Proof.Machine.execMrow d cc t row col s
  | .mfence => Sys2Proof.Machine.execMfence s
  | .copy a b dv sat rm => Sys2Proof.Machine.execCopy a b dv sat rm s
  | .copyg a b x sat rm => Sys2Proof.Machine.execCopyg a b x sat rm s
  | .ccolAllreduce a b d red => Sys2Proof.Machine.execCcolAllreduce a b d red s
  | .ccolRedscat a b d red => Sys2Proof.Machine.execCcolRedscat a b d red s
  | .ccolAllgather a b d => Sys2Proof.Machine.execCcolAllgather a b d s
  | .ccolBcast a b d => Sys2Proof.Machine.execCcolBcast a b d s
  | .ccolAlltoall a b d => Sys2Proof.Machine.execCcolAlltoall a b d s
  | .vopen w a => Sys2Proof.Machine.execVopen w a s
  | .vretire w => Sys2Proof.Machine.execVretire w s
  | .vinfo d w cc fld => Sys2Proof.Machine.execVinfo d w cc fld s
  | .vaddr d a w cc => Sys2Proof.Machine.execVaddr d a w cc s
  | .stcov s0 => Sys2Proof.Machine.execStcov s0 s
  | .cvstat d cc fld => Sys2Proof.Machine.execCvstat d cc fld s
  | .toolx idx => Sys2Proof.Machine.execToolx idx s
  | .trampret => Sys2Proof.Machine.execTrampret s
  | .tramp idx => Sys2Proof.Machine.execTramp idx s
  | .unitBoundary => Sys2Proof.Machine.execUnitBoundary s
  | .regangMerge g => Sys2Proof.Machine.execRegangMerge g s
  | .trapEntry g p => Sys2Proof.Machine.execTrapEntry g p s
  | .heldTrapEntry g => Sys2Proof.Machine.execHeldTrapEntry g s
  | .memOpComplete g op => Sys2Proof.Machine.execMemOpComplete g op s
  | .absentLineResume g p => Sys2Proof.Machine.execAbsentLineResume g p s
  | .waitvRecheck g p => Sys2Proof.Machine.execWaitvRecheck g p s
  | .barrierGenerationComplete clu team id => Sys2Proof.Machine.execBarrierGenerationComplete clu team id s
  | .watchdog g p => Sys2Proof.Machine.execWatchdog g p s
  | .teamPlacement launch => Sys2Proof.Machine.execTeamPlacement launch s
  | .headAged launch => Sys2Proof.Machine.execHeadAged launch s
  | .dependentTeamDispatch launch => Sys2Proof.Machine.execDependentTeamDispatch launch s
  | .teamEnd team => Sys2Proof.Machine.execTeamEnd team s
  | .preemptRequest team => Sys2Proof.Machine.execPreemptRequest team s
  | .preemptSave team => Sys2Proof.Machine.execPreemptSave team s
  | .preemptWithdraw team => Sys2Proof.Machine.execPreemptWithdraw team s
  | .teamResume team => Sys2Proof.Machine.execTeamResume team s
  | .queuePoll q => Sys2Proof.Machine.execQueuePoll q s
  | .ticketClaim => Sys2Proof.Machine.execTicketClaim s
  | .launchPacket q idx => Sys2Proof.Machine.execLaunchPacket q idx s
  | .barrierPacket q idx => Sys2Proof.Machine.execBarrierPacket q idx s
  | .signalPacket q idx => Sys2Proof.Machine.execSignalPacket q idx s
  | .indirectPacket q idx => Sys2Proof.Machine.execIndirectPacket q idx s
  | .predicatePacket q idx => Sys2Proof.Machine.execPredicatePacket q idx s
  | .loopPacket q idx => Sys2Proof.Machine.execLoopPacket q idx s
  | .fetchFencePacket q idx => Sys2Proof.Machine.execFetchFencePacket q idx s
  | .packetComplete q idx => Sys2Proof.Machine.execPacketComplete q idx s
  | .matrixBatchComplete g => Sys2Proof.Machine.execMatrixBatchComplete g s
  | .copyComplete g op => Sys2Proof.Machine.execCopyComplete g op s
  | .engineTransferFault g op => Sys2Proof.Machine.execEngineTransferFault g op s
  | .ccolComplete g op => Sys2Proof.Machine.execCcolComplete g op s
  | .stcovPerform g op => Sys2Proof.Machine.execStcovPerform g op s
  | .trellisGrant g op => Sys2Proof.Machine.execTrellisGrant g op s
  | .vopenReexecute g p => Sys2Proof.Machine.execVopenReexecute g p s
  | .gleanerReconstruct launch block => Sys2Proof.Machine.execGleanerReconstruct launch block s
  | .rateTick pmw => Sys2Proof.Machine.execRateTick pmw s
  | .clockStretch dom current => Sys2Proof.Machine.execClockStretch dom current s
  | .opDecision core active memWait => Sys2Proof.Machine.execOpDecision core active memWait s
  | .opMoveComplete core => Sys2Proof.Machine.execOpMoveComplete core s
  | .regulatorLimitMove core highest => Sys2Proof.Machine.execRegulatorLimitMove core highest s
  | .laneDecision port bytes => Sys2Proof.Machine.execLaneDecision port bytes s
  | .migrationDecision ten page dst gainT gainE costT costE => Sys2Proof.Machine.execMigrationDecision ten page dst gainT gainE costT costE s
  | .pageMigration move => Sys2Proof.Machine.execPageMigration move s
  | .migrationAck ten => Sys2Proof.Machine.execMigrationAck ten s
  | .poolRefill ten pages => Sys2Proof.Machine.execPoolRefill ten pages s
  | .stage2FaultResolve g p ans => Sys2Proof.Machine.execStage2FaultResolve g p ans s
  | .tenancyReset m ten => Sys2Proof.Machine.execTenancyReset m ten s
  | .tenancyFreeze m ten target => Sys2Proof.Machine.execTenancyFreeze m ten target s
  | .logReplay ten log => Sys2Proof.Machine.execLogReplay ten log s
  | .errorDetected e => Sys2Proof.Machine.execErrorDetected e s
  | .scrubRow stack row fixed bad => Sys2Proof.Machine.execScrubRow stack row fixed bad s
  | .linkFlitResend link d2d => Sys2Proof.Machine.execLinkFlitResend link d2d s
  | .d2dLinkFailure link => Sys2Proof.Machine.execD2dLinkFailure link s
  | .ccolChunkResend ten cid seq rank start port => Sys2Proof.Machine.execCcolChunkResend ten cid seq rank start port s
  | .coreLoss core => Sys2Proof.Machine.execCoreLoss core s
  | .regulatorPhaseFailure dom => Sys2Proof.Machine.execRegulatorPhaseFailure dom s
  | .warmReset => Sys2Proof.Machine.execWarmReset s
  | .coldBoot img => Sys2Proof.Machine.execColdBoot img s
  | .port0Training => Sys2Proof.Machine.execPort0Training s
  | .frameRead f => Sys2Proof.Machine.execFrameRead f s
  | .frameWrite f => Sys2Proof.Machine.execFrameWrite f s
  | .frameAtomic f => Sys2Proof.Machine.execFrameAtomic f s
  | .frameResp f => Sys2Proof.Machine.execFrameResp f s
  | .frameNote f => Sys2Proof.Machine.execFrameNote f s
  | .frameCcol f => Sys2Proof.Machine.execFrameCcol f s
  | .mgmtRegRead m addr => Sys2Proof.Machine.execMgmtRegRead m addr s
  | .mgmtRegWrite m addr val => Sys2Proof.Machine.execMgmtRegWrite m addr val s
  | .mgmtMemWrite m addr data => Sys2Proof.Machine.execMgmtMemWrite m addr data s
  | .createQueue m q => Sys2Proof.Machine.execCreateQueue m q s
  | .restartq m qnum mode rd => Sys2Proof.Machine.execRestartq m qnum mode rd s
  | .loadKey m ten key => Sys2Proof.Machine.execLoadKey m ten key s
  | .registerPeer m ten part peer => Sys2Proof.Machine.execRegisterPeer m ten part peer s
  | .registerCommunicator m ten cid nrank => Sys2Proof.Machine.execRegisterCommunicator m ten cid nrank s
  | .publishCosts m => Sys2Proof.Machine.execPublishCosts m s
  | .dumpRequest m team pa => Sys2Proof.Machine.execDumpRequest m team pa s
  | .wbrset m val => Sys2Proof.Machine.execWbrset m val s
  | .debugStop m core slot path => Sys2Proof.Machine.execDebugStop m core slot path s
  | .debugResume m core slot path => Sys2Proof.Machine.execDebugResume m core slot path s
  | .debugStep m core slot path => Sys2Proof.Machine.execDebugStep m core slot path s
  | .traceSyncPoint core => Sys2Proof.Machine.execTraceSyncPoint core s
  | .traceLossWrite core => Sys2Proof.Machine.execTraceLossWrite core s
  | .stallSample core => Sys2Proof.Machine.execStallSample core s
  | .notificationSend ten => Sys2Proof.Machine.execNotificationSend ten s
  | .matrixOperationComplete g op => Sys2Proof.Machine.execMatrixOperationComplete g op s
  | .clockStretchEnd dom current => Sys2Proof.Machine.execClockStretchEnd dom current s
  | .laneChangeComplete port => Sys2Proof.Machine.execLaneChangeComplete port s
  | .transportLossReport tag => Sys2Proof.Machine.execTransportLossReport tag s

end Sys2Proof.Machine
end

