-- ==== Sys2Proof/Machine/Issue.lean ====
section
/-! DEFINITION. What one step does: an issue opportunity of a scheduler (R22, R96, R100, R108, R283 to R287), the chosen moves of
the part, the passing of time and its counters (R328), and the default rule that chooses a move when the agenda is empty. -/

namespace Sys2Proof.Machine

/-! ### Classes (R100) -/

/-- The transfers of class CTL. -/
def isTransfer : Instr → Bool
  | .br .. | .brNz .. | .brZ .. | .brcAny .. | .brcAll .. | .brcNone .. | .brz .. | .call .. | .ret | .jmpi .. | .exit
  | .tret => true
  | _ => false

def isClassFree : Instr → Bool
  | .nop | .toolx .. | .trampret | .tramp .. => true
  | _ => false

/-- The engine class of an opcode (R97, R100). -/
def eclOf (opc : Nat) : Nat :=
  if opc < 0x2A then 1 else if opc < 0x42 then 2 else if opc < 0x5C then 3 else if opc < 0x66 then 0
  else if opc < 0x77 then 6 else if opc < 0x7A then 4 else 5

/-- An instruction may stand in a clause of class `ecl`, as its last instruction or not. -/
def classOk (ecl opc : Nat) (last : Bool) (i : Instr) : Bool :=
  isClassFree i || (if isTransfer i then last else eclOf opc == ecl)

/-! ### The instruction at which a gang stands (R108) -/

/-- What the words there are. -/
inductive Found where
  | ok (opc : Nat) (i : Instr)
  /-- the encoding is illegal -/
  | ill
  /-- the fetch of the word at an offset -/
  | fault (off code : Nat)
  | poison (off : Nat)
  | stage2 (off : Nat)
  | wait
  deriving DecidableEq, Repr

/-- The encoding check, with the limits that depend on the group's width and on the kernel's length.
DEDUCED (log entry 87). -/
def judge (w width : Nat) (p : Path) (w2 : Option Nat) : Found :=
  match decodeWords w w2 with
  | .ok i =>
    if !widthOk width i then .ill
    else (match i with
      | .ldlit _ _ w64 lit => if litInside p w64 lit then .ok (opcOf w) i else .ill
      | _ => .ok (opcOf w) i)
  | .bad _ => .ill

/-- Fetch the word at an offset, and the one after it for a long instruction whose clause holds both, before either is judged:
R108 does not say when the second word is fetched. DESIGN CHOICE (log entry 98). -/
def findInstr (s : State) (k : Nat) (g : Group) (p : Path) (hdr : Nat) (h : IWord) (pc : Nat) : State × Found :=
  match fetchWord s k g p pc with
  | (s, .fault c) => (s, .fault pc c)
  | (s, .poison) => (s, .poison pc)
  | (s, .stage2) => (s, .stage2 pc)
  | (s, .wait) => (s, .wait)
  | (s, .word w) =>
    if opcLong (opcOf w.toNat) && decide (pc < hdr + hCount h) then
      match fetchWord s k g p (pc + 1) with
      | (s, .fault c) => (s, .fault (pc + 1) c)
      | (s, .poison) => (s, .poison (pc + 1))
      | (s, .stage2) => (s, .stage2 (pc + 1))
      | (s, .wait) => (s, .wait)
      | (s, .word v) => (s, judge w.toNat g.w p (some v.toNat))
    else (s, judge w.toNat g.w p none)

/-- The gang runs the instruction at which it stands. -/
def runInstr (s : State) (g : Group) (p : Path) (hdr : Nat) (h : IWord) (pc : Nat) : Result :=
  let va := fun (off : Nat) => p.code.kbase + BitVec.ofNat 64 (4 * off)
  match findInstr s s.cur g p hdr h pc with
  | (s, .ok opc i) => if classOk (hEcl h) opc (pc == hdr + hCount h) i then exec i s else trapWhole s g p cILLCLASS
  | (s, .ill) => trapWhole s g p cILLOP
  | (s, .fault off c) => trapOut s g p { p.trapRec cXLATE with code := c, addr := va off }
  | (s, .poison off) => trapOut s g p { p.trapRec cPOISON with addr := va off }
  | (s, .stage2 off) => .next (parkStage2 s s.cur g s.path p (va off))
  | (s, .wait) => stallWith s 5

/-! ### One gang's attempt (R33, R169, R171, R283) -/

/-- What a parked gang waits for has come about. -/
inductive Wake where
  | asleep
  /-- the instruction runs again -/
  | again
  /-- waitb or bar returns -/
  | back (clu : Bool)
  deriving DecidableEq, Repr

/-- DESIGN CHOICE (log entry 21). -/
def wakeOf (s : State) (g : Group) (p : Path) : Park → Wake
  | .waitf m => if !g.anyFlag m || (findReport g p fun r => r.inFlags m).isSome then .again else .asleep
  | .waitc c n => if decide (g.counter c ≤ n) || (findReport g p fun r => r.inCtr g c n).isSome then .again else .asleep
  | .barrier clu id gen => if gen < genOf s g clu id then .back clu else .asleep
  | .early clu id gen => if gen < genOf s g clu id then .again else .asleep
  | .waitv .. | .line .. | .vopen .. | .regang | .heldTrap | .stage2 .. => .asleep

/-- What a gang did with its opportunity. -/
inductive Tried where
  /-- it could not issue -/
  | idle (s : State)
  /-- it reached or entered a unit, or entered a trap: no instruction issued -/
  | moved (r : Result)
  /-- an instruction issued -/
  | issued (i : Option Instr) (r : Result)

/-- The instruction that a gang is at, for the counters. -/
def instrAt (s : State) (k : Nat) (g : Group) (p : Path) : Option Instr :=
  match p.spot with
  | .boundary _ => none
  | .inside hdr h pc => match (findInstr s k g p hdr h pc).2 with | .ok _ i => some i | _ => none

/-- A result is a stall. -/
def stalled : Result → Bool
  | .next t => t.stall.isSome
  | .fault _ | .refused _ => false

def stateOf (s : State) : Result → State
  | .next t => t
  | .fault _ | .refused _ => s

/-- The stall of gang pi's attempt is noted (R328, R333). -/
def noteTry (s : State) (k pi code : Nat) : State :=
  { s with groups := tmod s.groups k fun g => { g with tried := tput g.tried pi (code, s.clk) } }

/-- A stalled attempt. -/
def stallOf (s : State) (k pi : Nat) (r : Result) : Tried := let t := stateOf s r; .idle (noteTry t k pi (t.stall.getD 5))

/-- The step's marks for gang pi of group k. -/
def aim (s : State) (k pi : Nat) : State := { s with cur := k, path := pi, stall := none, yielded := false }

/-- A gang still waits for the entry of its trap: a read of the entry's has to be answered, or its page is being moved. -/
def entryWaits (s : State) (k pi : Nat) : Bool :=
  match (tget s.groups k).bind fun g => g.path pi with
  | some p => p.trap.isSome && p.park.isNone
  | none => false

/-- The gang, which has only entered a clause or a handler, passed a pool or come back from a barrier, could not issue its next
instruction now: its group is not ready by that (R283). -/
def nextStall : Nat → State → Option Result
  | 0, _ => none
  | n + 1, s =>
    match curGang s with
    | some (g, p) => (match p.park, p.trap, p.spot with
      | none, none, .inside hdr h pc => let r := runInstr s g p hdr h pc; if stalled r then some r else none
      | none, none, .boundary _ =>
        if p.stop == .stopped then none
        else
          let r := exec .unitBoundary s
          if stalled r then some r else nextStall n (stateOf s r)
      | _, _, _ => none)
    | none => none

/-- A gang that has moved on without an issue. -/
def movedOn (k pi : Nat) (s : State) (r : Result) : Tried :=
  match nextStall 8 (stateOf s r) with
  | some q => stallOf (stateOf s r) k pi q
  | none => .moved r

/-- An unparked gang. -/
def tryGang (s : State) (k pi : Nat) (g : Group) (p : Path) : Tried :=
  match p.trap with
  | some t =>
    if lowHeld g then .idle s
    else
      let s := takeTrap s k (g.setPath pi (some { p with trap := none })) pi { p with trap := none } t
      if entryWaits s k pi then .idle s else movedOn k pi s (.next s)
  | none =>
    match p.spot with
    | .boundary _ =>
      let r := exec .unitBoundary s
      if stalled r then stallOf s k pi r
      else
        let t := stateOf s r
        if entryWaits t k pi then .idle t else movedOn k pi s r
    | .inside hdr h pc =>
      let r := runInstr s g p hdr h pc
      if stalled r then stallOf s k pi r else .issued (instrAt s k g p) r

/-- One gang's attempt to issue. -/
def attempt (s : State) (k pi : Nat) : Tried :=
  let s := aim s k pi
  match curGang s with
  | none => .idle s
  | some (g, p) =>
    if p.stop == .stopped || p.latched then .idle s
    else match blockState s k g pi with
    | .bad => .moved (.next (escalate s k))
    | .wait => .idle s
    | .ok | .fault _ | .poison | .stage2 =>
      match p.park with
      | none => tryGang s k pi g p
      | some pk =>
        match wakeOf s g p pk with
          | .asleep => .idle s
          | .back clu => movedOn k pi s (barrierReturn clu s g p)
          | .again =>
            let p := { p with park := none }
            let g := g.setPath pi (some p)
            tryGang (putGroup s k g) k pi g p

/-! ### A group's opportunity (R22, R287) -/

/-- Path indices in round-robin order after the gang that issued last. DESIGN CHOICE (log entry 5).
DEDUCED (log entry 17). -/
def gangOrder (last : Nat) : List Nat := (List.range 16).map fun i => (last + 1 + i) % 16

/-- The first gang of a list that can go on; the state keeps what the stalled attempts left. -/
def firstGang (k : Nat) : List Nat → State → State × Option (Nat × Tried)
  | [], s => (s, none)
  | pi :: t, s =>
    match attempt s k pi with
    | .idle s => firstGang k t s
    | r => (s, some (pi, r))

/-- DEDUCED (log entry 17). -/
def tryGroup (s : State) (k : Nat) : State × Option (Nat × Tried) :=
  match tget s.groups k with
  | some g => firstGang k (gangOrder g.last) s
  | none => (s, none)

def isReady (s : State) (k : Nat) : Bool := (tryGroup s k).2.isSome

/-- The slots of a scheduler. DEDUCED (log entry 17). -/
def slotsOf (n : Nat) : List Nat := (List.range 8).map fun i => 8 * n + i

/-- Another group of the scheduler, firmware apart, is ready. -/
def otherReady (s : State) (c n slot : Nat) : Bool :=
  (slotsOf n).any fun t => t != slot && t != 31 && isReady s (c * 32 + t)

/-- Every vector register that the instruction read was U, and it wrote none or a U result (R24). -/
def scalarPath (g0 g1 : Group) (i : Instr) : Bool :=
  let l := namedRegs g0.w i
  (l.drop 1).all (fun r => (g0.reg r).val.isUni) &&
    (l.take 1).all fun r => (g1.reg r).val.isUni || ((g0.reg r).val.isUni && (g1.reg r).val == .dead)

/-- Counters of R328 for an issued instruction. -/
def countIssue (s : State) (k : Nat) (g0 : Group) (i : Instr) : State :=
  let c := coreOf k
  let s := countEvent s c 2 1
  let opc := match encode i with | w :: _ => opcOf w | [] => 0
  let s := if opc < 0x42 && (match tget s.groups k with | some g1 => scalarPath g0 g1 i | none => false) then countEvent s c 3 1 else s
  let s := if opc = 0x78 || opc = 0x79 then countEvent s c 4 1 else s
  match i with
  | .copy .. | .copyg .. => countEvent s c 5 1
  | _ => s

/-- After an issue: the gang issued last, and the watchdog count (R22, R287). -/
def afterIssue (s : State) (k pi : Nat) (other : Bool) : State :=
  match tget s.groups k with
  | none => s
  | some g =>
    let counted := other && !s.yielded && slotOf k != 31
    let g := { g with last := pi, wcount := if counted then g.wcount + 1 else g.wcount, wlast := if counted then pi else g.wlast,
                      tried := tput g.tried pi (0, s.clk) }
    let s := putGroup s k g
    if counted then raiseWatchdog s k g else s

/-! ### Turns (R283, R284) -/

def schedOf (s : State) (j : Nat) : Sched := (s.scheds[j]?).getD Sched.reset
def setSched (s : State) (j : Nat) (x : Sched) : State := if h : j < 256 then { s with scheds := s.scheds.set j x h } else s

/-- A turn ends: writes to the watchdog limits take effect (R286). -/
def endTurn (s : State) (j : Nat) (byYield : Bool) : State :=
  let x := schedOf s j
  match x.turn with
  | some t => setSched s j { x with turn := none, issues := 0, lastSlot := t, yielded := byYield,
                                    wdexp := vmap (fun (t : Tcb) => t.wdexp) s.tcbs }
  | none => s

/-- Slots of a scheduler in order after the one whose turn ended. -/
def slotOrder (n last : Nat) : List Nat := (List.range 8).map fun i => 8 * n + (last + 1 + i) % 8

def creditOf (x : Sched) (ten : Nat) : Int := (x.credit[ten]?).getD 0

def tenOf (s : State) (k : Nat) : Nat := match tget s.groups k with | some g => g.ten | none => 0

/-- Refills that give tenancy t credit: the least n with credit + n × ISHARE × 64 > 0. -/
def refillsFor (s : State) (x : Sched) (ten : Nat) : Nat :=
  let c := creditOf x ten
  if 0 < c then 0 else (-c).toNat / ((tcbOf s ten).ishare * 64) + 1

/-- Every tenancy's credit is raised n times by ISHARE × 64, capped there (R284 step 3). -/
def refill (s : State) (j n : Nat) : State :=
  let x := schedOf s j
  setSched s j { x with credit := if n = 0 then x.credit else Vector.mk ((List.range 32).map fun t =>
    let q : Int := (tcbOf s t).ishare * 64
    min q (creditOf x t + n * q)).toArray (by simp) }

/-- The ready slots of a list; stalled attempts leave what they leave. -/
def readySlots (c : Nat) : List Nat → State → State × List Nat
  | [], s => (s, [])
  | n :: t, s =>
    match tryGroup s (c * 32 + n) with
    | (s', none) => readySlots c t s'
    | (_, some _) => let (s, l) := readySlots c t s; (s, n :: l)

/-- The next turn's slot among ready ones: firmware first, then by credit, refilled as often as it takes. -/
def pickReady (s : State) (j c : Nat) (l : List Nat) : State × Option Nat :=
  if l.contains 31 then (s, some 31)
  else
    match l.map fun n => refillsFor s (schedOf s j) (tenOf s (c * 32 + n)) with
    | [] => (s, none)
    | x :: xs =>
      let s := refill s j (xs.foldl min x)
      (s, l.find? fun n => 0 < creditOf (schedOf s j) (tenOf s (c * 32 + n)))

/-- The slot that takes the next turn of scheduler n of core c, if any of its groups is ready. -/
def chooseSlot (s : State) (c n : Nat) : State × Option Nat :=
  let j := c * 4 + n
  let x := schedOf s j
  let (s, l) := readySlots c (slotOrder n (x.lastSlot % 8)) s
  let others := if x.yielded then l.filter (· != x.lastSlot) else l
  pickReady s j c (if others.isEmpty then l else others)

/-- The group at a slot goes on: its issue is charged, and its turn ends where it yielded, parked or exited.
DEDUCED (log entry 64). -/
def runSlot (s : State) (c n slot : Nat) : Result :=
  let j := c * 4 + n
  let k := c * 32 + slot
  match tryGroup s k with
  | (s, none) => .next s
  | (_, some (_, .idle s)) => .next s
  | (_, some (_, .moved r)) => (match r with
    | .next t => .next (if t.yielded then endTurn t j true else t)
    | .fault f => .fault f
    | .refused f => .refused f)
  | (s0, some (pi, .issued i r)) =>
    match r with
    | .fault f => .fault f
    | .refused f => .refused f
    | .next t =>
      let other := otherReady s0 c n slot
      let t := match i, tget s0.groups k with
        | some i, some g => countIssue t k g i
        | _, _ => t
      let t := afterIssue t k pi other
      let x := schedOf t j
      let ten := tenOf s0 k
      let x := { x with issues := x.issues + 1,
                        credit := if h : ten < 32 then (if slot = 31 then x.credit else x.credit.set ten (x.credit[ten] - 1) h) else x.credit }
      let t := setSched t j x
      let gone := match tget t.groups k with | some g => g.exited | none => true
      .next (if t.yielded || gone || (slot = 31 && decide (256 ≤ x.issues)) then endTurn t j t.yielded else t)

/-- An issue opportunity of scheduler n of core c. A part that has stopped, and a lost core, issue nothing.
DEDUCED (log entry 20). -/
def issueStep (c n : Nat) (s : State) : Result :=
  if 64 ≤ c || 4 ≤ n || s.stopped || (coreAt s c).lost then .next s
  else
    let j := c * 4 + n
    match (schedOf s j).turn with
    | some t =>
      if isReady s (c * 32 + t) then runSlot s c n t
      else
        let s := endTurn (tryGroup s (c * 32 + t)).1 j false
        match chooseSlot s c n with
        | (s, some t) => runSlot (setSched s j { schedOf s j with turn := some t, issues := 0 }) c n t
        | (s, none) => .next s
    | none =>
      match chooseSlot s c n with
      | (s, some t) => runSlot (setSched s j { schedOf s j with turn := some t, issues := 0 }) c n t
      | (s, none) => .next s

/-! ### Time and its counters -/

def groupsOn (s : State) (c : Nat) : List (Nat × Group) := s.groups.filter fun (k, _) => coreOf k = c

/-- Gangs of a group that are parked, a stopped one among them. -/
def parkedGangs (g : Group) : Nat :=
  (g.paths.toList.filter fun p => match p with | some p => p.park.isSome || p.stop == .stopped | none => false).length

/-- Gangs of a group that could not issue now, and are not parked; one that only lacks its group's turn is ready (R283). -/
def stalledGangs (s : State) (k : Nat) (g : Group) : Nat :=
  ((List.range 16).filter fun i => match g.path i with
    | some p => p.park.isNone && p.stop != .stopped && (match attempt s k i with | .idle _ => true | .moved _ | .issued _ _ => false)
    | none => false).length

/-- A counter of a core counts an event. -/
def counts (s : State) (c code : Nat) : Bool := (List.range 8).any fun i => bits (obsOf s c).cntsel.toNat (8 * i + 7) (8 * i) = code

/-- Operations of a group whose accesses wait at the Trellis. -/
def trellisWaits (s : State) (k : Nat) (g : Group) : Nat :=
  (g.ops.filter fun o => !o.done && (match o.view with | some (_, v) => !granted s k v | none => false)).length

/-- DESIGN CHOICE (log entry 3). -/
def countCycles (n : Nat) (s : State) (c : Nat) : State :=
  if (obsOf s c).cntsel == 0 then s
  else
    let gs := groupsOn s c
    let s := countEvent s c 1 n
    let s := if counts s c 6 then countEvent s c 6 (n * (gs.foldl (fun m (k, g) => m + stalledGangs s k g) 0)) else s
    let s := countEvent s c 7 (n * (gs.foldl (fun m (_, g) => m + parkedGangs g) 0))
    let s := countEvent s c 12 (n * (gs.foldl (fun m (k, g) => m + trellisWaits s k g) 0))
    if (s.domains[c]?).any fun d => d.stretched then countEvent s c 11 n else s

/-- Time advances by a ns and b core cycles; a rate that is due takes effect (R228). DESIGN CHOICE (log entry 3). -/
def advance (s : State) (a b : Nat) : State :=
  let s := applyRate { s with time := s.time + a, clk := s.clk + b }
  if s.obs.toList.all (fun o => o.cntsel == 0) then s else (List.range 64).foldl (countCycles b) s

/-! ### Events -/

/-- What a part that has stopped still does: management, resets and bring-up, its regulators and its ports' counts (R315, R339,
R344). DEDUCED (log entry 20). -/
def afterStop : Instr → Bool
  | .mgmtRegRead .. | .mgmtRegWrite .. | .mgmtMemWrite .. | .createQueue .. | .restartq .. | .loadKey .. | .registerPeer ..
  | .registerCommunicator .. | .publishCosts .. | .tenancyReset .. | .tenancyFreeze .. | .regulatorPhaseFailure ..
  | .frameRead .. | .frameWrite .. | .frameAtomic .. | .frameResp .. | .frameNote .. | .frameCcol .. | .transportLossReport ..
  | .dumpRequest .. | .wbrset .. | .debugStop .. | .debugResume ..
  | .debugStep .. | .warmReset | .coldBoot .. | .port0Training | .rateTick .. | .clockStretch .. | .clockStretchEnd ..
  | .opMoveComplete .. | .laneChangeComplete .. | .notificationSend .. => true
  | _ => false

/-- A step of the part that is no gang's: an instruction word, or a gang's unit boundary, is never an event. -/
def isEvent : Instr → Bool
  | .unitBoundary => false
  | i => !i.encoded

/-- A gang of the group has parked, or stopped, that had not before. -/
def newlyParked (g0 : Option Group) (g : Group) : Bool :=
  (List.range 16).any fun i => match g.path i with
    | some p => (p.park.isSome || p.stop == .stopped) && (match g0.bind fun g => g.path i with
      | some q => q.park.isNone && q.stop != .stopped
      | none => true)
    | none => false

/-- A park that a step of the part's brings about ends the turn of its group, as a yield (R33, R283). -/
def parkedTurns (s t : State) : State :=
  if !t.yielded then t
  else t.groups.foldl (fun t (k, g) =>
    let j := coreOf k * 4 + slotOf k / 8
    if (schedOf t j).turn == some (slotOf k) && newlyParked (tget s.groups k) g then endTurn t j true else t) t

/-- What a step of the part's leaves. -/
def partStep (f : State → Result) (s : State) : Result :=
  let s := { s with stall := none, yielded := false }
  match f s with
  | .next t => .next (parkedTurns s t)
  | .fault x => .fault x
  | .refused x => .refused x

/-- DESIGN CHOICE (log entry 19). DESIGN CHOICE (log entry 1). -/
def eventStep (i : Instr) (s : State) : Result :=
  if isEvent i && (!s.stopped || afterStop i) then partStep (exec i) s else .next s

/-- One chosen move. DESIGN CHOICE (log entry 1). DEDUCED (log entry 69). DESIGN CHOICE (log entry 71). -/
def act : Actor → State → Result
  | .issue c n, s => issueStep c n s
  | .event i, s => eventStep i s
  | .perform g op k, s => .next (if s.stopped then s else performOne s g op k)
  | .unit g op, s => .next (if s.stopped then s else match liveCopy s g op with | some (gr, o) => if copyTurn gr o then copyOne s g op else s | none => s)
  | .tlbi id, s => .next (tlbiEffect s id)
  | .dropRead c l, s => .next { s with rcache := s.rcache.filter fun x => !(x.core == c && x.line == l) }
  | .dropCode c l, s => .next { s with icache := s.icache.filter fun x => !(x.core == c && x.line == l) }
  | .dropRec g l, s => .next (match tget s.groups g with | some x => putGroup s g { x with recs := tdel x.recs l } | none => s)
  | .dropTlb d t b, s => .next { s with tlb := s.tlb.filter fun e => !(e.die == d && e.ten == t && e.base == b),
                                        nonleafs := s.nonleafs.filter fun e => !(e.die == d && e.ten == t && e.base == b),
                                        s2held := s.s2held.filter fun e => !(e.die == d && e.ten == t && e.base == b),
                                        rwaits := s.rwaits.filter fun r => !(r.who == .walk t && r.pa == b && r.ans.isSome) }
  | .pass ns, s => .next (advance s ns ns)

/-! ### The default rule -/

/-- Schedulers with a resident group, in order. DESIGN CHOICE (log entry 2). -/
def busyScheds (s : State) : List Nat := s.groups.foldl (fun l (k, _) => sadd l (coreOf k * 4 + slotOf k / 8)) []

/-- A step of the part, as a function. -/
abbrev Stepper := State → Result

/-- Steps of one group. -/
def groupMoves (k : Nat) (g : Group) : List Stepper :=
  [execRegangMerge k, execHeldTrapEntry k, execMatrixBatchComplete k] ++
  ((List.range 16).filter fun i => (g.path i).isSome).flatMap (fun i =>
    [execTrapEntry k i, execAbsentLineResume k i, execWaitvRecheck k i, execVopenReexecute k i]) ++
  (g.ops.filter fun o => !o.done).map fun o => match o.cls with
    | .mem => execMemOpComplete k o.id
    | .mat => execMatrixOperationComplete k o.id
    | .copy => execCopyComplete k o.id
    | .coll => execCcolComplete k o.id
    | .cov => execStcovPerform k o.id

/-- Barriers in which some group of a team has arrived. -/
def barrierMoves (s : State) (tid : Nat) (t : Team) : List Stepper :=
  (List.range 32).filterMap fun i =>
    if (teamGroups s t).any fun g => g.lastArrival i != 0 then
      some (execBarrierGenerationComplete (decide (16 ≤ i)) tid (BitVec.ofNat 4 i))
    else none

def teamMoves (s : State) (tid : Nat) (t : Team) : List Stepper :=
  barrierMoves s tid t ++ [execTeamEnd tid] ++ (match t.mode with
    | .running => []
    | .asked _ => [execPreemptSave tid, execPreemptWithdraw tid]
    | .saved _ => [execTeamResume tid])

/-- The step of a packet, by its TYPE. -/
def packetMove (q : Nat) (f : Flight) : Stepper :=
  if f.started && pType f.bytes == 1 then execPacketComplete q f.index
  else match pType f.bytes with
    | 1 => execLaunchPacket q f.index
    | 2 => execBarrierPacket q f.index
    | 3 => execSignalPacket q f.index
    | 4 => execIndirectPacket q f.index
    | 5 => execPredicatePacket q f.index
    | 6 => execLoopPacket q f.index
    | 7 => execFetchFencePacket q f.index
    | _ => execPacketComplete q f.index

def queueMoves (n : Nat) (q : Queue) : List Stepper :=
  execQueuePoll n :: (q.flights.filter fun f => !f.finished).map (packetMove n)

def launchMoves (lid : Nat) (l : Launch) : List Stepper :=
  [execDependentTeamDispatch lid, execTeamPlacement lid, execHeadAged lid] ++
  (match l.cov with | some c => c.finished.map (execGleanerReconstruct lid) | none => [])

/-- Moves of operating points and lanes that are due. -/
def dueMoves (s : State) : List Stepper :=
  (s.cores.toList.zipIdx.filterMap fun (k, c) => match k.move with
    | some (_, t) => if t ≤ s.time then some (execOpMoveComplete c) else none
    | none => none) ++
  (s.ports.toList.zipIdx.filterMap fun (p, i) => match p.change with
    | some (_, t) => if t ≤ s.time then some (execLaneChangeComplete i) else none
    | none => none)

def obsMoves (s : State) : List Stepper :=
  s.obs.toList.zipIdx.flatMap fun (o, c) =>
    (if o.en then [execTraceSyncPoint c, execTraceLossWrite c] else []) ++ (if o.smen then [execStallSample c] else [])

/-- The steps that the part takes on its own. DESIGN CHOICE (log entry 2). -/
def ownMoves (s : State) : List Stepper :=
  (s.tlbis.filter fun t => t.effect.isNone).map (fun t s => Host.Outcome.next (tlbiEffect s t.id)) ++
    dueMoves s ++ (s.groups.flatMap fun (k, g) => groupMoves k g) ++ (s.teams.flatMap fun (t, x) => teamMoves s t x) ++
    (s.launches.flatMap fun (l, x) => launchMoves l x) ++ [execTicketClaim] ++ (s.queues.flatMap fun (n, q) => queueMoves n q) ++
    (s.moves.map fun (n, _) => execPageMigration n) ++ obsMoves s ++
    ((List.range 32).filter fun t => s.notes.any fun x => x.ten = t).map execNotificationSend

/-- A result other than the same state. -/
def changes (s : State) : Result → Bool
  | .next t => t != s
  | .fault _ | .refused _ => false

/-- The first of the part's own steps that changes the state; a part that has stopped takes none. DEDUCED (log entry 20). -/
def ownMove (s : State) : Option Result :=
  if s.stopped then none
  else
    let s := { s with stall := none, yielded := false }
    (ownMoves s).findSome? fun f => let r := partStep f s; if changes s r then some r else none

/-- The default rule: schedulers in turn, and between them the part's own steps. DESIGN CHOICE (log entry 2). -/
def defaultStep (s : State) : Result :=
  let busy := busyScheds s
  let j := match busy.find? fun j => decide (s.cursor / 2 ≤ j) with | some j => some j | none => busy.head?
  if s.cursor % 2 = 1 then
    let s := { s with cursor := s.cursor - 1 }
    (ownMove s).getD (.next s)
  else
    match j with
    | some j => issueStep (j / 4) (j % 4) { s with cursor := (j + 1) * 2 + 1 }
    | none => .next { s with cursor := 1 }

/-! ### What waits for no choice: bounded times (R288, R295, R310) and work that an earlier step left -/

/-- A move that must be made within `bound` ns of the TIME at which it can first be made. -/
structure Bounded where
  key   : List Nat
  bound : Nat
  move  : Stepper

/-- The wake-ups of a group's gangs (R288). -/
def wakes (k : Nat) (g : Group) : List Bounded :=
  (if g.paths.toList.any fun p => match p with | some p => atRegang p | none => false then [⟨[0, k], 200, execRegangMerge k⟩] else []) ++
  (List.range 16).filterMap fun i => match (g.path i).bind (·.park) with
    | some (.line _) => some ⟨[1, k, i], 200, execAbsentLineResume k i⟩
    | some (.waitv ..) => some ⟨[2, k, i], 1000, execWaitvRecheck k i⟩
    | some (.vopen ..) => some ⟨[3, k, i], 200, execVopenReexecute k i⟩
    | _ => none

/-- Barrier generations of a team. -/
def barrierWakes (s : State) (tid : Nat) (t : Team) : List Bounded :=
  (List.range 32).filterMap fun i =>
    if (teamGroups s t).any fun g => g.lastArrival i != 0 then
      some ⟨[4, tid, i], 200, execBarrierGenerationComplete (decide (16 ≤ i)) tid (BitVec.ofNat 4 i)⟩
    else none

/-- The bounded moves that may become possible. DESIGN CHOICE (log entry 21). -/
def boundeds (s : State) : List Bounded :=
  (s.groups.flatMap fun (k, g) => wakes k g) ++ (s.teams.flatMap fun (t, x) => barrierWakes s t x) ++
    (if s.tickets.isEmpty then [] else [⟨[5], 1000, execTicketClaim⟩])

/-- A bounded move can be made: for a waitv, a read now would see a further lane hold, or end the wait, or has an answer to use or to
ask for (R161). -/
def canMove (s : State) (b : Bounded) : Bool :=
  let r := b.move { s with stall := none, yielded := false }
  match b.key with
  | [2, k, i] =>
    let park (s : State) : Option Park := ((tget s.groups k).bind fun g => g.path i).bind (·.park)
    park (stateOf s r) != park s || (stateOf s r).rwaits != s.rwaits
  | _ => changes { s with stall := none, yielded := false } r

/-- The TIMEs at which moves of the part's are due: ticks of the Weighbridge, whose power is the model's where no event has brought
one (R228), polls, the readings of barriers, the ends of pre-emption requests (R293), notifications, and moves of operating points
and lanes. DESIGN CHOICE (log entry 18). -/
def dues (s : State) : List (Nat × Stepper) :=
  ((s.wb.tick + 1) * 1000 + 249, execRateTick (Config.power s.wb.tick)) ::
  (s.queues.filterMap fun (n, q) => if scanned s q then some (if q.polling then q.due else max q.due s.nextPoll, execQueuePoll n) else none) ++
    (s.queues.flatMap fun (n, q) => (q.flights.filter fun f => pType f.bytes == 2 && f.due != 0 && myTurn q f).map fun f =>
      (f.due, execBarrierPacket n f.index)) ++
    (s.teams.flatMap fun (i, t) => match t.mode with
      | .asked x => [(x + s.prelim * 1000, execPreemptSave i), (x + s.prelim * 1000, execPreemptWithdraw i)]
      | .running | .saved _ => []) ++
    ((List.range 32).filterMap fun t => (s.notes.find? fun x => x.ten = t).map fun x => (x.time + (tcbOf s t).ncoal * 1000, execNotificationSend t)) ++
    (s.cores.toList.zipIdx.filterMap fun (k, c) => k.move.map fun (_, t) => (t, execOpMoveComplete c)) ++
    (s.ports.toList.zipIdx.filterMap fun (p, i) => p.change.map fun (_, t) => (t, execLaneChangeComplete i))

/-- When each bounded move that can be made now could first be made. -/
def waitTimes (s : State) (l : List Bounded) : List (List Nat × Nat) :=
  l.map fun b => (b.key, match s.waits.find? fun w => w.1 == b.key with | some w => w.2 | none => s.time)

/-- A move whose time has come. DESIGN CHOICE (log entry 21). -/
def overdue (s : State) (l : List Bounded) : Option Stepper :=
  match l.find? fun b => s.waits.any fun w => w.1 == b.key && decide (w.2 + b.bound ≤ s.time) with
  | some b => some b.move
  | none => ((dues s).find? fun d => decide (d.1 ≤ s.time) && changes s (d.2 s)).map (·.2)

/-- How far TIME may go before the next of these moves has to be made. DESIGN CHOICE (log entry 3). -/
def timeRoom (s : State) (l : List Bounded) (n : Nat) : Nat :=
  let n := l.foldl (fun n b => match s.waits.find? fun w => w.1 == b.key with | some w => min n (w.2 + b.bound - s.time) | none => n) n
  (dues s).foldl (fun n d => if s.time < d.1 then min n (d.1 - s.time) else if changes s (d.2 s) then 0 else n) n

/-- Work that an earlier step left: the reset of a tenancy after an error of class 4 (R315), messages that waited for a line or
a move, the gangs at their eligible points (R34), and management messages in the order of their arrival (R341). DESIGN CHOICE (log entry 1). -/
def leftWork (s : State) : State :=
  let s := s.doomed.foldl (fun s (ten, pa) => logError (resetTenancy s ten) 4 (srcOf pa) ((homeNum pa).getD 0) ten 6 pa 0)
    { s with doomed := [] }
  let s := (s.resets.filter fun r => !r.2).foldl (fun s r => goReset s r.1) s
  let s := (s.queues.filter fun x => x.2.cleared && !unacked s (.queue x.1)).foldl retryQueue s
  let s := if s.stopped || s.held.isEmpty then s else retryFrames s
  let s := if s.leaving.isEmpty then s else s.leaving.foldl dropChannel s
  let s := if s.stopped || s.groups.all (fun (_, g) => !asked s g) then s else latchAsked s
  if s.mgmtq.isEmpty then s else drainMgmt s.mgmtq s

/-- Samples and sync points of trace streams that have fallen (R332, R333). -/
def dueSyncs (s : State) : State :=
  if s.obs.toList.all fun o => !o.en && !o.smen then s
  else (List.range 64).foldl (fun s c => sampleStep (if (obsOf s c).en then traceSync s c else s) c) s

/-- Cycles until the next sync point or sample of any core, of n at the most. -/
def cycleRoom (s : State) (n : Nat) : Nat :=
  s.obs.toList.foldl (fun n o =>
    let n := if o.en then min n (max 1 (o.sinceCyc + 4096 - s.clk)) else n
    if o.smen then min n (2 ^ o.sper - s.clk % 2 ^ o.sper) else n) n

/-- A step of the part's takes a cycle of its own, so that the packets of a core's streams have one order (R330). -/
def nextCycle (s : State) : State := dueSyncs (advance s 0 1)

/-- One move that cannot wait longer, and the times of those that can. DESIGN CHOICE (log entry 1). -/
def settleDue (s : State) : State × List Bounded :=
  if s.stopped then (s, [])
  else
    let l := (boundeds s).filter (canMove s)
    let s := { s with waits := waitTimes s l }
    match overdue s l with
    | some f =>
      let s := nextCycle s
      let s := stateOf s (partStep f s)
      let l := (boundeds s).filter (canMove s)
      ({ s with waits := waitTimes s l }, l)
    | none => (s, l)

/-- TIME passes by up to n ns, and up to m cycles, no further than the next move or sample that is due.
DESIGN CHOICE (log entry 3). -/
def passTime (s : State) (l : List Bounded) (n m : Nat) : State :=
  let c := cycleRoom s m
  let n := if c = m then n else n * c / m
  dueSyncs (advance s (if s.stopped then n else timeRoom s l n) c)

/-- A step: what cannot wait is done, time advances by the pace, and the agenda's next move is made, or the default rule's.
An event takes a cycle and no time, and two issues never share a cycle (R330). DESIGN CHOICE (log entry 1). -/
def takeStep (s : State) : Result :=
  let (s, l) := settleDue (leftWork s)
  match s.agenda with
  | .event i :: t => eventStep i (nextCycle { s with agenda := t })
  | .pass ns :: t => .next (passTime { s with agenda := t } l ns ns)
  | a :: t => act a (passTime { s with agenda := t } l s.pace (max 1 s.cpace))
  | [] => defaultStep (passTime s l s.pace (max 1 s.cpace))

/-! ### A loaded program of one instruction -/

/-- A minimal kernel descriptor: one group of W = 64 with every register. DESIGN CHOICE (log entry 62). -/
def seedDesc (kbase : Word) : KDesc :=
  { kbase := kbase, klen := 16, w := 64, allot := 64, budget := 2048, teamg := 1, pair := false, fpinv := false, cluster := 1, acc := 8,
    producer := 0, silo := 0, spill := 0, tbase := 0, trampn := 0, arglen := 0, sppool := 0, sppooln := 0, sphand := none }

/-- The launch it belongs to: a grid of one team. -/
def seedLaunch (kbase : Word) (tree : Nat) : Launch :=
  { newLaunch 0 0 0 tree (List.replicate 128 0) false with
    kdesc := some (seedDesc kbase), form := 0, gx := 1, gy := 1, gz := 1, next := 1, total := 1, liveTeams := 1,
    started := true, finished := true }

def seedTeam (lid : Nat) (s : State) : Team :=
  { launch := lid, index := 0, tx := 0, ty := 0, tz := 0, clu := 0, crank := 0, cores := [0], gkeys := [0], win := 0, winLen := 0,
    spb := 0, spblk := 0, block := 0, mode := .running, saved := [], tiles := freshTiles s.free, bars := Vector.replicate 16 0,
    effects := false, redispatched := 0, ended := false }

/-- A clause header for one instruction: SETA and SETB none, TGT set. -/
def seedHeader (opc len : Nat) : IWord := BitVec.ofNat 32 (len * 0x10000000 + eclOf opc * 0x2000000 + 15 * 512 + 15 * 32 + 8)

/-- Its code starts with HBM, at a VA of the model's own. -/
def seedPa : Nat := hbmBase
def seedVa : Nat := 0x10000

/-- The page's TLB entry. -/
def seedTlb : TlbEntry :=
  { die := 0, ten := 0, base := seedVa, size := 65536, code := 0, x := { Xlate.none with pa := seedPa },
    ex := true, wr := false, rd := true, usr := true, ex2 := true, wr2 := true, rd2 := true }

/-- Header and instruction, padded to the line. DESIGN CHOICE (log entry 62). -/
def seedLine (nbits w : Nat) : List Byte :=
  let bs := tableBytes nbits w
  let opc := opcOf (wordOfBytes (bs.getD 0 0) (bs.getD 1 0) (bs.getD 2 0) (bs.getD 3 0))
  let long := opcLong opc
  (bytesOfWord (seedHeader opc (if long then 2 else 1)).toNat ++ bs ++ List.replicate 52 0).take 64

/-- The group at its start (R53), its gang at the instruction of its first clause. -/
def seedGroup (s : State) (tid : Nat) (h : IWord) : Group :=
  let g := startGroup s 0 tid 0 (seedDesc (BitVec.ofNat 64 seedVa)) none (Vector.replicate 16 none)
  match g.path 0 with
  | some p => g.setPath 0 (some { p with spot := .inside 0 h 1 })
  | none => g

/-- The state with a one-instruction kernel loaded and resident on core 0, its line and page present for the fetch, and the
next move an issue of its scheduler. DESIGN CHOICE (log entry 62). -/
def seedWord (s : State) (nbits w : Nat) : State :=
  let line := seedLine nbits w
  let h : IWord := BitVec.ofNat 32 (leNat (line.take 4))
  let tid := s.serial
  let kb := BitVec.ofNat 64 seedVa
  { s with
    mem := Memory.setMany s.mem seedPa line,
    tlb := seedTlb :: s.tlb,
    icache := ⟨0, seedPa / 64, keyOf s 0, line⟩ :: s.icache,
    launches := tput s.launches (tid + 1) (seedLaunch kb (tid + 2)),
    trees := tput s.trees (tid + 2) ⟨tid + 1, 1, 0⟩,
    teams := tput s.teams tid (seedTeam (tid + 1) s),
    groups := tput s.groups 0 (seedGroup s tid h),
    serial := tid + 3,
    stopped := false,
    cores := s.cores.set 0 { s.cores[0] with lost := false },
    scheds := s.scheds.set 0 { s.scheds[0] with turn := some 0 },
    agenda := .issue 0 0 :: s.agenda }

end Sys2Proof.Machine
end

