-- ==== Sys2Proof/Machine/Step.lean ====
section
/-! DEFINITION. The step of the machine, and the placing of one instruction where the next step fetches. -/

namespace Sys2Proof.Machine

/-- One step. DESIGN CHOICE (log entry 1). -/
def step (s : State) : Host.Outcome State Fault Refusal := takeStep s

/-- `s` with a one-instruction program loaded, so that the next step runs it. DESIGN CHOICE (log entry 62). -/
def State.withFetchWord (s : State) (nbits w : Nat) : State := seedWord s nbits w

end Sys2Proof.Machine
end

