-- ==== Sys2Proof/Safety.lean ====
section
/-! DEFINITION. What claims about the machine are stated in: when an instruction may run, what it leaves unchanged, what
it writes, and the invariant of every state. -/

namespace Sys2Proof.Machine

/-! ### When an instruction runs -/

/-- The executing gang passes every check of R108 that comes before an instruction's own: its level (R106), pending
writes (R150), the handler's v0 to v3 (R176), held reports (R156), the allotment (R59), uniform-only operands (R57), live
operands (R62) and poisoned registers (R317). -/
structure Clear (u : Use) (s : State) (g : Group) (p : Path) : Prop where
  gang   : curGang s = some (g, p)
  level  : u.priv = true → p.code.level ≠ .user
  settled : ∀ r ∈ u.all, g.isHeld r.toNat = false
  low    : g.handler.isSome = true → g.isHandler s.path = true ∨ ∀ r ∈ u.all, 4 ≤ r.toNat
  report : ∀ q ∈ g.reports, q.mine p ≠ 0 → ∀ r ∈ u.all, q.names r = false
  fits   : u.beyond = false
  range  : ∀ r ∈ u.all, r.toNat < g.allot
  uni    : ∀ r ∈ u.uni, (g.reg r).val.isUni = true
  live   : p.quiet = true ∨ ∀ r ∈ u.rd, ∀ sl < 16, inSlices p.slices sl = true → (g.reg r).live sl = true
  clean  : ∀ r ∈ u.rd, (tget g.rpoison r.toNat).getD 0 &&& p.active = 0

/-- The value of a uniform-only operand (R57): the register's, or 0 where the gang's lowest slice does not hold it, as only
a quiet read may meet it (R62, R64). -/
def uniAt (g : Group) (p : Path) (r : VR) : Word := (g.reg r).src (4 * lowBit 16 p.slices.toNat)

/-! ### What an instruction leaves -/

/-- From s to t the executing gang p has moved past `len` words (R96) and its group g has become g'; the clause's yield
has been taken where it ends here (R98, R168). No other group and no other field of the part has changed. -/
structure Advanced (len : Nat) (s t : State) (g g' : Group) (p : Path) : Prop where
  here   : tget t.groups s.cur = some g'
  others : ∀ k, k ≠ s.cur → tget t.groups k = tget s.groups k
  rest   : t = { s with groups := t.groups, yielded := t.yielded }
  yield  : t.yielded = (s.yielded || p.spot.yieldsAfter len)
  place  : g'.path s.path = some (p.moved (p.spot.after len))
  paths  : ∀ q, q ≠ s.path → g'.path q = g.path q
  count  : g'.wcount = if p.spot.yieldsAfter len then 0 else g.wcount

/-- What a register write of R55, R60 and R63 leaves: in the gang's active lanes register d holds f, with count cc in
every slice of the gang, whatever its EXEC holds; a partial write keeps the other lanes of live slices and clears those of others; a full write
takes the shape `sh` where there is one, and G otherwise. Every other register is as the reads of `u` left it (R61), and
only marks of poisoned lanes that were written are gone (R317). -/
structure Wrote (u : Use) (d : VR) (cc : CC) (sh : Option Shape) (f : Nat → Word) (pi : Nat) (g g' : Group) (p : Path) :
    Prop where
  others : ∀ r, r ≠ d → g'.reg r = (released g p u).reg r
  empty  : p.slices = 0 → g'.reg d = (released g p u).reg d
  lanes  : ∀ l < 64, l / 4 < g.w / 4 → inSlices p.slices (l / 4) = true → bitOf p.active l = true →
             (g'.reg d).live (l / 4) = true ∧ (g'.reg d).val.lane l = f l
  kept   : p.slices ≠ 0 → g.fullWrite pi p d = false → ∀ l < g.w, bitOf p.active l = false →
             (g'.reg d).val.lane l = ((released g p u).reg d).src l
  counts : p.slices ≠ 0 → ∀ sl < 16, nibble (g'.reg d).nib sl =
             if inSlices p.slices sl && decide (sl < g.w / 4) then 8 + cc.toNat else nibble ((released g p u).reg d).nib sl
  shaped : p.slices ≠ 0 → g.fullWrite pi p d = true → ∀ x, sh = some x → (g'.reg d).val = x
  general : p.slices ≠ 0 → (g.fullWrite pi p d = false ∨ sh = none) → (g'.reg d).val.tag = 2
  marks  : twf g.rpoison = true → ∀ r, (tget g'.rpoison r).getD 0 =
             if r = d.toNat then (tget g.rpoison r).getD 0 &&& ~~~p.active else (tget g.rpoison r).getD 0

/-- A group's fields other than its registers, its paths, its watchdog count and its poison marks. -/
def SameButRegs (g g' : Group) : Prop :=
  g' = { g with regs := g'.regs, paths := g'.paths, wcount := g'.wcount, rpoison := g'.rpoison }

/-- The write of `f` with shape `sh` fits the group's register budget (R59). -/
def WithinBudget (u : Use) (d : VR) (cc : CC) (s : State) (g : Group) (p : Path) (sh : Option Shape) (f : Nat → Word) : Prop :=
  overBudget (released g p u) ((released g p u).writeReg s.path p d cc sh f) = false

/-- An instruction that names the registers of `u` and writes f to register d completes wherever its checks pass and
its write fits the budget; the limits on its fields for the group's width hold (R108, R130). -/
def Writes (i : Instr) (u : Use) (d : VR) (cc : CC) (sh : Group → Path → Option Shape) (f : Group → Path → Nat → Word) :
    Prop :=
  ∀ s g p, Clear u s g p → widthOk g.w i = true → WithinBudget u d cc s g p (sh g p) (f g p) →
    ∃ t g', exec i s = .next t ∧ Advanced u.len s t g g' p ∧ SameButRegs g g' ∧ Wrote u d cc (sh g p) (f g p) s.path g g' p

/-! ### Lane values, written over bit vectors (R113 to R122) -/

/-- Two words of a type, by an unsigned and a signed function of bit vectors of its width (R113). -/
def onType (t : IT) (un sn : (w : Nat) → BitVec w → BitVec w → BitVec w) (x y : Word) : Word :=
  match t with
  | .n64 => un 64 x y
  | .s64 => sn 64 x y
  | .n32 => (un 32 (x.setWidth 32) (y.setWidth 32)).setWidth 64
  | .s32 => (sn 32 (x.setWidth 32) (y.setWidth 32)).signExtend 64

/-- Two words of a bitwise type, the result zero-extended (R113). -/
def onBits (t : BT) (f : (w : Nat) → BitVec w → BitVec w → BitVec w) (x y : Word) : Word :=
  match t with
  | .b64 => f 64 x y
  | .b32 => (f 32 (x.setWidth 32) (y.setWidth 32)).setWidth 64

/-- One word of a bitwise type. -/
def onWord (t : BT) (f : (w : Nat) → BitVec w → BitVec w) (x : Word) : Word := onBits t (fun w y _ => f w y) x x

namespace Lane

def add (w : Nat) (x y : BitVec w) : BitVec w := x + y
def sub (w : Nat) (x y : BitVec w) : BitVec w := x - y
def mul (w : Nat) (x y : BitVec w) : BitVec w := x * y
/-- The high half of the exact product. -/
def mulhU (w : Nat) (x y : BitVec w) : BitVec w := ((x.setWidth (2 * w) * y.setWidth (2 * w)) >>> w).setWidth w
def mulhS (w : Nat) (x y : BitVec w) : BitVec w := ((x.signExtend (2 * w) * y.signExtend (2 * w)) >>> w).setWidth w
/-- Division by zero gives all ones. -/
def divU (w : Nat) (x y : BitVec w) : BitVec w := if y = 0 then BitVec.allOnes w else x / y
def divS (w : Nat) (x y : BitVec w) : BitVec w := if y = 0 then BitVec.allOnes w else x.sdiv y
/-- A remainder by zero gives the dividend. -/
def remU (w : Nat) (x y : BitVec w) : BitVec w := if y = 0 then x else x % y
def remS (w : Nat) (x y : BitVec w) : BitVec w := if y = 0 then x else x.srem y
def minU (w : Nat) (x y : BitVec w) : BitVec w := if x.ult y then x else y
def minS (w : Nat) (x y : BitVec w) : BitVec w := if x.slt y then x else y
def maxU (w : Nat) (x y : BitVec w) : BitVec w := if x.ult y then y else x
def maxS (w : Nat) (x y : BitVec w) : BitVec w := if x.slt y then y else x
/-- A sum that overflows stays at the end of the range. -/
def addsU (w : Nat) (x y : BitVec w) : BitVec w := if (x + y).ult x then BitVec.allOnes w else x + y
def addsS (w : Nat) (x y : BitVec w) : BitVec w :=
  if x.msb = y.msb ∧ (x + y).msb ≠ x.msb then (if x.msb then BitVec.intMin w else BitVec.intMax w) else x + y
/-- The carry out of a sum. -/
def addc (w : Nat) (x y : BitVec w) : BitVec w := if (x + y).ult x then 1 else 0

def neg (w : Nat) (x : BitVec w) : BitVec w := -x
def abs (w : Nat) (x : BitVec w) : BitVec w := if x.msb then -x else x
def not (w : Nat) (x : BitVec w) : BitVec w := ~~~x
def popc (w : Nat) (x : BitVec w) : BitVec w := BitVec.ofNat w ((List.range w).countP x.getLsbD)
def clz (w : Nat) (x : BitVec w) : BitVec w := BitVec.ofNat w ((List.range w).takeWhile fun i => !x.getMsbD i).length
def ctz (w : Nat) (x : BitVec w) : BitVec w := BitVec.ofNat w ((List.range w).takeWhile fun i => !x.getLsbD i).length
/-- Bit i moves to bit w − 1 − i. -/
def brev (w : Nat) (x : BitVec w) : BitVec w := x.reverse
/-- Byte i moves to byte w / 8 − 1 − i. -/
def bswap (w : Nat) (x : BitVec w) : BitVec w :=
  (List.range (w / 8)).foldl (fun acc i => acc ||| (x >>> (8 * i) &&& 255#w) <<< (w - 8 - 8 * i)) 0

/-- A shift amount is taken modulo the width. -/
def shl (w : Nat) (x y : BitVec w) : BitVec w := x <<< (y.toNat % w)
def shr (w : Nat) (x y : BitVec w) : BitVec w := x >>> (y.toNat % w)
def sar (w : Nat) (x y : BitVec w) : BitVec w := x.sshiftRight (y.toNat % w)
def rot (w : Nat) (x y : BitVec w) : BitVec w := x.rotateLeft (y.toNat % w)
/-- Two lanes' values combined bit by bit. -/
def and (w : Nat) (x y : BitVec w) : BitVec w := x &&& y
def or (w : Nat) (x y : BitVec w) : BitVec w := x ||| y
def xor (w : Nat) (x y : BitVec w) : BitVec w := x ^^^ y
def andn (w : Nat) (x y : BitVec w) : BitVec w := x &&& ~~~y

/-- The place and the width of the field that B names (R116). -/
def pos (w : Nat) (b : BitVec w) : Nat := (b.toNat % 64) % w
def len (w : Nat) (b : BitVec w) : Nat := min (b.toNat / 256 % 128) (w - pos w b)
/-- A field moved to the top and back down, with or without its sign. -/
def bfxU (w : Nat) (x b : BitVec w) : BitVec w :=
  if len w b = 0 then 0 else (x <<< (w - pos w b - len w b)) >>> (w - len w b)
def bfxS (w : Nat) (x b : BitVec w) : BitVec w :=
  if len w b = 0 then 0 else (x <<< (w - pos w b - len w b)).sshiftRight (w - len w b)
/-- The field's place in D takes A's low bits. -/
def bfi (w : Nat) (y x b : BitVec w) : BitVec w :=
  let m : BitVec w := (1 <<< len w b - 1) <<< pos w b
  (y &&& ~~~m) ||| ((x <<< pos w b) &&& m)

def cmp (r : IRel) (w : Nat) (x y : BitVec w) : Bool :=
  match r with
  | .eq => x == y
  | .ne => x != y
  | .lts => x.slt y
  | .les => x.sle y
  | .ltn => x.ult y
  | .len => x.ule y
/-- 1 where the relation holds, else 0. -/
def icmp (r : IRel) (w : Nat) (x y : BitVec w) : BitVec w := if cmp r w x y then 1 else 0

end Lane

/-- A lane-wise instruction of two operands (R112): its shape and its lanes. -/
def Lane2 (i : Instr) (d a b : VR) (cc : CC) (sh : Shape → Shape → Option Shape) (f : Word → Word → Word) : Prop :=
  Writes i { rd := [a, b], wr := [d], lanewise := true } d cc (fun g p => sh (g.shp p a) (g.shp p b))
    fun g _ l => f (g.val a l) (g.val b l)
/-- One of one operand. -/
def Lane1 (i : Instr) (d a : VR) (cc : CC) (sh : Shape → Option Shape) (f : Word → Word) : Prop :=
  Writes i { rd := [a], wr := [d], lanewise := true } d cc (fun g p => sh (g.shp p a)) fun g _ l => f (g.val a l)
/-- One that reads D too, as one operand field. -/
def Lane3 (i : Instr) (d a b : VR) (cc : CC) (f : Word → Word → Word → Word) : Prop :=
  Writes i { rd := [d, a, b], lanewise := true } d cc (fun g p => uni3 f (g.shp p d) (g.shp p a) (g.shp p b))
    fun g _ l => f (g.val d l) (g.val a l) (g.val b l)

/-- Three words of an integer type, d + a × b. -/
def macTo (t : IT) (z x y : Word) : Word := onType t Lane.add Lane.add z (onType t Lane.mul Lane.mul x y)
/-- D with A's low bits in the field that B names. -/
def bfiTo (t : BT) (y x b : Word) : Word :=
  match t with
  | .b64 => Lane.bfi 64 y x b
  | .b32 => (Lane.bfi 32 (y.setWidth 32) (x.setWidth 32) (b.setWidth 32)).setWidth 64

/-- R56's rows for A-shaped values hold for the 64-bit forms; the 32-bit forms give U from U alone (R123). -/
def wide64 (t : IT) (wide : Shape → Shape → Option Shape) (f : Word → Word → Word) : Shape → Shape → Option Shape :=
  match t with
  | .n64 | .s64 => wide
  | .n32 | .s32 => uni2 f

/-- A register result that no register operand enters lane by lane. -/
def Gives (i : Instr) (u : Use) (d : VR) (cc : CC) (sh : Group → Path → Option Shape) (v : Group → Path → Word) : Prop :=
  Writes i u d cc sh fun g p _ => v g p

/-- A mask result (R125): bits of the lanes of the gang's slices, below W, take f; nothing else of the group changes
but the counts of the registers that `u` reads. -/
def MaskWrites (i : Instr) (u : Use) (d : KR) (f : Group → Path → Nat → Bool) : Prop :=
  ∀ s g p, Clear u s g p →
    ∃ t g', exec i s = .next t ∧ Advanced u.len s t g g' p ∧
      g' = { released g p u with masks := g'.masks, paths := g'.paths, wcount := g'.wcount } ∧
      (∀ k, k ≠ d → g'.mask k = g.mask k) ∧
      ∀ l < 64, bitOf (g'.mask d) l =
        if inSlices p.slices (l / 4) && decide (l < g.w) then f g p l else bitOf (g.mask d) l

/-- The lanes of a gang that an instruction acts in, in increasing order. -/
def activeList (p : Path) : List Nat := (List.range 64).filter (bitOf p.active)

/-- R123: a lane exchange of a U register whose source lanes all lie in the gang's slices gives U. -/
def exchangeShape (g : Group) (p : Path) (a : VR) (src : Nat → Nat) : Option Shape :=
  match g.shp p a with
  | .uni v => if (activeList p).all (fun l => inSlices p.slices (src l / 4)) then some (.uni v) else none
  | .aff _ _ | .gen _ | .dead => none

/-- An instruction whose lanes read register a in other lanes, none of its own or of the gang's among them: it completes where no
source lane is poisoned, and takes POISON for the lanes that read one (R129, R317). -/
def Exchanges (i : Instr) (u : Use) (d a : VR) (cc : CC) (sh : Group → Path → Option Shape) (src : Group → Nat → Option Nat) : Prop :=
  ∀ s g p, Clear u s g p → widthOk g.w i = true →
    let f := fun (l : Nat) => (src g l).elim 0 (g.val a)
    let bad := maskOf lanes64 fun l => bitOf p.active l && (src g l).any (bitOf ((tget g.rpoison a.toNat).getD 0))
    WithinBudget u d cc s g p (sh g p) f →
    (bad = 0 → ∃ t g', exec i s = .next t ∧ Advanced u.len s t g g' p ∧ SameButRegs g g' ∧ Wrote u d cc (sh g p) f s.path g g' p) ∧
    (bad ≠ 0 → exec i s = .next (takeTrap s s.cur (released g p u) s.path p { p.trapRec 0x0F with fault := bad }))

/-- The sum of a register over some of the gang's active lanes (R131). -/
def laneSum (t : IT) (g : Group) (p : Path) (a : VR) (c : Nat → Bool) : Word :=
  ((activeList p).filter c).foldl (fun acc j => onType t Lane.add Lane.add acc (g.val a j)) 0

/-- A register's values over the gang's active lanes, folded by a choice of two (R131). -/
def laneFold (t : IT) (un sn : (w : Nat) → BitVec w → BitVec w → BitVec w) (g : Group) (p : Path) (a : VR) : Word :=
  match activeList p with
  | [] => 0
  | x :: rest => rest.foldl (fun acc j => onType t un sn acc (g.val a j)) (onType t un sn (g.val a x) (g.val a x))

/-- One read of a slice's nibble (R60, R61): a count of 1 to 7 of a LIVE register falls by one, and the last read clears
LIVE; a count of 0 is persistent. -/
def countDown (n : Nat) : Nat := if n < 9 then n else if n = 9 then 0 else n - 1

/-! ### Floating-point results (R132 to R148) -/

/-- A floating-point instruction of flags and words `f` completes where its register write would and, with FSTAT.INVEN
set, no active lane is invalid (R135). FSTAT collects the flags of the lanes written (R134); `f` gives NV in bit 0, DZ in
bit 1, OF in bit 2, UF in bit 3 and NX in bit 4. -/
def FltWrites (i : Instr) (u : Use) (d : VR) (cc : CC) (sh : Group → Path → Option Shape) (f : Group → Nat → Word × BitVec 5) :
    Prop :=
  ∀ s g p, Clear u s g p → WithinBudget u d cc s g p (sh g p) (fun l => (f g l).1) →
    (g.fpinv = false ∨ p.noinv = true ∨ ∀ l < 64, bitOf p.active l = true → (f g l).2.getLsbD 0 = false) →
    ∃ t g', exec i s = .next t ∧ Advanced u.len s t g g' p ∧
      g' = { g with regs := g'.regs, paths := g'.paths, wcount := g'.wcount, rpoison := g'.rpoison, fstat := g'.fstat } ∧
      Wrote u d cc (sh g p) (fun l => (f g l).1) s.path g g' p ∧
      ∀ k < 5, g'.fstat.getLsbD k = (g.fstat.getLsbD k || (activeList p).any fun l => (f g l).2.getLsbD k)

/-- Lanes that would raise NV, with FSTAT.INVEN set: they are not written and raise no flag, the other active lanes are written and
their flags added, the reads count once, and the gang takes FPINV for them; with no lane left nothing is written (R135). -/
def FltTraps (i : Instr) (u : Use) (d : VR) (cc : CC) (sh : Group → Path → Option Shape) (f : Group → Nat → Word × BitVec 5) :
    Prop :=
  ∀ s g p, Clear u s g p → g.fpinv = true → p.noinv = false →
    let bad := maskOf lanes64 fun l => bitOf p.active l && (f g l).2.getLsbD 0
    let done := p.active &&& ~~~bad
    let q := if done = 0 then p else { p with only := some done }
    bad ≠ 0 → WithinBudget u d cc s g q (sh g p) (fun l => (f g l).1) →
    ∃ g', exec i s = .next (takeTrap s s.cur g' s.path p { p.trapRec 0x0B with fault := bad, done := done }) ∧
      (done = 0 → g' = released g p u) ∧
      (done ≠ 0 → g' = { g with regs := g'.regs, rpoison := g'.rpoison, fstat := g'.fstat } ∧
        Wrote u d cc (sh g p) (fun l => (f g l).1) s.path g g' q ∧
        ∀ k < 5, g'.fstat.getLsbD k = (g.fstat.getLsbD k || (activeList q).any fun l => (f g l).2.getLsbD k))

/-- What is said of a floating-point instruction, by its registers, its shape and its lanes. -/
abbrev FltSays := Instr → Use → VR → CC → (Group → Path → Option Shape) → (Group → Nat → Word × BitVec 5) → Prop

/-- Rows of one, two and three operands: U when every operand is U (R132). -/
def Flt1 (P : FltSays) (i : Instr) (len : Nat) (d a : VR) (cc : CC) (f : Word → Word × BitVec 5) : Prop :=
  P i { rd := [a], wr := [d], len := len, lanewise := true } d cc (fun g p => uni1 (fun x => (f x).1) (g.shp p a))
    fun g l => f (g.val a l)
def Flt2 (P : FltSays) (i : Instr) (d a b : VR) (cc : CC) (f : Word → Word → Word × BitVec 5) : Prop :=
  P i { rd := [a, b], wr := [d], lanewise := true } d cc
    (fun g p => uni2 (fun x y => (f x y).1) (g.shp p a) (g.shp p b)) fun g l => f (g.val a l) (g.val b l)
def Flt3 (P : FltSays) (i : Instr) (d a b : VR) (cc : CC) (f : Word → Word → Word → Word × BitVec 5) : Prop :=
  P i { rd := [d, a, b], lanewise := true } d cc
    (fun g p => uni3 (fun z x y => (f z x y).1) (g.shp p d) (g.shp p a) (g.shp p b))
    fun g l => f (g.val d l) (g.val a l) (g.val b l)

/-- F(x) (R133). -/
def valueOf (t : FT) (x : Word) : FV := (fmtOf t).decode x.toNat

namespace Bits

/-- Bits of a type, and its encodings of +∞, of the canonical NaN (R134) and of the smallest normal. -/
def width : FT → Nat | .f16 | .bf16 => 16 | .f32 => 32 | .f64 => 64
def inf : FT → Nat | .f16 => 0x7C00 | .bf16 => 0x7F80 | .f32 => 0x7F800000 | .f64 => 0x7FF0000000000000
def canon : FT → Nat | .f16 => 0x7E00 | .bf16 => 0x7FC0 | .f32 => 0x7FC00000 | .f64 => 0x7FF8000000000000
def normal : FT → Nat | .f16 => 0x400 | .bf16 => 0x80 | .f32 => 0x800000 | .f64 => 0x10000000000000
/-- The encoding without its sign, and the sign. -/
def mag (t : FT) (x : Word) : Nat := x.toNat % 2 ^ (width t - 1)
def neg (t : FT) (x : Word) : Bool := x.toNat / 2 ^ (width t - 1) % 2 == 1
def isNan (t : FT) (x : Word) : Bool := decide (inf t < mag t x)
/-- The most significant fraction bit is 0 and the fraction is not. -/
def isSnan (t : FT) (x : Word) : Bool := decide (inf t < mag t x) && decide (mag t x < canon t)
def nv (c : Bool) : BitVec 5 := if c then 1 else 0
/-- Encodings in the order of the values they name; both zeros are 0. -/
def ord (t : FT) (x : Word) : Int := if neg t x then -(mag t x : Int) else (mag t x : Int)

/-- R138: a magnitude under a sign, no flag; a NaN becomes the canonical one. -/
def signed (t : FT) (s : Bool) (x : Word) : Word × BitVec 5 :=
  (BitVec.ofNat 64 (if isNan t x then canon t else mag t x + (if s then 2 ^ (width t - 1) else 0)), 0)
/-- R139. -/
def cmp (r : FRel) (t : FT) (x y : Word) : Word × BitVec 5 :=
  let un := isNan t x || isNan t y
  let s := isSnan t x || isSnan t y
  match r with
  | .eq => (if !un && ord t x == ord t y then 1 else 0, nv s)
  | .lt => (if !un && decide (ord t x < ord t y) then 1 else 0, nv un)
  | .le => (if !un && decide (ord t x ≤ ord t y) then 1 else 0, nv un)
  | .un => (if un then 1 else 0, nv s)
/-- R140: one bit. -/
def cls (t : FT) (x : Word) : Word × BitVec 5 :=
  let n := neg t x
  let bit : Nat :=
    if isSnan t x then 0 else if isNan t x then 1
    else if mag t x = inf t then (if n then 2 else 9)
    else if mag t x = 0 then (if n then 5 else 6)
    else if mag t x < normal t then (if n then 4 else 7)
    else if n then 3 else 8
  (BitVec.ofNat 64 (2 ^ bit), 0)
/-- R137: −0 lies below +0; a signalling NaN raises NV. -/
def pick (isMax nanWins : Bool) (t : FT) (x y : Word) : Word × BitVec 5 :=
  let low := decide (ord t x < ord t y) || (ord t x == ord t y && neg t x && !neg t y)
  let own := fun z : Word => z.toNat % 2 ^ width t
  let r := if isNan t x && isNan t y then canon t
    else if isNan t x then (if nanWins then canon t else own y)
    else if isNan t y then (if nanWins then canon t else own x)
    else if low != isMax then own x else own y
  (BitVec.ofNat 64 r, nv (isSnan t x || isSnan t y))
/-- R146: a bf16 half widened to f32. -/
def wideBf (lo : Nat) (x : Word) : Word × BitVec 5 :=
  let h : Word := BitVec.ofNat 64 (x.toNat / 2 ^ lo % 65536)
  (if isNan .bf16 h then 0x7FC00000 else h <<< 16, nv (isSnan .bf16 h))
/-- R148, for a value's f32 encoding y and an index. -/
def key (nanlo : Bool) (nan : Bool) (y : BitVec 32) (idx : Word) : Word :=
  let v : BitVec 32 := if nan then (if nanlo then 0 else 0xFFFFFFFF) else if y.msb then ~~~y else y ^^^ 0x80000000
  v ++ (0xFFFFFFFF - idx.setWidth 32)

end Bits

/-! ### The floating-point rows -/

/-- The rows that round, in all their types and modes: the result that `Fmt` gives the operands' values (R136, R141, R142, R143, R146,
R147). -/
def RoundingRows (P : FltSays) : Prop :=
  ∀ (d a b : VR) (cc : CC) (rm : RM) (t : FT) (sat bf : Bool) (ct cf : CT),
    let one := fun (i : Instr) (op : Fmt → FV → FR) => Flt1 P i 1 d a cc fun x => (op (fmtOf t) (valueOf t x)).lane
    let two := fun (i : Instr) (op : Fmt → FV → FV → FR) =>
      Flt2 P i d a b cc fun x y => (op (fmtOf t) (valueOf t x) (valueOf t y)).lane
    let three := fun (i : Instr) (op : Fmt → FV → FV → FV → FR) =>
      Flt3 P i d a b cc fun z x y => (op (fmtOf t) (valueOf t x) (valueOf t y) (valueOf t z)).lane
    (two (.fadd d a b cc rm t) (fun f x y => f.add rm x y) ∧ two (.fsub d a b cc rm t) (fun f x y => f.add rm x y.neg) ∧
      two (.fmul d a b cc rm t) (fun f x y => f.mul rm x y) ∧ two (.fdiv d a b cc rm t) (fun f x y => f.div rm x y)) ∧
    (three (.fma d a b cc rm t) (fun f x y z => f.fma rm x y z) ∧
      three (.fms d a b cc rm t) (fun f x y z => f.fma rm x y z.neg) ∧
      three (.fnma d a b cc rm t) (fun f x y z => f.fma rm x.neg y z)) ∧
    (one (.frcp d a cc rm t) (fun f x => f.div rm (.fin false 1 0) x) ∧ one (.frsq d a cc rm t) (fun f x => f.rsqrt rm x) ∧
      one (.fsqrt d a cc rm t) (fun f x => f.sqrt rm x) ∧ one (.frnd d a cc rm t) (fun f x => f.rnd rm x) ∧
      one (.ffrac d a cc t) Fmt.frac) ∧
    Flt2 P (.fscaleb d a b cc rm t) d a b cc (fun x n => ((fmtOf t).scaleb rm (valueOf t x) n.toInt).lane) ∧
    (t ≠ .f64 → one (.fexp2 d a cc t) Fmt.exp2 ∧ one (.flog2 d a cc t) Fmt.log2 ∧ one (.fsin d a cc t) Fmt.sin ∧
      one (.fcos d a cc t) Fmt.cos) ∧
    ((sat = true → ct = .e4m3) → Flt1 P (.cvt d a cc sat rm ct cf) 2 d a cc (cvtFn sat rm ct cf)) ∧
    (let pack := fun (h : Fmt) (x y : Word) =>
       let lo := toFloat h false .rne (valueOf .f32 x)
       let hi := toFloat h false .rne (valueOf .f32 y)
       (BitVec.ofNat 64 (lo.bits + hi.bits * 65536), lo.fl ||| hi.fl)
     Flt2 P (.packF16x2 d a b cc) d a b cc (pack fmtF16) ∧ Flt2 P (.packBf16x2 d a b cc) d a b cc (pack fmtBf16)) ∧
    (let half := fun (lo : Nat) (x : Word) => (toFloat fmtF32 false .rne (valueOf .f16 (x >>> lo))).lane
     Flt1 P (.unpackLoF16x2 d a cc) 1 d a cc (half 0) ∧ Flt1 P (.unpackHiF16x2 d a cc) 1 d a cc (half 16)) ∧
    (let h : FT := if bf then .bf16 else .f16
     let pair := fun (op : FV → FV → FV → FR) (z x y : Word) =>
       let lo := op (valueOf h x) (valueOf h y) (valueOf h z)
       let hi := op (valueOf h (x >>> 16)) (valueOf h (y >>> 16)) (valueOf h (z >>> 16))
       (BitVec.ofNat 64 (lo.bits + hi.bits * 65536), lo.fl ||| hi.fl)
     let f := fmtOf h
     Flt2 P (.packedFadd d a b cc bf) d a b cc (pair (fun x y _ => f.add .rne x y) 0) ∧
     Flt2 P (.packedFsub d a b cc bf) d a b cc (pair (fun x y _ => f.add .rne x y.neg) 0) ∧
     Flt2 P (.packedFmul d a b cc bf) d a b cc (pair (fun x y _ => f.mul .rne x y) 0) ∧
     Flt3 P (.packedFma d a b cc bf) d a b cc (pair fun x y z => f.fma .rne x y z))

/-- The rows that act bit by bit: signs, comparisons, classes, minima and maxima, exact bf16 halves and order keys, with the only
flag, NV, as each rule gives it (R137 to R140, R146, R148). -/
def BitRows (P : FltSays) : Prop :=
  ∀ (d a b : VR) (cc : CC) (t : FT) (r : FRel) (nanlo : Bool),
    Flt1 P (.fabs d a cc t) 1 d a cc (Bits.signed t false) ∧
    Flt1 P (.fneg d a cc t) 1 d a cc (fun x => Bits.signed t (!Bits.neg t x) x) ∧
    Flt2 P (.fcopysign d a b cc t) d a b cc (fun x y => Bits.signed t (Bits.neg t y) x) ∧
    Flt2 P (.fcmp d a b cc r t) d a b cc (Bits.cmp r t) ∧
    Flt1 P (.fclass d a cc t) 1 d a cc (Bits.cls t) ∧
    Flt2 P (.fmin d a b cc t) d a b cc (Bits.pick false false t) ∧
    Flt2 P (.fmax d a b cc t) d a b cc (Bits.pick true false t) ∧
    Flt2 P (.fminm d a b cc t) d a b cc (Bits.pick false true t) ∧
    Flt2 P (.fmaxm d a b cc t) d a b cc (Bits.pick true true t) ∧
    Flt1 P (.unpackLoBf16x2 d a cc) 1 d a cc (Bits.wideBf 0) ∧
    Flt1 P (.unpackHiBf16x2 d a cc) 1 d a cc (Bits.wideBf 16) ∧
    (t ≠ .f64 → Flt2 P (.ordkey d a b cc nanlo t) d a b cc (fun x y =>
      (Bits.key nanlo (Bits.isNan t x) (BitVec.ofNat 32 (toFloat fmtF32 false .rne (valueOf t x)).bits) y, 0)))

/-- m × 2^e measured in units of 2^c, c ≤ e. -/
def inUnits (m : Nat) (e c : Int) : Nat := m * 2 ^ (e - c).toNat

/-- m₁ × 2^e₁ against m₂ × 2^e₂. -/
def dyadicCompare (m₁ : Nat) (e₁ : Int) (m₂ : Nat) (e₂ : Int) : Ordering :=
  compare (inUnits m₁ e₁ (min e₁ e₂)) (inUnits m₂ e₂ (min e₁ e₂))

/-- An exact magnitude, by how it compares with every m × 2^e. -/
abbrev Magnitude := Nat → Int → Ordering

/-- m × 2^e is the neighbour of an exact value, with sign `neg` and magnitude x, that a mode names among the multiples of 2^e. -/
def NamedNeighbour (rm : RM) (neg : Bool) (x : Magnitude) (m : Nat) (e : Int) : Prop :=
  let down := x m e ≠ .lt ∧ x (m + 1) e = .lt
  let up := x m e ≠ .gt ∧ (0 < m → x (m - 1) e = .gt)
  let above := x (2 * m + 1) (e - 1)
  let below := if m = 0 then Ordering.gt else x (2 * m - 1) (e - 1)
  match rm with
  | .rtz => down
  | .rup => if neg then down else up
  | .rdn => if neg then up else down
  | .rne => above ≠ .gt ∧ below ≠ .lt ∧ (above = .eq ∨ below = .eq → m % 2 = 0)
/-- The magnitude that an overflow gives: infinity, or the largest finite value just below its encoding. -/
def overflowMag (f : Fmt) (rm : RM) (neg : Bool) : Nat :=
  match rm with
  | .rne => f.infBits
  | .rtz => f.infBits - 1
  | .rup => if neg then f.infBits - 1 else f.infBits
  | .rdn => if neg then f.infBits else f.infBits - 1

/-- NV, DZ, OF, UF and NX, in bits 0 to 4. -/
def raised (nv dz ovf udf nx : Bool) : BitVec 5 :=
  (if nx then 16 else 0) + (if udf then 8 else 0) + (if ovf then 4 else 0) + (if dz then 2 else 0) + (if nv then 1 else 0)

/-- The encoding of a sign over a magnitude's. -/
def signedBits (f : Fmt) (neg : Bool) (mag : Nat) : Nat := (if neg then f.signBit else 0) + mag

/-- r is RND of an exact value other than zero, with all of its flags (R134). `mu` and `eu` are its rounding to the format's
precision with the exponent unbounded, which decides OF and UF; m is its rounding to a multiple of the unit that the format has there. -/
def Rounded (f : Fmt) (rm : RM) (neg : Bool) (x : Magnitude) (r : FR) : Prop :=
  ∃ (mu : Nat) (eu : Int) (m : Nat), x (2 ^ f.fb) eu ≠ .lt ∧ x (2 ^ (f.fb + 1)) eu = .lt ∧ NamedNeighbour rm neg x mu eu ∧
    let q := max eu f.qmin
    let ovf := !f.e4m3 && dyadicCompare mu eu (2 ^ (f.fb + 1) - 1) (f.emax - f.fb) == .gt
    let tiny := dyadicCompare mu eu 1 f.emin == .lt
    let nx := x m q != .eq
    NamedNeighbour rm neg x m q ∧
    (ovf = true → r = ⟨signedBits f neg (overflowMag f rm neg), raised false false true false true⟩) ∧
    (ovf = false → r.bits < 2 ^ f.width ∧ r.fl = raised false false false (tiny && nx) nx ∧
      ∃ m' e', f.decode r.bits = .fin neg m' e' ∧ dyadicCompare m' e' m q = .eq)

/-- r is RND of a sum v × 2^e, whose exact zero is −0 udf .rdn only, but where both summands are zeros of one sign (R134). -/
def RoundedSum (f : Fmt) (rm : RM) (zeros : Option Bool) (v e : Int) (r : FR) : Prop :=
  (v ≠ 0 → Rounded f rm (decide (v < 0)) (dyadicCompare v.natAbs e) r) ∧
  (v = 0 → r = ⟨signedBits f (zeros.getD (rm == .rdn)) 0, 0⟩)

/-- The sign that two zeros share. -/
def zeroSigns (n₁ : Bool) (m₁ : Nat) (n₂ : Bool) (m₂ : Nat) : Option Bool := if m₁ = 0 ∧ m₂ = 0 ∧ n₁ = n₂ then some n₁ else none
/-- A signed significand in units of 2^c. -/
def inSigned (n : Bool) (m : Nat) (e c : Int) : Int := if n then -(inUnits m e c : Int) else (inUnits m e c : Int)

/-- The rows of R136 on finite operands, each against the exact result. -/
def ExactRows (f : Fmt) (rm : RM) : Prop :=
  ∀ (n₁ n₂ n₃ : Bool) (m₁ m₂ m₃ : Nat) (e₁ e₂ e₃ : Int),
    let x := FV.fin n₁ m₁ e₁
    let y := FV.fin n₂ m₂ e₂
    let z := FV.fin n₃ m₃ e₃
    let n := n₁ != n₂
    (let c := min e₁ e₂
     RoundedSum f rm (zeroSigns n₁ m₁ n₂ m₂) (inSigned n₁ m₁ e₁ c + inSigned n₂ m₂ e₂ c) c (f.add rm x y)) ∧
    (let c := min (e₁ + e₂) e₃
     RoundedSum f rm (zeroSigns n (m₁ * m₂) n₃ m₃) (inSigned n (m₁ * m₂) (e₁ + e₂) c + inSigned n₃ m₃ e₃ c) c (f.fma rm x y z)) ∧
    (if m₁ = 0 ∨ m₂ = 0 then f.mul rm x y = ⟨signedBits f n 0, 0⟩
     else Rounded f rm n (dyadicCompare (m₁ * m₂) (e₁ + e₂)) (f.mul rm x y)) ∧
    (if m₂ = 0 then f.div rm x y = if m₁ = 0 then ⟨f.nan, raised true false false false false⟩
       else ⟨signedBits f n f.infBits, raised false true false false false⟩
     else if m₁ = 0 then f.div rm x y = ⟨signedBits f n 0, 0⟩
     else Rounded f rm n (fun m e => dyadicCompare m₁ e₁ (m₂ * m) (e₂ + e)) (f.div rm x y)) ∧
    (if m₁ = 0 then f.sqrt rm x = ⟨signedBits f n₁ 0, 0⟩
     else if n₁ then f.sqrt rm x = ⟨f.nan, raised true false false false false⟩
     else Rounded f rm false (fun m e => dyadicCompare m₁ e₁ (m * m) (2 * e)) (f.sqrt rm x)) ∧
    (if m₁ = 0 then f.rsqrt rm x = ⟨signedBits f n₁ f.infBits, raised false true false false false⟩
     else if n₁ then f.rsqrt rm x = ⟨f.nan, raised true false false false false⟩
     else Rounded f rm false (fun m e => dyadicCompare 1 0 (m₁ * (m * m)) (e₁ + 2 * e)) (f.rsqrt rm x))

/-- The rows of R136 on operands of which one is an infinity or a NaN. -/
def SpecialRows (f : Fmt) (rm : RM) : Prop :=
  ∀ (x y z : FV), let bad := raised true false false false false
    let s := fun (l : List FV) => if l.any FV.isSnan then bad else 0
    let inf := fun (n : Bool) => (⟨signedBits f n f.infBits, 0⟩ : FR)
    let invalid := (⟨f.nan, bad⟩ : FR)
    let zeroInf := (x.isZero = true ∧ y.isInf = true) ∨ (x.isInf = true ∧ y.isZero = true)
    let n := x.sign != y.sign
    (x.isNan = true ∨ y.isNan = true → f.add rm x y = ⟨f.nan, s [x, y]⟩ ∧ f.mul rm x y = ⟨f.nan, s [x, y]⟩ ∧
      f.div rm x y = ⟨f.nan, s [x, y]⟩) ∧
    (x.isNan = true ∨ y.isNan = true ∨ z.isNan = true → f.fma rm x y z = ⟨f.nan, if zeroInf then bad else s [x, y, z]⟩) ∧
    (x.isNan = true → f.sqrt rm x = ⟨f.nan, s [x]⟩ ∧ f.rsqrt rm x = ⟨f.nan, s [x]⟩) ∧
    (x.isNan = false → y.isNan = false →
      (x.isInf = true → f.add rm x y = if y.isInf = true ∧ x.sign ≠ y.sign then invalid else inf x.sign) ∧
      (x.isInf = false → y.isInf = true → f.add rm x y = inf y.sign) ∧
      (zeroInf → f.mul rm x y = invalid ∧ (z.isNan = false → f.fma rm x y z = invalid)) ∧
      (x.isInf = true ∨ y.isInf = true → ¬ zeroInf → f.mul rm x y = inf n ∧
        (z.isNan = false → f.fma rm x y z = if z.isInf = true ∧ z.sign ≠ n then invalid else inf n)) ∧
      (x.isInf = false → y.isInf = false → z.isInf = true → f.fma rm x y z = inf z.sign) ∧
      (x.isInf = true → f.div rm x y = if y.isInf = true then invalid else inf n) ∧
      (x.isInf = false → y.isInf = true → f.div rm x y = ⟨signedBits f n 0, 0⟩)) ∧
    (x.isInf = true → f.sqrt rm x = (if x.sign = true then invalid else inf false) ∧
      f.rsqrt rm x = if x.sign = true then invalid else ⟨0, 0⟩)

/-- fscaleb, frnd and ffrac of an operand's value (R136, R142). -/
def ScalingRows (t : FT) (rm : RM) (a : Word) : Prop :=
  let f := fmtOf t
  match valueOf t a with
  | .nan q =>
    let r : FR := ⟨f.nan, raised q false false false false⟩
    (∀ n : Word, f.scaleb rm (.nan q) n.toInt = r) ∧ f.rnd rm (.nan q) = r ∧ f.frac (.nan q) = r
  | .inf n =>
    let r : FR := ⟨signedBits f n f.infBits, 0⟩
    (∀ k : Word, f.scaleb rm (.inf n) k.toInt = r) ∧ f.rnd rm (.inf n) = r ∧
      f.frac (.inf n) = ⟨f.nan, raised true false false false false⟩
  | .fin n m e =>
    let x := FV.fin n m e
    (∀ k : Word, if m = 0 then f.scaleb rm x k.toInt = ⟨signedBits f n 0, 0⟩
      else Rounded f rm n (dyadicCompare m (e + k.toInt)) (f.scaleb rm x k.toInt)) ∧
    (∃ i m' e', NamedNeighbour rm n (dyadicCompare m e) i 0 ∧ f.decode (f.rnd rm x).bits = .fin n m' e' ∧
      dyadicCompare m' e' i 0 = .eq ∧ (f.rnd rm x).fl = 0) ∧
    ∃ m' e', f.decode (f.frac x).bits = .fin n m' e' ∧ (f.frac x).fl = 0 ∧
      dyadicCompare m' e' (if e < 0 then m % 2 ^ (-e).toNat else 0) e = .eq

/-- A value converted to a float format, and to an integer type (R143 to R145). -/
def ConvertsToFloat (g : Fmt) (sat : Bool) (rm : RM) (v : FV) (r : FR) : Prop :=
  match v with
  | .nan q => r = ⟨g.nan, raised q false false false false⟩
  | .inf n => r = if g.e4m3 = true then (if sat then ⟨signedBits g n 0x7E, raised false false true false true⟩
      else ⟨g.nan, raised true false false false false⟩) else ⟨signedBits g n g.infBits, 0⟩
  | .fin n m e =>
    if m = 0 then r = ⟨signedBits g n 0, 0⟩
    else if g.e4m3 = true ∧ dyadicCompare m e 448 0 = .gt then
      r = ⟨if sat then signedBits g n 0x7E else g.nan, raised false false true false true⟩
    else Rounded g rm n (dyadicCompare m e) r
def ConvertsToInt (w : Nat) (sg : Bool) (rm : RM) (v : FV) (r : Word × BitVec 5) : Prop :=
  let low : Int := if sg then -(2 ^ (w - 1) : Nat) else 0
  let top : Int := if sg then (2 ^ (w - 1) : Nat) - 1 else (2 ^ w : Nat) - 1
  let invalid := raised true false false false false
  match v with
  | .nan _ => r = (0, invalid)
  | .inf n => r = (BitVec.ofInt 64 (if n then low else top), invalid)
  | .fin n m e => ∃ i, (if m = 0 then i = 0 else NamedNeighbour rm n (dyadicCompare m e) i 0) ∧
    let k : Int := if n then -(i : Int) else i
    r = if k < low then (BitVec.ofInt 64 low, invalid) else if top < k then (BitVec.ofInt 64 top, invalid)
      else (BitVec.ofInt 64 k, raised false false false false (dyadicCompare m e i 0 != .eq))

/-- R56: A shifted left by a uniform amount stays A in the 64-bit form. -/
def shlShape (t : BT) : Shape → Shape → Option Shape
  | x, .uni n => (match t with
    | .b64 => shapeShl x (n.toNat % 64)
    | .b32 => uni2 (onBits t Lane.shl) x (.uni n))
  | _, .aff _ _ | _, .gen _ | _, .dead => none

/-! ### Memory operations (R149 to R162) -/

/-- The checks of R151 and R152 pass for one address: bits 63:56 clear, a multiple of n, translated with the permission
it needs, and on a present line where it is a Silo line of this part. -/
def Reachable (s : State) (g : Group) (p : Path) (need : Need) (n : Nat) (va : Word) : Prop :=
  va.toNat < 2 ^ 56 ∧ va.toNat % n = 0 ∧
    ∃ x, translate s (coreOf s.cur) g.ten p.code.level need va.toNat = .ok x ∧
      ∀ pa, hereOf s x = some pa → lineAbsent s pa = false

/-- The flag that the clause's SETA names (R98). -/
def flagOf (p : Path) : Option Nat :=
  match p.spot with
  | .inside _ h _ => if hSetA h < 12 then some (hSetA h) else none
  | .boundary _ => none

/-- A MEM operation as it stands right after its issue: nothing performed, one access for each address in the order of
`addrs`, each with its translation. -/
structure Issued (s : State) (g : Group) (p : Path) (need : Need) (n : Nat) (addrs : List (Nat × Word)) (data cmp : Nat → Word)
    (o : POp) : Prop where
  id     : o.id = s.serial
  cls    : o.cls = .mem
  place  : o.word = p.spot.offset ∧ o.kbase = p.code.kbase ∧ o.level = p.code.level
  gang   : o.slices = p.slices ∧ o.lanes = p.active
  flag   : o.flag = flagOf p
  waits  : o.done = false ∧ o.halted = false
  accs   : o.accs.map (fun a => (a.lane, a.va)) = addrs
  access : ∀ a ∈ o.accs, a.size = n ∧ a.done = false ∧ a.sent = none ∧
             translate s (coreOf s.cur) g.ten p.code.level need a.va.toNat = .ok a.x
  values : ∀ k < o.accs.length, ∀ a, o.accs[k]? = some a → a.data = data k ∧ a.cmp = cmp k

/-- An asynchronous memory instruction issues: CNTM has room (R52), its operation joins the group's list, its operands
are read and counted down, and no byte of memory changes. The die's TLB may keep the translations (R305), and the gang's
path notes whether a later operation of its clause joins the same flag (R52). `s0` is the state in which the instruction
runs, and `s` the same after what it reads before its issue. -/
def IssuesFrom (i : Instr) (u : Use) (g : Group) (p : Path) (s0 s : State) (op : POp → Prop) : Prop :=
  g.counter .m < 63 →
    ∃ t g' o, exec i s0 = .next t ∧ op o ∧
      (let t0 := { s with tlb := t.tlb, nonleafs := t.nonleafs, s2held := t.s2held, serial := s.serial + 1 }
       Advanced u.len t0 t g g' (joinFlag t0 g p u.len o.flag)) ∧
      g' = { released g p u with ops := g.ops ++ [o], paths := g'.paths, wcount := g'.wcount } ∧
      (∀ e ∈ t.tlb, e ∈ s.tlb ∨ (e.die = dieOf (coreOf s.cur) ∧ e.ten = g.ten)) ∧
      (∀ e ∈ t.nonleafs, e ∈ s.nonleafs ∨ (e.die = dieOf (coreOf s.cur) ∧ e.ten = g.ten)) ∧
      ∀ e ∈ t.s2held, e ∈ s.s2held ∨ (e.die = dieOf (coreOf s.cur) ∧ e.ten = g.ten)
/-- The same where nothing else of the part has changed before the issue. -/
def Issues (i : Instr) (u : Use) (g : Group) (p : Path) (s : State) (op : POp → Prop) : Prop := IssuesFrom i u g p s s op

/-- Coordinate i of a lane: 16 signed bits (R159). -/
def coordOf (x : Word) (i : Nat) : Int := (x.extractLsb' (16 * i) 16).toInt
/-- The coordinates lie in the view, and those beyond its rank are 0 (R159). -/
def insideView (v : ViewDesc) (x : Word) : Prop :=
  ∀ i < 4, if i < v.rank then 0 ≤ coordOf x i ∧ coordOf x i < (v.ext.getD i 0 : Int) else coordOf x i = 0
/-- The element's address (R92, R159). -/
def elementVa (v : ViewDesc) (x : Word) : Word :=
  let at_ := (v.base.toNat : Int) + (coordOf x 0 * v.str.getD 0 0 + coordOf x 1 * v.str.getD 1 0 + coordOf x 2 * v.str.getD 2 0 +
    coordOf x 3 * v.str.getD 3 0) * (2 ^ v.esize : Nat)
  BitVec.ofNat 64 (at_ % (2 ^ 56 : Nat)).toNat

/-- The lane that access k of a per-lane operation belongs to. -/
def laneAt (p : Path) (k : Nat) : Nat := (activeList p).getD k 0

/-- The kinds of a load's and of an atomic's operation. -/
def ordering (acq : Option Scp) (o : Ord) : Ord := if acq.isSome then o else .rlx
def scopeOf (acq : Option Scp) : Scp := acq.getD .grp

/-- ld of n bytes (R157). -/
def LoadIssues (i : Instr) (n : Nat) (sx : Bool) (d a : VR) (cc : CC) (acq : Option Scp) (off : BitVec 5) : Prop :=
  ∀ s g p, let u : Use := { rd := [a], wr := [d] }
    let va := fun l => g.val a l + BitVec.ofNat 64 (off.toNat * n)
    Clear u s g p → WithinBudget u d cc s g p none (fun _ => 0) → (∀ l ∈ activeList p, Reachable s g p .read n (va l)) →
    Issues i u g p s fun o =>
      Issued s g p .read n ((activeList p).map fun l => (l, va l)) (fun _ => 0) (fun _ => 0) o ∧
        o.kind = .load n sx ∧ o.dest = some (d, cc) ∧ o.ord = ordering acq .acq ∧ o.scp = scopeOf acq ∧ o.view = none

/-- st of n bytes (R157). -/
def StoreIssues (i : Instr) (n : Nat) (v a : VR) (rel : Option Scp) (off : BitVec 5) : Prop :=
  ∀ s g p, let u : Use := { rd := [v, a] }
    let va := fun l => g.val a l + BitVec.ofNat 64 (off.toNat * n)
    Clear u s g p → (∀ l ∈ activeList p, Reachable s g p .write n (va l)) →
    Issues i u g p s fun o =>
      Issued s g p .write n ((activeList p).map fun l => (l, va l)) (fun k => g.val v (laneAt p k)) (fun _ => 0) o ∧
        o.kind = .store ∧ o.dest = none ∧ o.ord = ordering rel .rel ∧ o.scp = scopeOf rel ∧ o.view = none

/-- atom, with C for cas (R160). -/
def AtomIssues (i : Instr) (f : AFun) (d a b : VR) (c : Option VR) (cc : CC) (ord : Ord) (scp : Scp) (ty : AT) : Prop :=
  wellFormed i = true → ∀ s g p, let u : Use := { rd := [a, b] ++ c.toList, wr := [d], len := 2 }
    let n := AT.width ty / 8
    Clear u s g p → WithinBudget u d cc s g p none (fun _ => 0) → (∀ l ∈ activeList p, Reachable s g p .atomic n (g.val a l)) →
    Issues i u g p s fun o =>
      Issued s g p .atomic n ((activeList p).map fun l => (l, g.val a l)) (fun k => g.val b (laneAt p k))
          (fun k => c.elim 0 fun r => g.val r (laneAt p k)) o ∧
        o.kind = .atomic f ty ∧ o.dest = some (d, cc) ∧ o.ord = ord ∧ o.scp = scp

/-- atomn (R160). -/
def AtomnIssues (i : Instr) (f : AFun) (a b : VR) (ord : Ord) (scp : Scp) (ty : AT) : Prop :=
  wellFormed i = true → ∀ s g p, let u : Use := { rd := [a, b], len := 2 }
    let n := AT.width ty / 8
    Clear u s g p → (∀ l ∈ activeList p, Reachable s g p .atomic n (g.val a l)) →
    Issues i u g p s fun o =>
      Issued s g p .atomic n ((activeList p).map fun l => (l, g.val a l)) (fun k => g.val b (laneAt p k)) (fun _ => 0) o ∧
        o.kind = .atomic f ty ∧ o.dest = none ∧ o.ord = ord ∧ o.scp = scp

/-- The checks of R151 for requests of n bytes, each of a lane at an address, or of the gang as a whole: the first check that some
request fails is the cause, its lanes are the faulting ones, ADDR is that of the lowest, nothing is performed and the reads have
counted (R65). The instruction runs in `s0`; `s` is the same after what it reads before these checks. -/
def ChecksFrom (i : Instr) (u : Use) (g : Group) (p : Path) (s0 s : State) (need : Need) (n : Nat) (whole : Bool) (reqs : List (Nat × Word)) :
    Prop :=
  let lanes := fun (c : Word → Bool) =>
    if whole then (if reqs.any fun x => c x.2 then p.active else 0) else maskOf lanes64 fun l => reqs.any fun x => x.1 == l && c x.2
  let first := fun (c : Word → Bool) => (reqs.map (·.2)).find? c
  let high := fun (va : Word) => decide (2 ^ 56 ≤ va.toNat)
  let odd := fun (va : Word) => va.toNat % n != 0
  let res := fun (va : Word) => translate s (coreOf s.cur) g.ten p.code.level need (va.toNat % 2 ^ 56)
  let bad := fun (va : Word) => (res va).isFault
  let traps := fun (t : State) (r : TrapRec) => exec i s0 = .next (takeTrap t s.cur (released g p u) s.path p r)
  (∀ va, first high = some va → traps s { p.trapRec 0x0D with fault := lanes high, addr := va }) ∧
  (first high = none → ∀ va, first odd = some va → traps s { p.trapRec 0x0C with fault := lanes odd, addr := va }) ∧
  (first high = none → first odd = none → ∀ va c, first bad = some va → res va = .fault c →
    ∃ t, traps t { p.trapRec 0x0E with fault := lanes bad, addr := va, code := c } ∧
      t = { s with tlb := t.tlb, nonleafs := t.nonleafs, s2held := t.s2held, serial := t.serial })
def Checks (i : Instr) (u : Use) (g : Group) (p : Path) (s : State) (need : Need) (n : Nat) (whole : Bool) (reqs : List (Nat × Word)) :
    Prop :=
  ChecksFrom i u g p s s need n whole reqs

/-- The checks of one request for each active lane at an address that the operands give, for an instruction that may write a register (R59). -/
def LaneChecks (i : Instr) (u : Use) (need : Need) (n : Nat) (d : Option (VR × CC)) (va : Group → Nat → Word) : Prop :=
  ∀ s g p, Clear u s g p → (∀ r cc, d = some (r, cc) → WithinBudget u r cc s g p none (fun _ => 0)) →
    Checks i u g p s need n false ((activeList p).map fun l => (l, va g l))

/-- The checks of an access through a view come before those of its addresses (R159): an open register, a mode that allows it,
coordinates inside. -/
def ViewChecks (i : Instr) (u : Use) (need : Need) (forbids : Nat) (a : VR) (w : WR) (d : Option (VR × CC)) : Prop :=
  ∀ s g p, Clear u s g p → (∀ r cc, d = some (r, cc) → WithinBudget u r cc s g p none (fun _ => 0)) → p.active ≠ 0 →
    let traps := fun (r : TrapRec) => exec i s = .next (takeTrap s s.cur (released g p u) s.path p r)
    (g.view w = none → traps (p.trapRec 0x10)) ∧
    ∀ ov, g.view w = some ov →
      (ov.desc.mode = forbids → traps (p.trapRec 0x11)) ∧
      (ov.desc.mode ≠ forbids → ∀ m, m ≠ 0 → (∀ l < 64, bitOf m l = true ↔ bitOf p.active l = true ∧ ¬ insideView ov.desc (g.val a l)) →
        traps { p.trapRec 0x12 with fault := m }) ∧
      (ov.desc.mode ≠ forbids → (∀ l ∈ activeList p, insideView ov.desc (g.val a l)) →
        Checks i u g p s need (2 ^ ov.desc.esize) false ((activeList p).map fun l => (l, elementVa ov.desc (g.val a l))))

/-- Scopes from the narrowest (R241). -/
def Scp.rank : Scp → Nat | .grp => 0 | .team => 1 | .clu => 2 | .die => 3 | .dev => 4 | .dom => 5 | .sys => 6

/-- The relations of waitv, unsigned (R161). -/
def relationHolds (r : WRel) (x y : Nat) : Prop :=
  match r with
  | .eq => x = y
  | .ne => x ≠ y
  | .ltn => x < y
  | .gen => y ≤ x

/-! ### Transfers (R20, R109, R165 to R168) -/

/-- Reading the word at offset T for a gang leaves s1 and shows a unit that a transfer may reach (R109). -/
def TargetOk (s : State) (g : Group) (p : Path) (T : Nat) (s1 : State) : Prop :=
  T < p.code.klen ∧ ∃ w, fetchWord s s.cur g p T = (s1, .word w) ∧ w.getLsbD 3 = true

/-- The same for a list of offsets, one after the other. -/
def TargetsOk (s : State) (g : Group) (p : Path) : List Nat → State → Prop
  | [], s1 => s1 = s
  | T :: rest, s1 => ∃ s', TargetOk s g p T s' ∧ TargetsOk s' g p rest s1

/-- A transfer of the gang to T that fails its check traps, or parks, for the whole gang before any part of it moves: BADTGT beyond
the kernel and at a word with TGT clear, and what the word's fetch meets (R109). -/
def BadTarget (i : Instr) (u : Use) (s : State) (g : Group) (p : Path) (T : Nat) : Prop :=
  let traps := fun (t : State) (r : TrapRec) => exec i s = .next (takeTrap t s.cur (released g p u) s.path p r)
  let va := p.code.kbase + BitVec.ofNat 64 (4 * T)
  (p.code.klen ≤ T → traps s (p.trapRec 0x06)) ∧
  ∀ s1, T < p.code.klen →
    (∀ w, fetchWord s s.cur g p T = (s1, .word w) → w.getLsbD 3 = false → traps s1 (p.trapRec 0x06)) ∧
    (∀ c, fetchWord s s.cur g p T = (s1, .fault c) → traps s1 { p.trapRec 0x0E with code := c, addr := va }) ∧
    (fetchWord s s.cur g p T = (s1, .poison) → traps s1 { p.trapRec 0x0F with addr := va }) ∧
    (fetchWord s s.cur g p T = (s1, .stage2) →
      exec i s = .next (parkStage2 s1 s.cur (released g p u) s.path { p with quiet := true } va))

/-- The gangs of a group hold slices of their own, and each at least one (R17, R20). -/
def SlicesApart (g : Group) : Prop :=
  (∀ i q, g.path i = some q → q.slices ≠ 0) ∧ ∀ i j q r, i ≠ j → g.path i = some q → g.path j = some r → q.slices &&& r.slices = 0

/-- Slices of a gang that satisfy a condition. -/
def slicesWhere (p : Path) (c : Nat → Bool) : BitVec 16 :=
  ((List.range 16).filter fun sl => inSlices p.slices sl && c sl).foldl (fun acc sl => acc ||| (1 : BitVec 16) <<< sl) 0

/-- The yield of YLD follows the transfer that ends the clause (R98). -/
def ended (p : Path) (t : State) : State := if p.spot.yieldsAfter 1 then markYield t else t

/-- A group whose gangs are as `f` says, with its watchdog count cleared where the clause yields (R287); nothing else of
it changes. -/
structure Gangs (g g' : Group) (p : Path) (f : Nat → Option Path) : Prop where
  only  : g' = { g with paths := g'.paths, wcount := g'.wcount }
  each  : ∀ i < 16, g'.path i = f i
  count : g'.wcount = if p.spot.yieldsAfter 1 then 0 else g.wcount

/-- A part of a gang: some of its slices, with their lanes, at a place of their own (R20). -/
def partAt (p : Path) (sl : BitVec 16) (sp : Spot) : Path :=
  { p.moved sp with slices := sl, exec := p.exec &&& laneMask sl }

/-- A conditional transfer to T (R165): each slice that takes it goes to T and the others to the next unit; where both
exist the part with the lowest slice keeps the index and the other takes the lowest free one (R20), which there is while the gangs
hold slices of their own. -/
def Branches (i : Instr) (u : Use) (T : Nat) (taken : Group → Path → Nat → Bool) : Prop :=
  ∀ s g p s1, Clear u s g p → p.slices ≠ 0 →
    let yes := slicesWhere p (taken g p)
    let no := slicesWhere p fun sl => !taken g p sl
    let there := Spot.boundary T
    let next := Spot.boundary p.spot.nextUnit
    (yes ≠ 0 → BadTarget i u s g p T) ∧
    (yes ≠ 0 → no ≠ 0 → g.path s.path = some p → SlicesApart g → g.freePath < 16) ∧ ((yes ≠ 0 → TargetOk s g p T s1) → (yes = 0 → s1 = s) →
    (no = 0 → ∃ g', exec i s = .next (ended p (emit (putGroup s1 s.cur g') s.cur s.path 0 1 [])) ∧
      Gangs (released g p u) g' p fun j => if j = s.path then some (partAt p p.slices there) else g.path j) ∧
    (yes = 0 → ∃ g', exec i s = .next (ended p (emit (putGroup s1 s.cur g') s.cur s.path 0 0 [])) ∧
      Gangs (released g p u) g' p fun j => if j = s.path then some (partAt p p.slices next) else g.path j) ∧
    (yes ≠ 0 → no ≠ 0 → g.freePath < 16 →
      let first := taken g p (lowBit 16 p.slices.toNat)
      let stay := if first then partAt p yes there else partAt p no next
      let leave := if first then partAt p no next else partAt p yes there
      ∃ g', exec i s = .next (ended p (emit (putGroup s1 s.cur g') s.cur s.path 0 2
          (leBytes 1 g.freePath ++ leBytes 2 yes.toNat))) ∧
        Gangs (released g p u) g' p fun j => if j = s.path then some stay
          else if j = g.freePath then some { leave with stop := .none, wdog := false } else g.path j))

/-! ### Parks, barriers and fences (R33, R169 to R173) -/

/-- The gang parks where it stands, which counts as a yield (R33): nothing else of the part changes, and of its group
only the gang's own entry and the watchdog count, besides what `h` already changed of g. -/
def Parks (i : Instr) (s : State) (h : Group) (p : Path) (pk : Park) : Prop :=
  ∃ g', exec i s = .next (markYield (putGroup s s.cur g')) ∧ g' = { h with paths := g'.paths, wcount := 0 } ∧
    ∀ j < 16, g'.path j = if j = s.path then some { p with quiet := true, park := some pk } else h.path j

/-- The gang stalls: it stands where it stood, remembering the first attempt (R172, R173). -/
def Stalls (i : Instr) (s : State) (g : Group) (p : Path) (n reason : Nat) : Prop :=
  ∃ g', exec i s = .next { putGroup s s.cur g' with stall := some reason } ∧ g' = { g with paths := g'.paths } ∧
    ∀ j < 16, g'.path j = if j = s.path then some { p with since := some n } else g.path j

/-- Flag i is pending: an operation that set it has not completed, or a gang that issued one, or the gang that a handler
interrupted there, is still before the last instruction of its clause that sets it (R52). -/
def pendingFlag (g : Group) (i : Nat) : Prop :=
  (∃ o ∈ g.ops, o.done = false ∧ o.flag = some i) ∨
  (∃ j < 16, ∃ q hdr h pc, g.path j = some q ∧ q.spot = .inside hdr h pc ∧ ∃ last, pc ≤ last ∧ (i, last) ∈ q.owes) ∨
  ∃ k hdr h pc, g.handler = some k ∧ k.spot = .inside hdr h pc ∧ ∃ last, pc ≤ last ∧ (i, last) ∈ k.owes

/-- A gang of the group stands parked at a waitv issued before serial number n (R161, R240). -/
def WaitvBefore (g : Group) (n : Nat) : Prop :=
  ∃ j q id sat as cs r w64 acq, g.path j = some q ∧ q.park = some (.waitv id sat as cs r w64 acq) ∧ id < n

/-- What this part has sent to others before serial number n has been acknowledged, as a release at dom or sys asks (R243, R245): the
writes of every group, and those of the part itself, whose answers hold no bytes. -/
def Settled (s : State) (n : Nat) (scp : Scp) : Prop :=
  5 ≤ Scp.rank scp →
    (∀ x ∈ s.groups, ∀ o ∈ x.2.ops, o.done = false → OpKind.isWrite o.kind = true → ∀ a ∈ o.accs, ∀ t, a.sent = some t → t < n → a.done = true) ∧
    ∀ r ∈ s.rwaits, r.n = 4097 → r.tag < n → r.ans.isSome = true

/-- The group's accesses before serial number n are visible at a scope, and none of its gangs waits at an older waitv (R155, R243). -/
def SeenBefore (g : Group) (n : Nat) (scp : Scp) : Prop :=
  (∀ o ∈ g.ops, o.id < n → o.cls = .mem ∨ o.cls = .cov → opVisible scp o = true) ∧ ¬ WaitvBefore g n

/-- Of the answers and requests of s, those stay that are not a read which a group with `of` has under way on another part (R173, R261). -/
def ReadsForgotten (s t : State) (of : Nat → Prop) : Prop :=
  ∀ r, r ∈ t.rwaits ↔ r ∈ s.rwaits ∧ ¬ ∃ k, r.who = .group k ∧ of k ∧ r.n ≠ 4097

/-- The gang arrives at a barrier (R169): team barriers in bits 15:0, cluster barriers in 31:16. -/
def arriving (p : Path) (i : Nat) : Path := { p with arrived := p.arrived ||| (1 : BitVec 32) <<< i }

/-! ### Trap entry and return (R175 to R179) -/

/-- The address of a group's frame block (R176). -/
def frameAt (d : TrapDesc) (k : Nat) : Word := d.frames + BitVec.ofNat 64 (k * 4096)

/-- No other gang of the group has a trap that waits to enter (R179). -/
def Alone (g : Group) (pi : Nat) : Prop := ∀ j < 16, j ≠ pi → ∀ q, g.path j = some q → q.trap = none

/-- A group of no handler and no pending write to v0 to v3 finds a legal trap descriptor at TVEC, whose handler starts at
a unit with TGT, and a frame block that can be written at pa (R175, R176, R179). The state after these reads, whose answers from
another part have been used, is s1. -/
structure HandlerFound (s : State) (k : Nat) (g : Group) (d : TrapDesc) (y : Xlate) (pa : Nat) (s1 : State) : Prop where
  free   : g.handler = none
  low    : ∀ r < 4, g.isHeld r = false
  found  : ∃ x bs s' s0, translate s (coreOf k) g.ten .supervisor .read (g.tvec.toNat % 2 ^ 56) = .ok x ∧
             peekRead (tlbFill s (coreOf k) g.ten (g.tvec.toNat % 2 ^ 56)) k g.ten x 64 = (s', some (bs, 0)) ∧
             parseTrapDesc bs = some d ∧ handlerTgt s' k g.ten d.hbase = (s0, .ok) ∧
             translate s0 (coreOf k) g.ten .supervisor .write ((frameAt d k).toNat % 2 ^ 56) = .ok y ∧
             hereOf s0 y = some pa ∧ poisoned s0 pa 0x900 = false ∧ lineAbsent s0 pa = false ∧ s1 = dropAnswer s0 k x 64
  steady : y.mp = false

/-- The fields of a frame (R177). -/
def FrameHolds (bs : List Byte) (g : Group) (pi : Nat) (p : Path) (t : TrapRec) : Prop :=
  let bit := fun (b : Bool) => if b then 1 else 0
  let depth := fun sl => if inSlices p.slices sl then (g.stack sl).length else 0
  field bs 0x00 2 = t.cause % 2 ^ 16 ∧ field bs 0x02 1 = pi % 256 ∧
  field bs 0x03 1 = bit (!t.spill) + 2 * bit t.hdrt + 4 * bit t.next + 8 * bit t.defer ∧
  field bs 0x04 4 = t.hdr % 2 ^ 32 ∧ field bs 0x08 4 = t.word % 2 ^ 32 ∧
  (p.slices ≠ 0 → field bs 0x0C 4 = depth (lowBit 16 p.slices.toNat) % 2 ^ 32) ∧
  field bs 0x10 8 = p.code.kbase.toNat ∧ field bs 0x18 4 = p.code.klen % 2 ^ 32 ∧ field bs 0x1C 4 = t.code % 2 ^ 32 ∧
  field bs 0x20 8 = t.lanes.toNat ∧ field bs 0x28 8 = t.fault.toNat ∧ field bs 0x30 8 = t.done.toNat ∧
  field bs 0x38 8 = p.slices.toNat ∧ field bs 0x40 8 = t.addr.toNat ∧ field bs 0x48 8 = 0 ∧
  field bs 0x50 8 = t.lanes.toNat ∧ field bs 0x58 4 = (if t.defer then t.opword % 2 ^ 32 else 0) ∧
  ∀ sl < 16, field bs (0x60 + sl) 1 = depth sl % 256

/-- The handler has started (R35, R176): EXEC is FAULT, the code is the handler's at its first word, v0 to v3 are U and
persistent in every slice with no poisoned lane (R317: a write clears the mark), their marks kept for the return, which is the
model's choice (log entry 85), and nothing else of the group has changed. -/
structure HandlerStarted (g g' : Group) (k pi : Nat) (p : Path) (t : TrapRec) (d : TrapDesc) : Prop where
  only   : g' = { g with regs := g'.regs, paths := g'.paths, handler := g'.handler, wcount := g'.wcount, rpoison := g'.rpoison }
  runs   : ∃ q, g'.path pi = some q ∧ q.exec = t.fault ∧ q.spot = .boundary 0 ∧
             q.code = ⟨d.hbase, d.hlen, .supervisor⟩ ∧ q.slices = p.slices ∧ q.park = none ∧ q.only = none ∧ q.quiet = false ∧
             q.owes = []
  others : ∀ j, j ≠ pi → g'.path j = g.path j
  kept   : ∃ h, g'.handler = some h ∧ h.path = pi ∧ h.fb = frameAt d k ∧ h.trap = t ∧ h.code = p.code ∧ h.spot = p.spot ∧
             h.slices = p.slices ∧ h.entry = pi ∧ h.owes = p.owes ∧ (∀ sl < 16, h.depths.getD sl 0 = (g.stack sl).length) ∧
             ∀ r, tget h.marks r = if r < 4 then tget g.rpoison r else none
  marks  : ∀ r, tget g'.rpoison r = if r < 4 then none else tget g.rpoison r
  regs   : ∀ r : VR, 4 ≤ r.toNat → g'.reg r = g.reg r
  low    : ∀ r : VR, r.toNat < 4 →
             (g'.reg r).val = .uni (frameAt d k + BitVec.ofNat 64 ([0, 0x900, 0xB20, 0xD40].getD r.toNat 0)) ∧
             ∀ sl < 16, nibble (g'.reg r).nib sl = if sl < g.w / 4 then 8 else 0

/-- A trap t of gang pi of group k enters the handler: the handler starts, other groups stay, and with no trace stream
and no counted page in the way the frame block holds the frame and the images of v0 to v3 as they stood. -/
def EntersAt (i : Instr) (t : TrapRec) (s : State) (k : Nat) (g : Group) (pi : Nat) (p : Path) (d : TrapDesc) (y : Xlate)
    (pa : Nat) (s1 : State) : Prop :=
  ∃ t' g', exec i s = .next t' ∧ tget t'.groups k = some g' ∧ HandlerStarted g g' k pi p t d ∧
    (∀ j, j ≠ k → tget t'.groups j = tget s.groups j) ∧
    (Memory.wf s1.mem = true → (obsOf s1 (coreOf k)).en = false → y.cnt = false → pa % 4096 = 0 →
      FrameHolds (readBytes t' g.ten pa 0x80) g pi p t ∧
      ∀ r : VR, r.toNat < 4 →
        let im := (g.reg r).image g.w r.toNat
        im.length ≤ 0x220 → readBytes t' g.ten (pa + 0x80 + 0x220 * r.toNat) im.length = im)
/-- The same for the executing gang. -/
def Enters (i : Instr) (t : TrapRec) (s : State) (g : Group) (p : Path) : TrapDesc → Xlate → Nat → State → Prop :=
  EntersAt i t s s.cur g s.path p

/-! ### Special registers and trampolines (R66, R187) -/

/-- `Writes` for a result that depends on the rest of the part. -/
def WritesAt (i : Instr) (u : Use) (d : VR) (cc : CC) (sh : State → Group → Path → Option Shape)
    (f : State → Group → Path → Nat → Word) : Prop :=
  ∀ s g p, Clear u s g p → WithinBudget u d cc s g p (sh s g p) (f s g p) →
    ∃ t g', exec i s = .next t ∧ Advanced u.len s t g g' p ∧ SameButRegs g g' ∧
      Wrote u d cc (sh s g p) (f s g p) s.path g g' p

/-- An instruction that changes only fields of its own group: h says which. -/
def Sets (i : Instr) (u : Use) (s : State) (g : Group) (p : Path) (h : Group → Group) : Prop :=
  ∃ t g', exec i s = .next t ∧ Advanced u.len s t g g' p ∧
    g' = { h (released g p u) with paths := g'.paths, wcount := g'.wcount }

/-- An instruction that writes f to register d in a gang with an active lane, as `Writes` says, and that only reads its
operands and advances where the gang has none (R124, R131). -/
def WritesIfActive (i : Instr) (u : Use) (d : VR) (cc : CC) (sh : Group → Path → Option Shape) (f : Group → Path → Nat → Word) :
    Prop :=
  ∀ s g p, Clear u s g p →
    (p.active = 0 → Sets i u s g p fun h => h) ∧
    (p.active ≠ 0 → WithinBudget u d cc s g p (sh g p) (f g p) →
      ∃ t g', exec i s = .next t ∧ Advanced u.len s t g g' p ∧ SameButRegs g g' ∧ Wrote u d cc (sh g p) (f g p) s.path g g' p)

/-- A trap of the whole executing gang with a cause, where it stands. -/
def Traps (i : Instr) (s : State) (g : Group) (p : Path) (cause : Nat) : Prop :=
  exec i s = .next (takeTrap s s.cur g s.path p (p.trapRec cause))

/-- The clause that a trampoline returns to (R187): a legal header at hdr, and a place in it or just behind it. -/
def ReturnsTo (s : State) (g : Group) (p : Path) (hdr ret : Nat) (s1 : State) (sp : Spot) : Prop :=
  hdr < p.code.klen ∧ ∃ h, fetchWord s s.cur g p hdr = (s1, .word h) ∧ clauseOk h hdr p.code.klen = true ∧
    ((hdr < ret ∧ ret ≤ hdr + hCount h ∧ sp = .inside hdr h ret) ∨ (ret = hdr + hCount h + 1 ∧ sp = .boundary ret))

/-- The return to (HDR, RET) fails (R187): beyond the kernel or at an illegal header ILLHDR, at a place outside the clause BADTGT, and
what the fetch of the header meets; cause, CODE and ADDR of the trap. -/
def ReturnFails (s : State) (g : Group) (p : Path) (hdr ret : Nat) (s1 : State) (cause code : Nat) (va : Word) : Prop :=
  let at_ := p.code.kbase + BitVec.ofNat 64 (4 * hdr)
  (p.code.klen ≤ hdr ∧ s1 = s ∧ cause = 0x01 ∧ code = 0 ∧ va = 0) ∨
  (hdr < p.code.klen ∧
    ((fetchWord s s.cur g p hdr = (s1, .fault code) ∧ cause = 0x0E ∧ va = at_) ∨
     (fetchWord s s.cur g p hdr = (s1, .poison) ∧ cause = 0x0F ∧ code = 0 ∧ va = at_) ∨
     ∃ h, fetchWord s s.cur g p hdr = (s1, .word h) ∧ code = 0 ∧ va = 0 ∧
       ((clauseOk h hdr p.code.klen = false ∧ cause = 0x01) ∨
        (clauseOk h hdr p.code.klen = true ∧ ¬ (hdr < ret ∧ ret ≤ hdr + hCount h + 1) ∧ cause = 0x06))))

/-- The returns of a list of slices, one after the other, with their links and places; those of none fail, with one trap. -/
def ReturnsAll (s : State) (g : Group) (p : Path) (cause code : Nat) (va : Word) : List (Nat × Option Spot) → State → Prop
  | [], s1 => s1 = s
  | (sl, sp) :: rest, s1 =>
    ∃ s2, (let x := ((g.tlink[sl]?).getD 0).toNat
           x / 2 ^ 63 = 1 ∧ match sp with
            | some sp => ReturnsTo s g p (x / 2 ^ 19 % 2 ^ 19) (x % 2 ^ 19) s2 sp
            | none => ReturnFails s g p (x / 2 ^ 19 % 2 ^ 19) (x % 2 ^ 19) s2 cause code va) ∧
      ReturnsAll s2 g p cause code va rest s1

/-! ### Engine instructions (R189 to R211) -/

/-- A 64-byte structure is read at va for the gang with the checks of R151 (R191, R261): the group's record cache gives its
bytes where it holds them, and keeps them otherwise. The state and the group after it are s1 and h. -/
def RecordRead (s : State) (g : Group) (p : Path) (va : Word) (s1 : State) (h : Group) (bs : List Byte) : Prop :=
  va.toNat % 64 = 0 ∧ va.toNat < 2 ^ 56 ∧ h = { g with recs := tput g.recs (va.toNat / 64) bs } ∧
    ∃ x, translate s (coreOf s.cur) g.ten p.code.level .read va.toNat = .ok x ∧
      let t := tlbFill s (coreOf s.cur) g.ten va.toNat
      (tget g.recs (va.toNat / 64) = some bs ∧ s1 = t) ∨
      (tget g.recs (va.toNat / 64) = none ∧ (∀ pa, hereOf s x = some pa → lineAbsent s pa = false) ∧
        syncRead t s.cur g.ten x 64 false = (s1, some (bs, 0)))

/-- n structures one after the other: a gather block (R196). -/
def BlockRead (s : State) (g : Group) (p : Path) (va : Word) : Nat → State → Group → List Byte → Prop
  | 0, s1, h, bs => s1 = s ∧ h = g ∧ bs = []
  | n + 1, s1, h, bs => ∃ s2 h2 l rest, l.length = 64 ∧ RecordRead s g p va s2 h2 l ∧
      BlockRead s2 h2 p (va + 64) n s1 h rest ∧ bs = l ++ rest

/-- An engine instruction issues: its operands are read and counted down, and one pending operation joins the group,
with the flag of SETB, owed while a later operation of the clause joins it (R52, R98). `base` is what else of the part has changed by then, with the next serial number. -/
def EngineIssues (i : Instr) (u : Use) (s : State) (base : State → State) (h : Group) (p : Path) (op : POp → Prop) : Prop :=
  ∃ t g' o, exec i s = .next t ∧ op o ∧ Advanced u.len (base t) t h g' (joinFlag (base t) h p u.len o.flag) ∧ o.id + 1 = t.serial ∧ o.slices = p.slices ∧
    o.lanes = p.active ∧ o.word = p.spot.offset ∧ o.level = p.code.level ∧ o.flag = setFlag hSetB p ∧ o.batch = none ∧
    o.done = false ∧ o.halted = false ∧
    g' = { released h p u with ops := h.ops ++ [o], paths := g'.paths, wcount := g'.wcount }

/-- With an empty EXEC an instruction that reads structures reads them and makes the checks of the whole instruction (R35);
then it only reads its operands and advances. `s1` and `h` are the part and the group after these reads. -/
def IdlesAfter (i : Instr) (u : Use) (s s1 : State) (h : Group) (p : Path) : Prop :=
  ∃ t g', exec i s = .next t ∧ Advanced u.len s1 t h g' p ∧ g' = { released h p u with paths := g'.paths, wcount := g'.wcount }

/-- With an empty EXEC an instruction only reads its operands and advances. -/
def IdleWhenEmpty (i : Instr) (u : Use) (s : State) (g : Group) (p : Path) : Prop :=
  Clear u s g p → p.active = 0 → Sets i u s g p fun h => h

/-- The record conditions of a tile product (R194, R195, R196): plane layout, formats, planes and sizes. -/
structure ProductOk (a b : Rec) (m ks pl : Nat) (sc gather : Bool) : Prop where
  planar  : a.layout = 2 ∧ b.layout = 2 ∧ planeSig a.fmt ≤ a.planes ∧ planeSig b.fmt ≤ b.planes
  fmts    : a.fmt ∈ [CT.e5m2, .e4m3, .s4, .bf16, .s8, .f16] ∧
              (b.fmt = a.fmt ∨ (a.fmt ∈ [CT.e4m3, .e5m2] ∧ b.fmt ∈ [CT.e4m3, .e5m2]))
  scaled  : sc = true → a.fmt ∈ [CT.e4m3, .e5m2] ∧ b.fmt ∈ [CT.e4m3, .e5m2]
  trunc   : pl ≤ planeSig a.fmt
  depth   : 32 * (ks + 1) ≤ a.cols ∧ 32 * (ks + 1) ≤ b.rows ∧ 256 ≤ b.cols
  rows    : gather = false → m ≤ a.rows

/-- No row of a tile that the instruction reads is poisoned (R317). -/
def TileClean (s : State) (g : Group) (i : Nat) (rows : List Nat) : Prop := ∀ r ∈ rows, r ∉ (tileAt s g i).poison

/-- One element of an mms (R197): k products added one after the other to C's element, each rounded once. -/
def smallDot (t : CT) (k : Nat) (a b : Nat → Nat) (c : Nat) : Nat :=
  (List.range k).foldl (fun acc x => (fmtF32.fma .rne (ctValue t (a x)) (ctValue t (b x)) (fmtF32.decode acc)).bits) c

/-- The lines of Silo that a transfer's destination touches (R201). -/
def TouchesLine (s : State) (k ten : Nat) (lvl : Level) (src : Rec) (dst : CopyDst) (n : Nat) : Prop :=
  ∃ b ∈ copyBytes src dst, ∃ pa, destPa s k ten lvl b.1 = some pa ∧ isSilo pa = true ∧ pa / 64 = n

/-- Shapes that a collective's records agree in (R203). -/
def collAgrees (o : CollOp) (n : Nat) (a b : Rec) : Prop :=
  a.cols = b.cols ∧ match o with
    | .allreduce _ | .bcast => b.rows = a.rows
    | .redscat _ => a.rows = n * b.rows
    | .allgather => b.rows = n * a.rows
    | .alltoall => a.rows = b.rows ∧ a.rows % n = 0
/-- The formats of a reduction. -/
def reducible : List CT := [.f32, .bf16, .f16, .s32, .s64, .n32, .n64]
def isReduction : CollOp → Bool
  | .allreduce _ | .redscat _ => true
  | .allgather | .bcast | .alltoall => false

/-- ccol of one form (R203): a registered communicator, and records that agree; the call joins the rank's calls, and with an
empty EXEC nothing follows the checks. -/
def CollIssues (i : Instr) (co : CollOp) (a b d : VR) : Prop :=
  ∀ s g p, let u : Use := { rd := [a, b, d], uni := [a, b, d], len := 2 }
    let at_ := fun (r : VR) => uniAt g p r
    ∀ s1 h1 s2 h2 s3 h3 bs ba bb c ra rb, Clear u s g p →
      RecordRead s g p (at_ a) s1 h1 bs → RecordRead s1 h1 p (at_ b) s2 h2 ba → RecordRead s2 h2 p (at_ d) s3 h3 bb →
      parseColl (co == .bcast) bs = some c → parseRec ba = some ra → parseRec bb = some rb →
      ra.layout ≠ 2 → rb.layout ≠ 2 → ra.fmt = rb.fmt → (isReduction co = true → ra.fmt ∈ reducible) →
      collAgrees co c.nrank ra rb → (g.ten, c.cid, c.nrank) ∈ s3.comms →
      let n := (s3.calls.filter fun x => x.ten == g.ten && x.cid == c.cid && x.rank == c.rank).length
      let call : Call := ⟨g.ten, c.cid, n, c.rank, c.nrank, co, c.root, ra.fmt, ra.rows, ra.cols, rb.rows, [], false, false⟩
      let teams := tmod s3.teams g.team fun tm => { tm with effects := true }
      (p.active = 0 → IdlesAfter i u s s3 h3 p) ∧
      (p.active ≠ 0 → g.counter .l < 63 →
        EngineIssues i u s (fun _ => { s3 with serial := s3.serial + 1, calls := s3.calls ++ [call], teams := teams }) h3 p
          fun o => o.cls = .coll ∧ o.kind = .ccol co c ra rb n ∧ o.dest = none ∧ o.accs = [])

/-- Linear index of a point of a coverage field (R209), and where its value lies. -/
def pointIndex (l : Launch) (c : Cov) (x y z : Nat) : Nat := x + l.gx * c.bx * (y + l.gy * c.by_ * z)
def pointVa (l : Launch) (c : Cov) (q : CovPoint) : Word :=
  let i := pointIndex l c q.x q.y q.z
  c.out + BitVec.ofNat 64 (if c.otype = .s4 then i / 2 else i * CT.bytes c.otype)

/-! ### Steps of the part -/

/-- A legal clause header at a unit's offset (R97): COUNT, ECL, SETA, SETB and the reserved bits, and every word inside
the kernel. -/
structure ClauseLegal (h : IWord) (off klen : Nat) : Prop where
  count : 1 ≤ (h.extractLsb' 28 4).toNat ∧ off + (h.extractLsb' 28 4).toNat < klen
  ecl   : h.extractLsb' 25 3 ≠ 7
  seta  : (h.extractLsb' 9 4).toNat ∉ [12, 13, 14]
  setb  : (h.extractLsb' 5 4).toNat ∉ [12, 13, 14]
  zero  : h.extractLsb' 0 2 = 0
/-- A legal literal pool (R99). -/
structure PoolLegal (h : IWord) (off klen : Nat) : Prop where
  kind : h.extractLsb' 28 4 = 0 ∧ h.extractLsb' 25 3 = 7
  len  : 1 ≤ (h.extractLsb' 13 12).toNat ∧ off + (h.extractLsb' 13 12).toNat < klen
  zero : h.extractLsb' 0 13 = 0

/-- The gang stands parked at a regang and no debugger holds it (R21, R334). -/
def AtRegang (p : Path) : Prop := p.park = some .regang ∧ p.stop ≠ .stopped
/-- The gangs of g that merge with p (R21). -/
def Mates (g : Group) (p : Path) (j : Nat) (q : Path) : Prop := g.path j = some q ∧ q.spot = p.spot ∧ q.code = p.code

/-- The teams that a barrier spans (R169). -/
def barrierSpan (s : State) (clu : Bool) (tid : Nat) (t : Team) : List Nat :=
  if clu then (s.teams.filter fun u => u.2.launch = t.launch && u.2.clu = t.clu).map (·.1) else [tid]
/-- A resident or saved group of a team. -/
def GroupOf (s : State) (tid : Nat) (g : Group) : Prop :=
  ∃ t, tget s.teams tid = some t ∧ (g ∈ t.saved ∨ ∃ k ∈ t.gkeys, tget s.groups k = some g)
/-- A group has arrived at barrier i, its accesses before the arrival visible at the scope, or has exited (R169, R170). -/
def Arrived (scp : Scp) (i : Nat) (g : Group) : Prop :=
  let n := (g.barAt[i]?).getD 0
  (n ≠ 0 → SeenBefore g (n - 1) scp) ∧
    ((∀ j < 16, g.path j = none) ∨ (n ≠ 0 ∧ ∀ j p, g.path j = some p → p.arrived.getLsbD i = true))

/-! ### Completions (R149 to R163, R192 to R199) -/

/-- The pending memory operation o of group k has one access left, a, which may perform at pa: the page is not under
migration and not counted, the bytes are not poisoned, and no coverage launch is under way. -/
structure LastAccess (s : State) (k : Nat) (g : Group) (o : POp) (a : Acc) (pa : Nat) (l1 l2 : List Acc) : Prop where
  group : tget s.groups k = some g
  op    : g.op o.id = some o
  cls   : o.cls = .mem
  waits : o.done = false ∧ o.halted = false
  accs  : o.accs = l1 ++ a :: l2
  rest  : ∀ b ∈ l1 ++ l2, b.done = true ∧ b.err = 0
  may   : mayPerform s k g o a [] = true
  here  : hereOf s a.x = some pa
  clean : a.err = 0 ∧ poisoned s pa a.size = false
  plain : a.x.mp = false ∧ a.x.cnt = false ∧ anyCov s = false
  size  : 0 < a.size ∧ pa % 8 + a.size ≤ 8
  mem   : Memory.wf s.mem = true

/-- Every byte outside [pa, pa + n) reads for the tenancy as before, but for the leaf PTEs whose A and D bits the access
sets (R263). -/
def KeptOutside (s t : State) (ten pa n : Nat) (x : Xlate) : Prop :=
  ∀ b, (b < pa ∨ pa + n ≤ b) → (∀ a, x.leaf1 = some a → herePa s a ≠ some b) → (∀ a, x.leaf2 = some a → b / 32 ≠ a / 32) →
    readByte t ten b = readByte s ten b

/-- What lane l of a load or atomic receives: its access's value, extended. -/
def laneResult (o : POp) (l : Nat) : Word :=
  let v := ((o.accs.find? fun a => a.lane == l).elim 0 (·.res))
  match o.kind with
  | .load 1 true => (v.setWidth 8).signExtend 64
  | .load 2 true => (v.setWidth 16).signExtend 64
  | .load 4 true => (v.setWidth 32).signExtend 64
  | .atomic _ .s32 => (v.setWidth 32).signExtend 64
  | _ => v

/-- Register d of an operation takes f in the lanes that were active at issue and are still live (R55, R60, R150). -/
def Receives (g g' : Group) (o : POp) (d : VR) (cc : CC) (f : Nat → Word) : Prop :=
  (∀ r, r ≠ d → g'.reg r = g.reg r) ∧ (o.lanes &&& g.live = 0 → g'.reg d = g.reg d) ∧
  (o.lanes &&& g.live ≠ 0 →
    (∀ l < g.w, l < 64 → (g'.reg d).val.lane l = if bitOf (o.lanes &&& g.live) l then f l else (g.reg d).src l) ∧
    ∀ sl < 16, nibble (g'.reg d).nib sl = if inSlices (o.slices &&& slicesOf g.live) sl && decide (sl < g.w / 4) then 8 + cc.toNat else nibble (g.reg d).nib sl)

/-- After a step the group's operation has completed; nothing of the other groups has changed. -/
def Completes (i : Instr) (s : State) (k : Nat) (o : POp) (say : State → Group → Prop) : Prop :=
  ∃ t g', exec i s = .next t ∧ tget t.groups k = some g' ∧ (∀ j, j ≠ k → tget t.groups j = tget s.groups j) ∧
    (∀ q ∈ g'.ops, q.id = o.id → q.done = true) ∧ say t g'

/-- A matrix operation whose turn has come (R193). -/
structure MatTurn (s : State) (k : Nat) (g : Group) (o : POp) : Prop where
  group : tget s.groups k = some g
  op    : g.op o.id = some o
  cls   : o.cls = .mat
  waits : o.done = false ∧ o.halted = false
  turn  : ∀ q ∈ olderOps g o, q.done = false → ∀ n, OpKind.tile o.kind = some n → OpKind.tile q.kind ≠ some n
  team  : ∃ t, tget s.teams g.team = some t

/-- Source row and tile row of a product, gathered or not (R195, R196). -/
def productRows (m : Nat) : Option (List (Nat × Nat)) → List (Nat × Nat)
  | some l => l.filter fun x => decide (x.2 < 128)
  | none => (List.range m).map fun x => (x, x)

/-- The elements of a tile. -/
def elemOf (s : State) (g : Group) (i r c : Nat) : BitVec 32 := (tileAt s g i).get r c

/-- An access of an engine touches the leaf PTE at b (R263). -/
def TouchesPte (s : State) (x : Xlate) (b : Nat) : Prop :=
  (∃ a, x.leaf1 = some a ∧ herePa s a = some b) ∨ ∃ a, x.leaf2 = some a ∧ a / 32 = b / 32

/-- An engine's access at a VA finds its page here, neither counted, nor under a move, nor poisoned: its home address (R192, R259). -/
def EngineFinds (s : State) (k ten : Nat) (lvl : Level) (need : Need) (va pa : Nat) : Prop :=
  va < 2 ^ 56 ∧ ∃ x, translate s (coreOf k) ten lvl need va = .ok x ∧ hereOf s x = some pa ∧ x.cnt = false ∧ x.mp = false ∧
    poisoned s pa 1 = false

/-- Translations of a list of addresses stay as they are while the TLB takes up others of the list (R305). -/
def Steady (s : State) (core ten : Nat) (lvl : Level) (vas : List Nat) : Prop :=
  ∀ l : List Nat, (∀ v ∈ l, v ∈ vas) → ∀ need, ∀ v ∈ vas,
    translate (l.foldl (fun q v => tlbFill q core ten v) s) core ten lvl need v = translate s core ten lvl need v

/-- The pending copy o of group k, whose turn has come, has one 4 KiB unit of its destination left; its accesses find their pages
here, and its source lies apart from its destination (R200 to R202). `from_` and `to_` are the home addresses of what it reads and
writes, `used` the addresses of both. -/
structure CopyLast (s : State) (k : Nat) (g : Group) (o : POp) (src : Rec) (dst : CopyDst) (list : Option Word) (sat : Bool) (rm : RM)
    (mine : List (Nat × DByte)) (rowOf : Nat → Nat) (from_ to_ : Nat → Nat) (used : List Nat) : Prop where
  group : tget s.groups k = some g
  op    : g.op o.id = some o
  cls   : o.cls = .copy
  waits : o.done = false ∧ o.halted = false
  turn  : ∀ q ∈ olderOps g o, q.cls = .copy → q.done = true
  kind  : ∃ sva dva n lines unit, o.kind = .copy sva dva src dst list sat rm n lines ∧
            (copyUnits (copyBytes src dst))[n]? = some unit ∧ (copyUnits (copyBytes src dst)).length = n + 1 ∧
            mine = (copyBytes src dst).filter fun x => x.1 / 4096 == unit
  grant : o.granted s k = true
  calm  : anyCov s = false ∧ Memory.wf s.mem = true
  apart : copyOverlaps s k g.ten o.level src (copyBytes src dst) = false
  rows  : ∀ x ∈ mine, ∀ c ∈ destCoords (copyForm src dst) x.2, rowOf c.1 < src.rows ∧
            match list with
            | none => rowOf c.1 = c.1
            | some l => (∀ va ∈ listBytes l c.1, EngineFinds s k g.ten o.level .read va (from_ va) ∧ va ∈ used) ∧
                rowOf c.1 = leNat ((listBytes l c.1).map fun va => readByte s g.ten (from_ va))
  reads : ∀ x ∈ mine, ∀ c ∈ destCoords (copyForm src dst) x.2, ∀ va ∈ src.elemBytes (rowOf c.1) c.2,
            EngineFinds s k g.ten o.level .read va (from_ va) ∧ va ∈ used
  puts  : ∀ x ∈ mine, EngineFinds s k g.ten o.level .write x.1 (to_ x.1) ∧ x.1 ∈ used
  once  : ∀ x ∈ mine, ∀ y ∈ mine, to_ x.1 = to_ y.1 → x = y
  steady : Steady s (coreOf k) g.ten o.level used
  spares : ∀ va ∈ used, ∀ need x, translate s (coreOf k) g.ten o.level need va = .ok x → ∀ y ∈ mine, ¬ TouchesPte s x (to_ y.1)

/-- The value of a destination byte (R200, R213, R216): a byte of a converted element; two nibbles of s4, the second kept where the
record ends; or one bit of each of eight elements of a plane. -/
def DestByte (r : Rec) (conv : Nat → Nat → Nat) (old new : Byte) : DByte → Prop
  | .elem i j b => new.toNat = conv i j / 256 ^ b % 256
  | .pair i j =>
    let n := if r.layout = 1 then (i + 1, j) else (i, j + 1)
    new.toNat = conv i j % 16 + 16 * (if n.1 < r.rows ∧ n.2 < r.cols then conv n.1 n.2 % 16 else old.toNat / 16)
  | .plane i q b => ∀ c < 8, new.getLsbD c = (decide (8 * b + c < r.cols) && planeBit r.fmt (conv i (8 * b + c)) q == 1)

/-- The pending stcov o has one write left, a, which may perform at pa: its older stcovs of the same place are done, and
its address translates for writing to x, on a page that is neither under migration nor counted (R209). -/
structure LastCover (s : State) (k : Nat) (g : Group) (o : POp) (nib : Bool) (a : Acc) (x : Xlate) (pa : Nat) (l1 l2 : List Acc) :
    Prop where
  group : tget s.groups k = some g
  op    : g.op o.id = some o
  kind  : o.cls = .cov ∧ o.kind = .stcov nib
  waits : o.done = false ∧ o.halted = false
  accs  : o.accs = l1 ++ a :: l2
  rest  : ∀ b ∈ l1 ++ l2, b.done = true ∧ b.err = 0
  turn  : a.done = false ∧ covTurn g o a = true
  place : a.va.toNat < 2 ^ 56 ∧ translate s (coreOf k) g.ten o.level .write a.va.toNat = .ok x
  may   : mayPerform (tlbFill s (coreOf k) g.ten a.va.toNat) k g { o with accs := [] } { a with x := x, err := 0 } [] = true
  here  : hereOf s x = some pa
  clean : poisoned s pa a.size = false
  plain : x.mp = false ∧ x.cnt = false
  size  : 0 < a.size ∧ pa % 8 + a.size ≤ 8 ∧ (nib = true → a.size = 1)
  mem   : Memory.wf s.mem = true

/-- A step keeps the group's registers. -/
def KeepsRegs (g g' : Group) : Prop := g'.regs = g.regs

/-! ### Teams (R25 to R34, R53, R291, R293) -/

/-- A group right after its start (R53). -/
structure FreshGroup (s : State) (l : Launch) (k : KDesc) (tid gid : Nat) (g : Group) : Prop where
  place   : g.team = tid ∧ g.gid = gid ∧ g.ten = l.ten ∧ g.w = k.w
  regs    : ∀ r, g.reg r = ⟨.dead, 0⟩
  masks   : ∀ r, g.mask r = 0
  fields  : g.allot = k.allot ∧ g.budget = k.budget ∧ g.fpinv = k.fpinv ∧ g.tvec = (tcbOf s l.ten).tvinit
  zeros   : g.ratel = 0 ∧ g.mstat = 0 ∧ g.fstat = 0 ∧ g.wcount = 0 ∧ g.ops = [] ∧ g.closed = [] ∧ g.reports = [] ∧ g.handler = none
  slices  : ∀ sl < 16, g.tlink[sl]? = some 0 ∧ g.stack sl = []
  bars    : ∀ i < 32, g.barAt[i]? = some 0
  live    : l.cov = none → g.live = widthMask k.w
  lanes   : ∀ c, l.cov = some c → ∀ i < 64, bitOf g.live i = ((g.points[i]?).join).isSome
  paths   : ∀ i, i ≠ 0 → g.path i = none
  gang    : if g.live = 0 then g.path 0 = none else ∃ p, g.path 0 = some p ∧ p.exec = g.live ∧ p.spot = .boundary 0 ∧
              p.code = ⟨k.kbase, k.klen, .user⟩ ∧ p.park = none ∧ p.trap = none ∧ p.stop = .none ∧
              ∀ sl < 16, inSlices p.slices sl = decide (g.live.toNat / 2 ^ (4 * sl) % 16 ≠ 0)

/-- A team right after its placement. -/
def FreshTeam (lid : Nat) (k : KDesc) (st : Seat) (u keys : List Nat) (win blk : Nat) (t : Team) : Prop :=
  t.launch = lid ∧ t.index = st.index ∧ t.tx = st.tx ∧ t.ty = st.ty ∧ t.tz = st.tz ∧ t.clu = st.clu ∧ t.crank = st.crank ∧
    t.cores = u ∧ t.gkeys = keys ∧ t.win = win ∧ t.winLen = k.silo ∧ t.spblk = blk ∧
    t.spb = k.sppool + BitVec.ofNat 64 (blk * (k.teamg * k.w * k.spill + k.teamg * 64 * (16 + 8 * k.w))) ∧
    t.mode = .running ∧ t.ended = false ∧ t.effects = false ∧ ∀ b < 16, t.bars[b]? = some 0

/-! ### Packets (R36 to R50) -/

/-- A packet that a claim has read and whose turn to start has come (R41). -/
structure Turn (s : State) (qn : Nat) (q : Queue) (f : Flight) (type : Nat) : Prop where
  queue : tget s.queues qn = some q
  here  : flightAt q f.index = some f
  kind  : pType f.bytes = type
  turn  : myTurn q f = true
  once  : (q.flights.map fun x => (x.index, x.rep)).Nodup
  calm  : q.restart = []
  free  : ∀ x ∈ q.flights, x.index = f.index → x.started = true → x.finished = true

/-- A loop of the queue is still running (R45). -/
def LoopRuns (q : Queue) (l : Nat) : Prop := ∃ x ∈ q.flights, x.index = l ∧ x.rep = none ∧ x.started = true ∧ x.finished = false

/-- The release of a packet's completion has been made: it is at dev, or all that this part had sent to others when the
completion began has been acknowledged (R242, R245). -/
def Released (s : State) (f : Flight) : Prop := pRel f.bytes < 5 ∨ Settled s (f.relAt.getD s.serial) .sys

/-- In t the packet f of queue qn has completed with a code: RD passes it where it is the oldest, unless a write of the
front end has to wait for its acknowledgement, a stage-2 fault or a page that is being moved (R38, R264, R304); a repetition stays
while its loop runs; its copy is kept, and its notifications are posted (R37, R42, R45, R349). -/
def PacketEnds (s t : State) (qn : Nat) (q : Queue) (f : Flight) (code : Nat) : Prop :=
  let detail := leBytes 8 qn ++ leBytes 8 f.index ++ leBytes 8 code
  ∃ q', tget t.queues qn = some q' ∧ q.rd ≤ q'.rd ∧
    (∀ l, f.rep = some l → LoopRuns q l → ∃ x ∈ q'.flights, x.index = f.index ∧ x.rep = some l ∧ x.finished = true) ∧
    (f.rep = none → q'.completed f.index = true) ∧
    (f.rep = none → f.index = q.rd →
      q.rd < q'.rd ∨ unacked t (.queue qn) = true ∨ feWriteWaits t q.ten (q.slotVa q.rd) = true ∨
        feWriteWaits t q.ten q.desc.rda.toNat = true) ∧
    (f.rep = none → q.copies.length + q.flights.length < 73 → tget q'.copies f.index = some f.orig) ∧
    (pNote f.bytes = true → (⟨1, q.ten, detail, s.time⟩ : Note) ∈ t.notes) ∧
    (code ≠ 0 → pSignal f.bytes = 0 → (⟨8, q.ten, detail, s.time⟩ : Note) ∈ t.notes)

/-- The queue halts at an index with a code, and what had not started is withdrawn, but for the repetitions of loops that
run on (R49, R50). -/
def HaltsAt (i : Instr) (s : State) (qn : Nat) (q : Queue) (index code : Nat) : Prop :=
  ∃ t q', exec i s = .next t ∧ tget t.queues qn = some q' ∧ q'.halted = some code ∧ q'.nstart = index ∧ q'.rd = q.rd ∧
    (∀ x ∈ q'.flights, x.started = true ∨ x.finished = true ∨ ∃ l, x.rep = some l ∧ LoopRuns q l) ∧ (∀ x ∈ t.tickets, x.1 ≠ qn) ∧
    (⟨2, q.ten, leBytes 8 qn ++ leBytes 8 q.rd ++ leBytes 8 code, s.time⟩ : Note) ∈ t.notes

/-- The completion leaves RD where it is: another packet is the oldest, and it has not completed. -/
def RdStays (q : Queue) (f : Flight) : Prop :=
  (f.rep.isSome = true ∨ f.index ≠ q.rd) ∧ ∀ x ∈ q.flights, x.index = q.rd → x.rep = none → x.finished = false

/-- The 64-bit word at a VA of a tenancy, as the front end's atomic finds it after the leaf's A and D bits, takes `f` of
itself (R46), where no coverage output can lie over it (R209). -/
def WordBecomes (s t : State) (ten va : Nat) (f : Nat → Nat) : Prop :=
  ∀ pa x, fePa s ten .atomic va = some (pa, x) → pa % 8 = 0 → poisoned s pa 8 = false → lineAbsent s pa = false → Memory.wf s.mem = true →
    anyCov s = false → readNat t ten pa 8 = f (readNat (setAD s ten x true) ten pa 8) % 2 ^ 64

/-! ### Tenancies (R313) -/

/-- In t nothing of tenancy `ten` is resident, registered, translated, owned or in force (R313): its teams, views, keys,
granules and translations are gone, its queues are halted with KILLED, and a notification says so. -/
structure TenancyGone (s t : State) (ten : Nat) : Prop where
  groups  : ∀ k g, tget t.groups k = some g → g.ten ≠ ten ∧ (k, g) ∈ s.groups
  launches : ∀ k l, tget t.launches k = some l → l.ten ≠ ten
  views   : ∀ r ∈ t.trellis, r ∈ s.trellis ∧ r.ten ≠ ten
  tlb     : (∀ e ∈ t.tlb, e.ten ≠ ten) ∧ (∀ e ∈ t.nonleafs, e.ten ≠ ten) ∧ ∀ e ∈ t.s2held, e.ten ≠ ten
  waiting : (∀ h ∈ t.held, h.ten ≠ ten) ∧ ∀ m ∈ t.moves, m.2.ten ≠ ten
  owner   : ∀ k, tget t.owner k ≠ some ten
  key     : (tcbOf t ten).key = none ∧ (tcbOf t ten).keyok = false ∧ (tcbOf t ten).en = false ∧ (tcbOf t ten).frozen = false
  queues  : ∀ k q, tget t.queues k = some q → q.ten = ten → q.halted = some 0x0A
  note    : (⟨6, ten, [], s.time⟩ : Note) ∈ t.notes

/-- A management message that the part carries out at once (R14, R339 to R341): port 0 is trained and a firmware image
runs, the message is sealed with the management key and names root, and none before it waits. -/
structure Heard (s : State) (m : Mgmt) : Prop where
  up   : isEth0 s = true ∧ s.bootst ≠ 3
  root : m.auth = true ∧ m.ten = 0xFF
  next : s.mgmtq = []

/-- The answer of a management action, to its sender, at the end of the outbox (R341). Its TEN is the firmware's, which is the
model's choice (log entry 34). -/
def Answered (s t : State) (m : Mgmt) (status : Nat) (data : List Byte) : Prop :=
  ∃ l, t.outbox = l ++ [.mgmt m.src ⟨4, 0xFE, 0, BitVec.ofNat 8 (Nat.log2 data.length), m.tag, 0, BitVec.ofNat 64 status, 0,
    data, s.domidx.toNat, m.port, true⟩]

/-! ### Recovery, messages and management (R312 to R345) -/

/-- The error ring, at its home here (R343), does not lie over the granule at pa. -/
def OutsideRing (s : State) (pa : Nat) : Prop :=
  ∀ i < 2 ^ s.errs.log, let a := normPa s (s.errs.base.toNat + 32 * i)
    granule pa + granuleSize pa ≤ a ∨ a + 32 ≤ granule pa

/-- A message arrives at a port that is up (R14). -/
def Arrives (s : State) (f : Frame) : Prop := bits s.ready.toNat (8 + f.port) (8 + f.port) = 1

/-- A message that the part handles: well formed, sealed with a key it holds, at a port that is up, while it runs an image and has
not stopped (R14, R315, R339, R340, R345). -/
structure Handled (s : State) (f : Frame) (op : Nat) : Prop where
  up    : Arrives s f
  fine  : frameBad f = false ∧ f.auth = true ∧ f.op.toNat = op
  runs  : s.stopped = false ∧ s.bootst ≠ 3

/-- A message that the home accepts for tenancy `ten` (R312, R326, R340). -/
structure Accepts (s : State) (f : Frame) (op ten : Nat) : Prop where
  fine  : Handled s f op
  ready : readyAll s = true
  place : populated s f.addr.toNat = true
  home  : homeTen s f = some ten
  thawed : (tcbOf s ten).frozen = false
  first : heldBefore s ten f.addr.toNat (2 ^ f.size.toNat) = false

/-- The response to a message: its tag and address, a status and data (R340). -/
def respOf (s : State) (f : Frame) (status : Nat) (data : List Byte) : Out :=
  .resp f.src ⟨4, f.ten, 0, f.size, f.tag, f.addr, BitVec.ofNat 64 status, 0, data, s.domidx.toNat, portOf f.src f.addr.toNat, true⟩

/-- The response is sent, after whatever the access itself sends. -/
def Responds (s t : State) (f : Frame) (status : Nat) (data : List Byte) : Prop :=
  ∃ l, t.outbox = s.outbox ++ l ++ [respOf s f status data]

/-- Accesses that carry a tag, of which a message has 32 bits, and wait take a status: 0 done with its bytes, 2 POISON, else refused,
which is the translation fault REMOTE (R156, R303, R340); a read of the part's own takes its answer. -/
def TagAnswered (s t : State) (tag status : Nat) (data : List Byte) : Prop :=
  (∀ r ∈ s.rwaits, r.tag % 2 ^ 32 = tag → r.ans = none → r.n ≠ 4097 → { r with ans := some (status, data) } ∈ t.rwaits) ∧
  ∀ k g o a n, tget s.groups k = some g → o ∈ g.ops → a ∈ o.accs → a.sent = some n → n % 2 ^ 32 = tag → a.done = false →
    ∃ g' o' a', tget t.groups k = some g' ∧ g'.regs = g.regs ∧ o' ∈ g'.ops ∧ o'.id = o.id ∧ o'.kind = o.kind ∧ a' ∈ o'.accs ∧
      a'.lane = a.lane ∧ a'.va = a.va ∧ a'.done = true ∧
      (status = 0 → a'.res = BitVec.ofNat 64 (field data 0 a.size) ∧ a'.err = a.err) ∧
      (status = 2 → a'.err = if o.cls = .cov then 6 else 0x0F) ∧
      (status ≠ 0 → status ≠ 2 → a'.code = 5 ∧ a'.err = if o.cls = .cov then 5 else 0x0E)

/-! ### The invariant of every state -/

/-- Memory is in its canonical form, so equal memories are equal data. -/
def Safe (s : State) : Prop := Memory.wf s.mem = true

end Sys2Proof.Machine
end

