-- ==== Sys2Proof/Certificates/Slice0/Obligations.lean ====
section
/-! DEFINITION. The statements for the provers. -/

open Sys2Proof Sys2Proof.Machine

/-! ### Integer, mask and lane instructions (R112 to R131) -/

/-- R114 for OPC 0x01 to 0x09, in every type, with the shapes of R56 and R123. What a write leaves of the gang's nibbles under an
empty EXEC is the model's choice (log entry 97). -/
def Obligations.IntegerArithmetic : Prop :=
  ∀ (d a b : VR) (cc : CC) (t : IT) (bt : BT),
    let add := onType t Lane.add Lane.add
    let sub := onType t Lane.sub Lane.sub
    let mul := onType t Lane.mul Lane.mul
    let high := onType t Lane.mulhU Lane.mulhS
    let quot := onType t Lane.divU Lane.divS
    let rem := onType t Lane.remU Lane.remS
    let low := onType t Lane.minU Lane.minS
    let top := onType t Lane.maxU Lane.maxS
    let sat := onType t Lane.addsU Lane.addsS
    let carry := onBits bt Lane.addc
    Lane2 (.iadd d a b cc t) d a b cc (wide64 t shapeAdd add) add ∧
    Lane2 (.isub d a b cc t) d a b cc (wide64 t shapeSub sub) sub ∧
    Lane2 (.imul d a b cc t) d a b cc (wide64 t shapeMul mul) mul ∧
    Lane2 (.imulh d a b cc t) d a b cc (uni2 high) high ∧
    Lane3 (.imac d a b cc t) d a b cc (macTo t) ∧
    Lane2 (.idiv d a b cc t) d a b cc (uni2 quot) quot ∧
    Lane2 (.irem d a b cc t) d a b cc (uni2 rem) rem ∧
    Lane2 (.imin d a b cc t) d a b cc (uni2 low) low ∧
    Lane2 (.imax d a b cc t) d a b cc (uni2 top) top ∧
    Lane2 (.iadds d a b cc t) d a b cc (uni2 sat) sat ∧
    Lane2 (.iaddc d a b cc bt) d a b cc (uni2 carry) carry

/-- R117, R121 and R122: the unary rows of OPC 0x0A and 0x0B; mov keeps an A shape (R56); immediates are sign-extended, and movi
and movhi build a constant from 16 bits. What a write leaves under an empty EXEC is the model's choice (log entry 97). -/
def Obligations.UnaryRowsAndConstants : Prop :=
  (∀ (d a : VR) (cc : CC),
     let row64 := fun (i : Instr) (f : (w : Nat) → BitVec w → BitVec w) => Lane1 i d a cc (uni1 (onWord .b64 f)) (onWord .b64 f)
     let row32 := fun (i : Instr) (f : (w : Nat) → BitVec w → BitVec w) => Lane1 i d a cc (uni1 (onWord .b32 f)) (onWord .b32 f)
     (row64 (.inegB64 d a cc) Lane.neg ∧ row64 (.iabsB64 d a cc) Lane.abs ∧ row64 (.notB64 d a cc) Lane.not ∧
       row64 (.popcB64 d a cc) Lane.popc ∧ row64 (.clzB64 d a cc) Lane.clz ∧ row64 (.ctzB64 d a cc) Lane.ctz ∧
       row64 (.brevB64 d a cc) Lane.brev ∧ row64 (.bswapB64 d a cc) Lane.bswap) ∧
     (row32 (.inegB32 d a cc) Lane.neg ∧ row32 (.iabsB32 d a cc) Lane.abs ∧ row32 (.notB32 d a cc) Lane.not ∧
       row32 (.popcB32 d a cc) Lane.popc ∧ row32 (.clzB32 d a cc) Lane.clz ∧ row32 (.ctzB32 d a cc) Lane.ctz ∧
       row32 (.brevB32 d a cc) Lane.brev ∧ row32 (.bswapB32 d a cc) Lane.bswap) ∧
     Lane1 (.movB64 d a cc) d a cc (fun x => if x.tag < 2 then some x else none) fun x => x) ∧
  (∀ (d a : VR) (cc : CC) (imm : BitVec 10) (sh : BitVec 6) (c : BitVec 16),
     let m : Word := imm.signExtend 64
     Lane1 (.iaddi d a cc imm) d a cc (shapeAdd (.uni m)) (fun x => x + m) ∧
     Lane1 (.andi d a cc imm) d a cc (uni1 (fun x => x &&& m)) (fun x => x &&& m) ∧
     Lane1 (.ori d a cc imm) d a cc (uni1 (fun x => x ||| m)) (fun x => x ||| m) ∧
     Lane1 (.xori d a cc imm) d a cc (uni1 (fun x => x ^^^ m)) (fun x => x ^^^ m) ∧
     Lane1 (.shli d a cc sh) d a cc (fun x => shapeShl x sh.toNat) (fun x => x * BitVec.ofNat 64 (2 ^ sh.toNat)) ∧
     Gives (.movi d cc c) { rd := [], wr := [d] } d cc (fun _ _ => some (.uni (c.signExtend 64))) (fun _ _ => c.signExtend 64) ∧
     Lane1 (.movhi d cc c) d d cc (uni1 (fun x => x.extractLsb' 0 48 ++ c)) (fun x => x.extractLsb' 0 48 ++ c))

/-- R115: the amount of a shift is taken modulo the width, and every .b32 result is zero-extended. What a write leaves under an empty
EXEC is the model's choice (log entry 97). -/
def Obligations.ShiftsAndLogic : Prop :=
  ∀ (d a b : VR) (cc : CC) (t : BT),
    let row := fun (i : Instr) (f : (w : Nat) → BitVec w → BitVec w → BitVec w) => Lane2 i d a b cc (uni2 (onBits t f)) (onBits t f)
    Lane2 (.shl d a b cc t) d a b cc (shlShape t) (onBits t Lane.shl) ∧
    row (.shr d a b cc t) Lane.shr ∧ row (.sar d a b cc t) Lane.sar ∧ row (.rot d a b cc t) Lane.rot ∧
    row (.andb d a b cc t) Lane.and ∧ row (.orb d a b cc t) Lane.or ∧ row (.xorb d a b cc t) Lane.xor ∧
    row (.andn d a b cc t) Lane.andn

/-- R116, R118, R119 and R120. What a write leaves under an empty EXEC is the model's choice (log entry 97). -/
def Obligations.BitFieldsComparesAndAddresses : Prop :=
  ∀ (d a b : VR) (cc : CC) (t : IT) (bt : BT) (r : IRel) (k : KR) (sh : BitVec 4),
    Lane2 (.bfx d a b cc t) d a b cc (uni2 (onType t Lane.bfxU Lane.bfxS)) (onType t Lane.bfxU Lane.bfxS) ∧
    Lane3 (.bfi d a b cc bt) d a b cc (bfiTo bt) ∧
    Lane2 (.icmp d a b cc bt r) d a b cc (uni2 (onBits bt (Lane.icmp r))) (onBits bt (Lane.icmp r)) ∧
    Writes (.sel d a b cc k) { rd := [a, b], wr := [d], lanewise := true } d cc (fun _ _ => none)
      (fun g _ l => if bitOf (g.mask k) l then g.val a l else g.val b l) ∧
    Lane2 (.lea d a b cc sh) d a b cc (fun x y => (shapeShl y sh.toNat).bind (shapeAdd x))
      (fun x y => x + y * BitVec.ofNat 64 (2 ^ sh.toNat))

/-- R124: the lowest active lane's value (nothing with none), G, A and the tag code; affine traps NOTUNIF on an operand that is not U.
A quiet read of a register that no slice holds, which shape gives 0, and what a write leaves under an empty EXEC are the model's
choices (log entries 98, 97). -/
def Obligations.ShapeConversions : Prop :=
  ∀ (d a b : VR) (cc : CC),
    WritesIfActive (.unif d a cc) { rd := [a], wr := [d] } d cc
      (fun g p => some (.uni ((activeList p).head?.elim 0 (g.val a)))) (fun g p _ => (activeList p).head?.elim 0 (g.val a)) ∧
    Lane1 (.matz d a cc) d a cc (fun _ => none) (fun x => x) ∧
    Writes (.affine d a b cc) { rd := [a, b], uni := [a, b], wr := [d] } d cc
      (fun g p => some (.aff (uniAt g p a) (uniAt g p b)))
      (fun g p l => uniAt g p a + BitVec.ofNat 64 l * uniAt g p b) ∧
    Gives (.shape d a cc) { rd := [a], wr := [d] } d cc
      (fun g _ => some (.uni (BitVec.ofNat 64 ((g.reg a).val.tag % 3)))) (fun g _ => BitVec.ofNat 64 ((g.reg a).val.tag % 3)) ∧
    ∀ s g p, curGang s = some (g, p) → g.isHeld d.toNat = false → g.isHeld a.toNat = false → g.isHeld b.toNat = false →
      g.handler = none → g.reports = [] → d.toNat < g.allot → a.toNat < g.allot → b.toNat < g.allot →
      ((g.reg a).val.isUni = false ∨ (g.reg b).val.isUni = false) →
      exec (.affine d a b cc) s = .next (takeTrap s s.cur g s.path p (p.trapRec 0x08))

/-- R126, R127 and R128: masks are written in the lanes of the gang's slices alone, and EXEC never leaves the live mask. What a
register write leaves under an empty EXEC is the model's choice (log entry 97). -/
def Obligations.MaskRows : Prop :=
  ∀ (d a b : KR) (v x : VR) (cc : CC),
    let bit := fun (k : KR) (g : Group) (l : Nat) => bitOf (g.mask k) l
    MaskWrites (.mand d a b) { rd := [] } d (fun g _ l => bit a g l && bit b g l) ∧
    MaskWrites (.mor d a b) { rd := [] } d (fun g _ l => bit a g l || bit b g l) ∧
    MaskWrites (.mxor d a b) { rd := [] } d (fun g _ l => bit a g l != bit b g l) ∧
    MaskWrites (.mandn d a b) { rd := [] } d (fun g _ l => bit a g l && !bit b g l) ∧
    MaskWrites (.mnot d a) { rd := [] } d (fun g _ l => !bit a g l) ∧
    MaskWrites (.mfrom d v) { rd := [v] } d (fun g p l => bitOf p.active l && g.val v l != 0) ∧
    MaskWrites (.exget d) { rd := [] } d (fun _ p l => bitOf p.exec l) ∧
    MaskWrites (.mset d v) { rd := [v], uni := [v] } d (fun g p l => bitOf (uniAt g p v) l) ∧
    (let count := fun (g : Group) (_ : Path) => BitVec.ofNat 64 ((List.range g.w).countP (bit a g))
     Gives (.mpopc v a cc) { rd := [], wr := [v] } v cc (fun g p => some (.uni (count g p))) count) ∧
    (let low := fun (g : Group) (_ : Path) => BitVec.ofNat 64 (((List.range g.w).find? (bit a g)).getD 64)
     Gives (.mfirst v a cc) { rd := [], wr := [v] } v cc (fun g p => some (.uni (low g p))) low) ∧
    Writes (.mto v a cc) { rd := [], wr := [v] } v cc (fun _ _ => none) (fun g _ l => if bit a g l then 1 else 0) ∧
    (let votes := fun (g : Group) (p : Path) =>
       (activeList p).foldl (fun acc l => if g.val x l = 0 then acc else acc ||| (1 : Word) <<< l) 0
     Gives (.ballot v x cc) { rd := [x], wr := [v] } v cc (fun g p => uni1 (fun _ => votes g p) (g.shp p x)) votes) ∧
    ∀ s g p, Clear { rd := [] } s g p →
      let e := g.mask a &&& g.live &&& laneMask p.slices
      let s' := emit s s.cur s.path 1 0 (lanesField g.w e)
      ∃ t g', exec (.exset a) s = .next t ∧ Advanced 1 s' t g g' { p with exec := e } ∧
        g' = { g with paths := g'.paths, wcount := g'.wcount }

/-- R129, R130, R131 and R317: sources by lane number, zero beyond the group, a poisoned source lane taking POISON, and sums over the
gang's active lanes, which write nothing where there is none. What a write leaves under an empty EXEC is the model's choice (log
entry 97). -/
def Obligations.LaneExchange : Prop :=
  ∀ (d a b : VR) (cc : CC) (imm : BitVec 10) (exc : Bool) (t : IT),
    (let src := fun (g : Group) (l : Nat) => (g.val b l).toNat % g.w
     Exchanges (.xlane d a b cc) { rd := [a, b], wr := [d] } d a cc (fun g p => exchangeShape g p a (src g)) fun g l => some (src g l)) ∧
    (wellFormed (.xbfly d a cc imm) = true →
      Exchanges (.xbfly d a cc imm) { rd := [a], wr := [d] } d a cc (fun g p => exchangeShape g p a (fun l => l ^^^ imm.toNat))
        fun _ l => some (l ^^^ imm.toNat)) ∧
    (wellFormed (.xshift d a cc imm) = true →
      Exchanges (.xshift d a cc imm) { rd := [a], wr := [d] } d a cc (fun _ _ => none) fun g l =>
        if 0 ≤ (l : Int) + imm.toInt ∧ (l : Int) + imm.toInt < g.w then some ((l : Int) + imm.toInt).toNat else none) ∧
    (wellFormed (.xbcast d a cc imm) = true →
      Exchanges (.xbcast d a cc imm) { rd := [a], wr := [d] } d a cc (fun g p => exchangeShape g p a (fun _ => imm.toNat))
        fun _ _ => some imm.toNat) ∧
    WritesIfActive (.scanadd d a cc exc t) { rd := [a], wr := [d] } d cc (fun _ _ => none)
      (fun g p l => laneSum t g p a (fun j => if exc then decide (j < l) else decide (j ≤ l))) ∧
    (let all := fun (g : Group) (p : Path) => laneSum t g p a (fun _ => true)
     WritesIfActive (.greduceAdd d a cc t) { rd := [a], wr := [d] } d cc (fun g p => uni1 (fun _ => all g p) (g.shp p a))
       fun g p _ => all g p) ∧
    (let low := laneFold t Lane.minU Lane.minS
     WritesIfActive (.greduceMin d a cc t) { rd := [a], wr := [d] } d cc (fun g p => uni1 (fun _ => low g p a) (g.shp p a))
       fun g p _ => low g p a) ∧
    (let top := laneFold t Lane.maxU Lane.maxS
     WritesIfActive (.greduceMax d a cc t) { rd := [a], wr := [d] } d cc (fun g p => uni1 (fun _ => top g p a) (g.shp p a))
       fun g p _ => top g p a)

/-- R61: a read counts down in the gang's slices, once for each operand field; at zero the register is no longer LIVE
there, a count of 0 (persistent) stays, other slices keep theirs, and a register LIVE nowhere is Dead. What sel's write leaves under an
empty EXEC is the model's choice (log entry 97). -/
def Obligations.ReadsCountDown : Prop :=
  ∀ (k : KR) (d a : VR) (cc : CC) (s : State) (g : Group) (p : Path), p.quiet = false →
    (Clear { rd := [a] } s g p → ∃ t g', exec (.mfrom k a) s = .next t ∧ tget t.groups s.cur = some g' ∧
      (∀ sl < 16, nibble (g'.reg a).nib sl =
        if inSlices p.slices sl then countDown (nibble (g.reg a).nib sl) else nibble (g.reg a).nib sl) ∧
      (g'.reg a).val = (if (List.range 16).any (fun sl => decide (8 ≤ nibble (g'.reg a).nib sl)) then (g.reg a).val else .dead) ∧
      ∀ r, r ≠ a → g'.reg r = g.reg r) ∧
    (Clear { rd := [a, a], wr := [d], lanewise := true } s g p → d ≠ a →
      WithinBudget { rd := [a, a], wr := [d], lanewise := true } d cc s g p none (g.val a) →
      ∃ t g', exec (.sel d a a cc k) s = .next t ∧ tget t.groups s.cur = some g' ∧
        ∀ sl < 16, nibble (g'.reg a).nib sl =
          if inSlices p.slices sl then countDown (countDown (nibble (g.reg a).nib sl)) else nibble (g.reg a).nib sl)

/-! ### Floating point (R132 to R148) -/

/-- R136, R141, R142, R143, R146 and R147: every row that rounds completes in all its types and modes, writes the result
that `Fmt` gives the operands' values, and adds the flags of its active lanes to FSTAT. What it leaves of a register under an empty
EXEC is the model's choice (log entry 97). -/
def Obligations.FloatingPointRows : Prop := RoundingRows FltWrites

/-- R137 to R140, R146 and R148, bit by bit: signs, comparisons, classes, minima and maxima, exact bf16 halves and order
keys, with the only flag, NV, as each rule gives it. What it leaves of a register under an empty EXEC is the model's choice (log
entry 97). -/
def Obligations.FloatBitRows : Prop := BitRows FltWrites

/-- R134: RND of an exact non-zero value m × 2^e gives the neighbour that the mode names, at the unit that the format has there,
or what an overflow gives; OF and UF are judged on its rounding with the exponent unbounded, and NX is raised exactly where the
delivered result differs. -/
def Obligations.RoundingGivesTheNamedNeighbour : Prop :=
  ∀ (t : FT) (rm : RM) (neg : Bool) (m : Nat) (e : Int), 0 < m →
    Rounded (fmtOf t) rm neg (dyadicCompare m e) ((fmtOf t).round rm neg m e false)

/-- R134, R136 and R142 to R145: addition, multiplication, fused multiply-add, division, the square root and its reciprocal, scaling, rounding to
an integral value and every conversion give the rounding of the exact result, and the results and flags named for zeros,
infinities and NaNs. -/
def Obligations.ArithmeticRoundsTheExactResult : Prop :=
  (∀ (t : FT) (rm : RM), ExactRows (fmtOf t) rm ∧ SpecialRows (fmtOf t) rm) ∧
  (∀ (t : FT) (rm : RM) (a : Word), ScalingRows t rm a) ∧
  ∀ (sat : Bool) (rm : RM) (ct cf : CT) (a : Word),
    (∀ g, CT.kind ct = .flt g → ∃ r : FR, cvtFn sat rm ct cf a = r.lane ∧ ConvertsToFloat g sat rm (ctValue cf a.toNat) r) ∧
    ∀ w sg, CT.kind ct = .int w sg → ConvertsToInt w sg rm (ctValue cf a.toNat) (cvtFn sat rm ct cf a)

/-- R135: with INVEN set, the lanes of any row of class FLT that would raise NV are not written and raise no flag; the others are,
the reads count once, and the gang takes FPINV whose faulting lanes are the invalid ones. That a row which completes in no lane
writes nothing, and what a write leaves of the gang's other slices, are the model's choices (log entries 98, 97). -/
def Obligations.InvalidLanesTrap : Prop := RoundingRows FltTraps ∧ BitRows FltTraps

/-! ### Memory instructions (R149 to R163) -/

/-- R149, R157: the loads of every size issue one access of n bytes for each active lane at A + OFF × n. -/
def Obligations.LoadsIssue : Prop :=
  ∀ (d a : VR) (cc : CC) (acq : Option Scp) (off : BitVec 5),
    LoadIssues (.ldN8 d a cc acq off) 1 false d a cc acq off ∧ LoadIssues (.ldN16 d a cc acq off) 2 false d a cc acq off ∧
    LoadIssues (.ldN32 d a cc acq off) 4 false d a cc acq off ∧ LoadIssues (.ldN64 d a cc acq off) 8 false d a cc acq off ∧
    LoadIssues (.ldS8 d a cc acq off) 1 true d a cc acq off ∧ LoadIssues (.ldS16 d a cc acq off) 2 true d a cc acq off ∧
    LoadIssues (.ldS32 d a cc acq off) 4 true d a cc acq off ∧
    ∀ s g p, let u : Use := { rd := [a], uni := [a], wr := [d] }
      let va := uniAt g p a + BitVec.ofNat 64 (off.toNat * 8)
      Clear u s g p → WithinBudget u d cc s g p (some (.uni 0)) (fun _ => 0) →
      (p.active ≠ 0 → Reachable s g p .read 8 va) →
      Issues (.lduN64 d a cc acq off) u g p s fun o =>
        Issued s g p .read 8 (if p.active = 0 then [] else [(0, va)]) (fun _ => 0) (fun _ => 0) o ∧
          o.kind = .loadu ∧ o.dest = some (d, cc) ∧ o.full = g.fullWrite s.path p d ∧ o.ord = ordering acq .acq ∧
          o.scp = scopeOf acq

/-- R149, R157, R159: the stores issue one access of n bytes for each active lane with S's value, and a store through a
view goes to the element that the lane's coordinates name; a load through a view reads from there. -/
def Obligations.StoresAndViewAccessesIssue : Prop :=
  ∀ (d v a : VR) (w : WR) (cc : CC) (sx : Bool) (rel : Option Scp) (off : BitVec 5),
    StoreIssues (.stB8 v a rel off) 1 v a rel off ∧ StoreIssues (.stB16 v a rel off) 2 v a rel off ∧
    StoreIssues (.stB32 v a rel off) 4 v a rel off ∧ StoreIssues (.stB64 v a rel off) 8 v a rel off ∧
    (∀ s g p ov, let u : Use := { rd := [v, a] }
      let va := fun l => elementVa ov.desc (g.val a l)
      Clear u s g p → g.view w = some ov → ov.desc.mode ≠ 1 →
      (∀ l ∈ activeList p, insideView ov.desc (g.val a l) ∧ Reachable s g p .write (2 ^ ov.desc.esize) (va l)) →
      Issues (.stv v a w) u g p s fun o =>
        Issued s g p .write (2 ^ ov.desc.esize) ((activeList p).map fun l => (l, va l)) (fun k => g.val v (laneAt p k)) (fun _ => 0) o ∧
          o.kind = .store ∧ o.dest = none ∧ o.ord = .rlx ∧ o.view = some (w.toNat, ov)) ∧
    (∀ s g p ov, let u : Use := { rd := [a], wr := [d] }
      let va := fun l => elementVa ov.desc (g.val a l)
      Clear u s g p → WithinBudget u d cc s g p none (fun _ => 0) → g.view w = some ov → ov.desc.mode ≠ 2 →
      (∀ l ∈ activeList p, insideView ov.desc (g.val a l) ∧ Reachable s g p .read (2 ^ ov.desc.esize) (va l)) →
      Issues (.ldv d a w cc sx) u g p s fun o =>
        Issued s g p .read (2 ^ ov.desc.esize) ((activeList p).map fun l => (l, va l)) (fun _ => 0) (fun _ => 0) o ∧
          o.kind = .load (2 ^ ov.desc.esize) sx ∧ o.dest = some (d, cc) ∧ o.ord = .rlx ∧ o.view = some (w.toNat, ov))

/-- R160: one atomic for each active lane at A, with B's and C's values, its order, scope and type. -/
def Obligations.AtomicsIssue : Prop :=
  ∀ (d a b c : VR) (cc : CC) (ord : Ord) (scp : Scp) (ty : AT),
    AtomIssues (.atomAdd d a b cc ord scp ty) .add d a b none cc ord scp ty ∧
    AtomIssues (.atomAnd d a b cc ord scp ty) .and d a b none cc ord scp ty ∧
    AtomIssues (.atomOr d a b cc ord scp ty) .or d a b none cc ord scp ty ∧
    AtomIssues (.atomXor d a b cc ord scp ty) .xor d a b none cc ord scp ty ∧
    AtomIssues (.atomMin d a b cc ord scp ty) .min d a b none cc ord scp ty ∧
    AtomIssues (.atomMax d a b cc ord scp ty) .max d a b none cc ord scp ty ∧
    AtomIssues (.atomExch d a b cc ord scp ty) .exch d a b none cc ord scp ty ∧
    AtomIssues (.atomCas d a b c cc ord scp ty) .cas d a b (some c) cc ord scp ty ∧
    AtomIssues (.atomFadd d a b cc ord scp ty) .fadd d a b none cc ord scp ty ∧
    AtomnIssues (.atomnAdd a b ord scp ty) .add a b ord scp ty ∧ AtomnIssues (.atomnAnd a b ord scp ty) .and a b ord scp ty ∧
    AtomnIssues (.atomnOr a b ord scp ty) .or a b ord scp ty ∧ AtomnIssues (.atomnXor a b ord scp ty) .xor a b ord scp ty ∧
    AtomnIssues (.atomnMin a b ord scp ty) .min a b ord scp ty ∧ AtomnIssues (.atomnMax a b ord scp ty) .max a b ord scp ty ∧
    AtomnIssues (.atomnFadd a b ord scp ty) .fadd a b ord scp ty

/-- R162 and R68: stspill stores the image of D as it stands, 8 bytes at a time from A on, and reads D and A quietly; ldspill
reads as many bytes as the image's TAG says, and names D with no count of its own. -/
def Obligations.RegisterImagesIssue : Prop :=
  ∀ (d a : VR) (s : State) (g : Group) (p : Path),
    let v : Use := { rd := [], uni := [a], wr := [d, a] }
    let u : Use := { rd := [a], uni := [a], wr := [d] }
    let words := fun (va : Word) n => (List.range n).map fun i => (0, va + BitVec.ofNat 64 (8 * i))
    p.active ≠ 0 →
    (let bytes := (g.reg d).image g.w d.toNat
     let to_ := words (g.val a ((activeList p).headD 0)) (bytes.length / 8)
     Clear v s g p → (tget g.rpoison d.toNat).getD 0 = 0 → (tget g.rpoison a.toNat).getD 0 &&& p.active = 0 →
      (∀ x ∈ to_, Reachable s g p .write 8 x.2) →
      Issues (.stspill d a) v g p s fun o => o.kind = .spill ∧ o.dest = none ∧
        (o.accs.map fun x => (x.lane, x.va)) = to_ ∧ (o.accs.map fun x => leBytes 8 x.data.toNat).flatten = bytes) ∧
    ∀ s1 tag, Clear u s g p → imageTag s s.cur g p (uniAt g p a) = (s1, some tag) → WithinBudget u d 0 s g p none (fun _ => 0) →
      let at_ := words (uniAt g p a) (imageSize tag g.w / 8)
      (∀ x ∈ at_, Reachable s1 g p .read 8 x.2) →
      IssuesFrom (.ldspill d a) u g p s s1 fun o => o.kind = .unspill d.toNat ∧ o.dest = some (d, 0) ∧
        (o.accs.map fun x => (x.lane, x.va)) = at_

/-- R158: ldlit reads its literal through the instruction cache at the word that LIT counts from its second word, and
gives U under a full write; a literal outside the kernel's KLEN words traps ILLOP. -/
def Obligations.LiteralsLoad : Prop :=
  ∀ (d : VR) (cc : CC) (lit : BitVec 32) (s : State) (g : Group) (p : Path),
    let u : Use := { rd := [], wr := [d], len := 2 }
    let off := (p.spot.offset : Int) + 1 + lit.toInt
    let room := WithinBudget u d cc s g p (some (.uni 0)) (fun _ => 0)
    (∀ s1 w, Clear u s g p → room → 0 ≤ off → off + 1 ≤ p.code.klen → fetchWord s s.cur g p off.toNat = (s1, .word w) →
      WithinBudget u d cc s1 g p (some (.uni (w.setWidth 64))) (fun _ => w.setWidth 64) →
      ∃ t g', exec (.ldlit d cc false lit) s = .next t ∧ Advanced 2 s1 t g g' p ∧ SameButRegs g g' ∧
        Wrote u d cc (some (.uni (w.setWidth 64))) (fun _ => w.setWidth 64) s.path g g' p) ∧
    (∀ s1 s2 lo hi, Clear u s g p → room → 0 ≤ off → off + 2 ≤ p.code.klen → fetchWord s s.cur g p off.toNat = (s1, .word lo) →
      fetchWord s1 s1.cur g p (off.toNat + 1) = (s2, .word hi) →
      WithinBudget u d cc s2 g p (some (.uni (hi ++ lo))) (fun _ => hi ++ lo) →
      ∃ t g', exec (.ldlit d cc true lit) s = .next t ∧ Advanced 2 s2 t g g' p ∧ SameButRegs g g' ∧
        Wrote u d cc (some (.uni (hi ++ lo))) (fun _ => hi ++ lo) s.path g g' p) ∧
    (∀ w64, curGang s = some (g, p) → (off < 0 ∨ (p.code.klen : Int) < off + (if w64 then 2 else 1)) →
      exec (.ldlit d cc w64 lit) s = .next (takeTrap s s.cur g s.path p (p.trapRec 0x02)))

/-- R161: waitv goes on once every active lane has been seen to hold, as an acquire where it names one (R243), and else
parks with the lanes seen so far, which counts as a yield (R33); the operands are read once, and it takes its place in
group order at its issue (R240). What it reads is the scan of its lanes in order, each word at its home: a lane whose word lies at
this part, with no older access to it pending and no poison, holds by the relation between the word, as the tenancy sees it, and
the comparand, both unsigned. -/
def Obligations.WaitvHoldsOrParks : Prop :=
  (∀ (r : WRel) (a b : VR) (acq : Option Scp) (w64 : Bool) (s : State) (g : Group) (p : Path),
     let u : Use := { rd := [a, b], len := 2 }
     let n := if w64 then 8 else 4
     let k := s.cur
     let lanes := (activeList p).map fun l => (l, g.val a l, g.val b l)
     let s0 := { s with serial := s.serial + 1 }
     let s1 := lanes.foldl (fun q x => tlbFill q (coreOf k) g.ten (x.2.1.toNat % 2 ^ 56)) s0
     let w := waitScan k (released g p u) s.serial p.code.level r n acq.isSome s1 0 lanes ⟨s1, 0, 0, 0, 0⟩
     Clear u s g p → p.park = none →
     (∀ l ∈ activeList p, l < g.w ∧ (g.val a l).toNat < 2 ^ 56 ∧ (g.val a l).toNat % n = 0 ∧
       ∃ x, translate s0 (coreOf k) g.ten p.code.level .read (g.val a l).toNat = .ok x) →
     w.bad = 0 → w.ref = 0 →
     (p.active &&& ~~~w.sat = 0 →
       ∃ t g', exec (.waitv r a b acq w64) s = .next t ∧
         Advanced 2 { w.s with cur := k, path := s.path, rcache := t.rcache } t g g' p ∧
         g' = { released g p u with paths := g'.paths, wcount := g'.wcount } ∧
         (acq = none → t.rcache = w.s.rcache) ∧
         (∀ scp, acq = some scp → 2 ≤ Scp.rank scp → t.rcache = w.s.rcache.filter fun l => l.core != coreOf k)) ∧
     (p.active &&& ~~~w.sat ≠ 0 →
       ∃ t g', exec (.waitv r a b acq w64) s = .next t ∧ tget t.groups k = some g' ∧ t.yielded = true ∧
         g'.wcount = 0 ∧ g' = { released g p u with paths := g'.paths, wcount := g'.wcount } ∧
         ∃ addrs cmps, g'.path s.path = some { p with quiet := true, park := some (.waitv s.serial w.sat addrs cmps r w64 acq) } ∧
           ∀ l ∈ activeList p, addrs.getD l 0 = g.val a l ∧ cmps.getD l 0 = g.val b l)) ∧
  ∀ (r : WRel) (acq : Bool) (k l n id : Nat) (g : Group) (lvl : Level) (s : State) (va cmp : Word) (x : Xlate) (pa : Nat), l < 64 →
    translate s (coreOf k) g.ten lvl .read (va.toNat % 2 ^ 56) = .ok x → waitReady s k g id x n acq = true → hereOf s x = some pa →
    let s2 := setAD (dropReadLine s (coreOf k) (pa / 64)) g.ten x false
    poisoned s2 pa n = false →
    let word := readNat s2 g.ten pa n
    let w := waitScan k g id lvl r n acq s 0 [(l, va, cmp)] ⟨s, 0, 0, 0, 0⟩
    w.bad = 0 ∧ w.ref = 0 ∧ (bitOf w.sat l = true ↔ relationHolds r word (cmp.toNat % 2 ^ (8 * n))) ∧
      ∀ j < 64, j ≠ l → bitOf w.sat j = false

/-- R151: of every access to memory the first check that it fails is the cause, its lanes are the faulting ones, ADDR is that of
the lowest, nothing is performed, and the reads have counted (R65); an access through a view makes the checks of R159 first, and a
literal that cannot be fetched traps at ldlit (R158). -/
def Obligations.AccessChecksInOrder : Prop :=
  (∀ (d v a b c : VR) (cc : CC) (m : Option Scp) (off : BitVec 5) (ord : Ord) (scp : Scp) (ty : AT),
    let at_ := fun (n : Nat) (g : Group) (l : Nat) => g.val a l + BitVec.ofNat 64 (off.toNat * n)
    (let load := fun (i : Instr) (n : Nat) => LaneChecks i { rd := [a], wr := [d] } .read n (some (d, cc)) (at_ n)
     load (.ldN8 d a cc m off) 1 ∧ load (.ldN16 d a cc m off) 2 ∧ load (.ldN32 d a cc m off) 4 ∧ load (.ldN64 d a cc m off) 8 ∧
       load (.ldS8 d a cc m off) 1 ∧ load (.ldS16 d a cc m off) 2 ∧ load (.ldS32 d a cc m off) 4) ∧
    (let store := fun (i : Instr) (n : Nat) => LaneChecks i { rd := [v, a] } .write n none (at_ n)
     store (.stB8 v a m off) 1 ∧ store (.stB16 v a m off) 2 ∧ store (.stB32 v a m off) 4 ∧ store (.stB64 v a m off) 8) ∧
    (let atom := fun (i : Instr) (e : List VR) =>
       LaneChecks i { rd := [a, b] ++ e, wr := [d], len := 2 } .atomic (AT.width ty / 8) (some (d, cc)) fun g l => g.val a l
     atom (.atomAdd d a b cc ord scp ty) [] ∧ atom (.atomAnd d a b cc ord scp ty) [] ∧ atom (.atomOr d a b cc ord scp ty) [] ∧
       atom (.atomXor d a b cc ord scp ty) [] ∧ atom (.atomMin d a b cc ord scp ty) [] ∧ atom (.atomMax d a b cc ord scp ty) [] ∧
       atom (.atomExch d a b cc ord scp ty) [] ∧ atom (.atomCas d a b c cc ord scp ty) [c] ∧ atom (.atomFadd d a b cc ord scp ty) []) ∧
    (let atomn := fun (i : Instr) => LaneChecks i { rd := [a, b], len := 2 } .atomic (AT.width ty / 8) none fun g l => g.val a l
     atomn (.atomnAdd a b ord scp ty) ∧ atomn (.atomnAnd a b ord scp ty) ∧ atomn (.atomnOr a b ord scp ty) ∧
       atomn (.atomnXor a b ord scp ty) ∧ atomn (.atomnMin a b ord scp ty) ∧ atomn (.atomnMax a b ord scp ty) ∧
       atomn (.atomnFadd a b ord scp ty)) ∧
    ∀ s g p,
      (let u : Use := { rd := [a], uni := [a], wr := [d] }
       Clear u s g p → WithinBudget u d cc s g p (some (.uni 0)) (fun _ => 0) → p.active ≠ 0 →
         Checks (.lduN64 d a cc m off) u g p s .read 8 true [(0, uniAt g p a + BitVec.ofNat 64 (off.toNat * 8))]) ∧
      (let u : Use := { rd := [a], uni := [a] }
       Clear u s g p → p.active ≠ 0 → Checks (.sigdec a scp) u g p s .atomic 8 true [(0, uniAt g p a)]) ∧
      let words := fun (va : Word) n => (List.range n).map fun i => (0, va + BitVec.ofNat 64 (8 * i))
      (let u : Use := { rd := [], uni := [a], wr := [d, a] }
       Clear u s g p → p.active ≠ 0 → (tget g.rpoison d.toNat).getD 0 = 0 → (tget g.rpoison a.toNat).getD 0 &&& p.active = 0 →
         Checks (.stspill d a) u g p s .write 8 true
           (words (g.val a ((activeList p).headD 0)) (((g.reg d).image g.w d.toNat).length / 8))) ∧
      (let u : Use := { rd := [a], uni := [a], wr := [d] }
       ∀ s1 tag, Clear u s g p → p.active ≠ 0 → WithinBudget u d 0 s g p none (fun _ => 0) →
         imageTag s s.cur g p (uniAt g p a) = (s1, some tag) →
         ChecksFrom (.ldspill d a) u g p s s1 .read 8 true (words (uniAt g p a) (imageSize tag g.w / 8)))) ∧
  (∀ (r : WRel) (a b : VR) (acq : Option Scp) (w64 : Bool) (s : State) (g : Group) (p : Path), let u : Use := { rd := [a, b], len := 2 }
    Clear u s g p → p.park = none → (∀ l ∈ activeList p, l < g.w) →
      Checks (.waitv r a b acq w64) u g p s .read (if w64 then 8 else 4) false ((activeList p).map fun l => (l, g.val a l))) ∧
  (∀ (d v a : VR) (w : WR) (cc : CC) (sx : Bool),
    ViewChecks (.ldv d a w cc sx) { rd := [a], wr := [d] } .read 2 a w (some (d, cc)) ∧
    ViewChecks (.stv v a w) { rd := [v, a] } .write 1 a w none) ∧
  ∀ (d : VR) (cc : CC) (w64 : Bool) (lit : BitVec 32) (s : State) (g : Group) (p : Path) (s1 : State),
    let u : Use := { rd := [], wr := [d], len := 2 }
    let off := (p.spot.offset : Int) + 1 + lit.toInt
    let va := p.code.kbase + BitVec.ofNat 64 (4 * off.toNat)
    Clear u s g p → WithinBudget u d cc s g p (some (.uni 0)) (fun _ => 0) → 0 ≤ off → off + (if w64 then 2 else 1) ≤ p.code.klen →
      (∀ c, fetchWord s s.cur g p off.toNat = (s1, .fault c) →
        exec (.ldlit d cc w64 lit) s = .next (takeTrap s1 s1.cur g s1.path p { p.trapRec 0x0E with code := c, addr := va })) ∧
      (fetchWord s s.cur g p off.toNat = (s1, .poison) →
        exec (.ldlit d cc w64 lit) s = .next (takeTrap s1 s1.cur g s1.path p { p.trapRec 0x0F with addr := va }))

/-! ### Control (R165 to R168) -/

/-- R165 and R109: every conditional form decides slice by slice; br sends the whole gang; a target beyond the kernel or at a word
with TGT clear traps BADTGT for the whole gang before any part of it moves, where some slice takes the branch; and a gang that
parts finds a free path index. -/
def Obligations.BranchesTransfer : Prop :=
  ∀ (k : KR) (T : BitVec 19),
    let r : VR := k.zeroExtend 6
    let four := fun (m : Mask) (sl : Nat) => m.toNat / 2 ^ (4 * sl) % 16
    Branches (.brNz k T) { rd := [r], uni := [r] } T.toNat (fun g p _ => uniAt g p r != 0) ∧
    Branches (.brZ k T) { rd := [r], uni := [r] } T.toNat (fun g p _ => uniAt g p r == 0) ∧
    Branches (.brcAny k T) { rd := [] } T.toNat (fun g p sl => four (g.mask k &&& p.exec) sl != 0) ∧
    Branches (.brcAll k T) { rd := [] } T.toNat (fun g p sl => four (g.mask k &&& p.exec) sl == four p.exec sl) ∧
    Branches (.brcNone k T) { rd := [] } T.toNat (fun g p sl => four (g.mask k &&& p.exec) sl == 0) ∧
    Branches (.brz T) { rd := [] } T.toNat (fun _ p sl => four p.exec sl == 0) ∧
    ∀ s g p s1, Clear { rd := [] } s g p →
      (TargetOk s g p T.toNat s1 → ∃ g', exec (.br T) s = .next (ended p (putGroup s1 s.cur g')) ∧
        Gangs g g' p fun j => if j = s.path then some (p.moved (.boundary T.toNat)) else g.path j) ∧
      BadTarget (.br T) { rd := [] } s g p T.toNat

/-- R166 and R167: call pushes the next unit on the stack of every slice of the gang, 16 entries at most; ret pops each
slice's entry and sends the slice there, parting where they differ; jmpi sends the gang to its U operand. A target that fails its
check stops call and jmpi as R109 says; a full stack traps STKOVF and an empty one STKUNF, for the whole gang. -/
def Obligations.CallsAndReturns : Prop :=
  ∀ (T : BitVec 19) (a : VR) (s : State) (g : Group) (p : Path) (s1 : State), p.slices ≠ 0 →
    let mine := fun sl => sl < 16 ∧ inSlices p.slices sl = true
    (Clear { rd := [] } s g p → BadTarget (.call T) { rd := [] } s g p T.toNat) ∧
    (Clear { rd := [] } s g p → TargetOk s g p T.toNat s1 →
      ((∀ sl, mine sl → (g.stack sl).length < 16) →
        ∃ g', exec (.call T) s = .next (ended p (putGroup s1 s.cur g')) ∧
          g' = { g with rstack := g'.rstack, paths := g'.paths, wcount := g'.wcount } ∧
          (∀ sl < 16, g'.stack sl = if inSlices p.slices sl then p.spot.nextUnit :: g.stack sl else g.stack sl) ∧
          (∀ j < 16, g'.path j = if j = s.path then some (p.moved (.boundary T.toNat)) else g.path j)) ∧
      ((∃ sl, mine sl ∧ 16 ≤ (g.stack sl).length) →
        exec (.call T) s = .next (takeTrap s1 s.cur g s.path p (p.trapRec 0x17)))) ∧
    (Clear { rd := [] } s g p → g.handler = none →
      ((∃ sl, mine sl ∧ g.stack sl = []) → exec .ret s = .next (takeTrap s s.cur g s.path p (p.trapRec 0x18))) ∧
      ((∀ sl, mine sl → g.stack sl ≠ []) →
        TargetsOk s g p (((List.range 16).filter (inSlices p.slices)).map fun sl => (g.stack sl).headD 0) s1 →
        ((List.range 16).filter (inSlices p.slices)).length ≤
          1 + ((List.range 16).filter fun j => (g.path j).isNone).length →
        ∃ t g', exec .ret s = .next t ∧ tget t.groups s.cur = some g' ∧
          (∀ k, k ≠ s.cur → tget t.groups k = tget s1.groups k) ∧
          g' = { g with rstack := g'.rstack, paths := g'.paths, wcount := g'.wcount } ∧
          (∀ sl < 16, g'.stack sl = if inSlices p.slices sl then (g.stack sl).tail else g.stack sl) ∧
          (∀ sl, mine sl → ∃ j q, g'.path j = some q ∧ inSlices q.slices sl = true ∧
            q.spot = .boundary ((g.stack sl).headD 0) ∧ q.exec = p.exec &&& laneMask q.slices) ∧
          ∀ j, j ≠ s.path → ∀ q, g.path j = some q → g'.path j = some q)) ∧
    (let x := (uniAt g p a).toNat
     Clear { rd := [a], uni := [a] } s g p → TargetOk s g p x s1 →
       ∃ g', exec (.jmpi a) s = .next (ended p (emit (putGroup s1 s.cur g') s.cur s.path 0 3 (leBytes 3 x))) ∧
         Gangs (released g p { rd := [a], uni := [a] }) g' p fun j =>
           if j = s.path then some (partAt p p.slices (.boundary x)) else g.path j) ∧
    (let x := (uniAt g p a).toNat
     let u : Use := { rd := [a], uni := [a] }
     Clear u s g p → BadTarget (.jmpi a) u s g p x)

/-- R168: regang parks the gang where it stands; yield ends the group's turn and leaves the gang ready at the next word;
exit takes the active lanes out of the live mask, leaves the slices that have other lanes at the next unit with EXEC empty, and
ends a gang that has none; nop only advances. That a slice which loses its last lane leaves the gang is the model's reading (log
entry 78). -/
def Obligations.RegangYieldExitNop : Prop :=
  ∀ (s : State) (g : Group) (p : Path), Clear { rd := [] } s g p →
    (∃ g', exec .regang s = .next (markYield (putGroup s s.cur g')) ∧
      g' = { g with paths := g'.paths, wcount := 0 } ∧
      ∀ j < 16, g'.path j = if j = s.path then some { p with quiet := true, park := some .regang } else g.path j) ∧
    (∃ t g', exec .yield s = .next t ∧ Advanced 1 (markYield s) t { g with wcount := 0 } g' p ∧
      g' = { g with paths := g'.paths, wcount := 0 }) ∧
    (∃ t g', exec .nop s = .next t ∧ Advanced 1 s t g g' p ∧ g' = { g with paths := g'.paths, wcount := g'.wcount }) ∧
    ((∀ r ∈ g.reports, r.mine p = 0) → (∀ o ∈ g.ops, o.okPoison = false) →
      let live := g.live &&& ~~~p.active
      let e := p.exec &&& ~~~p.active
      (live &&& laneMask p.slices ≠ 0 →
        ∃ g', exec .exit s = .next (emit (putGroup s s.cur g') s.cur s.path 1 0 (lanesField g.w e)) ∧
          g' = { g with live := live, paths := g'.paths } ∧
          ∀ j < 16, g'.path j =
            if j = s.path then some { p.moved (.boundary p.spot.nextUnit) with exec := e, slices := p.slices &&& slicesOf live } else g.path j) ∧
      (live &&& laneMask p.slices = 0 →
        ∃ g', exec .exit s = .next (reap (putGroup (emit s s.cur s.path 1 3 []) s.cur g') s.cur) ∧
          g' = { g with live := live, paths := g'.paths, handler := if g.isHandler s.path then none else g.handler } ∧
          ∀ j < 16, g'.path j = if j = s.path then none else g.path j))

/-! ### Synchronisation (R169 to R174) -/

/-- R169 and R170: an arrival is noted with the accesses it covers and does not stall the gang; bar arrives and parks;
an early arrival parks; waitb goes on at once where no gang of the group has arrived in the current generation, and
parks otherwise; the return at scope clu drops the core's read cache. -/
def Obligations.BarriersArriveAndPark : Prop :=
  ∀ (clu : Bool) (id : BitVec 4) (s : State) (g : Group) (p : Path), Clear { rd := [] } s g p →
    let i := if clu then 16 + id.toNat else id.toNat
    let noted := fun (h : Group) => h.barAt[i]? = some (s.serial + 1) ∧ ∀ j < 32, j ≠ i → h.barAt[j]? = g.barAt[j]?
    let arrive := if clu then Instr.arriveClu id else .arriveTeam id
    let waitb := if clu then Instr.waitbClu id else .waitbTeam id
    (p.arrived.getLsbD i = false →
      ∃ t h g', noted h ∧ h = { g with barAt := h.barAt } ∧ exec arrive s = .next t ∧ Advanced 1 s t g g' (arriving p i) ∧
        g' = { h with paths := g'.paths, wcount := g'.wcount }) ∧
    (p.arrived.getLsbD i = true → Parks arrive s g p (.early clu id.toNat (genOf s g clu id.toNat))) ∧
    (clu = false → p.arrived.getLsbD i = false →
      ∃ h, noted h ∧ h = { g with barAt := h.barAt } ∧
        Parks (.bar id) s h (arriving p i) (.barrier false id.toNat (genOf s g false id.toNat))) ∧
    (clu = false → p.arrived.getLsbD i = true → Parks (.bar id) s g p (.early false id.toNat (genOf s g false id.toNat))) ∧
    (g.barAt[i]? = some 0 →
      ∃ t g', exec waitb s = .next t ∧ Advanced 1 { s with rcache := t.rcache } t g g' p ∧
        g' = { g with paths := g'.paths, wcount := g'.wcount } ∧
        (clu = true → t.rcache = s.rcache.filter fun l => l.core != coreOf s.cur)) ∧
    (g.barAt[i]? ≠ some 0 → Parks waitb s g p (.barrier clu id.toNat (genOf s g clu id.toNat)))

/-- R171: waitf goes on when no named flag is pending, and with FLG zero always; waitc when its counter is at or below
THR; otherwise the gang parks. -/
def Obligations.WaitsOnFlagsAndCounters : Prop :=
  ∀ (flg : BitVec 12) (cl : Ctr) (thr : BitVec 6) (s : State) (g : Group) (p : Path), Clear { rd := [] } s g p →
    (∀ r ∈ g.reports, r.mine p = 0) →
    let goes := fun (i : Instr) => ∃ t g', exec i s = .next t ∧ Advanced 1 s t g g' p ∧
      g' = { g with paths := g'.paths, wcount := g'.wcount }
    ((∀ i < 12, flg.getLsbD i = true → ¬ pendingFlag g i) → goes (.waitf flg)) ∧
    ((∃ i < 12, flg.getLsbD i = true ∧ pendingFlag g i) → Parks (.waitf flg) s g p (.waitf flg)) ∧
    (g.counter cl ≤ thr.toNat → goes (.waitc cl thr)) ∧
    (thr.toNat < g.counter cl → Parks (.waitc cl thr) s g p (.waitc cl thr.toNat))

/-- R172 and R173: a fence goes on once the group's accesses issued before it, waitvs of its other gangs among them, have
performed (acq) or are visible at its scope (rel), at dom or sys with what the part has sent to others acknowledged, which is the
model's reading (log entry 100), an acquire at clu or wider dropping the core's read cache; rfence drops the group's record cache and
ifence the core's fetched lines, with the reads that their groups have under way on other parts, once the group's earlier stores
have performed; until then each stalls. -/
def Obligations.FencesWaitForOlderAccesses : Prop :=
  ∀ (ord : FOrd) (scp : Scp) (s : State) (g : Group) (p : Path), Clear { rd := [] } s g p →
    let n := s.serial
    let first := p.since.getD s.serial
    let old := fun (o : POp) => o.done = false ∧ o.id < n
    let readsDone := (∀ o ∈ g.ops, old o → o.cls = .mem → OpKind.isWrite o.kind = true ∧ o.dest = none) ∧ ¬ WaitvBefore g n
    let seen := SeenBefore g n scp ∧ Settled s n scp
    let stored := ∀ o ∈ g.ops, old o → OpKind.isWrite o.kind = false
    let ready := (ord ≠ .rel → readsDone) ∧ (ord ≠ .acq → seen)
    (ready → ∃ t g', exec (.fence ord scp) s = .next t ∧ Advanced 1 { s with rcache := t.rcache } t g g' p ∧
      g' = { g with paths := g'.paths, wcount := g'.wcount } ∧ (ord = .rel → t.rcache = s.rcache) ∧
      (ord ≠ .rel → 2 ≤ Scp.rank scp → t.rcache = s.rcache.filter fun l => l.core != coreOf s.cur)) ∧
    (¬ ready → Stalls (.fence ord scp) s g p first 5) ∧
    (stored → ∃ t g', exec .rfence s = .next t ∧ Advanced 1 { s with rwaits := t.rwaits } t g g' p ∧
      ReadsForgotten s t (fun k => k = s.cur) ∧ g' = { g with recs := [], paths := g'.paths, wcount := g'.wcount }) ∧
    (stored → ∃ t g', exec .ifence s = .next t ∧
      Advanced 1 { s with icache := s.icache.filter fun l => l.core != coreOf s.cur, rwaits := t.rwaits } t g g' p ∧
      ReadsForgotten s t (fun k => k / 32 = s.cur / 32) ∧
      g' = { g with paths := g'.paths, wcount := g'.wcount }) ∧
    (¬ stored → Stalls .rfence s g p first 5 ∧ Stalls .ifence s g p first 5)

/-- R174: sigdec issues one atomic for the gang on the signal word at A, and none with an empty EXEC; it is a release at
SCP, counts in CNTM and joins no flag; the atomic takes one from bits 55:0 and keeps bits 63:56. -/
def Obligations.SignalsDecrement : Prop :=
  ∀ (a : VR) (scp : Scp) (s : State) (g : Group) (p : Path) (old : BitVec 64),
    let u : Use := { rd := [a], uni := [a] }
    let va := uniAt g p a
    atomNew .sigdec .n64 old.toNat 0 0 = (old.extractLsb' 56 8 ++ (old.extractLsb' 0 56 - 1)).toNat ∧
    (Clear u s g p → g.counter .m < 63 → (p.active ≠ 0 → Reachable s g p .atomic 8 va) →
      ∃ t g' o, exec (.sigdec a scp) s = .next t ∧
        Advanced 1 { s with tlb := t.tlb, nonleafs := t.nonleafs, s2held := t.s2held, serial := s.serial + 1, teams := t.teams } t g g' p ∧
        g' = { released g p u with ops := g.ops ++ [o], paths := g'.paths, wcount := g'.wcount } ∧
        o.cls = .mem ∧ o.kind = .atomic .sigdec .n64 ∧ o.ord = .rel ∧ o.scp = scp ∧ o.flag = none ∧ o.dest = none ∧
        o.done = false ∧ (o.accs.map fun x => (x.va, x.size)) = (if p.active = 0 then [] else [(va, 8)]) ∧
        t.teams = tmod s.teams g.team fun tm => { tm with effects := true })

/-! ### System instructions (R175 to R188) -/

/-- R175, R176, R177 and R180: trap and bkpt name the instruction after which the handler returns; where the descriptor,
the handler and the frame block pass their checks the gang is in its handler, with frame and images stored; a bkpt of a
tenancy with a stop armed stops the path behind it instead (R334). Both enter where no other gang's trap waits to enter
(R179). That the poison marks of v0 to v3 are kept beside the frame is the model's choice (log entry 85). -/
def Obligations.TrapsEnterTheHandler : Prop :=
  ∀ (code : BitVec 16) (s : State) (g : Group) (p : Path) (d : TrapDesc) (y : Xlate) (pa : Nat) (s1 : State),
    Clear { rd := [] } s g p → (Alone g s.path → HandlerFound s s.cur g d y pa s1 →
      Enters (.trap code) { p.trapRec 0x15 with next := true, code := code.toNat } s g p d y pa s1) ∧
    (Alone g s.path → HandlerFound s s.cur g d y pa s1 → s.dbarm.getLsbD g.ten = false →
      Enters (.bkpt code) { p.trapRec 0x16 with next := true, code := code.toNat } s g p d y pa s1) ∧
    (s.dbarm.getLsbD g.ten = true →
      let sp := p.spot.after 1
      ∃ g', exec (.bkpt code) s = .next (markYield (emit (putGroup s s.cur g') s.cur s.path 4 0 (leBytes 3 sp.offset))) ∧
        g' = { g with paths := g'.paths, wcount := 0 } ∧
        ∀ j < 16, g'.path j = if j = s.path then some { p.moved sp with stop := .stopped } else g.path j)

/-- R178: tret waits for the handler's MEM operations, restores v0 to v3 from the frame block exactly as saved, with the
poison marks they had, the code, the path index (R35) and each slice's stack depth, and resumes the lanes of REXEC that were the
gang's, are live and lie in slices that are still its own (R19): at the unit of an HDRT trap, behind the instruction for NEXT and
SKIP, and at the instruction otherwise, in full or quietly for the faulting lanes. The operation of a raised report goes on (R192). A
held trap of the group then enters (R179). Outside the handler it traps ILLOP, and an image that breaks R68, or SKIP after an HDRT
trap, escalates. The marks are the model's choice (log entry 85), as are slices merged into the handler's gang, an index that another
gang has taken, and an instruction whose word cannot be read (log entries 98 and 60). -/
def Obligations.TrapReturnRestores : Prop :=
  ∀ (s : State) (g : Group) (p : Path) (h : Handler) (x : Xlate) (s1 : State) (bs : List Byte), Clear { rd := [] } s g p →
    ((∀ h', g.handler = some h' → h'.path ≠ s.path) → Traps .tret s g p 0x02) ∧
    (g.handler = some h → h.path = s.path →
      ((∃ o ∈ g.ops, o.inHandler = true ∧ o.cls = .mem ∧ o.done = false) →
        exec .tret s = .next { s with stall := some 5 }) ∧
      ((∀ o ∈ g.ops, o.inHandler = true → o.cls = .mem → o.done = true) →
        translate s (coreOf s.cur) g.ten .supervisor .read (h.fb.toNat % 2 ^ 56) = .ok x →
        syncRead s s.cur g.ten x (if (hereOf s x).isSome then 0x900 else 4096) false = (s1, some (bs, 0)) →
        let skip := field bs 0x48 8 % 2 == 1
        let t := h.trap
        let own := h.slices &&& p.slices
        let e := BitVec.ofNat 64 (field bs 0x50 8) &&& t.lanes &&& g.live &&& laneMask own
        let full := t.defer = true ∨ t.cause = 0x07 ∨ t.cause = 0x08 ∨ t.cause = 0x09 ∨ t.cause = 0x0A
        let image := fun (r : VR) => VReg.ofImage g.w ((bs.drop (0x80 + 0x220 * r.toNat)).take 0x220)
        let behind := t.hdrt = false ∧ (t.next = true ∨ skip = true)
        let word := fetchVa s1 s.cur g.ten h.code.level (h.code.kbase + BitVec.ofNat 64 (4 * h.spot.offset))
        let i := if g.path h.entry = none then h.entry else s.path
        let fits := (∀ r : VR, r.toNat < 4 → image r ≠ none) ∧ (t.hdrt = false ∨ skip = false)
        (¬ fits → exec .tret s = .next (escalate s1 s.cur)) ∧
        (fits → behind → ∀ s2, word = (s2, .stage2) → exec .tret s = .next (parkStage2 s2 s.cur g s.path { p with quiet := true }
          (h.code.kbase + BitVec.ofNat 64 (4 * h.spot.offset)))) ∧
        (fits → behind → ∀ s2, word = (s2, .wait) → ∃ g', exec .tret s = .next { putGroup s2 s.cur g' with stall := some 5 } ∧
          g' = { g with paths := g'.paths }) ∧
        ∀ s2 len, fits → (¬ behind → s2 = s1) →
          (behind → (∃ w, word = (s2, .word w) ∧ len = if opcLong (opcOf w.toNat) then 2 else 1) ∨
            (((∃ c, word = (s2, .fault c)) ∨ word = (s2, .poison)) ∧ len = 1)) →
        ∃ g' q l, exec .tret s = .next (ended p (enterHeld
            (emit { putGroup { s2 with rwaits := l } s.cur g' with path := i } s.cur i 1 2 (lanesField g.w e)) s.cur)) ∧
          (∀ r, r ∈ l ↔ r ∈ s2.rwaits ∧ ∀ id, t.redoOp = some id → r.who ≠ .op id) ∧
          g' = { g with regs := g'.regs, rpoison := g'.rpoison, rstack := g'.rstack, ops := g'.ops, handler := none,
                        paths := g'.paths, last := if g.last = s.path then i else g.last,
                        wlast := if g.wlast = s.path then i else g.wlast,
                        wcount := if p.spot.yieldsAfter 1 then 0 else g.wcount } ∧
          (t.redoOp = none → g'.ops = g.ops) ∧
          (∀ id o, t.redoOp = some id → g.op id = some o → ∃ o', g'.op id = some o' ∧ o'.id = o.id ∧ o'.kind = o.kind ∧
            o'.halted = false ∧ ∀ a ∈ o'.accs, a.done = false ∨ a.err = 0) ∧
          (∀ r : VR, if r.toNat < 4 then image r = some (g'.reg r) else g'.reg r = g.reg r) ∧
          (twf h.marks = true → ∀ r m, tget h.marks r = some m → tget g'.rpoison r = some m) ∧
          (∀ sl < 16, g'.stack sl = if inSlices h.slices sl
            then (g.stack sl).drop ((g.stack sl).length - h.depths.getD sl 0) else g.stack sl) ∧
          (∀ j < 16, g'.path j = if j = i then some q else if j = s.path then none else g.path j) ∧
          q.code = h.code ∧ q.slices = p.slices ∧ q.exec = e ∧ q.park = none ∧ q.trap = none ∧
          (q.spot = if behind then h.spot.after len else h.spot) ∧
          (behind → (∃ o, h.spot.after len = .boundary o) → q.owes = []) ∧
          ((behind → ∀ o, h.spot.after len ≠ .boundary o) → q.owes = h.owes) ∧
          (t.hdrt = true ∨ behind ∨ full → q.only = none ∧ q.quiet = false ∧ q.noinv = false) ∧
          (t.hdrt = false → ¬ behind → ¬ full →
            q.only = some (t.fault &&& e) ∧ q.quiet = true ∧ (q.noinv = true ↔ t.cause = 0x0B))))

/-- R66 and R181: rdsr writes each special register with its shape. The address at which the tenancy's Silo granules are mapped, and
0 for the point of a lane without one, are the model's choices (log entry 9). -/
def Obligations.SpecialRegistersRead : Prop :=
  ∀ (d : VR) (cc : CC),
    let row := fun (n : BitVec 6) (sh : Word → Option Shape) (f : State → Group → Path → Nat → Word) =>
      WritesAt (.rdsr d n cc) { rd := [], wr := [d] } d cc (fun s g p => sh (f s g p 0)) f
    let u := fun (v : Word) => some (Shape.uni v)
    let g_ := fun (_ : Word) => (none : Option Shape)
    let nat := fun (x : Nat) => BitVec.ofNat 64 x
    let team := fun (f : Team → Nat) (s : State) (g : Group) (_ : Path) (_ : Nat) => (teamOf s g).elim 0 fun t => nat (f t)
    let point := fun (f : CovPoint → Nat) (_ : State) (g : Group) (_ : Path) (l : Nat) =>
      ((g.points[l]?).join).elim 0 fun c => nat (f c)
    let peer := fun (r : Nat) (s : State) (g : Group) (_ : Path) (_ : Nat) => (teamOf s g).elim 0 fun t =>
      (s.teams.find? fun q => q.2.launch == t.launch && q.2.clu == t.clu && q.2.crank == r).elim 0 fun q =>
        Config.siloVa g.ten + nat q.2.win
    (row 0x00 (fun _ => some (.aff 0 1)) (fun _ _ _ l => nat l) ∧ row 0x01 g_ (fun _ _ _ l => nat (l / 4)) ∧
      row 0x02 u (fun _ g _ _ => nat g.gid) ∧ row 0x03 u (team (·.index)) ∧ row 0x04 u (team (·.tx)) ∧
      row 0x05 u (team (·.ty)) ∧ row 0x06 u (team (·.tz)) ∧ row 0x07 u (team (·.clu)) ∧ row 0x08 u (team (·.crank))) ∧
    (row 0x09 u (peer 0) ∧ row 0x0A u (peer 1) ∧ row 0x0B u (peer 2) ∧ row 0x0C u (peer 3)) ∧
    (row 0x0D g_ (point (·.x)) ∧ row 0x0E g_ (point (·.y)) ∧ row 0x0F g_ (point (·.z)) ∧
      row 0x10 g_ (point fun c => if c.audit then 1 else 0)) ∧
    (row 0x11 u (fun s _ _ _ => nat (s.cur / 32)) ∧ row 0x12 u (fun s _ _ _ => nat (s.cur / 512)) ∧
      row 0x13 u (fun s _ _ _ => nat s.time) ∧ row 0x14 u (fun s _ _ _ => s.wb.rate.setWidth 64) ∧
      row 0x15 u (fun _ g _ _ => g.ratel.setWidth 64) ∧
      row 0x16 u (fun s _ _ _ => (s.cores[s.cur / 32]?).elim 0 fun c => nat c.op)) ∧
    (row 0x17 u (fun _ _ p _ => p.code.kbase) ∧ row 0x18 u (fun s g _ _ => (kdescOf s g).elim 0 (·.tbase)) ∧
      row 0x19 g_ (fun _ g _ l => (g.tlink[l / 4]?).getD 0) ∧ row 0x1A u (fun s g _ _ => (teamOf s g).elim 0 (·.spb)) ∧
      row 0x1B u (fun s g _ _ => (teamOf s g).elim 0 fun t => Config.siloVa g.ten + nat t.win)) ∧
    (row 0x1C u (fun _ g _ _ => nat g.allot) ∧ row 0x1D u (fun _ g _ _ => g.mstat.setWidth 64) ∧
      row 0x1E u (fun _ g _ _ => nat (g.fstat.toNat + 256 * g.fpinv.toNat)) ∧
      row 0x1F u (fun s g _ _ => ((launchOf s g).bind (·.cov)).elim 0 fun c => nat c.level) ∧
      row 0x20 u (fun _ g _ _ => nat g.ten) ∧ row 0x21 u (fun _ g _ _ => g.tvec) ∧ row 0x22 u (fun _ g _ _ => nat g.budget) ∧
      row 0x23 u (fun _ g _ _ => nat (g.counter .m + g.counter .c * 2 ^ 8 + g.counter .x * 2 ^ 16 + g.counter .l * 2 ^ 24)))

/-- R66, R181 and R186: wrsr takes its value from the lowest active lane, W1C registers lose the bits set in it, RATEL is
clamped between the tenancy's floor and ceiling with 0 following RATE, TLINK takes one value a slice, TVEC is written by
supervisor code alone, and an empty EXEC writes nothing; setratel writes RATEL from its U operand. -/
def Obligations.SpecialRegistersWrite : Prop :=
  ∀ (a : VR) (s : State) (g : Group) (p : Path),
    let u : Use := { rd := [a] }
    let x := g.val a ((activeList p).headD 0)
    let clamp := fun (v : Nat) => if v = 0 then 0 else max (tcbOf s g.ten).floor (min (tcbOf s g.ten).ceil v)
    (Clear u s g p → p.active ≠ 0 →
      Sets (.wrsr a 0x15) u s g p (fun h => { h with ratel := BitVec.ofNat 32 (clamp (x.toNat % 2 ^ 32)) }) ∧
      Sets (.wrsr a 0x1D) u s g p (fun h => { h with mstat := h.mstat &&& ~~~(x.setWidth 3) }) ∧
      Sets (.wrsr a 0x1E) u s g p (fun h => { h with fstat := h.fstat &&& ~~~(x.setWidth 5) }) ∧
      ∃ v : Vector Word 16, Sets (.wrsr a 0x19) u s g p (fun h => { h with tlink := v }) ∧
        ∀ sl < 16, v[sl]? = if inSlices p.slices sl
          then some (((activeList p).find? fun l => l / 4 == sl).elim ((g.tlink[sl]?).getD 0) fun l => g.val a l &&& 0x8000003FFFFFFFFF)
          else g.tlink[sl]?) ∧
    (Clear { u with priv := true } s g p → p.active ≠ 0 → Sets (.wrsr a 0x21) u s g p (fun h => { h with tvec := x })) ∧
    (curGang s = some (g, p) → p.code.level = .user → Traps (.wrsr a 0x21) s g p 0x04) ∧
    (∀ n ∈ [0x15#6, 0x19, 0x1D, 0x1E], Clear u s g p → p.active = 0 → Sets (.wrsr a n) u s g p fun h => h) ∧
    (let w : Use := { rd := [a], uni := [a] }
     Clear w s g p → p.active ≠ 0 → Sets (.setratel a) w s g p (fun h =>
       { h with ratel := BitVec.ofNat 32 (clamp ((uniAt g p a).toNat % 2 ^ 32)) }))

/-- R58 and R182: grow adds registers that are Dead, shrink takes the last away once no write to them is pending; an
allotment beyond 64 or below 8 traps REGRANGE. -/
def Obligations.AllotmentGrowsAndShrinks : Prop :=
  ∀ (n : BitVec 3) (s : State) (g : Group) (p : Path), Clear { rd := [] } s g p →
    let more := g.allot + 8 * n.toNat
    let less := g.allot - 8 * n.toNat
    (more ≤ 64 → ∃ t g', exec (.grow n) s = .next t ∧ Advanced 1 s t g g' p ∧
      g' = { g with allot := more, regs := g'.regs, rpoison := g'.rpoison, paths := g'.paths, wcount := g'.wcount } ∧
      ∀ r : VR, g'.reg r = if g.allot ≤ r.toNat ∧ r.toNat < more then ⟨.dead, 0⟩ else g.reg r) ∧
    (64 < more → Traps (.grow n) s g p 0x07) ∧
    (8 * n.toNat + 8 ≤ g.allot → (∀ r, less ≤ r → r < g.allot → g.isHeld r = false) →
      ∃ t g', exec (.shrink n) s = .next t ∧ Advanced 1 s t g g' p ∧
        g' = { g with allot := less, regs := g'.regs, rpoison := g'.rpoison, paths := g'.paths, wcount := g'.wcount } ∧
        ∀ r : VR, g'.reg r = if less ≤ r.toNat ∧ r.toNat < g.allot then ⟨.dead, 0⟩ else g.reg r) ∧
    (8 * n.toNat + 8 ≤ g.allot → (∃ r, less ≤ r ∧ r < g.allot ∧ g.isHeld r = true) →
      exec (.shrink n) s = .next { s with stall := some 2 }) ∧
    (g.allot < 8 * n.toNat + 8 → Traps (.shrink n) s g p 0x07)

/-- R184 and R185: tlbi waits as a release at dev and then sets out to invalidate a page or every entry of the tenancy;
tlbsync waits for the group's own to take effect and for the accesses that used the old translations; poolget pops one
entry of the tenancy's pool, 0 when it is empty and nothing with an empty EXEC, and a pool left with fewer entries than its
low mark is to be posted (R306). All three trap PRIV at user level. That tlbi checks no address is the model's reading (log entry
81). -/
def Obligations.TranslationMaintenance : Prop :=
  ∀ (d a : VR) (cc : CC) (all : Bool) (s : State) (g : Group) (p : Path),
    let u : Use := { rd := if all then [] else [a], uni := if all then [] else [a], priv := true }
    let n := p.since.getD s.serial
    let page := if all then none else some ((uniAt g p a).toNat % 2 ^ 56 / 4096)
    let seen := SeenBefore g s.serial .dev
    (Clear u s g p → seen → ∃ t g', exec (.tlbi a all) s = .next t ∧
      Advanced 1 { s with serial := s.serial + 1, tlbis := s.tlbis ++ [⟨s.serial, s.cur, g.ten, page, none⟩] } t g g' p ∧
      g' = { released g p u with paths := g'.paths, wcount := g'.wcount }) ∧
    (Clear u s g p → ¬ seen → Stalls (.tlbi a all) s g p n 5) ∧
    (let mine := fun (t : Tlbi) => t.group = s.cur ∧ t.id < n
     let v : Use := { rd := [], priv := true }
     (Clear v s g p → (∀ t ∈ s.tlbis, mine t → tlbiDone s t = true) → ∃ t g', exec .tlbsync s = .next t ∧
       Advanced 1 { s with tlbis := t.tlbis } t g g' p ∧ g' = { g with paths := g'.paths, wcount := g'.wcount } ∧
       ∀ x, x ∈ t.tlbis ↔ x ∈ s.tlbis ∧ ¬ mine x) ∧
     (Clear v s g p → (∃ t ∈ s.tlbis, mine t ∧ tlbiDone s t = false) → Stalls .tlbsync s g p n 5)) ∧
    (let v : Use := { rd := [], wr := [d], priv := true }
     let tc := tcbOf s g.ten
     let e := BitVec.ofNat 64 (readNat s 32 (normPa s (tc.pbase.toNat + tc.phead.toNat % 2 ^ tc.plog * 8)) 8)
     let word := if tc.phead = tc.ptail then 0 else e
     let head := if tc.phead = tc.ptail then tc.phead else tc.phead + 1
     (Clear v s g p → g.ten < 32 → p.active ≠ 0 → WithinBudget v d cc s g p (some (.uni 0)) (fun _ => 0) →
       WithinBudget v d cc s g p (some (.uni word)) (fun _ => word) →
       ∃ t g', exec (.poolget d cc) s = .next t ∧ Advanced 1 { s with tcbs := t.tcbs } t g g' p ∧ SameButRegs g g' ∧
         Wrote v d cc (some (.uni word)) (fun _ => word) s.path g g' p ∧
         (∀ k, k ≠ g.ten → t.tcbs[k]? = s.tcbs[k]?) ∧
         t.tcbs[g.ten]? = some { tc with
           phead := head, poollow := tc.poollow || decide ((tc.ptail - head).toNat < tc.lowat.toNat) }) ∧
     (Clear v s g p → p.active = 0 → Sets (.poolget d cc) v s g p fun h => h)) ∧
    (curGang s = some (g, p) → p.code.level = .user →
      Traps (.tlbi a all) s g p 0x04 ∧ Traps .tlbsync s g p 0x04 ∧ Traps (.poolget d cc) s g p 0x04)

/-- R180, R186, R187, R188 and R233: trmark emits a MARK packet for a traced group and only advances otherwise; rdcost gives
each lane the time and energy of its selector on this core, all ones for a reserved one, U from U, where a 4 × 4 × 4 bf16
product on ARR costs 24 cycles and, at operating point 6, 1.5 nJ; toolx traps TOOLX while the tenancy's TOOLEN is clear and only
advances otherwise; tramp sends the gang to the unit that the trampoline table names and links every slice of it to the
next word of its clause; trampret sends each slice to its link. Where the slices of one link fail their return, that part traps
where it stands with its links as they were, and the others go on, which is the model's reading (log entry 60). -/
def Obligations.MarksCostsAndTrampolines : Prop :=
  (∀ (d a : VR) (cc : CC) (id : BitVec 8),
     (∀ s g p, let u : Use := { rd := [a] }
       let low := if p.active = 0 then 0 else g.val a ((activeList p).headD 0)
       let s0 := if traceMarks s s.cur then emit s s.cur s.path 3 0 (leBytes 1 id.toNat ++ leBytes 8 low.toNat) else s
       Clear u s g p → ∃ t g', exec (.trmark a id) s = .next t ∧ Advanced 1 s0 t g g' p ∧
         g' = { released g p u with paths := g'.paths, wcount := g'.wcount }) ∧
     WritesAt (.rdcost d a cc) { rd := [a], wr := [d], lanewise := true } d cc
       (fun s g p => uni1 (costWord s (coreOf s.cur)) (g.shp p a)) (fun s g _ l => costWord s (coreOf s.cur) (g.val a l)) ∧
     ∀ (s : State) (c : Nat) (x : Word),
       let m := x.toNat % 16
       let n := x.toNat / 16 % 16
       let k := x.toNat / 256 % 16
       let ty := x.toNat / 4096 % 32
       let eng := x.toNat / 2 ^ 17 % 8
       ((2 ^ 20 ≤ x.toNat ∨ m = 0 ∨ 8 < m ∨ n = 0 ∨ 8 < n ∨ k = 0 ∨ 8 < k ∨ 2 ≤ eng ∨ ty ∉ [0, 1, 2, 4, 5]) →
         costWord s c x = BitVec.allOnes 64) ∧
       (x.toNat < 2 ^ 20 → m ∈ [1, 2, 3, 4, 5, 6, 7, 8] → n ∈ [1, 2, 3, 4, 5, 6, 7, 8] → k ∈ [1, 2, 3, 4, 5, 6, 7, 8] →
         ty ∈ [0, 1, 2, 4, 5] → eng < 2 →
         (costWord s c x).toNat = (costOf s c eng ty m n k).1 + (costOf s c eng ty m n k).2 * 2 ^ 32) ∧
       costEntry 0 1 4 4 4 6 = (24, 3 * 2 ^ 15)) ∧
  (∀ (idx : BitVec 25) (s : State) (g : Group) (p : Path),
     (curGang s = some (g, p) → (tcbOf s g.ten).toolen = false → exec (.toolx idx) s =
       .next (takeTrap s s.cur g s.path p { p.trapRec 0x05 with next := true, code := idx.toNat })) ∧
     (Clear { rd := [] } s g p → (tcbOf s g.ten).toolen = true →
       let s0 := if traceMarks s s.cur then emit s s.cur s.path 3 1 (leBytes 1 (idx.toNat % 256) ++ leBytes 8 0) else s
       ∃ t g', exec (.toolx idx) s = .next t ∧ Advanced 1 s0 t g g' p ∧ g' = { g with paths := g'.paths, wcount := g'.wcount }) ∧
     (∀ kd, Clear { rd := [] } s g p → kdescOf s g = some kd →
       let linked := fun sl => ((g.tlink[sl]?).getD 0).toNat / 2 ^ 63 = 1
       let mine := fun sl => sl < 16 ∧ inSlices p.slices sl = true
       let va := kd.tbase + BitVec.ofNat 64 (8 * idx.toNat)
       (kd.tbase = 0 ∨ kd.trampn ≤ idx.toNat → Traps (.tramp idx) s g p 0x06) ∧
       (kd.tbase ≠ 0 → idx.toNat < kd.trampn → (∃ sl, mine sl ∧ linked sl) → Traps (.tramp idx) s g p 0x19) ∧
       ∀ x pa s1 bs s2, kd.tbase ≠ 0 → idx.toNat < kd.trampn → (∀ sl, mine sl → ¬ linked sl) →
         va.toNat < 2 ^ 56 → va.toNat % 8 = 0 → translate s (coreOf s.cur) g.ten p.code.level .read va.toNat = .ok x →
         hereOf s x = some pa → lineAbsent s pa = false →
         syncRead (tlbFill s (coreOf s.cur) g.ten va.toNat) s.cur g.ten x 8 false = (s1, some (bs, 0)) →
         (p.code.klen ≤ field bs 0 4 → exec (.tramp idx) s = .next (takeTrap s1 s.cur g s.path p (p.trapRec 0x06))) ∧
         (∀ w, field bs 0 4 < p.code.klen → fetchWord s1 s.cur g p (field bs 0 4) = (s2, .word w) → w.getLsbD 3 = false →
           exec (.tramp idx) s = .next (takeTrap s2 s.cur g s.path p (p.trapRec 0x06))) ∧
         (TargetOk s1 g p (field bs 0 4) s2 →
         let link := (p.spot.link).1 * 2 ^ 19 + (p.spot.link).2
         ∃ g', exec (.tramp idx) s = .next (ended p (putGroup s2 s.cur g')) ∧
           g' = { g with tlink := g'.tlink, paths := g'.paths, wcount := g'.wcount } ∧
           (∀ sl < 16, g'.tlink[sl]? = if inSlices p.slices sl then some (BitVec.ofNat 64 (2 ^ 63 + link)) else g.tlink[sl]?) ∧
           ∀ j < 16, g'.path j = if j = s.path then some (p.moved (.boundary (field bs 0 4))) else g.path j)) ∧
     (let mine := (List.range 16).filter (inSlices p.slices)
      Clear { rd := [] } s g p → p.slices ≠ 0 →
       ((∃ sl ∈ mine, ((g.tlink[sl]?).getD 0).toNat / 2 ^ 63 ≠ 1) → Traps .trampret s g p 0x1A) ∧
       ∀ (sp : Nat → Option Spot) (cause code : Nat) (va : Word) (s1 : State),
         ReturnsAll s g p cause code va (mine.map fun sl => (sl, sp sl)) s1 →
         mine.length ≤ 1 + ((List.range 16).filter fun j => (g.path j).isNone).length →
         let parted := fun (t : State) (g' : Group) => tget t.groups s.cur = some g' ∧
           (∀ k, k ≠ s.cur → tget t.groups k = tget s1.groups k) ∧
           g' = { g with tlink := g'.tlink, paths := g'.paths, wcount := g'.wcount } ∧
           (∀ sl < 16, g'.tlink[sl]? = if inSlices p.slices sl ∧ (sp sl).isSome = true
             then some (((g.tlink[sl]?).getD 0) &&& 0x7FFFFFFFFFFFFFFF) else g.tlink[sl]?) ∧
           (∀ sl ∈ mine, ∃ j q, g'.path j = some q ∧ inSlices q.slices sl = true ∧ q.spot = (sp sl).getD p.spot ∧
             q.exec = p.exec &&& laneMask q.slices) ∧
           ∀ j, j ≠ s.path → ∀ q, g.path j = some q → g'.path j = some q
         ((∀ sl ∈ mine, (sp sl).isSome = true) → ∃ t g', exec .trampret s = .next t ∧ parted t g') ∧
         ∀ x, (∃ sl ∈ mine, sp sl = none) → (∀ sl ∈ mine, sp sl = none ↔ (g.tlink[sl]?).getD 0 &&& 0x8000003FFFFFFFFF = x) →
           ∃ t g' j q, parted t g' ∧ g'.path j = some q ∧ (∀ sl < 16, inSlices q.slices sl = true ↔ sl ∈ mine ∧ sp sl = none) ∧
             q.spot = p.spot ∧
             exec .trampret s = .next (ended p (takeTrap t s.cur g' j q { q.trapRec cause with code := code, addr := va }))))

/-! ### Engine instructions (R189 to R211) -/

/-- R194 to R197: mma, mmag and mms issue once their records, tiles and registers pass the checks of R191 in their order,
with what they read then: the records, the scales, the gather block's pairs, and mms its product; with an empty EXEC
they only read, and the checks they make then are the model's reading (log entry 89). -/
def Obligations.MatrixProductsIssue : Prop :=
  ∀ (a b x sb d : VR) (tr : TR) (z sc : Bool) (mq : BitVec 4) (ks : BitVec 8) (q : BitVec 2) (pl : BitVec 5) (cc : CC)
    (eng : Eng) (fmt : CT) (m0 n0 k0 : BitVec 3) (s : State) (g : Group) (p : Path),
    let m := 8 * (mq.toNat + 1)
    let tile := tileIdx s s.cur g tr.toNat
    let at_ := fun (r : VR) => uniAt g p r
    (let run := if sc then runOf x ((m + 2 * g.w - 1) / (2 * g.w)) else ([], false)
     let u : Use := { rd := [a, b] ++ run.1 ++ (if sc then [sb] else []), uni := [a, b] ++ (if sc then [sb] else []), len := 2,
                      beyond := tileOver s g tr || run.2 }
     let i := Instr.mma a b tr z mq ks q pl sc x sb
     let scaleA := (List.range m).map fun j =>
       ((g.val (BitVec.ofNat 6 (x.toNat + j / (2 * g.w))) (j % (2 * g.w) / 2)).extractLsb' (32 * (j % 2)) 32)
     let scaleB := [(at_ sb).extractLsb' 0 32, (at_ sb).extractLsb' 32 32]
     ∀ s1 h1 s2 h2 ba bb ra rb, Clear u s g p →
       RecordRead s g p (at_ a) s1 h1 ba → RecordRead s1 h1 p (at_ b) s2 h2 bb →
       parseRec ba = some ra → parseRec bb = some rb → ProductOk ra rb m ks.toNat pl.toNat sc false →
       (p.active = 0 → IdlesAfter i u s s2 h2 p) ∧
       (p.active ≠ 0 → (z = false → TileClean s g tile (List.range m)) →
         EngineIssues i u s (fun _ => { s2 with serial := s2.serial + 1 }) h2 p fun o => o.cls = .mat ∧ o.dest = none ∧
           o.accs = [] ∧ o.kind = .mma ra rb tile z m ks.toNat (2 ^ q.toNat) pl.toNat
             (if sc then some (scaleA, scaleB) else none) none)) ∧
    (let u : Use := { rd := [a, b, x], uni := [a, b, x], len := 2, beyond := tileOver s g tr }
     let i := Instr.mmag a b tr z mq ks q pl x
     ∀ s1 h1 s2 h2 s3 h3 ba bb ra rb blk, Clear u s g p →
       RecordRead s g p (at_ a) s1 h1 ba → RecordRead s1 h1 p (at_ b) s2 h2 bb →
       parseRec ba = some ra → parseRec bb = some rb → ProductOk ra rb m ks.toNat pl.toNat false true →
       (∀ j < (4 * m + 63) / 64, Reachable s2 h2 p .read 64 (at_ x + BitVec.ofNat 64 (64 * j))) →
       BlockRead s2 h2 p (at_ x) ((4 * m + 63) / 64) s3 h3 blk →
       let pairs := (List.range m).map fun j => (field blk (2 * j) 2, field blk (2 * m + 2 * j) 2)
       (∀ y ∈ pairs, y.1 < ra.rows ∧ (y.2 < 128 ∨ y.2 = 0xFFFF)) →
       (p.active = 0 → IdlesAfter i u s s3 h3 p) ∧
       (p.active ≠ 0 → (z = false → TileClean s g tile (pairs.map (·.2))) →
         EngineIssues i u s (fun _ => { s3 with serial := s3.serial + 1 }) h3 p fun o => o.cls = .mat ∧ o.dest = none ∧
           o.accs = [] ∧ o.kind = .mma ra rb tile z m ks.toNat (2 ^ q.toNat) pl.toNat none (some pairs))) ∧
    (let m := m0.toNat + 1
     let n := n0.toNat + 1
     let k := k0.toNat + 1
     let e := CT.bytes fmt
     let nd := (4 * m * n + 8 * g.w - 1) / (8 * g.w)
     let rd := runOf d nd
     let ra := runOf a ((e * m * k + 8 * g.w - 1) / (8 * g.w))
     let rb := runOf b ((e * k * n + 8 * g.w - 1) / (8 * g.w))
     let u : Use := { rd := rd.1 ++ ra.1 ++ rb.1, wr := rd.1, len := 2, beyond := rd.2 || ra.2 || rb.2 }
     let i := Instr.mms d a b cc eng fmt m0 n0 k0
     let g0 := released g p u
     let held := (List.range rd.1.length).foldl
       (fun h j => runWrite h p.slices p.active d.toNat cc (List.replicate (4 * m * n) 0) j) g0
     Clear u s g p → overBudget g0 held = false →
     (∀ j < rd.1.length, ∀ l < g.w, j * 8 * g.w + 8 * l < 4 * m * n → bitOf p.active l = true) →
     EngineIssues i u s (fun _ => { s with serial := s.serial + 1 }) g p fun o => o.cls = .mat ∧ o.dest = some (d, cc) ∧
       o.nregs = rd.1.length ∧ o.accs = [] ∧
       ∃ bytes fl vec, o.kind = .mms d.toNat bytes fl vec ∧ (eng = .arr → vec = false) ∧ (eng = .vec → vec = true) ∧
         (∀ r < m, ∀ c < n, field bytes (4 * (r * n + c)) 4 =
           smallDot fmt k (fun y => runElem g a e (r * k + y)) (fun y => runElem g b e (y * n + c)) (runElem g d 4 (r * n + c)) % 2 ^ 32) ∧
         ∀ y < 4 * m * n % 8, field bytes (4 * m * n + y) 1 = runElem g d 1 (4 * m * n + y))

/-- R190 and R199: mzero, mlda, msta and mrow issue in the open batch once the record fits the tile; mfence closes the
open batch, whose operations then leave CNTX together, and stalls while CNTX is at 63. The checks under an empty EXEC are the
model's reading (log entry 89). -/
def Obligations.TileInstructionsIssue : Prop :=
  ∀ (a d : VR) (tr : TR) (cc : CC) (ro row : BitVec 7) (co : BitVec 8) (sat : Bool) (s : State) (g : Group) (p : Path),
    let tile := tileIdx s s.cur g tr.toNat
    let u : Use := { rd := [], len := 2, beyond := tileOver s g tr }
    let v : Use := { rd := [a], uni := [a], len := 2, beyond := tileOver s g tr }
    let next := fun (s : State) (_ : State) => { s with serial := s.serial + 1 }
    (IdleWhenEmpty (.mzero tr) u s g p ∧
      (Clear u s g p → p.active ≠ 0 →
        EngineIssues (.mzero tr) u s (next s) g p fun o => o.cls = .mat ∧ o.kind = .mzero tile ∧ o.dest = none)) ∧
    (∀ s1 h1 bs r, Clear v s g p → RecordRead s g p (uniAt g p a) s1 h1 bs → parseRec bs = some r →
        r.layout ≠ 2 → ro.toNat + r.rows ≤ 128 → co.toNat + r.cols ≤ 256 →
        (r.fmt ∈ [CT.f32, .bf16, .f16] →
          (p.active = 0 → IdlesAfter (.mlda a tr ro co) v s s1 h1 p) ∧
          (p.active ≠ 0 → EngineIssues (.mlda a tr ro co) v s (next s1) h1 p fun o =>
            o.cls = .mat ∧ o.kind = .mlda r tile ro.toNat co.toNat ∧ o.dest = none)) ∧
        (r.fmt ∈ [CT.f32, .bf16, .f16, .e4m3, .e5m2] → (sat = true → r.fmt = .e4m3) →
          (p.active = 0 → IdlesAfter (.msta a tr ro co sat) v s s1 h1 p) ∧
          (p.active ≠ 0 → TileClean s g tile ((List.range r.rows).map (ro.toNat + ·)) →
            EngineIssues (.msta a tr ro co sat) v s (next s1) h1 p fun o =>
              o.cls = .mat ∧ o.kind = .msta r tile ro.toNat co.toNat sat ∧ o.dest = none))) ∧
    (let w : Use := { rd := [], wr := [d], len := 2, beyond := tileOver s g tr }
     Clear w s g p → overBudget g (g.setReg d ((g.reg d).write g.w p.slices p.active false cc none fun _ => 0)) = false →
     co.toNat + 2 * g.w ≤ 256 → TileClean s g tile [row.toNat] →
     EngineIssues (.mrow d cc tr row co) w s (next s) g p fun o =>
       o.cls = .mat ∧ o.kind = .mrow tile row.toNat co.toNat ∧ o.dest = some (d, cc)) ∧
    (Clear { rd := [], len := 2 } s g p →
      (63 ≤ g.counter .x → exec .mfence s = .next { s with stall := some 4 }) ∧
      (g.counter .x < 63 → ∃ t g', exec .mfence s = .next t ∧ Advanced 2 s t g g' p ∧ g'.nbatch = g.nbatch + 1 ∧
        g' = { g with ops := g'.ops, reports := g'.reports, closed := g'.closed, nbatch := g'.nbatch, paths := g'.paths,
                      wcount := g'.wcount } ∧
        (∀ o ∈ g.ops, o.done = false → o.cls = .mat → o.batch = none → { o with batch := some g.nbatch } ∈ g'.ops) ∧
        (∀ o ∈ g'.ops, o.cls = .mat → o.batch ≠ none) ∧ ∀ r ∈ g'.reports, r.cls = .mat → r.batch ≠ none))

/-- R26, R200 to R203: copy, copyg and the collectives issue once their records agree; a transfer clears the presence
bits of the Silo lines that its destination touches, and another group than the team's producer group traps NOTPROD. With an empty
EXEC they make these checks and nothing follows, which is the model's reading (log entry 89). -/
def Obligations.CopiesAndCollectivesIssue : Prop :=
  ∀ (a b x : VR) (sat : Bool) (rm : RM) (red : Red),
    (∀ s g p, let at_ := fun (r : VR) => uniAt g p r
      let u : Use := { rd := [a, b], uni := [a, b], len := 2 }
      let v : Use := { rd := [a, b, x], uni := [a, b, x], len := 2 }
      let w : Use := { rd := [a], uni := [a], len := 2 }
      let base := fun (s t : State) => { s with serial := s.serial + 1, absent := t.absent }
      let issues := fun (i : Instr) (u : Use) (s2 : State) (h : Group) (ra : Rec) (dst : CopyDst) (dva : Word) (list : Option Word)
          (view : Option (Nat × OpenView)) =>
        (p.active = 0 → IdlesAfter i u s s2 h p) ∧
        (p.active ≠ 0 → g.counter .c < 63 → EngineIssues i u s (base s2) h p fun o => o.cls = .copy ∧ o.view = view ∧ o.dest = none ∧
          ∃ lines, o.kind = .copy (at_ a) dva ra dst list (if view.isSome then false else sat) (if view.isSome then .rne else rm) 0 lines ∧
            ∀ n, n ∈ lines ↔ TouchesLine s2 s.cur g.ten p.code.level ra dst n) ∧
        ∀ t, p.active ≠ 0 → g.counter .c < 63 → exec i s = .next t → ∀ n, n ∈ t.absent ↔ n ∈ s2.absent ∨ TouchesLine s2 s.cur g.ten p.code.level ra dst n
      let mine := ∀ kd, kdescOf s g = some kd → kd.producer = g.gid
      let other := ∃ kd, kdescOf s g = some kd ∧ kd.producer ≠ g.gid
      let turnedAway := fun (i : Instr) (u : Use) (s1 : State) (h : Group) =>
        exec i s = .next (takeTrap s1 s.cur (released h p u) s.path p (p.trapRec 0x13))
      let planes := fun (r : Rec) => r.layout = 2 → (planeExp r.fmt).isSome = true
      (∀ s1 h1 s2 h2 ba bb ra rb, mine →
        RecordRead s g p (at_ a) s1 h1 ba → RecordRead s1 h1 p (at_ b) s2 h2 bb →
        parseRec ba = some ra → parseRec bb = some rb → planes ra → planes rb → (sat = true → rb.fmt = .e4m3) → ra.cols = rb.cols →
        (Clear u s g p → ra.rows = rb.rows → issues (.copy a b false sat rm) u s2 h2 ra (.record rb) (at_ b) none none) ∧
        (Clear v s g p → issues (.copyg a b x sat rm) v s2 h2 ra (.record rb) (at_ b) (some (at_ x)) none)) ∧
      (∀ s1 h1 s2 h2 ba bb, other → RecordRead s g p (at_ a) s1 h1 ba → RecordRead s1 h1 p (at_ b) s2 h2 bb →
        (Clear u s g p → turnedAway (.copy a b false sat rm) u s2 h2) ∧ (Clear v s g p → turnedAway (.copyg a b x sat rm) v s2 h2)) ∧
      (∀ s1 h1 ba, other → RecordRead s g p (at_ a) s1 h1 ba → Clear w s g p → turnedAway (.copy a b true sat rm) w s1 h1) ∧
      (∀ s1 h1 ba ra ov, let wr : WR := BitVec.ofNat 4 b.toNat
        mine → RecordRead s g p (at_ a) s1 h1 ba → parseRec ba = some ra → planes ra →
        g.view wr = some ov → sat = false → rm = .rne → ra.fmt ≠ .s4 → CT.bytes ra.fmt = 2 ^ ov.desc.esize → ov.desc.mode ≠ 1 →
        ((ov.desc.rank = 1 ∧ ov.desc.ext.getD 0 0 = ra.rows * ra.cols) ∨
          (ov.desc.rank = 2 ∧ ov.desc.ext.getD 0 0 = ra.cols ∧ ov.desc.ext.getD 1 0 = ra.rows)) →
        Clear w s g p → issues (.copy a b true sat rm) w s1 h1 ra (.view wr.toNat ov) 0 none (some (wr.toNat, ov)))) ∧
    CollIssues (.ccolAllreduce a b x red) (.allreduce red) a b x ∧ CollIssues (.ccolRedscat a b x red) (.redscat red) a b x ∧
    CollIssues (.ccolAllgather a b x) .allgather a b x ∧ CollIssues (.ccolBcast a b x) .bcast a b x ∧
    CollIssues (.ccolAlltoall a b x) .alltoall a b x

/-- R205 to R207 and R281: vopen registers the view under a ticket in the shard of every home of its box and opens the
register, parks while a shard is full, and stalls while another group's ticket is of this ns, which is the model's reading (log
entry 82), as are the drop of the core's read cache (log entry 51) and the checks under an empty EXEC (log entry 89); vretire retires it once the
group's operations through it have completed; vinfo and vaddr read it, and trap VCLOSED on a closed one. -/
def Obligations.ViewsOpenAndRetire : Prop :=
  ∀ (w : WR) (a d : VR) (cc : CC) (fld : BitVec 3) (s : State) (g : Group) (p : Path),
    let u : Use := { rd := [a], uni := [a], len := 2 }
    let v : Use := { rd := [], len := 2 }
    let x : Use := { rd := [], wr := [d], len := 2 }
    let y : Use := { rd := [a], wr := [d], len := 2, lanewise := true }
    let me := g.team * 64 + g.gid + 1
    IdleWhenEmpty (.vretire w) v s g p ∧ IdleWhenEmpty (.vinfo d w cc fld) x s g p ∧
    (Clear u s g p → (g.view w).isSome = true →
      exec (.vopen w a) s = .next (takeTrap s s.cur (released g p u) s.path p (p.trapRec 0x27))) ∧
    (Clear u s g p → p.active ≠ 0 → g.view w = none →
      (∃ n k, s.lastTicket = some (n, k) ∧ k ≠ me ∧ s.time ≤ n) →
      exec (.vopen w a) s = .next { s with stall := some 5 }) ∧
    (∀ s1 h1 bs ds, Clear u s g p → g.view w = none →
      (∀ n k, s.lastTicket = some (n, k) → k ≠ me → n < s.time) → RecordRead s g p (uniAt g p a) s1 h1 bs →
      parseView bs = some ds →
      let s2 := (viewHomes s1 (coreOf s.cur) g.ten ds).1
      let homes := (viewHomes s1 (coreOf s.cur) g.ten ds).2
      let tk : Ticket := ⟨s.time, s.cur / 32, s.cur % 32⟩
      (p.active = 0 → IdlesAfter (.vopen w a) u s s1 h1 p) ∧
      (p.active ≠ 0 → shardsFree s2 homes s2.serial = true → ∃ t g', exec (.vopen w a) s = .next t ∧
        Advanced 2 { s2 with trellis := s2.trellis ++ [⟨tk, ds, homes, some s.cur, g.team, g.ten, w.toNat⟩],
                             lastTicket := some (s.time, me),
                             rcache := s2.rcache.filter fun l => l.core != coreOf s.cur } t h1 g' p ∧
        g' = { released h1 p u with views := g'.views, paths := g'.paths, wcount := g'.wcount } ∧
        g'.view w = some ⟨ds, tk, homes⟩ ∧ ∀ j, j ≠ w → g'.view j = g.view j) ∧
      (p.active ≠ 0 → shardsFree s2 homes s2.serial = false → ∃ g',
        exec (.vopen w a) s = .next (markYield (putGroup { s2 with serial := s2.serial + 1 } s.cur g')) ∧
        g'.path s.path = some { p with quiet := true, park := some (.vopen homes s2.serial w a) })) ∧
    (Clear v s g p → p.active ≠ 0 →
      (g.view w = none → Traps (.vretire w) s g p 0x10) ∧
      (∀ ov, g.view w = some ov → viewBusy g w.toNat = true → exec (.vretire w) s = .next { s with stall := some 5 }) ∧
      (∀ ov, g.view w = some ov → viewBusy g w.toNat = false → ∃ t g', exec (.vretire w) s = .next t ∧
        Advanced 2 { s with trellis := s.trellis.filter (fun r => !(r.group == some s.cur && r.wreg == w.toNat)), rcache := t.rcache } t g g' p ∧
        g' = { g with views := g'.views, paths := g'.paths, wcount := g'.wcount } ∧ g'.view w = none ∧
        (∀ j, j ≠ w → g'.view j = g.view j) ∧ ∀ l ∈ t.rcache, l ∈ s.rcache)) ∧
    (Clear x s g p → p.active ≠ 0 → WithinBudget x d cc s g p (some (.uni 0)) (fun _ => 0) →
      (g.view w = none → fld ≠ 7 → Traps (.vinfo d w cc fld) s g p 0x10) ∧
      ∀ word : Word, (g.view w = none → fld = 7 ∧ word = 0) → (∀ ov, g.view w = some ov →
        let ds := ov.desc
        let ext := fun j => ds.ext.getD j 0 * 2 ^ (16 * j)
        let str := fun j => BitVec.ofInt 32 (ds.str.getD j 0)
        word = ([ds.base, BitVec.ofNat 64 (ds.esize + ds.rank * 2 ^ 8 + ds.mode * 2 ^ 16),
          BitVec.ofNat 64 (ext 0 + ext 1 + ext 2 + ext 3), str 1 ++ str 0, str 3 ++ str 2, BitVec.ofNat 64 ov.ticket.time,
          BitVec.ofNat 64 (ov.ticket.gslot + ov.ticket.core * 2 ^ 8), 1] : List Word).getD fld.toNat 0) →
        ∃ t g', exec (.vinfo d w cc fld) s = .next t ∧ Advanced 2 s t g g' p ∧ SameButRegs g g' ∧
          Wrote x d cc (some (.uni word)) (fun _ => word) s.path g g' p) ∧
    (∀ ov, let ea := elementVa ov.desc
      let sh := uni1 ea (g.shp p a)
      Clear y s g p → p.active ≠ 0 → g.view w = some ov → ov.desc.mode ≠ 0 → (∀ l ∈ activeList p, insideView ov.desc (g.val a l)) →
      WithinBudget y d cc s g p sh (fun l => ea (g.val a l)) →
      ∃ t g', exec (.vaddr d a w cc) s = .next t ∧ Advanced 2 s t g g' p ∧ SameButRegs g g' ∧
        Wrote y d cc sh (fun l => ea (g.val a l)) s.path g g' p)

/-- R209 and R211: stcov captures one write for each active lane with a point, at the point's place in the launch's
output, and marks the lanes; cvstat reads the stream's fields; outside a coverage launch both trap COVOFF, and that they do so with
an empty EXEC is the model's reading (log entries 59 and 89). -/
def Obligations.CoverageInstructions : Prop :=
  ∀ (a d : VR) (cc : CC) (fld : BitVec 3) (s : State) (g : Group) (p : Path),
    let u : Use := { rd := [a], len := 2 }
    let x : Use := { rd := [], wr := [d], len := 2 }
    (Clear u s g p → covOf s g = none → exec (.stcov a) s = .next (takeTrap s s.cur (released g p u) s.path p (p.trapRec 0x28))) ∧
    (∀ l c, Clear u s g p → covOf s g = some (l, c) → ∃ t g' o, exec (.stcov a) s = .next t ∧
      (let s0 := { s with serial := s.serial + 1 }
       Advanced 2 s0 t g g' (joinFlag s0 g p 2 o.flag)) ∧
      g' = { released g p u with ops := g.ops ++ [o], points := g'.points, paths := g'.paths, wcount := g'.wcount } ∧
      o.cls = .cov ∧ o.kind = .stcov (c.otype == .s4) ∧ o.flag = setFlag hSetB p ∧ o.done = false ∧
      (∀ (l' : Nat) (q : CovPoint), (g.points[l']?).join = some q → (g'.points[l']?).join = some { q with wrote := q.wrote || bitOf p.active l' }) ∧
      o.accs.map (fun y => (y.lane, y.va, y.data)) = (activeList p).filterMap fun l' =>
        ((g.points[l']?).join).map fun q => (l', pointVa l c q, g.val a l')) ∧
    (Clear x s g p → (p.active ≠ 0 → WithinBudget x d cc s g p (some (.uni 0)) (fun _ => 0)) →
      (covOf s g = none → Traps (.cvstat d cc fld) s g p 0x28) ∧
      (covOf s g ≠ none → p.active = 0 → Sets (.cvstat d cc fld) x s g p fun h => h) ∧
      ∀ l c tm, p.active ≠ 0 → covOf s g = some (l, c) → teamOf s g = some tm → fld.toNat < 6 →
        let pts := blockPts l c tm.block
        let kept := fun (q : Pt) => keptPt c.chain c.level q
        let skipped := pts.filter fun q => !kept q
        let word := BitVec.ofNat 64 (([c.level, c.bx + c.by_ * 2 ^ 16 + c.bz * 2 ^ 32, tm.block, pts.countP kept,
          (skipped.length + 2 ^ c.audit - 1) / 2 ^ c.audit,
          c.chain + c.audit * 2 ^ 8 + c.rmode * 2 ^ 16 + ctNum c.otype * 2 ^ 24] : List Nat).getD fld.toNat 0)
        ∃ t g', exec (.cvstat d cc fld) s = .next t ∧ Advanced 2 s t g g' p ∧ SameButRegs g g' ∧
          Wrote x d cc (some (.uni word)) (fun _ => word) s.path g g' p)

/-- R183: enq is a release at dev of the group's earlier accesses, reads the packet once and returns its status, the
first failure in the order of the rule; 0 adds the child to the caller's tree, and with an empty EXEC it only reads. -/
def Obligations.ChildLaunchesEnqueue : Prop :=
  ∀ (d a : VR) (cc : CC) (s : State) (g : Group) (p : Path),
    let u : Use := { rd := [a], uni := [a], wr := [d] }
    let n := p.since.getD s.serial
    let seen := SeenBefore g s.serial .dev
    let va := uniAt g p a
    IdleWhenEmpty (.enq d a cc) u s g p ∧
    (Clear u s g p → p.active ≠ 0 → WithinBudget u d cc s g p (some (.uni 0)) (fun _ => 0) →
      (¬ seen → Stalls (.enq d a cc) s g p n 5) ∧
      ∀ l x s1 bs, seen → launchOf s g = some l → va.toNat < 2 ^ 56 → va.toNat % 128 = 0 →
        translate s (coreOf s.cur) g.ten p.code.level .read va.toNat = .ok x →
        (∀ pa, hereOf s x = some pa → lineAbsent s (pa / 64 * 64) = false ∧ lineAbsent s ((pa / 64 + 1) * 64) = false) →
        syncRead (tlbFill s (coreOf s.cur) g.ten va.toNat) s.cur g.ten x 128 false = (s1, some (bs, 0)) →
        let illegal := pType bs != 1 || lForm bs == 2 || pNote bs || pBar bs || pSignal bs != 0 || !launchFieldsOk bs
        let waiting := (s1.launches.filter fun q => q.2.ten = g.ten && q.2.child && !q.2.started).length
        let status : Nat := if illegal then 0x01 else if !dimsOk bs then 0x03
          else if !producerOk s1 g.ten l.queue l.index bs then 0x05 else if 1024 ≤ waiting then 0x40
          else if treeFailed s1 l.tree then 0x41 else 0
        let word := BitVec.ofNat 64 status
        let s2 := if status = 0 then
            let launches := tput s1.launches s1.serial (newLaunch g.ten l.queue l.index l.tree bs true)
            let trees := tmod s1.trees l.tree fun t => { t with counter := t.counter + 1 }
            let teams := tmod s1.teams g.team fun tm => { tm with effects := true }
            { s1 with serial := s1.serial + 1, launches := launches, trees := trees, teams := teams }
          else s1
        ∃ t g', exec (.enq d a cc) s = .next t ∧ Advanced 1 s2 t g g' p ∧ SameButRegs g g' ∧
          Wrote u d cc (some (.uni word)) (fun _ => word) s.path g g' p)

/-! ### Steps of gangs and groups (R21, R96 to R99, R169, R176, R179, R287) -/

/-- R96 to R99 and R334: at a unit boundary a legal pool is passed over and a legal clause entered once no flag of its WAIT
is pending; an illegal unit and one beyond the kernel trap ILLHDR, a raised watchdog traps WATCHDOG at a legal unit (R287), and a
requested stop is taken. A gang whose team is to be pre-empted stops before a clause with SP while CNTC is zero (R34). The order of
header check, watchdog, pre-emption, reports and stop is the model's reading (log entries 86 and 92). -/
def Obligations.UnitBoundaries : Prop :=
  ∀ (s : State) (g : Group) (p : Path) (off : Nat), curGang s = some (g, p) → p.spot = .boundary off →
    (p.code.klen ≤ off → Traps .unitBoundary s g p 0x01) ∧
    ∀ s1 h, off < p.code.klen → fetchWord s s.cur g p off = (s1, .word h) →
      let goes := fun (sp : Spot) => ∃ g', exec .unitBoundary s = .next (putGroup s1 s.cur g') ∧
        g' = { g with paths := g'.paths } ∧ ∀ j < 16, g'.path j = if j = s.path
          then some { p with spot := sp, stop := if p.stop = .stepping then .atNext else p.stop } else g.path j
      let eligible := (∃ tm n, teamOf s1 g = some tm ∧ tm.mode = .asked n) ∧ h.getLsbD 4 = true ∧ g.counter .c = 0
      let wait := fun (i : Nat) => i < 12 ∧ h.getLsbD (13 + i) = true
      let quiet := ∀ r ∈ g.reports, r.mine p ≠ 0 → ∀ f, r.flag = some f → ¬ wait f
      let legal := ClauseLegal h off p.code.klen ∧ ¬ PoolLegal h off p.code.klen
      (legal ∨ PoolLegal h off p.code.klen → p.wdog = true → ∃ q, q = { p with wdog := false } ∧
        exec .unitBoundary s = .next (takeTrap s1 s.cur (g.setPath s.path (some q)) s.path q (q.trapRec 0x14))) ∧
      (PoolLegal h off p.code.klen → p.wdog = false → p.stop ≠ .atNext → goes (.boundary (off + (h.extractLsb' 13 12).toNat + 1))) ∧
      (legal → p.wdog = false → ¬ eligible → quiet → p.stop ≠ .atNext → (∀ i, wait i → ¬ pendingFlag g i) →
        goes (.inside off h (off + 1))) ∧
      (legal → p.wdog = false → ¬ eligible → quiet → p.stop ≠ .atNext → (∃ i, wait i ∧ pendingFlag g i) →
        exec .unitBoundary s = .next { s1 with stall := some 1 }) ∧
      (legal → p.wdog = false → eligible → p.stop ≠ .atNext → ∃ g', exec .unitBoundary s =
          .next { putGroup s1 s.cur g' with stall := some 13 } ∧ g' = { g with paths := g'.paths } ∧
        ∀ j < 16, g'.path j = if j = s.path then some { p with latched := true } else g.path j) ∧
      (¬ ClauseLegal h off p.code.klen → ¬ PoolLegal h off p.code.klen →
        exec .unitBoundary s = .next (takeTrap s1 s.cur g s.path p (p.trapRec 0x01))) ∧
      (PoolLegal h off p.code.klen ∨ (legal ∧ quiet) → p.wdog = false → p.stop = .atNext →
        ∃ g', exec .unitBoundary s = .next (markYield (emit (putGroup s1 s.cur g') s.cur s.path 4 0 (leBytes 3 off))) ∧
          g' = { g with paths := g'.paths, wcount := 0 } ∧
          ∀ j < 16, g'.path j = if j = s.path then some { p with stop := .stopped } else g.path j)

/-- R21, R169, R170, R176, R179 and R287: gangs merge when every live gang is parked at a regang, those at one place under
the lowest index; a waiting and a held trap enter the handler; a barrier generation completes when every group of its
span is there; and the watchdog is raised, once, in the gang that made the last counted issue, when the count has reached
the limit. -/
def Obligations.GangSteps : Prop :=
  (∀ (k : Nat) (s : State) (g : Group), tget s.groups k = some g → (∀ j p, g.path j = some p → p.latched = false) →
    (∃ j, (g.path j).isSome = true) → (∀ j p, g.path j = some p → AtRegang p) →
    ∃ t g', exec (.regangMerge k) s = .next t ∧ tget t.groups k = some g' ∧
      g' = { g with paths := g'.paths, handler := g'.handler, wlast := g'.wlast } ∧ (g.handler = none → g'.handler = none) ∧
      (∀ i, i ≠ k → tget t.groups i = tget s.groups i) ∧
      ∀ j p, g.path j = some p →
        ((∃ i q, i < j ∧ Mates g p i q) → g'.path j = none) ∧
        ((∀ i q, i < j → ¬ Mates g p i q) → ∃ m, g'.path j = some m ∧ m.spot = p.spot.after 1 ∧ m.code = p.code ∧ m.park = none ∧
          (∀ b < 16, m.slices.getLsbD b = true ↔ ∃ i q, Mates g p i q ∧ q.slices.getLsbD b = true) ∧
          (∀ b < 64, m.exec.getLsbD b = true ↔ ∃ i q, Mates g p i q ∧ q.exec.getLsbD b = true) ∧
          ∀ b < 32, m.arrived.getLsbD b = true ↔ ∀ i q, Mates g p i q → q.arrived.getLsbD b = true)) ∧
  (∀ (k pi : Nat) (s : State) (g : Group) (p : Path) (r : TrapRec) (d : TrapDesc) (y : Xlate) (pa : Nat) (s1 : State),
    tget s.groups k = some g → g.path pi = some p → p.trap = some r → r.spill = false → HandlerFound s k g d y pa s1 →
    (p.park = none → Alone g pi → EntersAt (.trapEntry k pi) r s k g pi p d y pa s1) ∧
    (p.park = some .heldTrap → p.latched = false → (∀ j < pi, ∀ q, g.path j = some q → q.park ≠ some .heldTrap) →
      EntersAt (.heldTrapEntry k) r s k g pi p d y pa s1)) ∧
  (∀ (k pi : Nat) (s : State) (g : Group) (p : Path) (sc : Sched) (wd : Nat), tget s.groups k = some g → g.path pi = some p →
    k % 32 ≠ 31 → s.scheds[k / 32 * 4 + k % 32 / 8]? = some sc → sc.wdexp[g.ten]? = some wd → g.wlast = pi → 2 ^ wd ≤ g.wcount →
    (∀ j q, g.path j = some q → q.wdog = false ∧ ∀ t, q.trap = some t → t.cause ≠ 0x14) →
    exec (.watchdog k pi) s = .next (putGroup s k (g.setPath pi (some { p with wdog := true })))) ∧
  (∀ (clu : Bool) (tid : Nat) (id : BitVec 4) (s : State) (t : Team), tget s.teams tid = some t →
    let i := if clu then 16 + id.toNat else id.toNat
    let span := barrierSpan s clu tid t
    (∃ x ∈ span, ∃ g, GroupOf s x g ∧ (g.barAt[i]?).getD 0 ≠ 0) →
    (∀ x ∈ span, ∀ g, GroupOf s x g → Arrived (if clu then .clu else .team) i g) →
    ∃ t', exec (.barrierGenerationComplete clu tid id) s = .next t' ∧
      (∀ x ∈ span, ∀ u, tget s.teams x = some u → ∀ k ∈ u.gkeys, ∀ g, tget s.groups k = some g →
        ∃ g', tget t'.groups k = some g' ∧ g' = { g with barAt := g'.barAt, paths := g'.paths } ∧ g'.barAt[i]? = some 0 ∧
          (∀ j < 32, j ≠ i → g'.barAt[j]? = g.barAt[j]?) ∧
          ∀ j p, g.path j = some p → g'.path j = some { p with arrived := p.arrived &&& ~~~((1 : BitVec 32) <<< i) }) ∧
      (∀ k, (∀ x ∈ span, ∀ u, tget s.teams x = some u → k ∉ u.gkeys) → tget t'.groups k = tget s.groups k) ∧
      (clu = false → ∃ u, tget t'.teams tid = some u ∧ u.gkeys = t.gkeys ∧
        ∀ j < 16, u.bars[j]? = if j = id.toNat then (t.bars[j]?).map (· + 1) else t.bars[j]?) ∧
      (clu = true → ∀ c x, s.clusters.find? (fun q => q.2.launch == t.launch && q.2.clu == t.clu) = some (c, x) →
        ∃ y, tget t'.clusters c = some y ∧ y.teams = x.teams ∧
          ∀ j < 16, y.bars[j]? = if j = id.toNat then (x.bars[j]?).map (· + 1) else x.bars[j]?))

/-- R149 to R157, R160 and R162: a store writes its bytes and no others; an atomic writes NEW of what it found and returns
the old value; a load returns what its home holds, which the core's read cache may not hide; and an operation whose
accesses have all performed writes its register in the lanes that are still live and leaves its flag. That an ldu is judged in full
when it completes, and that a register is received through the slices of the live lanes, are the model's readings (log entries 79 and
78). -/
def Obligations.MemoryOperationsComplete : Prop :=
  ∀ (k : Nat) (s : State) (g : Group) (o : POp),
    (∀ a pa l1 l2, LastAccess s k g o a pa l1 l2 →
      let s1 := setAD s g.ten a.x false
      let found := readNat s1 g.ten pa a.size
      let mine := fun (d : VR) (cc : CC) (g' : Group) (v : Word) =>
        Receives g g' o d cc fun l => if l = a.lane then v else laneResult o l
      ((o.kind = .store ∨ o.kind = .spill) → o.dest = none → Completes (.memOpComplete k o.id) s k o fun t g' =>
        readBytes t g.ten pa a.size = leBytes a.size a.data.toNat ∧ KeptOutside s t g.ten pa a.size a.x ∧ g'.regs = g.regs) ∧
      (∀ n sx d cc, o.kind = .load n sx → a.size = n → n ∈ [1, 2, 4, 8] → o.dest = some (d, cc) → (∀ b ∈ l1 ++ l2, b.lane ≠ a.lane) →
        (∀ l ∈ s.rcache, l.core = coreOf k → l.line ≠ pa / 64) → Completes (.memOpComplete k o.id) s k o fun t g' =>
          KeptOutside s t g.ten pa 0 a.x ∧
          mine d cc g' (laneResult { o with accs := [{ a with res := BitVec.ofNat 64 found }] } a.lane)) ∧
      (∀ f ty, o.kind = .atomic f ty → a.size = AT.width ty / 8 →
        let m := 2 ^ (8 * a.size)
        let w := readNat (setAD s g.ten a.x true) g.ten pa a.size
        let stored := fun t => readBytes t g.ten pa a.size = leBytes a.size (atomNew f ty w (a.data.toNat % m) (a.cmp.toNat % m)) ∧
          KeptOutside s t g.ten pa a.size a.x
        (o.dest = none → Completes (.memOpComplete k o.id) s k o fun t g' => stored t ∧ g'.regs = g.regs) ∧
        (∀ d cc, o.dest = some (d, cc) → (∀ b ∈ l1 ++ l2, b.lane ≠ a.lane) → Completes (.memOpComplete k o.id) s k o fun t g' =>
          stored t ∧ mine d cc g' (laneResult { o with accs := [{ a with res := BitVec.ofNat 64 w }] } a.lane)))) ∧
    (tget s.groups k = some g → g.op o.id = some o → o.cls = .mem → o.done = false → o.halted = false →
      (∀ a ∈ o.accs, a.done = true ∧ a.err = 0) →
      (∀ d cc, o.dest = some (d, cc) → ((∃ n sx, n ∈ [1, 2, 4, 8] ∧ o.kind = .load n sx) ∨ ∃ f ty, o.kind = .atomic f ty) →
        Completes (.memOpComplete k o.id) s k o fun _ g' => Receives g g' o d cc (laneResult o)) ∧
      (∀ d cc, o.dest = some (d, cc) → o.kind = .loadu → Completes (.memOpComplete k o.id) s k o fun _ g' =>
        let v := (o.accs.head?).elim 0 (·.res)
        let full := o.full = true ∨ o.lanes &&& g.live = g.live
        (¬ full → Receives g g' o d cc (fun _ => v)) ∧
          (full → o.lanes &&& g.live ≠ 0 → (g'.reg d).val = .uni v ∧ ∀ r, r ≠ d → g'.reg r = g.reg r)) ∧
      (∀ d cc r v, o.dest = some (d, cc) → o.kind = .unspill r → o.accs ≠ [] →
        VReg.ofImage g.w ((o.accs.map fun a => leBytes 8 a.res.toNat).flatten) = some v →
        Completes (.memOpComplete k o.id) s k o fun _ g' => (∀ q, q ≠ d → g'.reg q = g.reg q) ∧
          (g.holdsLive o.slices = true → g'.reg d = v) ∧
          (g.holdsLive o.slices = false → ∀ sl < 16,
            nibble (g'.reg d).nib sl = nibble (if inSlices (o.slices &&& slicesOf g.live) sl then v.nib else (g.reg d).nib) sl)) ∧
      (o.dest = none → Completes (.memOpComplete k o.id) s k o fun _ g' => g'.regs = g.regs))

/-- R152 and R161: a gang parked at absent lines goes on once they are all present, and a parked waitv reads the words of
the lanes not yet seen to hold again, and goes on, or stays parked with the lanes seen by then. -/
def Obligations.ParkedAccessesResume : Prop :=
  ∀ (k pi : Nat) (s : State) (g : Group) (p : Path), tget s.groups k = some g → g.path pi = some p → p.latched = false →
    (∀ lines, p.park = some (.line lines) → (∀ l ∈ lines, l ∉ s.absent) →
      ∃ g', exec (.absentLineResume k pi) s = .next (putGroup s k g') ∧ g' = { g with paths := g'.paths } ∧
        ∀ j < 16, g'.path j = if j = pi then some { p with park := none } else g.path j) ∧
    (∀ id sat addrs cmps r w64 acq, p.park = some (.waitv id sat addrs cmps r w64 acq) →
      let n := if w64 then 8 else 4
      let lanes := (activeList p).map fun l => (l, addrs.getD l 0, cmps.getD l 0)
      let s1 := lanes.foldl (fun q x => tlbFill q (coreOf k) g.ten (x.2.1.toNat % 2 ^ 56)) s
      let w := waitScan k g id p.code.level r n acq.isSome s1 sat lanes ⟨s1, sat, 0, 0, 0⟩
      (∀ l ∈ activeList p, bitOf sat l = false →
        ∃ x, translate s (coreOf k) g.ten p.code.level .read ((addrs.getD l 0).toNat % 2 ^ 56) = .ok x) → w.bad = 0 → w.ref = 0 →
      (p.active &&& ~~~w.sat ≠ 0 → ∃ g', exec (.waitvRecheck k pi) s = .next (putGroup w.s k g') ∧ g' = { g with paths := g'.paths } ∧
        ∀ j < 16, g'.path j = if j = pi then some { p with park := some (.waitv id w.sat addrs cmps r w64 acq) } else g.path j) ∧
      (p.active &&& ~~~w.sat = 0 → ∃ t g', exec (.waitvRecheck k pi) s = .next t ∧ tget t.groups k = some g' ∧
        g' = { g with paths := g'.paths, wcount := g'.wcount } ∧
        (∀ j < 16, g'.path j = if j = pi then some (p.moved (p.spot.after 2)) else g.path j) ∧
        (acq = none → t.rcache = w.s.rcache) ∧
        ∀ scp, acq = some scp → 2 ≤ Scp.rank scp → t.rcache = w.s.rcache.filter fun l => l.core != coreOf k))

/-- R190, R192, R193, R195, R197, R199, R217 to R219: a matrix operation completes at its turn on its tile: mzero clears
it, mrow reads pairs of its elements, mlda loads them, mma and mmag add their dot products in the order of R218, mms
writes the product's bytes; MSTAT collects the flags; a transfer that meets a fault is held as a report; and complete
batches leave CNTX in order. Truncation of elements whose exponent is all ones is the model's reading (log entry 88). -/
def Obligations.MatrixOperationsComplete : Prop :=
  ∀ (k : Nat) (s : State) (g : Group) (o : POp),
    (MatTurn s k g o →
      let i := Instr.matrixOperationComplete k o.id
      let same := fun (t : State) (tile : Nat) => ∀ j < 16, j ≠ tile → tileAt t g j = tileAt s g j
      (∀ tile, tile < 16 → o.kind = .mzero tile → Completes i s k o fun t g' =>
        (∀ r c, elemOf t g tile r c = 0) ∧ same t tile ∧ g'.regs = g.regs) ∧
      (∀ tile row col d cc, o.kind = .mrow tile row col → o.dest = some (d, cc) → Completes i s k o fun t g' =>
        Receives g g' o d cc (fun l => elemOf s g tile row (col + 2 * l + 1) ++ elemOf s g tile row (col + 2 * l)) ∧
        ∀ j < 16, tileAt t g j = tileAt s g j) ∧
      (∀ d bytes fl vec r cc, o.kind = .mms d bytes fl vec → o.dest = some (r, cc) → d + o.nregs ≤ 64 → g.w ∈ [16, 32, 64] →
        o.nregs * 8 * g.w < bytes.length + 8 * g.w → bytes.length ≤ o.nregs * 8 * g.w →
        (∀ l < g.w, 8 * l < bytes.length → bitOf (o.lanes &&& g.live) l = true ∧ inSlices o.slices (l / 4) = true) →
        Completes i s k o fun _ g' => g'.mstat = g.mstat ||| fl ∧
          (∀ j < bytes.length, runByte g' (BitVec.ofNat 6 d) j = bytes.getD j 0) ∧
          ∀ q : VR, q.toNat < d ∨ d + o.nregs ≤ q.toNat → g'.reg q = g.reg q) ∧
      (∀ r tile ro co, tile < 16 → o.kind = .mlda r tile ro co →
        let ij := ((List.range r.rows).map fun x => (List.range r.cols).map fun y => (x, y)).flatten
        let e := (Xfer.start s).readAll (engWho k g o false) (ij.map fun x => r.elemBytes x.1 x.2).flatten
        (co + r.cols ≤ 256 → e.stop = none → Completes i s k o fun t g' => same t tile ∧ g'.regs = g.regs ∧
          ∀ x < r.rows, ∀ y < r.cols, elemOf t g tile (ro + x) (co + y) =
            BitVec.ofNat 32 (toFloat fmtF32 false .rne (ctValue r.fmt (r.elem e.byte x y))).bits) ∧
        (∀ c va, e.stop = some (.fault c va) → ∃ t g', exec (.engineTransferFault k o.id) s = .next t ∧
          tget t.groups k = some g' ∧ ∃ rep, g'.reports = g.reports ++ [rep] ∧ rep.cause = 0x24 ∧ rep.code = c ∧
            rep.addr = BitVec.ofNat 64 va ∧ rep.op = o.id ∧ rep.word = o.word ∧ rep.lanes = o.lanes ∧
            ∀ q ∈ g'.ops, q.id = o.id → q.halted = true)) ∧
      (∀ a b tile z m ks q pl scales gather, tile < 16 → o.kind = .mma a b tile z m ks q pl scales gather →
        let rows := productRows m gather
        let cols := 32 * (ks + 1)
        let ofA := (rows.map fun x => (List.range cols).map fun c => a.elemPlanes pl x.1 c).flatten
        let ofB := ((List.range cols).map fun r => ((List.range 256).map fun c => b.elemBytes r c).flatten).flatten
        let e := (ofA.map (·.2)).flatten.foldl (Xfer.peek (engWho k g o true))
          ((Xfer.start s).readAll (engWho k g o true) ((ofA.map (·.1)).flatten ++ ofB))
        let scale := fun (x y : Nat) => scales.map fun sc => BitVec.ofNat 32
          (fmtF32.mul .rne (fmtF32.decode (sc.1.getD x 0).toNat) (fmtF32.decode (sc.2.getD (y / 128) 0).toNat)).bits
        e.stop = none → (rows.map (·.2)).Nodup → Completes i s k o fun t g' => same t tile ∧ g'.regs = g.regs ∧
          (∀ x ∈ rows, ∀ y < 256, elemOf t g tile x.2 y =
            (dot ks q (scale x.1 y) (fun c => prodNa (truncA a.fmt pl (a.elem e.byte x.1 c)) (ctValue b.fmt (b.elem e.byte c y)))
              (if z then 0 else elemOf s g tile x.2 y)).1) ∧
          ∀ r < 128, r ∉ rows.map (·.2) → ∀ y < 256, elemOf t g tile r y = elemOf s g tile r y)) ∧
    (tget s.groups k = some g → ∃ t g', exec (.matrixBatchComplete k) s = .next t ∧ tget t.groups k = some g' ∧
      g'.closed = g.closed.dropWhile (fun b => g.ops.all fun o => o.batch != some b || o.done) ∧ g'.regs = g.regs)

/-- R200 to R202, R206, R209, R268, R294 and R348: a transfer completes in its turn once all of its units have performed, and its last
unit writes each byte of its destination from the elements of its source, by the row list where there is one, converted as cvt
converts, and no other byte; a stcov's last write stores its lane's value, or its nibble, at the point's place; an access through a
view performs once it is granted; and a parked vopen, executing again with every shard free, registers under a new ticket. That it
waits for no other ticket, and drops the core's read cache, are the model's readings (log entries 82 and 51). -/
def Obligations.TransfersAndViewsComplete : Prop :=
  ∀ (k : Nat) (s : State) (g : Group) (o : POp),
    (tget s.groups k = some g → g.op o.id = some o → o.cls = .copy → o.done = false → o.halted = false →
      (∀ q ∈ olderOps g o, q.cls = .copy → q.done = true) →
      let s1 := copyMany k o.id (unitsLeft o) s
      ∀ g1 o1, liveCopy s1 k o.id = some (g1, o1) → unitsLeft o1 = 0 →
        ∃ t g', exec (.copyComplete k o.id) s = .next t ∧ tget t.groups k = some g' ∧ g'.regs = g1.regs ∧ t.mem = s1.mem ∧
          t.absent = s1.absent ∧ ∀ q ∈ g'.ops, q.id = o.id → q.done = true) ∧
    (∀ src dst list sat rm mine rowOf from_ to_ used, CopyLast s k g o src dst list sat rm mine rowOf from_ to_ used →
      let form := copyForm src dst
      let conv := fun (i j : Nat) =>
        (cvtFn sat rm form.fmt src.fmt (BitVec.ofNat 64 (src.elem (fun va => readByte s g.ten (from_ va)) (rowOf i) j))).1.toNat
      Completes (.copyComplete k o.id) s k o fun t _ =>
        (∀ x ∈ mine, DestByte form conv (readByte s g.ten (to_ x.1)) (readByte t g.ten (to_ x.1)) x.2) ∧
        ∀ b, (∀ x ∈ mine, to_ x.1 ≠ b) → (∀ va ∈ used, ∀ need x, translate s (coreOf k) g.ten o.level need va = .ok x →
          ¬ TouchesPte s x b) → readByte t g.ten b = readByte s g.ten b) ∧
    (∀ nib a x pa l1 l2, LastCover s k g o nib a x pa l1 l2 →
      let v := a.data.toNat
      let old := (readByte (setAD s g.ten x true) g.ten pa).toNat
      Completes (.stcovPerform k o.id) s k o fun t g' => KeepsRegs g g' ∧ KeptOutside s t g.ten pa a.size x ∧
        (nib = false → readBytes t g.ten pa a.size = leBytes a.size v) ∧
        (nib = true → (readByte t g.ten pa).toNat = if a.cmp ≠ 0 then old % 16 + v % 16 * 16 else old / 16 * 16 + v % 16)) ∧
    (∀ a pa l1 l2 w v, LastAccess s k g o a pa l1 l2 → o.kind = .store → o.view = some (w, v) →
      ∃ t g', exec (.trellisGrant k o.id) s = .next t ∧ tget t.groups k = some g' ∧ KeepsRegs g g' ∧
        readBytes t g.ten pa a.size = leBytes a.size a.data.toNat ∧ KeptOutside s t g.ten pa a.size a.x ∧
        ∀ q ∈ g'.ops, q.id = o.id → ∀ b ∈ q.accs, b.done = true) ∧
    (∀ pi p homes order w a ds s1 h1 bs, tget s.groups k = some g → g.path pi = some p → p.park = some (.vopen homes order w a) →
      shardsFree s homes order = true → p.latched = false → p.stop ≠ .stopped →
      let p0 := { p with park := none }
      let g0 := g.setPath pi (some p0)
      let s0 := { putGroup s k g0 with cur := k, path := pi }
      let u : Use := { rd := [a], uni := [a], len := 2 }
      Clear u s0 g0 p0 → p.active ≠ 0 → g.view w = none → RecordRead s0 g0 p0 (uniAt g p a) s1 h1 bs →
      parseView bs = some ds →
      let s2 := (viewHomes s1 (coreOf k) g.ten ds).1
      let now := (viewHomes s1 (coreOf k) g.ten ds).2
      shardsFree s2 now order = true →
      let tk : Ticket := ⟨s.time, k / 32, k % 32⟩
      ∃ t g', exec (.vopenReexecute k pi) s = .next t ∧ tget t.groups k = some g' ∧ g'.view w = some ⟨ds, tk, now⟩ ∧
        t.trellis = s.trellis ++ [⟨tk, ds, now, some k, g.team, g.ten, w.toNat⟩] ∧
        g'.path pi = some (p.moved (p.spot.after 2)) ∧ ∀ j, j ≠ pi → g'.path j = g.path j)

/-- R203, R204, R210, R315 and R321: a collective ends with BADCOLL where a rank's call differs or was aborted, and else
with its result; block q of an allgather comes from rank q, of an alltoall from block r of rank q, a broadcast from the
root, and an integer sum over the ranks wraps; a lost chunk of a pending call is sent again; and a block whose
reach has finished is reconstructed, its points counted. The blocks that a reconstruction waits for, its writes that wait, floating-point
reductions, the message of a rank that differs, and the layout of a chunk are the model's (log entries 75, 53, 50 and 34). -/
def Obligations.CollectivesAndReconstruction : Prop :=
  (∀ (k : Nat) (s : State) (g : Group) (o : POp) (co : CollOp) (c : CollDesc) (src dst : Rec) (seq : Nat) (mine : Call),
    tget s.groups k = some g → g.op o.id = some o → o.done = false → o.halted = false → o.kind = .ccol co c src dst seq →
    callAt s g.ten c.cid seq c.rank = some mine →
    let rank := callAt s g.ten c.cid seq
    ((mine.failed = true ∨ ∃ r < c.nrank, ∃ q, rank r = some q ∧ callClash mine q = true) →
      ∃ t g' rep, exec (.ccolComplete k o.id) s = .next t ∧ tget t.groups k = some g' ∧ g'.reports = g.reports ++ [rep] ∧
        rep.cause = 0x25 ∧ rep.op = o.id ∧ rep.lanes = o.lanes ∧ (∀ q ∈ g'.ops, q.id = o.id → q.done = true) ∧
        (mine.full = false → mine.failed = false → mine.nrank ≠ 1 → Out.coll mine.cid mine.rank (chunkFrame s mine 0) ∈ t.outbox)) ∧
    (mine.failed = false → mine.full = true → ∀ calls : List Call, calls.length = c.nrank →
      (∀ r < c.nrank, rank r = calls[r]?) → (∀ q ∈ calls, callClash mine q = false ∧ q.full = true) →
      let w := engWho k g o false
      let el := collResult co dst.fmt c.nrank c.root c.rank dst.rows calls
      let old := fun (va : Nat) => match destPa s k g.ten o.level va with
        | some pa => readByte s g.ten pa
        | none => Config.freeByte s.free va
      let puts := (Xfer.start s).places w (dst.destBytes.map fun x => (x.1, dst.destValue el (old x.1) x.2))
      (puts.1.sendPuts w puts.2).stop = none →
      Completes (.ccolComplete k o.id) s k o fun t g' => KeepsRegs g g' ∧
        t.mem = (writePuts ((puts.1.sendPuts w puts.2).settle w) w (calls.any (·.poisoned)) puts.2).mem)) ∧
  (∀ (t : CT) (n root r b q x j : Nat) (calls : List Call), calls.length = n → q < n → x < b →
    let of_ := fun (q row : Nat) => (calls[q]?).elim 0 fun c => c.el row j
    collResult .bcast t n root r (n * b) calls x j = of_ root x ∧
    collResult .allgather t n root r (n * b) calls (q * b + x) j = of_ q x ∧
    collResult .alltoall t n root r (n * b) calls (q * b + x) j = of_ q (r * b + x) ∧
    (∀ red, collResult (.redscat red) t n root r b calls x j = collResult (.allreduce red) t n root r b calls (r * b + x) j) ∧
    ((∀ q, of_ q x < 2 ^ 32) →
      collResult (.allreduce .add) .n32 n root r b calls x j = ((List.range n).foldl (fun acc q => acc + of_ q x) 0) % 2 ^ 32)) ∧
  (∀ (ten seq rank start port : Nat) (cid : Word) (s : State) (c : Call), callAt s ten cid seq rank = some c →
    let pending := ∃ g, ((∃ k, (k, g) ∈ s.groups) ∨ ∃ k tm, (k, tm) ∈ s.teams ∧ g ∈ tm.saved) ∧ g.ten = ten ∧ ∃ o ∈ g.ops, o.done = false ∧
      ∃ co ds a b, o.kind = .ccol co ds a b seq ∧ ds.cid = cid ∧ ds.rank = rank
    (pending → c.full = true → c.failed = false → start % chunkLen = 0 → start < c.elems.length →
      ∃ t, exec (.ccolChunkResend ten cid seq rank start port) s = .next t ∧
        Out.coll c.cid c.rank (chunkFrame s c start) ∈ t.outbox ∧ t.calls = s.calls ∧ t.groups = s.groups) ∧
    (¬ pending → exec (.ccolChunkResend ten cid seq rank start port) s = .next s)) ∧
  (∀ (lid b : Nat) (s : State) (l : Launch) (c : Cov), tget s.launches lid = some l → l.cov = some c → l.code = 0 →
    b < l.gx * l.gy * l.gz → b ∈ c.finished → b ∉ c.reconstructed → (∀ x ∈ reachBlocks l c b, x ∈ c.finished) →
    let skipped := skippedPts l c b
    let audits := auditPts l c b
    let e := (Xfer.start s).readAll (gleanWho lid l) (gleanReads l c b)
    e.stop = none → (∀ q ∈ skipped, q ∉ audits → pointWaits s l c q = false ∧ pointOk s l c q = true) →
    (c.reconstructed.length + 1 = blockCount l → controllerWaits s lid l c = false) → ∃ t l' c', exec (.gleanerReconstruct lid b) s = .next t ∧ tget t.launches lid = some l' ∧ l'.cov = some c' ∧
      c'.reconstructed = sadd c.reconstructed b ∧ c'.naudit = c.naudit + skipped.countP audits.contains ∧
      c'.nrecon = c.nrecon + skipped.countP (fun q => !audits.contains q) ∧
      c'.nkept = c.nkept + ((blockPts l c b).length - skipped.length) ∧ t.groups = s.groups)

/-! ### Teams and launches (R25 to R34, R53, R266, R290 to R293) -/

/-- R25 to R32, R53, R266 and R291: the distributor places the head of a launch where no older launch waits, each member on
its cores with fresh groups; a head ages at AGELIM; a dependent team's templates are opened under tickets of one
instant; and a team whose groups have gone frees its slots, its template views and, outside a cluster, itself. A cluster's record,
the order among cores and places, what a waiting head takes, and the ticket of the templates are the model's choices and readings (log
entries 26, 27, 29 and 82). -/
def Obligations.DistributorSteps : Prop :=
  ∀ (lid : Nat) (s : State) (l : Launch), tget s.launches lid = some l →
    (∀ k blks places, l.kdesc = some k → l.started = true → l.redo = [] → headReady s l k = true → inputsFree s lid l = true →
      olderLaunches s (headOrder l) = [] →
      let seats := nextSeats l k
      freeBlks s lid k seats.length = some blks → findPlace s lid l k seats = some places →
      (places.map fun x => x.2.2.1).flatten.Nodup →
      ∃ t l', exec (.teamPlacement lid) s = .next t ∧ tget t.launches lid = some l' ∧ l'.next = l.next + seats.length ∧
        l'.liveTeams = l.liveTeams + seats.length ∧ l'.taken = [] ∧ l'.headSince = none ∧
        ∀ i st u keys win blk, places[i]? = some (st, u, keys, win) → blks[i]? = some blk →
          ∃ tm, tget t.teams (s.serial + i) = some tm ∧ FreshTeam lid k st u keys win blk tm ∧
            ∀ gid key, keys[gid]? = some key → ∃ g, tget t.groups key = some g ∧ FreshGroup s l k (s.serial + i) gid g) ∧
    (∀ since, l.headSince = some since → l.aged = false → since + 1000 * s.agelim ≤ s.time →
      exec (.headAged lid) s = .next { s with launches := tput s.launches lid { l with aged := true } }) ∧
    (∀ k st, l.kdesc = some k → l.form = 1 → l.templates ≠ [] → l.code = 0 → (tcbOf s l.ten).frozen = false →
      producerDone s l = true → s.lastOpen ≤ s.time → (nextSeats l k)[l.pendViews.length / l.templates.length]? = some st →
      let s2 := (openTemplates s l st).1
      let vs := (openTemplates s l st).2
      templatesFit s2 vs = true →
      ∃ t l', exec (.dependentTeamDispatch lid) s = .next t ∧ tget t.launches lid = some l' ∧ l'.pendViews = l.pendViews ++ vs ∧
        t.lastOpen = s.time + 1 ∧ t.lastTicket = some (s.time, 0) ∧
        (∀ v ∈ vs, v.ticket.time = s.time ∧ v.ticket.core = 64 ∧ ∃ r ∈ t.trellis, r.ticket = v.ticket ∧ r.desc = v.desc ∧ r.homes = v.homes) ∧
        ∀ r ∈ s.trellis, r ∈ t.trellis) ∧
    (∀ tid tm k, tget s.teams tid = some tm → tm.launch = lid → l.kdesc = some k → k.cluster = 1 → l.cov = none →
      twf s.teams = true → twf s.groups = true → tm.ended = false → tm.gkeys ≠ [] →
      (∀ key ∈ tm.gkeys, ∃ g, tget s.groups key = some g ∧ g.gone = true ∧ g.team = tid) →
      (∀ key g, tget s.groups key = some g → g.team = tid → key ∈ tm.gkeys) →
      ∃ t, exec (.teamEnd tid) s = .next t ∧ tget t.teams tid = none ∧ (∀ key ∈ tm.gkeys, tget t.groups key = none) ∧
        (∀ key, key ∉ tm.gkeys → tget t.groups key = tget s.groups key) ∧
        (∀ r ∈ t.trellis, r ∈ s.trellis ∧ r.team ≠ tid) ∧
        ∀ l', tget t.launches lid = some l' → l'.liveTeams = l.liveTeams - 1)

/-- R34, R64 and R293: a pre-emption is asked of every member, saves every group once all of them are eligible, and is
withdrawn after PRELIM with a notification; a saved team takes its groups' slots again with their registers as they
were and its watchdog counts at 0. That accesses which wait at the Trellis are saved unperformed is the model's reading, and the
notification's bytes are its choice (log entries 77 and 34). -/
def Obligations.TeamsArePreempted : Prop :=
  ∀ (tid : Nat) (s : State) (tm : Team), tget s.teams tid = some tm → twf s.teams = true → twf s.groups = true →
    let members := membersOf s tid
    (∃ t, exec (.preemptRequest tid) s = .next t ∧ t.groups = s.groups ∧ t.mem = s.mem ∧
      ∀ x ∈ members, ∀ u, tget s.teams x = some u → ∃ u', tget t.teams x = some u' ∧ u'.gkeys = u.gkeys ∧
        (u.mode = .running → u'.mode = .asked s.time) ∧ (u.mode ≠ .running → u'.mode = u.mode)) ∧
    (members ≠ [] → (∀ x ∈ members, teamEligible s x = true ∧
        ∃ u since, tget s.teams x = some u ∧ u.mode = .asked since ∧ s.time ≤ since + s.prelim * 1000) →
      (∀ x ∈ members, ∀ y ∈ members, ∀ u v, tget s.teams x = some u → tget s.teams y = some v → x ≠ y → ∀ k ∈ u.gkeys, k ∉ v.gkeys) →
      ∃ t, exec (.preemptSave tid) s = .next t ∧
        ∀ x ∈ members, ∀ u, tget s.teams x = some u → (∀ k ∈ u.gkeys, tget t.groups k = none) ∧
          ∃ u', tget t.teams x = some u' ∧ u'.mode = .saved s.time ∧ u'.gkeys = [] ∧ u'.tiles = u.tiles ∧ u'.win = u.win ∧
            u'.bars = u.bars ∧
            ∀ (i : Nat) (g : Group), (u.gkeys.filterMap fun k => tget s.groups k)[i]? = some g →
              ∃ g', u'.saved[i]? = some g' ∧ g' = { g with paths := g'.paths, ops := g'.ops } ∧
                (∀ j p, g.path j = some p → ∃ p', g'.path j = some p' ∧ p'.exec = p.exec ∧ p'.slices = p.slices ∧ p'.spot = p.spot ∧
                  p'.code = p.code ∧ p'.trap = p.trap ∧ p'.latched = false) ∧
                g'.ops.map (fun o : POp => { o with accs := [] }) = g.ops.map (fun o : POp => { o with accs := [] }) ∧
                ((∀ o ∈ g.ops, o.done = true ∨ o.view = none) → g'.ops = g.ops)) ∧
    (∀ since l, tm.mode = .asked since → since + 1000 * s.prelim ≤ s.time → tget s.launches tm.launch = some l →
      ∃ t, exec (.preemptWithdraw tid) s = .next t ∧
        (∀ k g, tget s.groups k = some g → ∃ g', tget t.groups k = some g' ∧ g' = { g with paths := g'.paths } ∧
          ∀ j p, g.path j = some p → g'.path j = some { p with latched := if g.team ∈ members then false else p.latched }) ∧
        (∀ x ∈ members, ∀ u, tget t.teams x = some u → ∀ y, u.mode ≠ .asked y) ∧
        (⟨5, l.ten, leBytes 8 l.queue ++ leBytes 8 l.index ++ leBytes 8 tm.index, s.time⟩ : Note) ∈ t.notes) ∧
    (∀ since l k u keys, tm.mode = .saved since → members = [tid] → tget s.launches tm.launch = some l → l.kdesc = some k →
      (tcbOf s l.ten).frozen = false → resumePlace s k [(tid, tm)] (earlierSave s [tid] since) = some [(tid, u, keys)] → keys.length = tm.saved.length → keys.Nodup →
      ∃ t tm', exec (.teamResume tid) s = .next t ∧ tget t.teams tid = some tm' ∧ tm'.mode = .running ∧ tm'.cores = u ∧
        tm'.gkeys = keys ∧ tm'.saved = [] ∧
        ∀ (i key : Nat) (g : Group), keys[i]? = some key → tm.saved[i]? = some g →
          tget t.groups key = some { g with wcount := 0 })

/-! ### Queues (R36 to R50, R295, R349, R350) -/

/-- R37 to R47, R49, R295, R349 and R350: the scanner's poll and its tickets, the claim, and the turn, effect, waiting,
completion and halt of each packet type. When the checks of a launch are made, how the front end's own accesses wait, what of a
skipped packet is kept, where a repetition halts the queue, what an unreadable signal word takes and how far a completion's
release reaches are the model's readings and choices (log entries 24, 54, 80, 90, 95 and 100). -/
def Obligations.QueuesRunPackets : Prop :=
  ∀ (qn : Nat) (s : State) (q : Queue) (f : Flight),
    (f.rep = none → (myTurn q f = true ↔ f.started = false ∧ q.halted = none ∧ f.index = q.nstart ∧
      (pBar f.bytes = true → ∀ j, q.rd ≤ j → j < f.index → q.completed j = true))) ∧
    (∀ k, f.rep = some k → (myTurn q f = true ↔ f.started = false ∧
      (pBar f.bytes = true → ∀ j, q.rd ≤ j → j < f.index → q.completed j = true) ∧
      ∀ x ∈ q.flights, x.rep = some k → x.index < f.index → x.finished = true ∨
        (pBar f.bytes = false ∧ x.started = true ∧ pType x.bytes ≠ 7))) ∧
    (tget s.queues qn = some q → scanned s q = true → q.due ≤ s.time → (q.polling = true ∨ (s.nextPoll ≤ s.time ∧
        ∀ x ∈ s.queues, scanned s x.2 = true → x.2.polling = false → x.2.due ≤ s.time →
          ¬(x.2.due < q.due ∨ (x.2.due = q.due ∧ x.1 < qn)))) →
      let s0 := if q.polling = true then s else { s with nextPoll := s.time + 10 }
      let waits := putQueue s0 qn { q with polling := true }
      (feGet s (.queue qn) q.ten .read q.desc.wra.toNat 8 = .wait →
        exec (.queuePoll qn) s = .next (feAsk waits (.queue qn) q.ten .read q.desc.wra.toNat 8)) ∧
      ∀ l, feGet s (.queue qn) q.ten .read q.desc.wra.toNat 8 = .ok l →
        let wr := field l 0 8
        let s1 := (pollSlots q wr).foldl (fun s va => feTouch s q.ten va 1) (pollBegins (feTouch s q.ten q.desc.wra.toNat 8) q)
        (wr - q.rd ≤ q.size → pollWaits s qn q (pollSlots q wr) ≠ [] → exec (.queuePoll qn) s =
          .next ((pollWaits s qn q (pollSlots q wr)).foldl (fun s va => feAsk s (.queue qn) q.ten .read va 1) waits)) ∧
        (q.size < wr - q.rd → HaltsAt (.queuePoll qn) s qn q q.nstart 0x0B) ∧
        (q.flights = [] → q.skips = [] → wr - q.rd ≤ q.size → pollWaits s qn q (pollSlots q wr) = [] →
          ∃ new : List Nat, new.Pairwise (· < ·) ∧
          (∀ i, i ∈ new ↔ q.rd ≤ i ∧ i < wr ∧ i ≤ q.rd + 8 ∧ (qn, i) ∉ s.tickets ∧ slotType s1 qn q i ≠ 0 ∧
            ∀ j, q.rd < j → j < i → slotType s1 qn q j ≠ 7) ∧
          let iv := if q.wr < wr ∨ new ≠ [] then 1 else min (2 * q.interval) (2 ^ q.desc.maxi.toNat)
          exec (.queuePoll qn) s = .next (putQueue { feDone s1 (.queue qn) with tickets := s.tickets ++ new.map fun i => (qn, i) } qn
            { q with wr := wr, polling := false, interval := iv, due := s.time + iv * 1000 }))) ∧
    (∀ i rest p, s.tickets = (qn, i) :: rest → tget s.queues qn = some q → q.halted = none →
      feGet s (.packet qn i) q.ten .read (q.slotVa i) 128 = .ok p → pType p ≠ 0 →
      ∃ t, exec .ticketClaim s = .next t ∧ t.tickets = rest ∧ t.claimed = s.claimed + 1 ∧
        tget t.queues qn = some { q with flights := q.flights ++ [freshFlight i p none] }) ∧
    (∀ x ∈ [(1, Instr.launchPacket qn f.index), (2, .barrierPacket qn f.index), (3, .signalPacket qn f.index),
        (4, .indirectPacket qn f.index), (5, .predicatePacket qn f.index), (6, .loopPacket qn f.index),
        (7, .fetchFencePacket qn f.index), (0, .packetComplete qn f.index), (0xFF, .packetComplete qn f.index)],
      Turn s qn q f x.1 → f.rep = none → f.launch = none → (1 ≤ x.1 → x.1 ≤ 7 → headerOk f.bytes = false) →
      HaltsAt x.2 s qn q f.index 0x01) ∧
    (Turn s qn q f 1 → launchFieldsOk f.bytes = true →
      let c := checkLaunch s (askerOf qn f) q.ten qn f.index f.bytes
      (∀ need va n, c = .ask need va n → exec (.launchPacket qn f.index) s = .next (feAsk s (askerOf qn f) q.ten need va n)) ∧
      (∀ k ts cov, c = .ok k ts cov → ∃ t l q', exec (.launchPacket qn f.index) s = .next t ∧ tget t.launches (s.serial + 1) = some l ∧
        l.ten = q.ten ∧ l.queue = qn ∧ l.index = f.index ∧ l.pkt = f.bytes ∧ l.kdesc = some k ∧ l.started = true ∧ l.child = false ∧
        l.next = 0 ∧ l.cov = cov ∧ l.templates = ts ∧ (cov = none → l.total = lG f.bytes 0 * lG f.bytes 1 * lG f.bytes 2) ∧
        l.tree = s.serial ∧ tget t.trees s.serial = some ⟨s.serial + 1, 1, 0⟩ ∧ t.rcache = [] ∧ tget t.queues qn = some q' ∧
        ∃ x ∈ q'.flights, x.index = f.index ∧ x.started = true ∧ x.launch = some (s.serial + 1)) ∧
      (∀ code, c = .code code → ∃ t l, exec (.launchPacket qn f.index) s = .next t ∧ tget t.launches (s.serial + 1) = some l ∧
        l.code = code ∧ code ≠ 0 ∧ tget t.trees s.serial = some ⟨s.serial + 1, 0, code⟩)) ∧
    (Turn s qn q f 2 → headerOk f.bytes = true → barrierFieldsOk f.bytes = true → s.time < f.due →
      exec (.barrierPacket qn f.index) s = .next s) ∧
    (Turn s qn q f 2 → headerOk f.bytes = true → barrierFieldsOk f.bytes = true → f.due ≤ s.time →
      let who := askerOf qn f
      let l := depCounts s who q.ten f.bytes
      let s1 := feDone ((depVas f.bytes).foldl (fun s va => feTouch s q.ten va 8) s) who
      (.wait ∈ l → exec (.barrierPacket qn f.index) s = .next ((depVas f.bytes).foldl (fun s va => feAsk s who q.ten .read va 8) s)) ∧
      (.wait ∉ l → .bad ∈ l → f.rep = none → HaltsAt (.barrierPacket qn f.index) s qn q f.index 0x0D) ∧
      (.wait ∉ l → .bad ∉ l → (∃ n, .ok n ∈ l ∧ n ≠ 0) → exec (.barrierPacket qn f.index) s =
        .next (putQueue s1 qn (q.putFlight { f with due := s.time + q.interval * 1000 }))) ∧
      ((∀ n ∈ l, n = .ok 0) → Released s1 f →
        (pSignal f.bytes = 0 → ∃ t, exec (.barrierPacket qn f.index) s = .next t ∧ PacketEnds s t qn q f 0) ∧
        (∀ pa x, pSignal f.bytes ≠ 0 → fePa s1 q.ten .atomic (pSignal f.bytes) = some (pa, x) →
          (poisoned s1 pa 8 = true → f.rep = none → HaltsAt (.barrierPacket qn f.index) s qn q f.index 0x0D) ∧
          (poisoned s1 pa 8 = false → lineAbsent s1 pa = false →
            ∃ t, exec (.barrierPacket qn f.index) s = .next t ∧ PacketEnds s t qn q f 0 ∧
              (RdStays q f → WordBecomes s1 t q.ten (pSignal f.bytes) fun w => signalNext w 0))) ∧
        (pSignal f.bytes ≠ 0 → feAt s1 q.ten .atomic (pSignal f.bytes) = .bad → f.rep = none →
          HaltsAt (.barrierPacket qn f.index) s qn q f.index 0x0D))) ∧
    (Turn s qn q f 3 → headerOk f.bytes = true → signalFieldsOk f.bytes = true → ¬ Released s f →
      exec (.signalPacket qn f.index) s = .next (putQueue s qn (q.putFlight { f with relAt := some (f.relAt.getD s.serial) }))) ∧
    (Turn s qn q f 3 → headerOk f.bytes = true → signalFieldsOk f.bytes = true → Released s f →
      (feAt s q.ten .atomic (field f.bytes 8 8) = .bad → f.rep = none → HaltsAt (.signalPacket qn f.index) s qn q f.index 0x0D) ∧
      ∀ pa x, fePa s q.ten .atomic (field f.bytes 8 8) = some (pa, x) →
      (poisoned s pa 8 = true → f.rep = none → HaltsAt (.signalPacket qn f.index) s qn q f.index 0x0D) ∧
      (poisoned s pa 8 = false → lineAbsent s pa = false →
      ∃ t, exec (.signalPacket qn f.index) s = .next t ∧ PacketEnds s t qn q f 0 ∧
        (RdStays q f → WordBecomes s t q.ten (field f.bytes 8 8) fun w =>
          let v := field f.bytes 0x18 8
          let op := field f.bytes 0x10 1
          w / 2 ^ 56 * 2 ^ 56 + (if op = 0 then v else if op = 1 then w + v else w + (2 ^ 64 - v)) % 2 ^ 56))) ∧
    (Turn s qn q f 4 → headerOk f.bytes = true → indirectFieldsOk f.bytes = true →
      let who := askerOf qn f
      (feGet s who q.ten .read (field f.bytes 8 8) 128 = .bad → f.rep = none → HaltsAt (.indirectPacket qn f.index) s qn q f.index 0x0D) ∧
      ∀ p, feGet s who q.ten .read (field f.bytes 8 8) 128 = .ok p →
      (pType p = 0 → f.rep = none → HaltsAt (.indirectPacket qn f.index) s qn q f.index 0x01) ∧
      (pType p ∈ [4, 6, 7] → ∃ t, exec (.indirectPacket qn f.index) s = .next t ∧
        PacketEnds s t qn q { f with bytes := List.replicate 128 0 } 0x07) ∧
      (pType p ∉ [0, 4, 6, 7] → exec (.indirectPacket qn f.index) s =
        .next (putQueue (feAcquire (feDone (feTouch s q.ten (field f.bytes 8 8) 128) who)) qn (q.putFlight { f with bytes := p })))) ∧
    (Turn s qn q f 5 → headerOk f.bytes = true → predicateFieldsOk f.bytes = true →
      (feGet s (askerOf qn f) q.ten .read (field f.bytes 8 8) 8 = .bad → f.rep = none →
        HaltsAt (.predicatePacket qn f.index) s qn q f.index 0x0D) ∧
      ∀ l, feGet s (askerOf qn f) q.ten .read (field f.bytes 8 8) 8 = .ok l →
      Released (feDone (feTouch s q.ten (field f.bytes 8 8) 8) (askerOf qn f)) f →
      let cmp := field f.bytes 0x10 1
      let w := field l 0 8
      let v := field f.bytes 0x18 8
      let n := field f.bytes 0x11 1
      ∃ t q', exec (.predicatePacket qn f.index) s = .next t ∧ PacketEnds s t qn q f 0 ∧ tget t.queues qn = some q' ∧
        ((cmp = 0 ∧ w = v ∨ cmp = 1 ∧ w ≠ v ∨ cmp = 2 ∧ w < v ∨ cmp = 3 ∧ v ≤ w) → t.tickets = s.tickets ∧
          ∀ x ∈ q.flights, f.index < x.index → x.finished = false → x ∈ q'.flights) ∧
        ((cmp = 0 ∧ w ≠ v ∨ cmp = 1 ∧ w = v ∨ cmp = 2 ∧ v ≤ w ∨ cmp = 3 ∧ w < v) →
          (f.rep = none → ∀ j, 1 ≤ j → j ≤ n → q'.completed (f.index + j) = true ∨ f.index + j ∈ q'.skips) ∧
          (f.rep = none → ∀ j, 1 ≤ j → j ≤ n → (qn, f.index + j) ∉ t.tickets) ∧
          (∀ k, f.rep = some k → LoopRuns q k → ∀ x ∈ q.flights, x.rep = some k → f.index < x.index → x.index ≤ f.index + n →
            x.started = false → ∃ y ∈ q'.flights, y.index = x.index ∧ y.rep = some k ∧ y.finished = true))) ∧
    (Turn s qn q f 6 → f.rep = none → headerOk f.bytes = true → loopFieldsOk f.bytes = true →
      ((f.index < q.first + field f.bytes 8 1 ∨ ∃ j ∈ loopBody f, bodyType q j = 6) →
        HaltsAt (.loopPacket qn f.index) s qn q f.index 0x01) ∧
      (q.first + field f.bytes 8 1 ≤ f.index → (∀ j ∈ loopBody f, bodyType q j ≠ 6) →
      ∃ t q', exec (.loopPacket qn f.index) s = .next t ∧ tget t.queues qn = some q' ∧ q'.rd = q.rd ∧
        { f with started := true, loopLeft := field f.bytes 12 4 } ∈ q'.flights)) ∧
    (tget s.queues qn = some q → (runningAt q f.index fun x => pType x.bytes = 6) = some f → f.rep = none → q.restart = [] →
      let reps := q.flights.filter fun x => x.rep == some f.index
      ((∃ j ∈ loopBody f, q.completed j = false) → exec (.loopPacket qn f.index) s = .next s) ∧
      ((∀ j ∈ loopBody f, q.completed j = true) →
        (reps = [] → f.loopLeft = 0 → Released s f → ∃ t, exec (.loopPacket qn f.index) s = .next t ∧ PacketEnds s t qn q f 0) ∧
        (reps = [] → f.loopLeft ≠ 0 → exec (.loopPacket qn f.index) s =
          .next (putQueue s qn { q with flights := q.flights ++ repFlights q f })) ∧
        (reps ≠ [] → (∀ x ∈ reps, x.finished = true) → ∃ t q', exec (.loopPacket qn f.index) s = .next t ∧
          tget t.queues qn = some q' ∧ (∀ x ∈ q'.flights, x.rep ≠ some f.index) ∧
          { f with loopLeft := f.loopLeft - 1 } ∈ q'.flights))) ∧
    (Turn s qn q f 7 → headerOk f.bytes = true → zeroAt f.bytes 4 124 = true → ∃ t q', exec (.fetchFencePacket qn f.index) s = .next t ∧
      tget t.queues qn = some q' ∧ { f with started := true } ∈ q'.flights) ∧
    (tget s.queues qn = some q → (runningAt q f.index fun x => pType x.bytes = 7) = some f → q.restart = [] →
      (∀ k, f.rep = some k → Released s f → (∀ x ∈ q.flights, x.rep = some k → x.index < f.index → x.finished = true) →
        ∃ t, exec (.fetchFencePacket qn f.index) s = .next t ∧ PacketEnds s t qn q f 0) ∧
      (∀ k, f.rep = some k → (∃ x ∈ q.flights, x.rep = some k ∧ x.index < f.index ∧ x.finished = false) →
        exec (.fetchFencePacket qn f.index) s = .next s) ∧
      (f.rep = none → Released s f → (∀ j, q.rd ≤ j → j < f.index → q.completed j = true) →
        ∃ t, exec (.fetchFencePacket qn f.index) s = .next t ∧ PacketEnds s t qn q f 0) ∧
      (f.rep = none → (∃ j, q.rd ≤ j ∧ j < f.index ∧ q.completed j = false) → exec (.fetchFencePacket qn f.index) s = .next s)) ∧
    (∀ code, tget s.queues qn = some q → f ∈ q.flights → f.started = true → f.finished = false → f.ending = some code →
      (∀ x ∈ q.flights, x.index = f.index → x.finished = false → x = f) → q.restart = [] →
      (q.flights.map fun x => (x.index, x.rep)).Nodup → Released s f →
      (pSignal f.bytes = 0 ∨ signalWaits s (askerOf qn f) q.ten (pSignal f.bytes) = false) →
      ∃ t, exec (.packetComplete qn f.index) s = .next t ∧ PacketEnds s t qn q f code ∧
        (pSignal f.bytes ≠ 0 → RdStays q f → WordBecomes s t q.ten (pSignal f.bytes) fun w => signalNext w code)) ∧
    (∀ lid l tr, tget s.queues qn = some q → f ∈ q.flights → f.started = true → f.finished = false → f.launch = some lid →
      (∀ x ∈ q.flights, x.index = f.index → x.finished = false → x = f) → tget s.launches lid = some l → f.ending = none →
      tget s.trees l.tree = some tr → q.restart = [] → (q.flights.map fun x => (x.index, x.rep)).Nodup → twf s.trees = true →
      let writes := ∃ x ∈ s.launches, x.2.tree = l.tree ∧ unacked s (.launch x.1) = true
      let waits := pSignal f.bytes ≠ 0 ∧ signalWaits s (askerOf qn f) q.ten (pSignal f.bytes) = true
      (tr.counter ≠ 0 ∨ writes → exec (.packetComplete qn f.index) s = .next s) ∧
      (tr.counter = 0 → ¬ writes → (waits ∨ ¬ Released s f) → ∃ t q', exec (.packetComplete qn f.index) s = .next t ∧
        tget t.queues qn = some q' ∧ q'.rd = q.rd ∧ t.notes = s.notes ∧ tget t.trees l.tree = none ∧
        ∃ x ∈ q'.flights, x.index = f.index ∧ x.started = true ∧ x.finished = false ∧ x.ending = some tr.code) ∧
      (tr.counter = 0 → ¬ writes → ¬ waits → Released s f → ∃ t, exec (.packetComplete qn f.index) s = .next t ∧ PacketEnds s t qn q f tr.code ∧
        tget t.trees l.tree = none ∧ (∀ m x, tget t.launches m = some x → x.tree ≠ l.tree) ∧
        (pSignal f.bytes ≠ 0 → RdStays q f → WordBecomes s t q.ten (pSignal f.bytes) fun w => signalNext w tr.code)))

/-! ### Rate and power (R13, R228 to R237, R322, R344) -/

/-- R228 to R237, R322 and R344: the law of a tick by exact 256th powers, with its clamp, its effective TIME, its cap event and the
bounds of the tenancies; clock stretches; a core's move and a port's change of lanes at their decision instants, below 15/16 of
the current cost alone; and what a regulator can no longer hold. The law's exact powers, the decision instants and their prices,
the domains' shares of the ceiling and the step at which a change completes are the model's readings and choices (log entries
10, 18, 19, 46, 47 and 91). -/
def Obligations.PowerFollowsTheRate : Prop :=
  ∀ (s : State),
    (∀ p : Nat, let w := (applyRate s).wb
      (s.time < (w.tick + 1) * 1000 → exec (.rateTick p) s = .next (applyRate s)) ∧
      ((w.tick + 1) * 1000 ≤ s.time → ∃ (t : State) (x y : Nat), exec (.rateTick p) s = .next t ∧
        (∀ r, w.rset = some r → x = r) ∧ (w.rset = none → w.fix = false →
          let tgt := w.ptgt * 1000
          let law : Int := max (-16) (min 16 ((((p : Int) - (tgt : Int)) * ((32 * 2 ^ w.gsel : Nat) : Int)).tdiv (tgt : Int)))
          let j : Int := if w.capNow then 16 else law
          let rho := w.rate.toNat
          (2 * x - 1) ^ 256 * 2 ^ (-j).toNat ≤ (2 * rho) ^ 256 * 2 ^ j.toNat ∧
            (2 * rho) ^ 256 * 2 ^ j.toNat < (2 * x + 1) ^ 256 * 2 ^ (-j).toNat) ∧
        (w.rset = none → w.fix = true → y = w.rate.toNat ∧ t.wb.satlo = false ∧ t.wb.sathi = false) ∧
        (w.rset ≠ none ∨ w.fix = false → y = max w.rmin (min w.rmax x) ∧
          t.wb.satlo = decide (x < w.rmin) ∧ t.wb.sathi = decide (w.rmax < x)) ∧
        (s.time < (w.tick + 1) * 1000 + 250 → t.wb.pending = some (BitVec.ofNat 32 y, (w.tick + 1) * 1000 + 250) ∧ t.wb.rate = w.rate) ∧
        ((w.tick + 1) * 1000 + 250 ≤ s.time → t.wb.pending = none ∧ t.wb.rate = BitVec.ofNat 32 y) ∧
        t.wb.rset = none ∧ t.wb.capEff = w.pcap ∧
        t.wb.cap = w.capNow ∧ t.wb.tick = w.tick + 1 ∧ t.wb.pmw = BitVec.ofNat 32 p ∧
        t.wb.capn.toNat = (if w.capNow then min (2 ^ 32 - 1) (w.capn.toNat + 1) else w.capn.toNat) ∧
        (∀ n < 32, (tcbOf t n).floor = (tcbOf s n).trmin ∧ (tcbOf t n).ceil = (tcbOf s n).trmax) ∧
        t.groups = s.groups ∧ t.mem = s.mem)) ∧
    (∀ r x, s.wb.pending = some (r, x) → x ≤ s.time → (applyRate s).wb.rate = r) ∧
    (∀ d cur : Nat, d < 81 →
      (ceilingOf s d < cur → ∃ t, exec (.clockStretch d cur) s = .next t ∧
        t = { s with domains := t.domains, wb := { s.wb with capNow := true } } ∧
        ∀ e, t.domains[e]? = (s.domains[e]?).map fun x => if e = d then { x with stretched := true } else x) ∧
      (cur ≤ ceilingOf s d → exec (.clockStretch d cur) s = .next s) ∧
      ∃ t, exec (.clockStretchEnd d cur) s = .next t ∧ t = { s with domains := t.domains } ∧
        ∀ e, t.domains[e]? = (s.domains[e]?).map fun x => if e = d ∧ cur < ceilingOf s d then { x with stretched := false } else x) ∧
    (∀ c a m : Nat, c < 64 → (coreAt s c).lost = false → (coreAt s c).move = none → (coreAt s c).limit ≤ 7 →
      s.time % 8000 = 125 * c →
      let k := coreAt s c
      let cost := opCost s.wb.rate.toNat a m
      let mhz := Config.coreMhz
      ∃ b ≤ k.limit, (∀ j ≤ k.limit, cost b * mhz j ≤ cost j * mhz b ∧
          (cost b * mhz j = cost j * mhz b → opTime a m b * mhz j ≤ opTime a m j * mhz b)) ∧
        exec (.opDecision c a m) s = .next (if b ≠ k.op ∧ 16 * cost b * mhz k.op < 15 * cost k.op * mhz b then
          setCore s c { k with move := some (b, s.time + 2000) } else s)) ∧
    (∀ c b x, (coreAt s c).move = some (b, x) →
      exec (.opMoveComplete c) s = .next (setCore s c { coreAt s c with op := b, move := none })) ∧
    (∀ p q : Nat, p < 16 → (portAt s p).change = none → s.time % 64000 = 4000 * p →
      let k := portAt s p
      let cost := laneCost s.wb.rate.toNat q
      ∃ b ∈ [2, 4, 8], (b = 2 ∨ b ≤ k.maxLanes) ∧
        (∀ v ∈ [2, 4, 8], (v = 2 ∨ v ≤ k.maxLanes) → cost b * v ≤ cost v * b ∧ (cost b * v = cost v * b → v ≤ b)) ∧
        exec (.laneDecision p q) s = .next (if b ≠ k.lanes ∧ 16 * cost b * k.lanes < 15 * cost k.lanes * b then
          setPort s p { k with change := some (b, s.time + 1000) } else s)) ∧
    (∀ p w x, (portAt s p).change = some (w, x) →
      exec (.laneChangeComplete p) s = .next (setPort s p { portAt s p with lanes := w, change := none })) ∧
    (∀ c (h : BitVec 3), (coreAt s c).lost = false →
      let k := coreAt s c
      let goal := k.move.elim k.op fun x => max x.1 k.op
      let next := if h.toNat < goal then some (h.toNat, s.time + 2000) else k.move
      exec (.regulatorLimitMove c (some h)) s = .next (setCore s c { k with limit := h.toNat, move := next })) ∧
    (∀ c, exec (.regulatorLimitMove c none) s = exec (.coreLoss c) s) ∧
    (∀ d < 81, ∃ t, exec (.regulatorPhaseFailure d) s = .next t ∧ t.wb.capNow = true ∧
      (let n := if d < 64 then 4 else if d < 68 then 8 else if d < 80 then 4 else 8
       (∀ e, (t.domains[e]?).map (·.failed) = (s.domains[e]?).map fun x => if e = d then min n (x.failed + 1) else x.failed) ∧
         ceilingOf t d = Config.ceiling s.wb.capEff d * (n - failedPhases t d) / n) ∧
      (holdsPoint t d 0 = true → t.stopped = s.stopped ∧ t.groups = s.groups ∧ (64 ≤ d → t.cores = s.cores) ∧
        (d < 64 → (coreAt t d).lost = (coreAt s d).lost ∧ (coreAt t d).limit ≤ (coreAt s d).limit ∧
          ((coreAt s d).lost = false → (coreAt t d).limit = 0 ∨ holdsPoint t d (coreAt t d).limit = true) ∧
          ((coreAt s d).lost = false → ∀ k ≤ (coreAt s d).limit, holdsPoint t d k = true → k ≤ (coreAt t d).limit) ∧
          ∀ b x, (coreAt s d).lost = false → (coreAt t d).move = some (b, x) → (coreAt s d).move = none → b = (coreAt t d).limit)) ∧
      (holdsPoint t d 0 = false → (d < 64 → (coreAt t d).lost = true) ∧ (64 ≤ d → t.stopped = true)))

/-! ### Isolation and services (R36, R50, R185, R203, R236, R264, R304 to R314, R341) -/

/-- R36, R50, R203, R304, R306, R308, R311 to R314 and R341: services answer and change what they name; an illegal request is
answered with status 1 and changes nothing; a reset leaves nothing of the tenancy. One step for each of R313's and R341's
actions, the published layout of the costs, what a target does with a replayed log, the responses' form, the front end's accesses
and the restart of a queue are the model's readings and choices (log entries 10, 22, 23, 28, 32, 34, 54, 68 and 90). -/
def Obligations.IsolationAndServices : Prop :=
  ∀ (s : State) (ten : Nat),
    (∀ (m : Mgmt) (q : QueueDesc) (rd : Nat), Heard s m → queueDescOk q = true → tget s.queues q.qnum.toNat = none → readyAll s = true →
      (∃ l, feGet s (.queue q.qnum.toNat) q.ten.toNat .read q.rda.toNat 8 = .ok l ∧ rd = field l 0 8) →
      ∃ t x, exec (.createQueue m q) s = .next t ∧ Answered s t m 0 [] ∧ tget t.queues q.qnum.toNat = some x ∧ x.desc = q ∧ x.rd = rd ∧
        x.wr = rd ∧ x.nstart = rd ∧ x.first = rd ∧ x.interval = 1 ∧ x.due = s.time + 1000 ∧ x.halted = none ∧ x.flights = []) ∧
    (∀ (m : Mgmt) (q : QueueDesc), Heard s m → (queueDescOk q = false ∨ tget s.queues q.qnum.toNat ≠ none ∨ readyAll s = false) →
      exec (.createQueue m q) s = .next (mgmtResp s m 1 [])) ∧
    (∀ (m : Mgmt) qn (mode : RestartMode) new q l, Heard s m → tget s.queues qn = some q →
      feGet s (.queue qn) q.ten .read q.desc.wra.toNat 8 = .ok l →
      let wr := field l 0 8
      let s1 := feDone (feTouch s q.ten q.desc.wra.toNat 8) (.queue qn)
      let n := if mode.toNat = 0 then 0 else if mode.toNat = 1 then 1 else new - q.rd
      let s2 := if q.cleared = true then s1 else clearTypes s1 qn q n
      (∀ c, q.halted = some c → (c = 0x0A → (tcbOf s q.ten).keyok = true ∧ resetting s q.ten = false) → mode.toNat ≤ 2 → q.flights = [] →
        q.restart = [] → q.rd = q.nstart → restartWaits s1 q n = [] →
        (n ≠ 0 → unacked s2 (.queue qn) = false ∧ feWriteWaits s2 q.ten q.desc.rda.toNat = false) →
        (mode.toNat = 2 → q.nstart ≤ new ∧ new ≤ wr) → wr - (q.rd + n) ≤ q.size →
        ∃ t x, exec (.restartq m qn mode new) s = .next t ∧ Answered s t m 0 [] ∧ tget t.queues qn = some x ∧ x.halted = none ∧
          x.rd = q.rd + n ∧ x.first = q.rd + n ∧ x.interval = 1 ∧ x.due = s.time + 1000 ∧ x.copies = [] ∧ x.restart = [] ∧
          (n = 0 → t.mem = s1.mem ∧ x.nstart = q.nstart) ∧ (n ≠ 0 → x.nstart = q.rd + n)) ∧
      ((∀ r ∈ q.restart, r.1 ≠ m) → (q.halted = none ∨ 2 < mode.toNat ∨ (mode.toNat = 2 ∧ (new < q.nstart ∨ wr < new)) ∨
        (q.halted = some 0x0A ∧ ((tcbOf s q.ten).keyok = false ∨ resetting s q.ten = true))) → exec (.restartq m qn mode new) s = .next (mgmtResp s1 m 1 []))) ∧
    (∀ (m : Mgmt) qn mode new, Heard s m → tget s.queues qn = none → exec (.restartq m qn mode new) s = .next (mgmtResp s m 1 [])) ∧
    (∀ m : Mgmt, Heard s m → ten < 32 →
      (∀ key : BitVec 256, exec (.loadKey m ten key) s =
        .next (mgmtResp (setTcb s ten { tcbOf s ten with key := some (key.toNat + 1), keyok := true }) m 0 [])) ∧
      (∀ part peer, part < 8192 → peer ≤ 32 → ∃ t, exec (.registerPeer m ten part peer) s = .next t ∧ Answered s t m 0 [] ∧
        t.groups = s.groups ∧ t.mem = s.mem ∧ ∀ x, x ∈ t.peers ↔ x = (ten, part, peer) ∨ x ∈ s.peers) ∧
      (∀ cid nrank, 1 ≤ nrank → nrank ≤ 524288 → ∃ t, exec (.registerCommunicator m ten cid nrank) s = .next t ∧ Answered s t m 0 [] ∧
        t.groups = s.groups ∧ t.mem = s.mem ∧ ∀ x, x ∈ t.comms ↔ x = (ten, BitVec.ofNat 64 cid, nrank) ∨
          (x ∈ s.comms ∧ ¬(x.1 = ten ∧ x.2.1 = BitVec.ofNat 64 cid))) ∧
      (twf s.queues = true → resetting s ten = false → signalsLeft (beginReset s ten true) ten = false →
        ∃ t, exec (.tenancyReset m ten) s = .next t ∧ TenancyGone s t ten ∧ Answered s t m 0 []) ∧
      (∀ target, (tcbOf s ten).frozen = false → ∃ t, exec (.tenancyFreeze m ten target) s = .next t ∧ Answered s t m 0 [] ∧
        t.groups = s.groups ∧ tcbOf t ten = { tcbOf s ten with frozen := true, freezing := some s.time, target := some target, log := [] } ∧
        ∀ x u l, tget s.teams x = some u → tget s.launches u.launch = some l → l.ten = ten → u.ended = false → u.mode = .running →
          ∃ u', tget t.teams x = some u' ∧ u'.mode = .asked s.time)) ∧
    (ten < 32 →
      (∀ log, (tcbOf s ten).frozen = false → (tcbOf s ten).keyok = true → exec (.logReplay ten log) s =
        .next (postNote (replayFrames s ten log) 7 ten [0])) ∧
      (∀ log, (tcbOf s ten).frozen = true → (tcbOf s ten).freezing ≠ none → exec (.logReplay ten log) s =
        .next (postNote (setTcb s ten { tcbOf s ten with freezing := none, log := [] }) 7 ten [0])) ∧
      (∀ e : BitVec 64, let b := tcbOf s ten
        (b.poollow = false → exec (.poolRefill ten [e]) s = .next s) ∧
        (b.poollow = true → (b.ptail - b.phead).toNat < 2 ^ b.plog →
        ∃ t, exec (.poolRefill ten [e]) s = .next t ∧ tcbOf t ten = { b with ptail := b.ptail + 1, poollow := false } ∧
          t.mem = (writeNat (scrubIa s ten (bits e.toNat 55 16 * 65536)) 32 (normPa s (b.pbase.toNat + b.ptail.toNat % 2 ^ b.plog * 8)) 8
            (bits e.toNat 55 16 * 65536 + bits e.toNat 11 10 * 1024)).mem ∧
          ((b.ptail + 1 - b.phead).toNat < b.lowat.toNat → (⟨3, ten, [], s.time⟩ : Note) ∈ t.notes))) ∧
      (let b := tcbOf s ten
       b.mrrd ≠ b.mrwr → ∃ t, exec (.migrationAck ten) s = .next t ∧ tcbOf t ten = { b with mrrd := b.mrrd + 1 } ∧ t.mem = s.mem ∧
         (twf s.heat = true → tget t.heat (bits (readNat s 32 (normPa s (b.mrbase.toNat + b.mrrd.toNat % 2 ^ b.mrlog * 16)) 8) 55 16) = none))) ∧
    (∀ pa key b, b / 4096 = pa / 4096 → readByte (scrubPage s pa) key b = 0) ∧
    (∀ m : Mgmt, Heard s m → ∃ t, exec (.publishCosts m) s = .next t ∧ t = { s with published := true, outbox := t.outbox } ∧
      t.outbox = s.outbox ++ (List.range ((costImage.length + 4095) / 4096)).map fun i =>
        let data := (costImage.drop (4096 * i)).take 4096
        .mgmt m.src ⟨4, 0xFE, 0, BitVec.ofNat 8 (Nat.log2 data.length), m.tag, 0, 0, 0, data, s.domidx.toNat, m.port, true⟩) ∧
    (∀ k pi va g, tget s.groups k = some g → k < 4096 → (k, pi, va) ∈ s.s2faults →
      (∀ p x, g.path pi = some p → p.park = some (.stage2 x) →
        (p.latched = true → exec (.stage2FaultResolve k pi .mapped) s = .next s) ∧
        (p.latched = false → ∃ t, exec (.stage2FaultResolve k pi .mapped) s = .next t ∧
          t.groups = tput s.groups k (g.setPath pi (some { p with park := none })) ∧ t.mem = s.mem ∧
          (∀ f, f ∈ t.s2faults ↔ f ∈ s.s2faults ∧ ¬(f.1 = k ∧ f.2.1 = pi)) ∧ (∀ e ∈ t.s2held, e.ten ≠ g.ten) ∧
          ∀ e ∈ t.tlb, e ∈ s.tlb ∧ ¬(e.ten = g.ten ∧ e.base ≤ va.toNat % 2 ^ 56 ∧ va.toNat % 2 ^ 56 < e.base + e.size))) ∧
      (twf s.queues = true → resetting s g.ten = false → signalsLeft (beginReset s g.ten false) g.ten = false →
        ∃ t, exec (.stage2FaultResolve k pi .refused) s = .next t ∧ TenancyGone s t g.ten)) ∧
    (∀ page va, (4096 + ten, page, va) ∈ s.s2faults →
      exec (.stage2FaultResolve (4096 + ten) page .mapped) s =
        .next (retryQueues (invalidateVa { s with s2faults := s.s2faults.filter fun f => !(f.1 == 4096 + ten && f.2.1 == page) } ten
          (page * 4096)) ten) ∧
      (twf s.queues = true → ten < 32 → resetting s ten = false → signalsLeft (beginReset s ten false) ten = false → ∃ t, exec (.stage2FaultResolve (4096 + ten) page .refused) s = .next t ∧ TenancyGone s t ten)) ∧
    (∀ page dst gT gE cT cE u, stage2 s ten (page / 4096 * 4096) = some u →
      let old := u.pa / u.size * u.size
      let cost := fun (t e : Nat) => t * 65536 + s.wb.rate.toNat * e
      ((u.size = 4096 ∨ u.size = 65536) → dst % u.size = 0 → populated s dst = true → isLeaving s dst = false → isRemote old = false →
        (∀ x ∈ s.moves, x.2.old ≠ old) →
        (isLeaving s old = true ∨ (16 * cost cT cE < 15 * cost gT gE ∧ ∃ x y, (homeOf old = some (.hbm, x) ∧ homeOf dst = some (.cellar, y)) ∨
          (homeOf old = some (.cellar, x) ∧ homeOf dst = some (.hbm, y)))) →
        (∀ r ∈ s.trellis, r.ten = ten → viewTouches s r old u.size = false) →
        let moves := tput s.moves s.serial ⟨ten, u.leaf, old, dst, u.size, 0⟩
        exec (.migrationDecision ten page dst gT gE cT cE) s = .next { s with serial := s.serial + 1, moves := moves }) ∧
      (15 * cost gT gE ≤ 16 * cost cT cE → isLeaving s old = false → exec (.migrationDecision ten page dst gT gE cT cE) s = .next s)) ∧
    (∀ n m, tget s.moves n = some m →
      let e := readNat s 32 m.leaf 8
      let clear := e / 512 * 512 + e % 256
      let moved := fun (t : State) => tget t.moves n = some { m with stepNo := m.stepNo + 1 }
      let live := inLiveView s m.ten m.old m.size
      (m.stepNo = 0 → live = true → exec (.pageMigration n) s = .next s) ∧
      (m.stepNo ≠ 0 → live = true → ∃ t, exec (.pageMigration n) s = .next t ∧
        tget t.moves n = some { m with stepNo := 0 } ∧ t.mem = (writeNat s 32 m.leaf 8 clear).mem) ∧
      (m.stepNo = 0 → live = false → ∃ t, exec (.pageMigration n) s = .next t ∧ moved t ∧ t.mem = (writeNat s 32 m.leaf 8 (clear + 256)).mem ∧
        ∀ x ∈ t.tlb, x ∈ s.tlb ∧ ¬(x.ten = m.ten ∧ x.x.pa < m.old + m.size ∧ m.old < x.x.pa + x.size)) ∧
      (m.stepNo = 1 → live = false → exec (.pageMigration n) s = .next (if oldWrites s m then s else
        { s with moves := tput s.moves n { m with stepNo := 2 } })) ∧
      (m.stepNo = 2 → live = false → Memory.wf s.mem = true → (m.old + m.size ≤ m.new ∨ m.new + m.size ≤ m.old) →
        ∃ t, exec (.pageMigration n) s = .next t ∧ moved t ∧
          (∀ i < m.size, Memory.get t.mem (m.new + i) = Memory.get s.mem (m.old + i)) ∧
          ∀ a, (a < m.new ∨ m.new + m.size ≤ a) → Memory.get t.mem a = Memory.get s.mem a) ∧
      (3 ≤ m.stepNo → live = false → twf s.moves = true → twf s.heat = true → twf s.queues = true →
        (∀ x ∈ s.queues, x.2.ten = m.ten → x.2.flights = [] ∧ x.2.restart = []) → ∃ t, exec (.pageMigration n) s = .next t ∧
        tget t.moves n = none ∧ tget t.heat (m.old / 65536) = none ∧ tget t.heat (m.new / 65536) = none ∧
        t.mem = (writeNat s 32 m.leaf 8
          (clear / 2 ^ 56 * 2 ^ 56 + m.new + (tierCode m.new).elim 0 (· * 1024) + clear % 1024)).mem ∧
        (∀ x ∈ t.tlb, x ∈ s.tlb ∧ ¬(x.ten = m.ten ∧ x.x.pa < m.old + m.size ∧ m.old < x.x.pa + x.size)) ∧
        ∀ l ∈ t.rcache, l ∈ s.rcache ∧ (l.line * 64 + 64 ≤ m.old ∨ m.old + m.size ≤ l.line * 64) ∧
          (l.line * 64 + 64 ≤ m.new ∨ m.new + m.size ≤ l.line * 64)))

/-! ### Recovery and bring-up (R315 to R326, R344, R345) -/

/-- R315 to R319, R322 to R326 and R345: each class of error and its record, the scrubber, links, a lost core, warm reset,
cold boot and the training of port 0. What a record or a repair counts as, what a warm reset and a boot keep, when ports come up, the
endpoint of the records, and how a unit is named that leaves service are the model's readings and choices (log entries 26, 35, 39,
40, 41, 44, 66 and 67). -/
def Obligations.RecoveryAndBringUp : Prop :=
  ∀ (s : State),
    (∀ cls src unit ten act pa synd : Nat, 2 ≤ cls →
      let t := logError s cls src unit ten act pa synd
      let r := errBytes s cls src unit ten act 1 pa synd
      let at_ := s.errs.base.toNat + s.errs.wri.toNat % 2 ^ s.errs.log * 32
      let noted := if isEth0 s = true then s.outbox ++ [.note (s.mgmtEp.getD 0) (noteFrame s 32 r)] else s.outbox
      (errFull s = false → t.errs.wri = s.errs.wri + 1 ∧
        (∀ a, herePa s at_ = some a → t.mem = (writeBytes s 32 a r).mem ∧ t.outbox = noted) ∧
        (herePa s at_ = none → t.mem = s.mem ∧ ∃ f : Frame, f.op = 2 ∧ f.data = r ∧ t.outbox = noted ++ [.frame (remotePart at_) f])) ∧
      (errFull s = true → t.outbox = noted) ∧
      (errFull s = true → s.errs.held.length < 64 → t.errs.held = s.errs.held ++ [r] ∧ t.errs.lost = s.errs.lost ∧ t.mem = s.mem) ∧
      (errFull s = true → 64 ≤ s.errs.held.length → t.errs.lost = s.errs.lost + 1 ∧ t.mem = s.mem) ∧
      t.groups = s.groups ∧ t.stopped = s.stopped) ∧
    (∀ e : ErrInfo,
      let pa := e.pa.toNat % 2 ^ 56
      let log := fun (u : State) (cls act : Nat) => logError u cls e.src.toNat e.unit.toNat e.ten.toNat act pa e.synd.toNat
      (e.cls = 1 → bits e.synd.toNat 31 31 = 0 → exec (.errorDetected e) s = .next (log s 1 1)) ∧
      (∀ p < 16, e.cls = 1 → bits e.synd.toNat 31 31 = 1 → e.src = 6 → e.unit.toNat = p →
        let n := bits e.synd.toNat 3 0
        ∃ t, exec (.errorDetected e) s = .next t ∧ t.groups = s.groups ∧
          (n < 2 → t.caps.ports = s.caps.ports &&& ~~~(BitVec.ofNat 16 (2 ^ p))) ∧
          (2 ≤ n → t.caps = s.caps ∧ (portAt t p).maxLanes = min (portAt s p).maxLanes (if n < 4 then 2 else if n < 8 then 4 else 8) ∧
            (portAt t p).lanes = min (portAt s p).lanes (portAt t p).maxLanes)) ∧
      (∀ st < 8, e.cls = 1 → bits e.synd.toNat 31 31 = 1 → (e.src = 1 ∨ e.src = 2) → e.unit.toNat = 64 + st →
        let ch := bits e.synd.toNat 4 0
        let old := (s.caps.chans.getD st 0).toNat
        let mask := (BitVec.ofNat 32 old &&& ~~~(BitVec.ofNat 32 (2 ^ ch))).toNat
        let cap := min (bits e.synd.toNat 13 8) (bits old 63 32) * 2 ^ 32 + mask
        let s1 := quarantineChannel s st ch (bits e.synd.toNat 13 8)
        (bits old ch ch = 1 → s.leaving = [] →
          (∀ x ∈ lostRanges s st cap, emptyRange s1 x.1 x.2 = true ∧ ∀ m ∈ s.moves, ¬(x.1 ≤ m.2.new ∧ m.2.new < x.2)) →
          ∃ t, exec (.errorDetected e) s = .next t ∧ t.groups = s.groups ∧ t.leaving = [] ∧
            t.caps.chans = s.caps.chans.set st (BitVec.ofNat 64 cap) ∧
            t.caps.stks = (if mask = 0 then s.caps.stks &&& ~~~(BitVec.ofNat 8 (2 ^ st)) else s.caps.stks)) ∧
        (bits old ch ch = 1 → s.leaving = [] → (∃ x ∈ lostRanges s st cap, emptyRange s1 x.1 x.2 = false) →
          ∃ t, exec (.errorDetected e) s = .next t ∧ t.groups = s.groups ∧ t.caps = s.caps ∧
            t.leaving = [(st, ch, bits e.synd.toNat 13 8)] ∧
            ∀ pa, (∃ x ∈ lostRanges s st cap, x.1 ≤ pa ∧ pa < x.2) → isLeaving t pa = true)) ∧
      (e.cls = 2 → e.src.toNat ≤ 2 → ∃ t, exec (.errorDetected e) s = .next t ∧ t = log (poisonBytes s pa (granuleSize pa)) 2 2 ∧
        (OutsideRing s pa → poisoned t pa 1 = true)) ∧
      (e.cls = 2 → e.src = 3 → exec (.errorDetected e) s = .next (log (poisonUnit s e.unit.toNat e.synd.toNat) 2 2)) ∧
      (e.cls = 3 → exec (.errorDetected e) s = .next (log s 3 3)) ∧
      (e.cls = 4 → e.ten.toNat < 32 → twf s.queues = true → resetting s e.ten.toNat = false →
        signalsLeft (beginReset s e.ten.toNat false) e.ten.toNat = false → ∃ t, exec (.errorDetected e) s = .next t ∧ TenancyGone s t e.ten.toNat) ∧
      (e.cls = 5 → ∃ t, exec (.errorDetected e) s = .next t ∧ t.stopped = true ∧ t.groups = s.groups ∧ t.queues = s.queues) ∧
      (e.cls = 6 → exec (.errorDetected e) s = exec (.coreLoss e.unit.toNat) s)) ∧
    (s.stopped = true → ∀ c n, issueStep c n s = .next s) ∧
    (∀ stack row, stack < 8 → (scrubAt s stack).en = true → ∀ fixed bad, ∃ t, exec (.scrubRow stack row fixed bad) s = .next t ∧
      (scrubAt t stack).row = BitVec.ofNat 32 row ∧ t.groups = s.groups ∧
      (scrubAt t stack).passes = (if row < (scrubAt s stack).row.toNat then (scrubAt s stack).passes + 1 else (scrubAt s stack).passes) ∧
      ((stack, row) ∈ t.repairs ↔ (stack, row) ∈ s.repairs ∨ (scrubAt s stack).rowthr ≤ fixed.length ∨ bad ≠ []) ∧
      (fixed = [] → bad = [] → t.mem = s.mem ∨ (scrubAt s stack).rowthr = 0) ∧
      (∀ g ∈ s.poison, OutsideRing s g → granule g = g → g ∈ t.poison) ∧
      ∀ pa ∈ bad, OutsideRing s pa → poisoned t pa 1 = true) ∧
    (∀ link d2d, exec (.linkFlitResend link d2d) s = .next (logError s 1 (if d2d then 5 else 6) link 0xFF 1 0 0)) ∧
    (∀ link, ∃ t, exec (.d2dLinkFailure link) s = .next t ∧ t.stopped = true ∧ t.groups = s.groups ∧ t.queues = s.queues) ∧
    (∀ c, c < 64 → (coreAt s c).lost = false → ∃ t, exec (.coreLoss c) s = .next t ∧ (coreAt t c).lost = true ∧
      (∀ d < 64, t.caps.cores.getLsbD d = (s.caps.cores.getLsbD d && decide (d ≠ c))) ∧
      (∀ (n : Nat) (x : State), issueStep c n { x with cores := t.cores } = .next { x with cores := t.cores }) ∧
      ∀ tid tm l, tget s.teams tid = some tm → c ∈ tm.cores → tm.ended = false → tget s.launches tm.launch = some l → l.code = 0 →
        (tm.isSaved = false → ∀ k g, tget t.groups k = some g → g.team ≠ tid) ∧
        (tm.isSaved = false → replayable s tm = false → ∃ l', tget t.launches tm.launch = some l' ∧ l'.code = 0x09) ∧
        (tm.isSaved = false → endsLost s (lostTeams s c) tm.launch = false → ∃ l', tget t.launches tm.launch = some l' ∧
          l'.code = 0 ∧ (tm.index, tm.redispatched + 1, tid) ∈ l'.redo)) ∧
    (bits s.ready.toNat 1 1 = 1 → (s.bootst = 1 ∨ s.bootst = 2) → Memory.wf s.mem = true → ∃ t, exec .warmReset s = .next t ∧
      (∀ a, Memory.get t.mem a = if isSilo a then 0 else Memory.get s.mem a) ∧ t.owner = [] ∧ t.groups = [] ∧ t.teams = [] ∧
      t.launches = [] ∧ t.queues = [] ∧ t.trellis = [] ∧ t.tlb = [] ∧ t.rcache = [] ∧ t.icache = [] ∧ t.moves = [] ∧
      t.repairs = s.repairs ∧ t.idkey = s.idkey ∧ t.caps = s.caps ∧ t.errs.hist = s.errs.hist ∧ t.errs.base = 0 ∧ t.errs.log = 8 ∧ t.errs.wri = 0 ∧
      t.errs.rdi = 0 ∧ t.wb.rate = 0x80000 ∧ t.time = s.time ∧ t.stopped = false ∧ (∀ n < 32, tcbOf t n = Tcb.reset)) ∧
    (bits s.ready.toNat 1 1 ≠ 1 → exec .warmReset s = .next s) ∧
    (∀ img : BootImage, ∃ t, exec (.coldBoot img) s = .next t ∧
      t.bootst = (if img.slot0 then 1 else if img.slot1 then 2 else 3) ∧
      ((img.slot0 = true ∨ img.slot1 = true) → t.caps.cores = img.cores ∧ t.caps.stks = img.stks ∧ t.caps.ports = img.ports ∧
        t.caps.units = 4096 ∧ t.idkey = some img.idkey ∧ t.repairs = img.repairs ∧ bits t.ready.toNat 5 2 = 15 ∧ (s.bootst = 0 → bits t.ready.toNat 1 1 = bits s.ready.toNat 1 1)) ∧
      (s.bootst = 0 → t.mem = s.mem) ∧ (s.bootst ≠ 0 → t.mem = [] ∧ t.groups = [] ∧ t.queues = [] ∧ t.errs = Recovery.reset ∧
        t.stopped = false ∧ ∀ n < 32, tcbOf t n = Tcb.reset)) ∧
    (∃ t, exec .port0Training s = .next t ∧ t = { s with ready := t.ready } ∧ ∀ i < 24, t.ready.getLsbD i =
      if i = 0 then s.ready.getLsbD 2 && s.ready.getLsbD 3 && s.ready.getLsbD 4 && s.ready.getLsbD 5
      else if i = 1 ∨ i = 8 then true else if i < 8 then s.ready.getLsbD i
      else s.ready.getLsbD 5 && s.caps.ports.getLsbD (i - 8))

/-! ### Messages of other parts (R156, R312, R314, R321, R339, R340) -/

/-- R156, R310, R312, R314, R321 and R340: the home performs an accepted access and answers after it, answers poison, holds
an access that must wait, and refuses every other; it captures or forwards those to a frozen tenancy; a malformed
message is dropped and counted; and responses, losses and chunks reach what waits for them. Which messages return nothing, what a
replay holds, whose key and counters an access uses, the response's form and the half-byte write are the model's readings and
choices (log entries 15, 31, 32, 33, 34 and 55). -/
def Obligations.MessagesAreServed : Prop :=
  ∀ (s : State) (f : Frame) (ten : Nat),
    let pa := f.addr.toNat
    let n := 2 ^ f.size.toNat
    (Accepts s f 1 ten →
      (lineAbsent s pa = false → poisoned s pa n = false →
        ∃ t, exec (.frameRead f) s = .next t ∧ Responds s t f 0 (readBytes s (senderOf f) pa n) ∧ t.groups = s.groups) ∧
      (lineAbsent s pa = false → poisoned s pa n = true →
        ∃ t, exec (.frameRead f) s = .next t ∧ Responds s t f 2 [] ∧ t.mem = s.mem ∧ t.groups = s.groups) ∧
      (lineAbsent s pa = true → exec (.frameRead f) s = .next (holdFrame s ⟨ten, pa, false, f⟩))) ∧
    (Accepts s f 2 ten →
      (lineAbsent s pa = false → migrating s pa = false → poisoned s pa n = false → n ≤ f.data.length → Memory.wf s.mem = true →
        ∃ t, exec (.frameWrite f) s = .next t ∧ Responds s t f 0 [] ∧ t.groups = s.groups ∧
          (anyCov s = false → readBytes t (senderOf f) pa n = f.data.take n)) ∧
      ((lineAbsent s pa = true ∨ migrating s pa = true) → exec (.frameWrite f) s = .next (holdFrame s ⟨ten, pa, false, f⟩))) ∧
    (Accepts s f 3 ten → ∀ fn ty, atomFn f = some (fn, ty) → 8 * n = AT.width ty →
      (lineAbsent s pa = false → migrating s pa = false → poisoned s pa n = false → Memory.wf s.mem = true →
        let old := readNat (heatFor s ten f pa n) (senderOf f) pa n
        ∃ t, exec (.frameAtomic f) s = .next t ∧ Responds s t f 0 (leBytes n old) ∧ t.groups = s.groups ∧
          (anyCov s = false → readNat t (senderOf f) pa n = atomNew fn ty old (field f.data 0 n) (field f.data n n) % 2 ^ (8 * n))) ∧
      ((lineAbsent s pa = true ∨ migrating s pa = true) → exec (.frameAtomic f) s = .next (holdFrame s ⟨ten, pa, false, f⟩))) ∧
    (Accepts s f 3 ten → isNibble f = true → lineAbsent s pa = false → migrating s pa = false →
      ∃ t, exec (.frameAtomic f) s = .next t ∧ Responds s t f 0 [] ∧ t.groups = s.groups ∧
        (anyCov s = false → t.mem = (nibbleAt (heatFor s ten f pa 1) feCore (senderOf f) Xlate.none pa (f.data.headD 0 |>.getLsbD 4)
          ((f.data.headD 0).toNat % 16)).mem)) ∧
    (∀ x ∈ [(1, Instr.frameRead f), (2, .frameWrite f), (3, .frameAtomic f)], Handled s f x.1 →
      (readyAll s = true → populated s pa = true → homeTen s f = some ten → (tcbOf s ten).frozen = false → heldBefore s ten pa n = true →
        exec x.2 s = .next (holdFrame s ⟨ten, pa, false, f⟩)) ∧
      ((homeTen s f = none ∨ readyAll s = false ∨ populated s pa = false) →
        exec x.2 s = .next { s with outbox := s.outbox ++ [respOf s f 1 []] }) ∧
      (readyAll s = true → populated s pa = true → homeTen s f = some ten → (tcbOf s ten).frozen = true → ten < 32 →
        let b := tcbOf s ten
        let stub := nonReturning f && inSigPage s ten pa
        (stub = false → ∃ t, exec x.2 s = .next t ∧ Responds s t f 1 [] ∧ t.mem = s.mem) ∧
        (stub = true → b.freezing ≠ none → b.log.length < 65536 → ∃ t, exec x.2 s = .next t ∧ Responds s t f 0 [] ∧
          t.mem = s.mem ∧ tcbOf t ten = { b with log := b.log ++ [f] }) ∧
        (stub = true → b.freezing ≠ none → 65536 ≤ b.log.length → ∃ t, exec x.2 s = .next t ∧ (tcbOf t ten).frozen = false ∧
          (⟨7, ten, [1], s.time⟩ : Note) ∈ t.notes) ∧
        (stub = true → b.freezing = none → ∀ part, b.target = some part →
          exec x.2 s = .next { s with outbox := s.outbox ++ [.frame part { f with port := portOf part pa }] }))) ∧
    (∀ i ∈ [Instr.frameRead f, .frameWrite f, .frameAtomic f],
      (¬ Arrives s f ∨ (frameBad f = false ∧ f.auth = true ∧ (s.stopped = true ∨ s.bootst = 3))) → exec i s = .next s) ∧
    (∀ i ∈ [Instr.frameResp f, .frameNote f, .frameCcol f],
      (¬ Arrives s f ∨ (frameBad f = false ∧ f.auth = true ∧ s.stopped = true)) → exec i s = .next s) ∧
    (∀ i ∈ [Instr.frameRead f, .frameWrite f, .frameAtomic f, .frameResp f, .frameNote f, .frameCcol f],
      Arrives s f → (frameBad f = true ∨ f.auth = false) → ∃ t, exec i s = .next t ∧ t = { s with ports := t.ports } ∧
        ∀ j, t.ports[j]? = (s.ports[j]?).map fun x => if j = f.port then { x with drops := x.drops + 1 } else x) ∧
    (Handled s f 4 → ∃ t, exec (.frameResp f) s = .next t ∧ TagAnswered s t f.tag.toNat f.arg.toNat f.data ∧
      t.mem = s.mem) ∧
    (∀ tag : BitVec 32, ∃ t, exec (.transportLossReport tag) s = .next t ∧ TagAnswered s t tag.toNat 1 [] ∧ t.mem = s.mem) ∧
    (Handled s f 6 → exec (.frameNote f) s = .next s) ∧
    (Handled s f 7 →
      let c := chunkCall f.ten.toNat f.arg f.data
      ((∀ x ∈ s.comms, ¬(x.1 = f.ten.toNat ∧ x.2.1 = f.arg)) → exec (.frameCcol f) s = .next s) ∧
      ((∃ x ∈ s.comms, x.1 = f.ten.toNat ∧ x.2.1 = f.arg) →
        (c.failed = true → ∃ t, exec (.frameCcol f) s = .next t ∧ t.calls.length = s.calls.length ∧
          ∀ k ∈ t.calls, k.ten = c.ten → k.cid = c.cid → k.failed = true) ∧
        (c.failed = false → (∀ k ∈ s.calls, sameCall c k = false) → exec (.frameCcol f) s = .next { s with calls := s.calls ++ [c] }) ∧
        (c.failed = false → ∀ k ∈ s.calls, sameCall c k = true → ∃ t k', exec (.frameCcol f) s = .next t ∧ k' ∈ t.calls ∧
          k'.rank = k.rank ∧ k'.poisoned = (k.poisoned || c.poisoned) ∧ ∀ x ∈ c.elems, ∃ v, tget k'.elems x.1 = some v)))

/-! ### Management, debugging and observation (R230, R301, R310, R327 to R336, R341 to R343) -/

/-- R230, R301, R310, R316, R326, R329 to R335 and R341 to R343: register reads and writes with their clamps, memory writes,
dumps, the debugger's commands, sync points, losses, stall samples and notifications. The layout of notes and dumps, where the
registers of a stopped path lie, what a write beyond a field's range leaves, the rings' memory, the order of a sample's reasons, the
management endpoint and a debugger's command at a latched path are the model's readings and choices (log entries 34, 36, 37, 38,
42, 61, 66 and 92). -/
def Obligations.ManagementAndObservation : Prop :=
  ∀ (s : State),
    (∀ (m : Mgmt) (a : BitVec 64), addrFits a 8 = true →
      (∀ v, Heard s m → (if inWindow a.toNat then readImage s a.toNat else regRead s a.toNat) = some v →
        exec (.mgmtRegRead m a) s = .next (mgmtResp s m 0 (leBytes 8 v))) ∧
      (Heard s m → (if inWindow a.toNat then readImage s a.toNat else regRead s a.toNat) = none →
        exec (.mgmtRegRead m a) s = .next (mgmtResp s m 1 [])) ∧
      (s.bootst = 3 → isEth0 s = true → m.auth = true → m.ten = 0xFF →
        (a = 0x3FF00050018 → exec (.mgmtRegRead m a) s = .next (mgmtResp s m 0 (leBytes 8 s.ready.toNat))) ∧
        (a = 0x3FF00050020 → exec (.mgmtRegRead m a) s = .next (mgmtResp s m 0 (leBytes 8 3))) ∧
        (a ≠ 0x3FF00050018 → a ≠ 0x3FF00050020 → exec (.mgmtRegRead m a) s = .next s))) ∧
    (∀ (m : Mgmt) (a v : BitVec 64), Heard s m → addrFits a 8 = true →
      (isReg s a.toNat = true → exec (.mgmtRegWrite m a v) s =
        .next (mgmtResp (regWrite { s with mgmtEp := some (s.mgmtEp.getD m.src) } a.toNat v.toNat) m 0 [])) ∧
      (isReg s a.toNat = false → exec (.mgmtRegWrite m a v) s = .next (mgmtResp s m 1 []))) ∧
    (∀ (m : Mgmt) (a v : BitVec 64), isEth0 s = true →
      ((m.auth = false ∨ addrFits a 8 = false) → ∃ t, exec (.mgmtRegWrite m a v) s = .next t ∧ t = { s with ports := t.ports } ∧
        ∀ j, t.ports[j]? = (s.ports[j]?).map fun x => if j = m.port then { x with drops := x.drops + 1 } else x) ∧
      (m.auth = true → addrFits a 8 = true → s.bootst = 3 → exec (.mgmtRegWrite m a v) s = .next s) ∧
      (m.auth = true → addrFits a 8 = true → s.bootst ≠ 3 → m.ten ≠ 0xFF → exec (.mgmtRegWrite m a v) s = .next (mgmtResp s m 1 [])) ∧
      (m.auth = true → addrFits a 8 = true → s.bootst ≠ 3 → m.ten = 0xFF → s.mgmtq ≠ [] →
        exec (.mgmtRegWrite m a v) s = .next { s with mgmtq := s.mgmtq ++ [(m, .regWrite a v)] })) ∧
    (∀ (m : Mgmt) (a v : BitVec 64), isEth0 s = false → exec (.mgmtRegWrite m a v) s = .next s) ∧
    (∀ v : BitVec 64, let n := v.toNat
      (regWrite s 0x3FF00010008 n).wb.ptgt = max 600 (min 2400 (n % 4096)) ∧
      (regWrite s 0x3FF00010008 n).wb.pcap = max s.wb.pcap (max 600 (min 2400 (n % 4096))) ∧
      (regWrite s 0x3FF00010010 n).wb.pcap = max s.wb.ptgt (min 2600 (n % 4096)) ∧
      (regWrite s 0x3FF00010018 n).wb.rmin = min s.wb.rmax (max 0x1000 (n % 2 ^ 32)) ∧
      (regWrite s 0x3FF00010020 n).wb.rmax = max s.wb.rmin (n % 2 ^ 32) ∧
      (regWrite s 0x3FF0007F000 n).dbarm = v.setWidth 32 ∧
      (regWrite s 0x3FF00080000 n).domidx = v.setWidth 13 ∧
      ∀ t < 32, (tcbOf (regWrite s (0x3FF00040000 + 0x100 * t) n) t).en =
          (v.getLsbD 0 && ((tcbOf s t).keyok || (tcbOf s t).en)) ∧
        (tcbOf (regWrite s (0x3FF00040000 + 0x100 * t) n) t).toolen = v.getLsbD 1 ∧
        (tcbOf (regWrite s (0x3FF00040000 + 0x100 * t + 0x58) n) t).tvinit.toNat = n % 2 ^ 56) ∧
    (regRead s 0x3FF00050018 = some s.ready.toNat ∧ regRead s 0x3FF00050020 = some s.bootst ∧
      regRead s 0x3FF00060000 = some s.caps.cores.toNat ∧ regRead s 0x3FF00010028 = some 0 ∧ regRead s 0x3FF0007F008 = some 0 ∧
      regRead s 0x3FF00010038 = some (s.wb.tick % 2 ^ 32 * 2 ^ 32 + s.wb.pmw.toNat)) ∧
    (∀ (m : Mgmt) (a : BitVec 64) (bs : List Byte), Heard s m → inWindow a.toNat = false → 1 ≤ bs.length → bs.length ≤ 4096 →
      addrFits a (2 ^ Nat.log2 bs.length) = true → allPopulated s a.toNat bs.length = true →
      (memWriteWaits s a.toNat bs.length = true → exec (.mgmtMemWrite m a bs) s = .next { s with mgmtq := [(m, .memWrite a bs)] }) ∧
      (memWriteWaits s a.toNat bs.length = false → ∃ t, exec (.mgmtMemWrite m a bs) s = .next t ∧ Answered s t m 0 [] ∧
        t.mgmtEp = some (s.mgmtEp.getD m.src) ∧ t.groups = s.groups ∧
        (Memory.wf s.mem = true → poisoned s a.toNat bs.length = false → anyCov s = false → readBytes t 32 a.toNat bs.length = bs))) ∧
    (∀ (m : Mgmt) (a : BitVec 64) (bs : List Byte), Heard s m → inWindow a.toNat = true → addrFits a (2 ^ Nat.log2 (max 1 bs.length)) = true →
      (∀ t, writeImage { s with mgmtEp := some (s.mgmtEp.getD m.src) } a.toNat bs = some t →
        exec (.mgmtMemWrite m a bs) s = .next (mgmtResp t m 0 [])) ∧
      (writeImage { s with mgmtEp := some (s.mgmtEp.getD m.src) } a.toNat bs = none →
        exec (.mgmtMemWrite m a bs) s = .next (mgmtResp s m 1 []))) ∧
    (∀ a k i off g, Config.imageWindow a = some (k, 1, i, off) → tget s.groups k = some g → i < g.allot → i < 64 →
      (∃ j p, g.path j = some p ∧ p.stop = .stopped) →
      readImage s a = some (field ((g.reg (BitVec.ofNat 6 i)).image g.w i) off 8) ∧
      ∀ bs v, VReg.ofImage g.w bs = some v → ∃ t g', writeImage s a bs = some t ∧ tget t.groups k = some g' ∧
        g'.reg (BitVec.ofNat 6 i) = v ∧ (∀ r, r.toNat ≠ i → g'.reg r = g.reg r) ∧ g'.masks = g.masks ∧ g'.paths = g.paths ∧
        t.mem = s.mem) ∧
    (∀ m tid pa, Heard s m → membersOf s tid = [] → exec (.dumpRequest m tid pa) s = .next (mgmtResp s m 1 [])) ∧
    (∀ m tid pa tm, Heard s m → tget s.teams tid = some tm → membersOf s tid ≠ [] → (⟨tid, pa⟩ : Dump) ∉ s.dumps →
      ((∀ x, tm.mode ≠ .saved x) → ∃ t, exec (.dumpRequest m tid pa) s = .next t ∧ t.dumps = s.dumps ++ [⟨tid, pa⟩] ∧
        t.mgmtq = [(m, .dumpRequest tid pa)] ∧ t.outbox = s.outbox ∧ t.groups = s.groups ∧ ∀ x ∈ membersOf s tid, ∀ u, tget s.teams x = some u → u.mode = .running →
          ∃ u', tget t.teams x = some u' ∧ u'.mode = .asked s.time) ∧
      (∀ x l k, tm.mode = .saved x → tget s.launches tm.launch = some l → l.kdesc = some k → (∀ d ∈ s.dumps, d.team ≠ tid) →
        let s1 := requestPreempt { s with dumps := s.dumps ++ [⟨tid, pa⟩] } tid
        ∃ t, exec (.dumpRequest m tid pa) s = .next t ∧ t.dumps = s.dumps ∧ t.groups = s.groups ∧ Answered s t m 0 [] ∧
          t.mem = (fwWriteAll s1 (pa.toNat % 2 ^ 56) (dumpBytes s1 l k tm x tm.saved)).mem)) ∧
    (∀ (m : Mgmt) (v : BitVec 32), Heard s m → exec (.wbrset m v) s =
      .next (mgmtResp { s with mgmtEp := some (s.mgmtEp.getD m.src), wb := { s.wb with rset := some v.toNat } } m 0 [])) ∧
    (∀ m core slot path g p, Heard s m → core < 64 → slot < 32 → tget s.groups (core * 32 + slot) = some g → g.path path = some p → path < 16 →
      let keeps := fun (t : State) (st : Stop) => ∃ g', tget t.groups (core * 32 + slot) = some g' ∧
        g'.path path = some { p with stop := st } ∧ g'.regs = g.regs ∧ ∀ j, j ≠ path → g'.path j = g.path j
      let same := mgmtResp { s with mgmtEp := some (s.mgmtEp.getD m.src) } m 0 []
      (p.stop ≠ .stopped → ∃ t, exec (.debugStop m core slot path) s = .next t ∧ keeps t .atNext ∧ Answered s t m 0 []) ∧
      (p.stop = .stopped → exec (.debugStop m core slot path) s = .next same) ∧
      (p.stop = .stopped → p.latched = false →
        (∃ t, exec (.debugResume m core slot path) s = .next t ∧ keeps t .none ∧ Answered s t m 0 []) ∧
        (∀ off, p.spot = .boundary off → ∃ t, exec (.debugStep m core slot path) s = .next t ∧ keeps t .stepping ∧ Answered s t m 0 []) ∧
        (∀ hdr h pc, p.spot = .inside hdr h pc → ∃ t, exec (.debugStep m core slot path) s = .next t ∧ keeps t .atNext ∧
          Answered s t m 0 [])) ∧
      ((p.stop ≠ .stopped ∨ p.latched = true) →
        exec (.debugResume m core slot path) s = .next same ∧ exec (.debugStep m core slot path) s = .next same)) ∧
    (∀ c, c < 64 → let b := obsOf s c
      ((256 ≤ b.sincePkts ∨ 4096 ≤ s.clk - b.sinceCyc) → ∃ t, exec (.traceSyncPoint c) s = .next t ∧ t.groups = s.groups ∧
        (obsOf t c).sincePkts = 0 ∧ (obsOf t c).sinceCyc = s.clk ∧
        ∀ n g, tracedGroups s c = [(n, g)] → b.synced.contains n = true → b.pendLoss = 0 →
          let bs := pktBytes 6 n 0 0 (s.clk - b.prevCyc) (syncPayload s g)
          (b.used + bs.length ≤ 2 ^ b.tlog → (obsOf t c).twr = b.twr + BitVec.ofNat 32 bs.length ∧
            t.mem = (ringWrite s b.tbase.toNat b.tlog b.twr.toNat bs).mem) ∧
          (2 ^ b.tlog < b.used + bs.length → (obsOf t c).pendLoss = 1 ∧ t.mem = s.mem)) ∧
      (b.sincePkts < 256 → s.clk - b.sinceCyc < 4096 → exec (.traceSyncPoint c) s = .next s)) ∧
    (∀ c, c < 64 → let b := obsOf s c
      let gs := tracedGroups s c
      let bs := pktBytes 5 0 0 0 0 (leBytes 4 (min b.pendLoss (2 ^ 32 - 1))) ++
        (gs.map fun x => pktBytes 6 x.1 0 2 0 (syncPayload s x.2)).flatten
      (b.pendLoss ≠ 0 → b.used + bs.length ≤ 2 ^ b.tlog → ∃ t, exec (.traceLossWrite c) s = .next t ∧ t.groups = s.groups ∧
        (obsOf t c).pendLoss = 0 ∧ (obsOf t c).twr = b.twr + BitVec.ofNat 32 bs.length ∧
        t.mem = (ringWrite s b.tbase.toNat b.tlog b.twr.toNat bs).mem) ∧
      ((b.pendLoss = 0 ∨ 2 ^ b.tlog < b.used + bs.length) → exec (.traceLossWrite c) s = .next s)) ∧
    (∀ c n g pi p, c < 64 → let b := obsOf s c
      b.smen = true → s.clk / 2 ^ b.sper ≠ b.sampledAt / 2 ^ b.sper → nextSample s c = some (n, g, pi, p) →
      let x := blame { s with obs := (setObs s c { b with sampledAt := s.clk }).obs } (c * 32 + n) pi g p
      ∃ t, exec (.stallSample c) s = .next t ∧ t.groups = s.groups ∧ (obsOf t c).sampledAt = s.clk ∧ (obsOf t c).lastSlot = n ∧
        ((b.swr - b.srd).toNat + 32 ≤ 2 ^ b.slog → (obsOf t c).swr = b.swr + 32 ∧
          t.mem = (ringWrite s b.sbase.toNat b.slog b.swr.toNat (sampleBytes s n pi p x)).mem) ∧
        (2 ^ b.slog < (b.swr - b.srd).toNat + 32 → (obsOf t c).swr = b.swr ∧ t.mem = s.mem)) ∧
    (∀ k pi g p, tget g.tried pi = some (0, s.clk) → (blame s k pi g p).reason = 0) ∧
    (∀ k pi g p, tget g.tried pi ≠ some (0, s.clk) → (p.stop = .stopped → (blame s k pi g p).reason = 12) ∧
      (∀ l, p.stop ≠ .stopped → p.park = some (.line l) → (blame s k pi g p).reason = 8) ∧
      (p.stop ≠ .stopped → p.park = some .regang → (blame s k pi g p).reason = 11) ∧
      (∀ m, p.stop ≠ .stopped → p.park = some (.waitf m) → (blame s k pi g p).reason = 7) ∧
      ∀ id sat ad cm r w acq, p.stop ≠ .stopped → p.park = some (.waitv id sat ad cm r w acq) → (blame s k pi g p).reason = 9) ∧
    (∀ ten : Nat, let mine := s.notes.filter fun x => x.ten == ten
      let b := tcbOf s ten
      let sendTo := if b.nepa = 0 ∧ b.nepb = 0 then s.mgmtEp else some (b.nepa ++ b.nepb)
      let n := noteCount mine.length
      (∀ dst, mine ≠ [] → sendTo = some dst → isEth0 s = true → 1 ≤ n ∧ n ≤ 128 ∧ n ≤ mine.length ∧ ∃ t, exec (.notificationSend ten) s = .next t ∧
        t = { s with notes := t.notes, outbox := t.outbox } ∧
        t.outbox = s.outbox ++ [.note dst (noteFrame s ten ((mine.take n).map Note.record).flatten)] ∧
        (t.notes.filter fun x => x.ten == ten) = mine.drop n ∧
        (t.notes.filter fun x => x.ten != ten) = s.notes.filter fun x => x.ten != ten) ∧
      ((mine = [] ∨ sendTo = none ∨ isEth0 s = false) → exec (.notificationSend ten) s = .next s))

/-! ### Encoding, the step, reset and memory -/

/-- R101 to R107: words written out from the encoding tables mean their instructions, for each class and format, and words that
break a row's limits mean none. That a word whose re-encoding differs has a bit set that must be zero is the model's way to say so. -/
def Obligations.WordsDecode : Prop :=
  (decodeWords 0x02182113 none = .ok (.iadd 3 1 2 1 .s32) ∧ decodeWords 0x26288234 none = .ok (.movi 5 0 0x1234) ∧
    decodeWords 0x46002001 none = .ok (.exset 1) ∧ decodeWords 0x5E202112 none = .ok (.fma 4 1 2 1 .rne .f32) ∧
    decodeWords 0xA4190222 none = .ok (.stB64 3 8 (some .team) 2) ∧ decodeWords 0xB800000C none = .ok (.br 12) ∧
    decodeWords 0xE0000007 none = .ok (.trap 7) ∧ decodeWords 0xE2011400 none = .ok (.rdsr 4 0x14 0) ∧
    decodeWords 0xE4040000 none = .ok (.grow 2) ∧ decodeWords 0xF6310220 (some 3) = .ok (.vaddr 4 2 3 1) ∧
    decodeWords 0xF8010000 none = .ok (.toolx 0x10000)) ∧
  (∀ w w2, (opcOf w = 0x00 ∨ opcOf w = 0x7F) → decodeWords w w2 = .bad .opcode) ∧
  (∀ w, opcLong (opcOf w) = true → decodeWords w none = .bad .straddle) ∧
  (∀ w i w2, decodeWords w w2 = .ok i → wellFormed i = true ∧ (encode i).head? = some w)

/-- R101 to R106: decoding the bytes of a well-formed instruction gives it back with the bytes after it, for every
operand at every value that its encoding admits. -/
def Obligations.EncodeThenDecode : Prop :=
  ∀ (i : Instr), i.encoded = true → wellFormed i = true → ∀ tail : List Byte,
    decode ((encode i).flatMap bytesOfWord ++ tail) = (.ok i, tail)

/-- R96, R100, R108 and R110: an issue runs exec of the instruction that the words at the gang's place decode to, after the
fetches and with the group and path as the executing ones, once what cannot wait has been done and time has passed, and a chosen step
of the part runs exec of its constructor and takes a cycle and no time; around an issue the step only counts, charges and ends turns (R284, R287, R328). An
illegal word traps ILLOP, and an instruction of another class ILLCLASS. What may be done between two moves, and how TIME and cycles
pass, are the model's choices (log entries 1, 2 and 3). -/
def Obligations.StepRunsTheDecodedInstruction : Prop :=
  (∀ (s : State) (c n slot pi : Nat) (rest : List Actor) (g : Group) (p : Path) (hdr pc : Nat) (h : IWord),
    let r := settleDue (leftWork s)
    let s0 := passTime { r.1 with agenda := rest } r.2 r.1.pace (max 1 r.1.cpace)
    let k := c * 32 + slot
    let a := aim s0 k pi
    r.1.agenda = .issue c n :: rest → c < 64 → n < 4 → slot < 32 → s0.stopped = false → (coreAt s0 c).lost = false →
    (schedOf s0 (c * 4 + n)).turn = some slot → tget s0.groups k = some g →
    (gangOrder g.last).find? (fun j => (g.path j).isSome) = some pi → g.path pi = some p → p.stop ≠ .stopped → p.park = none →
    p.latched = false → blockState a k g pi = .ok → p.trap = none → p.spot = .inside hdr h pc →
    ∀ s1 s2 w i, fetchWord a k g p pc = (s1, .word w) →
      ((opcLong (opcOf w.toNat) = false ∧ s2 = s1 ∧ decodeWords w.toNat none = .ok i) ∨
        (opcLong (opcOf w.toNat) = true ∧ pc < hdr + hCount h ∧
          ∃ v, fetchWord s1 k g p (pc + 1) = (s2, .word v) ∧ decodeWords w.toNat (some v.toNat) = .ok i)) →
      widthOk g.w i = true → (∀ d cc w64 lit, i = .ldlit d cc w64 lit → litInside p w64 lit = true) → classOk (hEcl h) (opcOf w.toNat) (pc == hdr + hCount h) i = true →
      ∀ t, exec i s2 = .next t → t.stall = none →
        ∃ u, step s = .next u ∧ u = { t with scheds := u.scheds, obs := u.obs, groups := u.groups } ∧
          (∀ j, j ≠ k → tget u.groups j = tget t.groups j) ∧ (tget t.groups k = none → u.groups = t.groups) ∧
          ∀ g1, tget t.groups k = some g1 → ∃ g2, tget u.groups k = some g2 ∧
            g2 = { g1 with last := pi, wcount := g2.wcount, wlast := g2.wlast, tried := g2.tried, paths := g2.paths } ∧
            ∀ j, (g2.path j).map (fun q : Path => { q with wdog := false }) = (g1.path j).map fun q : Path => { q with wdog := false }) ∧
  (∀ (s : State) (i : Instr) (rest : List Actor), let r := settleDue (leftWork s)
    let s0 := nextCycle { r.1 with agenda := rest }
    r.1.agenda = .event i :: rest → isEvent i = true → (s0.stopped = false ∨ afterStop i = true) →
    ∀ t, exec i { s0 with stall := none, yielded := false } = .next t →
      ∃ u, step s = .next u ∧ u = { t with scheds := u.scheds }) ∧
  (∀ (s : State) (g : Group) (p : Path) (hdr pc : Nat) (h w : IWord) (s1 : State),
    fetchWord s s.cur g p pc = (s1, .word w) → opcLong (opcOf w.toNat) = false →
    ((∀ i, decodeWords w.toNat none = .ok i → widthOk g.w i = false) →
      runInstr s g p hdr h pc = .next (takeTrap s1 s1.cur g s1.path p (p.trapRec 0x02))) ∧
    (∀ i, decodeWords w.toNat none = .ok i → widthOk g.w i = true →
      classOk (hEcl h) (opcOf w.toNat) (pc == hdr + hCount h) i = false →
      runInstr s g p hdr h pc = .next (takeTrap s1 s1.cur g s1.path p (p.trapRec 0x03)))) ∧
  (∀ (s : State) (k : Nat) (g : Group) (p : Path) (off pa : Nat) (x : Xlate),
    let va := (p.code.kbase + BitVec.ofNat 64 (4 * off)).toNat % 2 ^ 56
    translate s (coreOf k) g.ten p.code.level .fetch va = .ok x → hereOf s x = some pa → va % 4 = 0 → pa % 4 = 0 →
    (∀ l ∈ s.icache, ¬(l.core = coreOf k ∧ l.line = pa / 64)) →
    let s1 := heatTouch (setAD (tlbFill s (coreOf k) g.ten va) g.ten x false) g.ten x pa 4
    poisoned s1 pa 4 = false → (fetchWord s k g p off).2 = .word (BitVec.ofNat 32 (readNat s1 g.ten pa 4)))

/-- R228, R230, R284, R286, R301, R316, R318, R326 and R327: the values that the spec gives for reset, and the invariant of
every state. A register for which the spec gives none is the model's choice (log entry 8). -/
def Obligations.ResetState : Prop :=
  Safe State.reset ∧ State.reset.mem = [] ∧ State.reset.groups = [] ∧ State.reset.queues = [] ∧ State.reset.ready = 0 ∧
    State.reset.stopped = false ∧
  (let w := State.reset.wb
   w.rate = 0x80000 ∧ w.fix = false ∧ w.gsel = 1 ∧ w.ptgt = 2000 ∧ w.pcap = 2400 ∧ w.rmin = 0x1000 ∧ w.rmax = 0x4000000 ∧
     w.capn = 0) ∧
  State.reset.prelim = 1000 ∧ State.reset.agelim = 64 ∧
  (∀ n < 32, let t := tcbOf State.reset n
    t.frozen = false ∧ t.keyok = false ∧ t.toolen = false ∧ t.en = false ∧ t.s1root = 0 ∧ t.s2root = 0 ∧ t.plog = 4 ∧
      t.lowat = 16 ∧ t.hthr = 1024 ∧ t.hshare = 16 ∧ t.lshare = 16 ∧ t.ncoal = 10 ∧ t.tvinit = 0 ∧ t.trmin = 0x1000 ∧
      t.trmax = 0x4000000 ∧ t.wdexp = 22 ∧ t.ishare = 16) ∧
  (State.reset.errs.log = 8 ∧ State.reset.errs.base = 0 ∧ State.reset.errs.wri = 0 ∧ State.reset.errs.rdi = 0) ∧
  (∀ k < 8, (scrubAt State.reset k).en = true ∧ (scrubAt State.reset k).period = 24 ∧ (scrubAt State.reset k).rowthr = 4) ∧
  (∀ c < 64, (obsOf State.reset c).en = false ∧ (obsOf State.reset c).smen = false ∧ (obsOf State.reset c).tlog = 16 ∧
    (obsOf State.reset c).slog = 12 ∧ (obsOf State.reset c).sper = 16) ∧
  ∀ j < 256, ∀ n < 32, (schedOf State.reset j).credit[n]? = some 1024

/-- Every step, of whatever kind, keeps memory in its canonical form, which is the model's own (log entry 6). -/
def Obligations.StepKeepsMemoryCanonical : Prop :=
  ∀ (s t : State), Safe s → step s = .next t → Safe t
end

