-- ==== Sys2Proof/Laws/Memory.lean ====
section
/-! SUPPORT. Reading a byte after a write, and that every memory operation keeps the canonical form. -/

namespace Sys2Proof.Machine

/-- Every address of a memory is above a bound. -/
def Memory.above (n : Nat) : List Host.Cell → Prop
  | [] => True
  | (a, _) :: _ => n < a

theorem Memory.wf_cons (a : Nat) (b : Byte) (t : List Host.Cell) :
    Memory.wf ((a, b) :: t) = true ↔ b ≠ 0 ∧ Memory.above a t ∧ Memory.wf t = true := by
  cases t with
  | nil => simp [Memory.wf, Memory.above]
  | cons h t => obtain ⟨c, d⟩ := h; simp [Memory.wf, Memory.above, and_assoc]

theorem Memory.above_mono {m n : Nat} (h : m ≤ n) (t : List Host.Cell) (w : Memory.above n t) : Memory.above m t := by
  cases t with
  | nil => trivial
  | cons x t => obtain ⟨c, d⟩ := x; simp only [Memory.above] at *; omega

theorem Memory.get_above (t : List Host.Cell) (n : Nat) (h : Memory.above n t) : Memory.get t n = Memory.unlisted := by
  cases t with
  | nil => rfl
  | cons x t =>
    obtain ⟨c, d⟩ := x
    simp only [Memory.above] at h
    have h1 : n ≠ c := by omega
    simp [Memory.get, h1, h]

theorem Memory.set_above (t : List Host.Cell) (m n : Nat) (v : Byte) (hm : m < n) (h : Memory.above m t)
    (w : Memory.wf t = true) : Memory.above m (Memory.set t n v) := by
  cases t with
  | nil => simp only [Memory.set]; split <;> simp [Memory.above, hm]
  | cons x t =>
    obtain ⟨c, d⟩ := x
    have ha : Memory.above c t := ((Memory.wf_cons c d t).1 w).2.1
    simp only [Memory.above] at h
    simp only [Memory.set]
    split
    · split
      · exact Memory.above_mono (by omega) t ha
      · simp [Memory.above, hm]
    · split
      · split <;> simp [Memory.above, *]
      · simp [Memory.above, h]

theorem Memory.wf_set (t : List Host.Cell) (n : Nat) (v : Byte) (w : Memory.wf t = true) :
    Memory.wf (Memory.set t n v) = true := by
  induction t with
  | nil =>
    simp only [Memory.set]
    split
    · rfl
    · next h => simpa [Memory.wf, Memory.unlisted] using h
  | cons x t ih =>
    obtain ⟨c, d⟩ := x
    have hw := (Memory.wf_cons c d t).1 w
    simp only [Memory.set]
    split
    · next e =>
      split
      · exact hw.2.2
      · next hv => exact (Memory.wf_cons _ _ _).2 ⟨hv, e ▸ hw.2.1, hw.2.2⟩
    · next ne =>
      split
      · next lt =>
        split
        · exact w
        · next hv => exact (Memory.wf_cons _ _ _).2 ⟨hv, lt, w⟩
      · next nlt => exact (Memory.wf_cons _ _ _).2 ⟨hw.1, Memory.set_above t c n v (by omega) hw.2.1 hw.2.2, ih hw.2.2⟩

theorem Memory.wf_setMany (bs : List Byte) : ∀ (m : List Host.Cell) (a : Nat), Memory.wf m = true →
    Memory.wf (Memory.setMany m a bs) = true := by
  induction bs with
  | nil => intro m a w; exact w
  | cons b t ih => intro m a w; exact ih _ _ (Memory.wf_set m a b w)

theorem Memory.get_set_same (t : List Host.Cell) (n : Nat) (v : Byte) (w : Memory.wf t = true) :
    Memory.get (Memory.set t n v) n = v := by
  induction t with
  | nil =>
    simp only [Memory.set]
    split
    · next h => rw [h]; rfl
    · simp [Memory.get]
  | cons x t ih =>
    obtain ⟨c, d⟩ := x
    have hw := (Memory.wf_cons c d t).1 w
    simp only [Memory.set]
    split
    · next e =>
      split
      · next hv => rw [hv]; exact Memory.get_above t n (e ▸ hw.2.1)
      · simp [Memory.get]
    · next ne =>
      split
      · next lt =>
        split
        · next hv => rw [hv]; simp [Memory.get, ne, lt]
        · simp [Memory.get]
      · next nlt => simp only [Memory.get, ne, nlt, if_false]; exact ih hw.2.2

theorem Memory.get_set_other (t : List Host.Cell) (n m : Nat) (v : Byte) (w : Memory.wf t = true) (h : m ≠ n) :
    Memory.get (Memory.set t n v) m = Memory.get t m := by
  induction t with
  | nil => simp only [Memory.set]; split <;> simp [Memory.get, h]
  | cons x t ih =>
    obtain ⟨c, d⟩ := x
    have hw := (Memory.wf_cons c d t).1 w
    simp only [Memory.set]
    split
    · next e =>
      subst e
      split
      · simp only [Memory.get, h, if_false]
        split
        · next lt => exact Memory.get_above t m (Memory.above_mono (by omega) t hw.2.1)
        · rfl
      · simp [Memory.get, h]
    · next ne =>
      split
      · next lt =>
        split
        · rfl
        · simp only [Memory.get, h, if_false]
          by_cases hmn : m < n
          · have h1 : m ≠ c := by omega
            have h2 : m < c := by omega
            simp [hmn, h1, h2]
          · simp [hmn]
      · simp only [Memory.get, ih hw.2.2]

theorem Memory.get_setMany_other (bs : List Byte) : ∀ (m : List Host.Cell) (a n : Nat), Memory.wf m = true →
    (n < a ∨ a + bs.length ≤ n) → Memory.get (Memory.setMany m a bs) n = Memory.get m n := by
  induction bs with
  | nil => intro m a n _ _; rfl
  | cons b t ih =>
    intro m a n w h
    simp only [List.length_cons] at h
    simp only [Memory.setMany]
    rw [ih _ _ _ (Memory.wf_set m a b w) (by omega)]
    exact Memory.get_set_other m a n b w (by omega)

/-- Byte i of what was stored. -/
theorem Memory.get_setMany (bs : List Byte) : ∀ (m : List Host.Cell) (a i : Nat), Memory.wf m = true → (h : i < bs.length) →
    Memory.get (Memory.setMany m a bs) (a + i) = bs[i] := by
  induction bs with
  | nil => intro m a i _ h; simp at h
  | cons b t ih =>
    intro m a i w h
    simp only [Memory.setMany]
    cases i with
    | zero =>
      rw [Memory.get_setMany_other t _ _ _ (Memory.wf_set m a b w) (by omega)]
      exact Memory.get_set_same m a b w
    | succ i =>
      have := ih (Memory.set m a b) (a + 1) i (Memory.wf_set m a b w) (by simpa using h)
      rw [show a + (i + 1) = a + 1 + i by omega, this]
      rfl

theorem reset_mem_wf : Memory.wf State.reset.mem = true := rfl

theorem rekeyUnit_wf (s : State) (ten u : Nat) (w : Memory.wf s.mem = true) : Memory.wf (rekeyUnit s ten u).mem = true := by
  unfold rekeyUnit
  split
  · exact w
  · split
    · exact w
    · have h := Memory.wf_setMany (readBytes s ten (u * 32) 32) s.mem (u * 32) w
      generalize readBytes s ten (u * 32) 32 = bs at *
      exact h

theorem foldl_wf {α : Type} (f : State → α → State) (h : ∀ s x, Memory.wf s.mem = true → Memory.wf (f s x).mem = true)
    (l : List α) : ∀ s : State, Memory.wf s.mem = true → Memory.wf (l.foldl f s).mem = true := by
  induction l with
  | nil => intro s w; exact w
  | cons x t ih => intro s w; exact ih _ (h s x w)

/-- The part of `writeBytes` before the bytes themselves. -/
theorem rekey_wf (s : State) (ten pa n : Nat) (w : Memory.wf s.mem = true) :
    Memory.wf (if (isSilo pa || n = 0) = true then s
      else (List.range ((pa + n - 1) / 32 - pa / 32 + 1)).foldl (fun s i => rekeyUnit s ten (pa / 32 + i)) s).mem = true := by
  split
  · exact w
  · exact foldl_wf _ (fun s i w => rekeyUnit_wf s ten _ w) _ s w

theorem writeBytes_wf (s : State) (ten pa : Nat) (bs : List Byte) (w : Memory.wf s.mem = true) :
    Memory.wf (writeBytes s ten pa bs).mem = true :=
  Memory.wf_setMany bs _ _ (rekey_wf s ten pa bs.length w)

theorem writeNat_wf (s : State) (ten pa n x : Nat) (w : Memory.wf s.mem = true) : Memory.wf (writeNat s ten pa n x).mem = true :=
  writeBytes_wf s ten pa _ w

end Sys2Proof.Machine
end

