-- ==== Sys2Proof/Laws/Tbl.lean ====
section
/-! SUPPORT. Reading a keyed list after it has been written. -/

namespace Sys2Proof.Machine

@[simp] theorem tget_tput_same {α : Type} (t : Tbl α) (n : Nat) (v : α) : tget (tput t n v) n = some v := by
  induction t with
  | nil => simp [tput, tget]
  | cons h t ih =>
    obtain ⟨k, w⟩ := h
    simp only [tput]
    split
    · simp [tget]
    · split
      · simp [tget]
      · next h1 h2 => simp [tget, h1, h2, ih]

theorem tget_tput_other {α : Type} (t : Tbl α) {n m : Nat} (v : α) (h : m ≠ n) : tget (tput t n v) m = tget t m := by
  induction t with
  | nil => simp [tput, tget, h]
  | cons hd t ih =>
    obtain ⟨k, w⟩ := hd
    simp only [tput]
    split
    · next e => subst e; simp [tget, h]
    · split
      · next e1 e2 =>
        simp only [tget, h, if_false]
        by_cases hmn : m < n
        · have : m ≠ k := by omega
          have : m < k := by omega
          simp [*]
        · simp [hmn]
      · simp only [tget, ih]

theorem tget_tput {α : Type} (t : Tbl α) (n m : Nat) (v : α) :
    tget (tput t n v) m = if m = n then some v else tget t m := by
  by_cases h : m = n
  · subst h; simp
  · simp [h, tget_tput_other]

/-- A keyed list without an entry for a number reads as absent there after the entry is deleted elsewhere. -/
theorem tget_tdel_other {α : Type} (t : Tbl α) {n m : Nat} (w : twf t = true) (h : m ≠ n) : tget (tdel t n) m = tget t m := by
  induction t with
  | nil => rfl
  | cons hd t ih =>
    obtain ⟨k, v⟩ := hd
    have wt : twf t = true := by
      cases t with
      | nil => rfl
      | cons a t => obtain ⟨c, d⟩ := a; simp [twf] at w; exact w.2
    simp only [tdel]
    split
    · next e =>
      subst e
      simp only [tget, h, if_false]
      split
      · next lt =>
        cases t with
        | nil => rfl
        | cons a t =>
          obtain ⟨c, d⟩ := a
          simp [twf] at w
          have : m ≠ c := by omega
          have : m < c := by omega
          simp [tget, *]
      · rfl
    · split
      · rfl
      · simp only [tget, ih wt]

theorem tget_tdel_same {α : Type} (t : Tbl α) (n : Nat) (w : twf t = true) : tget (tdel t n) n = none := by
  induction t with
  | nil => rfl
  | cons hd t ih =>
    obtain ⟨k, v⟩ := hd
    have wt : twf t = true := by
      cases t with
      | nil => rfl
      | cons a t => obtain ⟨c, d⟩ := a; simp [twf] at w; exact w.2
    simp only [tdel]
    split
    · next e =>
      subst e
      cases t with
      | nil => rfl
      | cons a t =>
        obtain ⟨c, d⟩ := a
        simp [twf] at w
        have h1 : n ≠ c := by omega
        simp [tget, h1, w.1]
    · split
      · next h1 h2 => simp [tget, h1, h2]
      · next h1 h2 => simp only [tget, h1, h2, if_false]; exact ih wt

end Sys2Proof.Machine
end

