-- ==== Sys2Proof/Laws/Operands.lean ====
section
/-! SUPPORT. Reading a register, a mask, a view register or a path after one has been written. -/

namespace Sys2Proof.Machine

theorem Group.reg_setReg (g : Group) (r q : VR) (v : VReg) : (g.setReg r v).reg q = if q = r then v else g.reg q := by
  unfold Group.reg Group.setReg
  by_cases h : q = r
  · subst h; simp
  · have : r.toNat ≠ q.toNat := fun e => h (BitVec.eq_of_toNat_eq e.symm)
    simp [h, Vector.getElem_set, this]

@[simp] theorem Group.reg_setReg_same (g : Group) (r : VR) (v : VReg) : (g.setReg r v).reg r = v := by
  simp [Group.reg_setReg]

theorem Group.mask_setMask (g : Group) (r q : KR) (v : Mask) : (g.setMask r v).mask q = if q = r then v else g.mask q := by
  unfold Group.mask Group.setMask
  by_cases h : q = r
  · subst h; simp
  · have : r.toNat ≠ q.toNat := fun e => h (BitVec.eq_of_toNat_eq e.symm)
    simp [h, Vector.getElem_set, this]

theorem Group.view_setView (g : Group) (r q : WR) (v : Option OpenView) :
    (g.setView r v).view q = if q = r then v else g.view q := by
  unfold Group.view Group.setView
  by_cases h : q = r
  · subst h; simp
  · have : r.toNat ≠ q.toNat := fun e => h (BitVec.eq_of_toNat_eq e.symm)
    simp [h, Vector.getElem_set, this]

theorem Group.path_lt (g : Group) (n : Nat) (p : Path) (h : g.path n = some p) : n < 16 := by
  unfold Group.path at h
  by_cases hn : n < 16
  · exact hn
  · have : g.paths[n]? = none := by simp; omega
    rw [this] at h
    simp at h

theorem Group.path_setPath (g : Group) (n m : Nat) (v : Option Path) (h : n < 16) :
    (g.setPath n v).path m = if m = n then v else g.path m := by
  unfold Group.path Group.setPath
  simp only [h, dif_pos]
  by_cases e : m = n
  · subst e; simp [h]
  · have : n ≠ m := fun x => e x.symm
    simp [e, Vector.getElem?_set, this]

/-- What a change of one path leaves. -/
theorem Group.setPath_only (g : Group) (n : Nat) (v : Option Path) : g.setPath n v = { g with paths := (g.setPath n v).paths } := by
  unfold Group.setPath
  split <;> rfl

theorem Group.setPath_regs (g : Group) (n : Nat) (v : Option Path) : (g.setPath n v).regs = g.regs := by
  unfold Group.setPath; split <;> rfl

theorem Group.setPath_reg (g : Group) (n : Nat) (v : Option Path) (r : VR) : (g.setPath n v).reg r = g.reg r := by
  unfold Group.setPath; split <;> rfl

theorem Group.setPath_wcount (g : Group) (n : Nat) (v : Option Path) : (g.setPath n v).wcount = g.wcount := by
  unfold Group.setPath; split <;> rfl

theorem Group.setPath_rpoison (g : Group) (n : Nat) (v : Option Path) : (g.setPath n v).rpoison = g.rpoison := by
  unfold Group.setPath; split <;> rfl

/-- The decrements of an instruction change registers only. -/
theorem Group.release_only (sl : BitVec 16) (l : List VR) : ∀ g : Group, g.release sl l = { g with regs := (g.release sl l).regs } := by
  induction l with
  | nil => intro g; rfl
  | cons r t ih => intro g; rw [Group.release, ih]; rfl

/-- A register that is read by none of the operands keeps its counts. -/
theorem Group.release_reg (sl : BitVec 16) (l : List VR) (r : VR) : ∀ g : Group, r ∉ l → (g.release sl l).reg r = g.reg r := by
  induction l with
  | nil => intro g _; rfl
  | cons q t ih =>
    intro g h
    simp only [List.mem_cons, not_or] at h
    rw [Group.release, ih _ h.2, Group.reg_setReg, if_neg h.1]

/-! ### Nibbles -/

theorem nibble_lt (x : BitVec 64) (s : Nat) : nibble x s < 16 := Nat.mod_lt _ (by decide)

theorem digits_bound (f : Nat → Nat) (h : ∀ s, f s < 16) (n : Nat) :
    (List.range n).foldl (fun acc s => acc + f s * 2 ^ (4 * s)) 0 < 2 ^ (4 * n) := by
  induction n with
  | zero => simp
  | succ n ih =>
    rw [List.range_succ, List.foldl_append]
    simp only [List.foldl]
    have e : 2 ^ (4 * (n + 1)) = 16 * 2 ^ (4 * n) := by rw [Nat.mul_add, Nat.pow_add]; omega
    have := Nat.mul_le_mul_right (2 ^ (4 * n)) (Nat.le_of_lt_succ (h n) : f n ≤ 15)
    omega

theorem digits_digit (f : Nat → Nat) (h : ∀ s, f s < 16) (n k : Nat) (hk : k < n) :
    (List.range n).foldl (fun acc s => acc + f s * 2 ^ (4 * s)) 0 / 2 ^ (4 * k) % 16 = f k := by
  induction n with
  | zero => omega
  | succ n ih =>
    rw [List.range_succ, List.foldl_append]
    simp only [List.foldl]
    have b := digits_bound f h n
    rcases Nat.lt_or_eq_of_le (Nat.le_of_lt_succ hk) with lt | eq
    · have e : f n * 2 ^ (4 * n) = 2 ^ (4 * k) * (16 * (f n * 2 ^ (4 * (n - k - 1)))) := by
        have : 4 * n = 4 * k + (4 + 4 * (n - k - 1)) := by omega
        rw [this, Nat.pow_add, Nat.pow_add]
        rw [show (2 ^ 4 : Nat) = 16 from rfl]; ac_rfl
      rw [e, Nat.add_mul_div_left _ _ (Nat.two_pow_pos _), Nat.add_mul_mod_self_left]
      exact ih lt
    · subst eq
      rw [Nat.add_mul_div_right _ _ (Nat.two_pow_pos _), Nat.div_eq_of_lt b, Nat.zero_add]
      exact Nat.mod_eq_of_lt (h k)

theorem nibble_nibbles (f : Nat → Nat) (h : ∀ s, f s < 16) (s : Nat) (hs : s < 16) : nibble (nibbles f) s = f s := by
  unfold nibble nibbles
  rw [BitVec.toNat_ofNat, Nat.mod_eq_of_lt (digits_bound f h 16)]
  exact digits_digit f h 16 s hs

/-! ### A register after a write (R55, R60, R63) -/

theorem VReg.write_empty (r : VReg) (w : Nat) (sl : BitVec 16) (m : Mask) (full : Bool) (cc : CC) (sh : Option Shape)
    (f : Nat → Word) (h : sl = 0) : r.write w sl m full cc sh f = r := by
  simp [VReg.write, h]

theorem VReg.write_nibble (r : VReg) (w : Nat) (sl : BitVec 16) (m : Mask) (full : Bool) (cc : CC) (sh : Option Shape)
    (f : Nat → Word) (h : sl ≠ 0) (k : Nat) (hk : k < 16) :
    nibble (r.write w sl m full cc sh f).nib k =
      if inSlices sl k && decide (k < w / 4) then 8 + cc.toNat else nibble r.nib k := by
  have e : (r.write w sl m full cc sh f).nib =
      nibbles fun s => if inSlices sl s && s < w / 4 then 8 + cc.toNat else nibble r.nib s := by
    unfold VReg.write
    rw [if_neg (by simpa using h)]
    simp only
    split <;> rfl
  rw [e, nibble_nibbles _ _ k hk]
  intro s
  have := cc.isLt
  have := nibble_lt r.nib s
  split <;> omega

theorem VReg.write_val (r : VReg) (w : Nat) (sl : BitVec 16) (m : Mask) (full : Bool) (cc : CC) (sh : Option Shape)
    (f : Nat → Word) (h : sl ≠ 0) :
    (r.write w sl m full cc sh f).val =
      match full, sh with
      | true, some x => x
      | _, _ => .gen ((List.range w).map fun i => if bitOf m i then f i else r.src i) := by
  unfold VReg.write
  rw [if_neg (by simpa using h)]
  cases full <;> cases sh <;> rfl

theorem Shape.lane_gen (w : Nat) (f : Nat → Word) (l : Nat) (h : l < w) : (Shape.gen ((List.range w).map f)).lane l = f l := by
  simp [Shape.lane, List.getD, h]

end Sys2Proof.Machine
end

