-- ==== Sys2Proof/Laws/Ops.lean ====
section
/-! SUPPORT. What the shared operations answer: the checks that pass, the finish of an instruction, a register result. -/

namespace Sys2Proof.Machine

theorem curGang_group {s : State} {g : Group} {p : Path} (h : curGang s = some (g, p)) :
    tget s.groups s.cur = some g ∧ g.path s.path = some p := by
  unfold curGang at h
  split at h
  · next g' hg =>
    split at h
    · next p' hp => cases h; exact ⟨hg, hp⟩
    · cases h
  · cases h

theorem withGang_clear {s : State} {g : Group} {p : Path} (h : curGang s = some (g, p)) (body : Group → Path → Result) :
    withGang s body = body g p := by
  simp [withGang, h]

theorem poisonLanes_zero (g : Group) (p : Path) (l : List VR)
    (h : ∀ r ∈ l, (tget g.rpoison r.toNat).getD 0 &&& p.active = 0) : poisonLanes g p l = 0 := by
  unfold poisonLanes
  suffices ∀ m : Mask, m = 0 → l.foldl (fun m r => m ||| ((tget g.rpoison r.toNat).getD 0 &&& p.active)) m = 0 from this 0 rfl
  induction l with
  | nil => intro m hm; exact hm
  | cons r t ih =>
    intro m hm
    refine ih (fun q hq => h q (List.mem_cons_of_mem _ hq)) _ ?_
    show m ||| ((tget g.rpoison r.toNat).getD 0 &&& p.active) = 0
    rw [hm, h r List.mem_cons_self]
    rfl

theorem deadSlices_zero (g : Group) (p : Path) (l : List VR)
    (h : ∀ r ∈ l, ∀ sl < 16, inSlices p.slices sl = true → (g.reg r).live sl = true) : deadSlices g p l = 0 := by
  unfold deadSlices
  have key : ∀ (m : List Nat), (∀ x ∈ m, x < 16) → ∀ acc : Nat, m.foldl (fun acc sl =>
      if inSlices p.slices sl && l.any (fun r => !(g.reg r).live sl) then acc + 2 ^ sl else acc) acc = acc := by
    intro m
    induction m with
    | nil => intro _ acc; rfl
    | cons x t ih =>
      intro hm acc
      have hx : (inSlices p.slices x && l.any fun r => !(g.reg r).live x) = false := by
        cases hs : inSlices p.slices x with
        | false => rfl
        | true =>
          simp only [Bool.true_and, List.any_eq_false]
          intro r hr
          simp [h r hr x (hm x List.mem_cons_self) hs]
      simp only [List.foldl, hx]
      exact ih (fun y hy => hm y (List.mem_cons_of_mem _ hy)) acc
  rw [key _ (by intro x hx; exact List.mem_range.1 hx)]
  rfl

/-- Where the checks of R108 pass, the instruction itself runs. -/
theorem begin_clear {u : Use} {s : State} {g : Group} {p : Path} (h : Clear u s g p) (body : Group → Path → Result) :
    begin_ u s body = body g p := by
  unfold begin_
  rw [withGang_clear h.gang]
  have h1 : (u.priv && p.code.level == .user) = false := by
    cases hp : u.priv with
    | false => rfl
    | true => simpa using h.level hp
  have h2 : (u.all.any fun r => g.isHeld r.toNat) = false := by
    rw [List.any_eq_false]; intro r hr; simp [h.settled r hr]
  have h3 : handlerBlocked g s.path u.all = false := by
    unfold handlerBlocked
    cases hh : g.handler.isSome with
    | false => rfl
    | true =>
      rcases h.low hh with a | a
      · simp [a]
      · have : (u.all.any fun r => decide (r.toNat < 4)) = false := by
          rw [List.any_eq_false]; intro r hr; have := a r hr; simp; omega
        simp [this]
  have h4 : findReport g p (fun r => u.all.any r.names) = none := by
    have : (g.reports.filter fun q => q.mine p != 0 && u.all.any q.names) = [] := by
      rw [List.filter_eq_nil_iff]
      intro q hq
      by_cases hm : q.mine p = 0
      · simp [hm]
      · have : (u.all.any q.names) = false := by
          rw [List.any_eq_false]; intro r hr; simp [h.report q hq hm r hr]
        simp [this]
    unfold findReport
    rw [this]
    rfl
  have h5 : (u.beyond || u.all.any fun r => decide (g.allot ≤ r.toNat)) = false := by
    have : (u.all.any fun r => decide (g.allot ≤ r.toNat)) = false := by
      rw [List.any_eq_false]; intro r hr; have := h.range r hr; simp; omega
    simp [h.fits, this]
  have h6 : (u.uni.any fun r => !(g.reg r).val.isUni) = false := by
    rw [List.any_eq_false]; intro r hr; simp [h.uni r hr]
  have h7 : (if p.quiet = true then (0 : BitVec 16) else deadSlices g p u.rd) = 0 := by
    rcases h.live with a | a
    · simp [a]
    · split
      · rfl
      · exact deadSlices_zero g p u.rd a
  have h8 := poisonLanes_zero g p u.rd h.clean
  simp only [h1, h2, h3, h4, h5, h6, h7, h8]
  simp

/-- What finishing an instruction leaves, for the group g1 that its effects made of g. -/
theorem finish_advanced {s : State} {g g1 : Group} {p q : Path} (len : Nat) (h : curGang s = some (g, q))
    (hp : g1.paths = g.paths) (hw : g1.wcount = g.wcount) :
    ∃ t g', finish s g1 p len = .next t ∧ Advanced len s t g g' p ∧ g' = { g1 with paths := g'.paths, wcount := g'.wcount } := by
  have hlt := g.path_lt s.path q (curGang_group h).2
  have hpath : ∀ q, g1.path q = g.path q := fun q => by unfold Group.path; rw [hp]
  refine ⟨_, (let y := p.spot.yieldsAfter len
      let g2 := g1.setPath s.path (some (p.moved (p.spot.after len)))
      if y then { g2 with wcount := 0 } else g2), rfl, ?_, ?_⟩
  · cases y : p.spot.yieldsAfter len <;>
      simp only [Bool.false_eq_true, if_true, if_false]
    · refine ⟨tget_tput_same _ _ _, fun k hk => tget_tput_other _ _ hk, rfl, by simp [putGroup, y], ?_, ?_, ?_⟩
      · rw [Group.path_setPath _ _ _ _ hlt]; simp
      · intro q hq; rw [Group.path_setPath _ _ _ _ hlt, if_neg hq, hpath]
      · rw [Group.setPath_wcount, hw]; simp [y]
    · refine ⟨tget_tput_same _ _ _, fun k hk => tget_tput_other _ _ hk, rfl, by simp [markYield, y], ?_, ?_, ?_⟩
      · show Group.path (Group.setPath _ _ _) _ = _
        rw [Group.path_setPath _ _ _ _ hlt]; simp
      · intro q hq
        show Group.path (Group.setPath _ _ _) _ = _
        rw [Group.path_setPath _ _ _ _ hlt, if_neg hq, hpath]
      · simp [y]
  · cases y : p.spot.yieldsAfter len <;> simp only [Bool.false_eq_true, if_true, if_false]
    · conv => lhs; rw [Group.setPath_only]
      simp [Group.setPath_wcount]
    · conv => lhs; rw [Group.setPath_only]

theorem released_only (g : Group) (p : Path) (u : Use) : released g p u = { g with regs := (released g p u).regs } := by
  unfold released
  split
  · rfl
  · exact Group.release_only _ _ _

/-- A register that no operand reads is as it was (R61). -/
theorem released_reg (g : Group) (p : Path) (u : Use) (r : VR) (h : r ∉ u.rd) : (released g p u).reg r = g.reg r := by
  unfold released
  split
  · rfl
  · exact Group.release_reg _ _ _ _ h

theorem regs_trans {g a b : Group} (h1 : a = { g with regs := a.regs }) (h2 : b = { a with regs := b.regs }) :
    b = { g with regs := b.regs } := by
  rw [h2, h1]

theorem clearPoison_only (g : Group) (d : VR) (m : Mask) : g.clearPoison d m = { g with rpoison := (g.clearPoison d m).rpoison } := by
  unfold Group.clearPoison
  split <;> rfl

theorem clearPoison_reg (g : Group) (d : VR) (m : Mask) (r : VR) : (g.clearPoison d m).reg r = g.reg r := by
  rw [clearPoison_only]; rfl

theorem clearPoison_marks (g : Group) (d : VR) (m : Mask) (w : twf g.rpoison = true) (r : Nat) :
    (tget (g.clearPoison d m).rpoison r).getD 0 =
      if r = d.toNat then (tget g.rpoison r).getD 0 &&& ~~~m else (tget g.rpoison r).getD 0 := by
  unfold Group.clearPoison
  split
  · next h => split <;> simp_all
  · next old h =>
    by_cases e : r = d.toNat
    · subst e
      simp only [h, if_true, Option.getD_some]
      split
      · next z => simp only [tget_tdel_same _ _ w]; simpa using (beq_iff_eq.1 z).symm
      · simp
    · simp only [e, if_false]
      split
      · rw [tget_tdel_other _ w e]
      · rw [tget_tput_other _ _ e]

/-- A register result that fits the budget, where no operand is poisoned: the write of R55 and R60, then the advance. -/
theorem writeReg_clear {u : Use} {s : State} {g : Group} {p : Path} (d : VR) (cc : CC) (sh : Option Shape) (f : Nat → Word)
    (h : Clear u s g p) (hb : WithinBudget u d cc s g p sh f) :
    writeReg u d cc s g p sh f =
      finish s (((released g p u).writeReg s.path p d cc sh f).clearPoison d p.active) p u.len := by
  have h8 := poisonLanes_zero g p u.rd h.clean
  have hb' : overBudget (released g p u) (((released g p u).writeReg s.path p d cc sh f).clearPoison d p.active) = false := by
    rw [clearPoison_only]; exact hb
  unfold writeReg withBudget
  simp only [h8]
  simp [hb']

/-- Every register instruction whose meaning is a checked register write completes as `Writes` says, where the shape it
names agrees with its lanes. -/
theorem writes_intro {i : Instr} {u : Use} {d : VR} {cc : CC} {sh : Group → Path → Option Shape} {f : Group → Path → Nat → Word}
    (he : ∀ s, exec i s = begin_ u s fun g p => writeReg u d cc s g p (sh g p) (f g p))
    (hs : ∀ s g p x, Clear u s g p → sh g p = some x → ∀ l < 64, inSlices p.slices (l / 4) = true →
      bitOf p.active l = true → x.lane l = f g p l) : Writes i u d cc sh f := by
  intro s g p hc _ hb
  rw [he, begin_clear hc, writeReg_clear d cc _ _ hc hb]
  have hr := released_only g p u
  have hro : ∀ r, ((released g p u).writeReg s.path p d cc (sh g p) (f g p)).reg r =
      if r = d then ((released g p u).reg d).write g.w p.slices p.active (g.fullWrite s.path p d) cc (sh g p) (f g p)
      else (released g p u).reg r := by
    intro r
    unfold Group.writeReg
    rw [Group.reg_setReg]
    have e1 : (released g p u).w = g.w := by rw [hr]
    have e2 : (released g p u).fullWrite s.path p d = g.fullWrite s.path p d := by rw [hr]; rfl
    rw [e1, e2]
  have ho : ((released g p u).writeReg s.path p d cc (sh g p) (f g p)) =
      { g with regs := ((released g p u).writeReg s.path p d cc (sh g p) (f g p)).regs } :=
    regs_trans hr rfl
  generalize (released g p u).writeReg s.path p d cc (sh g p) (f g p) = g1 at hro ho
  have hcl := clearPoison_only g1 d p.active
  have hcr := clearPoison_reg g1 d p.active
  have hmk := clearPoison_marks g1 d p.active
  have hp1 : (g1.clearPoison d p.active).paths = g.paths := by rw [hcl, ho]
  have hw1 : (g1.clearPoison d p.active).wcount = g.wcount := by rw [hcl, ho]
  obtain ⟨t, g', ht, ha, hg⟩ := finish_advanced u.len hc.gang hp1 hw1
  have hreg : ∀ r, g'.reg r = g1.reg r := fun r => by rw [hg, ← hcr r]; rfl
  have hrp : g'.rpoison = (g1.clearPoison d p.active).rpoison := by rw [hg]
  have hg1p : g1.rpoison = g.rpoison := by rw [ho]
  refine ⟨t, g', ht, ha, ?_, ?_⟩
  · unfold SameButRegs
    rw [hg, hcl, ho]
  · refine ⟨?_, ?_, ?_, ?_, ?_, ?_, ?_, ?_⟩
    · intro r hr'
      rw [hreg, hro, if_neg hr']
    · intro he
      rw [hreg, hro, if_pos rfl, VReg.write_empty _ _ _ _ _ _ _ _ he]
    · intro l hl hlw hsl hbit
      have hne : p.slices ≠ 0 := by intro e; rw [e] at hsl; simp [inSlices] at hsl
      rw [hreg, hro, if_pos rfl]
      refine ⟨?_, ?_⟩
      · unfold VReg.live
        rw [VReg.write_nibble _ _ _ _ _ _ _ _ hne _ (by omega)]
        simp [hsl, hlw]
      · rw [VReg.write_val _ _ _ _ _ _ _ _ hne]
        split
        · next x _ hx => exact hs s g p x hc hx l hl hsl hbit
        · rw [Shape.lane_gen _ _ _ (by omega)]; simp [hbit]
    · intro hne hfull l hl hbit
      rw [hreg, hro, if_pos rfl, VReg.write_val _ _ _ _ _ _ _ _ hne, hfull]
      simp only [Shape.lane_gen _ _ _ hl, hbit, Bool.false_eq_true, if_false]
    · intro hne sl hsl
      rw [hreg, hro, if_pos rfl, VReg.write_nibble _ _ _ _ _ _ _ _ hne _ hsl]
    · intro hne hfull x hx
      rw [hreg, hro, if_pos rfl, VReg.write_val _ _ _ _ _ _ _ _ hne, hfull, hx]
    · intro hne hor
      rw [hreg, hro, if_pos rfl, VReg.write_val _ _ _ _ _ _ _ _ hne]
      rcases hor with e | e <;> rw [e]
      · rfl
      · cases g.fullWrite s.path p d <;> rfl
    · intro w r
      rw [hrp, hmk (by rw [hg1p]; exact w), hg1p]

end Sys2Proof.Machine
end

