-- ==== Sys2Proof/Laws/PerInstr.lean ====
section
/-! SUPPORT. A law for each constructor of `Instr`: an instruction has at most two words, and each fits 32 bits (R101, R104). -/

namespace Sys2Proof.Laws

theorem code_it (t : IT) : t.code < 4 := by cases t <;> decide
theorem code_bt (t : BT) : t.code < 4 := by cases t <;> decide
theorem code_ft (t : FT) : t.code < 4 := by cases t <;> decide
theorem code_rm (t : RM) : t.code < 4 := by cases t <;> decide
theorem code_irel (t : IRel) : t.code < 8 := by cases t <;> decide
theorem code_frel (t : FRel) : t.code < 4 := by cases t <;> decide
theorem code_wrel (t : WRel) : t.code < 4 := by cases t <;> decide
theorem code_ord (t : Ord) : t.code < 4 := by cases t <;> decide
theorem code_ford (t : FOrd) : t.code < 4 := by cases t <;> decide
theorem code_scp (t : Scp) : t.code < 8 := by cases t <;> decide
theorem code_ct (t : CT) : t.code < 16 := by cases t <;> decide
theorem code_at (t : AT) : t.code < 8 := by cases t <;> decide
theorem code_eng (t : Eng) : t.code < 4 := by cases t <;> decide
theorem code_red (t : Red) : t.code < 4 := by cases t <;> decide
theorem code_ctr (t : Ctr) : t.code < 4 := by cases t <;> decide
theorem code_bit (b : Bool) : bit b < 2 := by cases b <;> decide
theorem code_acq (q : Option Scp) : ordOf 1 q < 4 := by cases q <;> simp [ordOf]
theorem code_rel (q : Option Scp) : ordOf 2 q < 4 := by cases q <;> simp [ordOf]
theorem code_pair (q : Option Scp) : scpOf q < 8 := by
  cases q with
  | none => decide
  | some s => exact code_scp s

/-- At most two words, each of 32 bits. -/
def Words.Statement (i : Instr) : Prop := (encode i).length ≤ 2 ∧ ∀ w ∈ encode i, w < 2 ^ 32

theorem words_none {i : Instr} (h : encode i = []) : Words.Statement i := by simp [Words.Statement, h]
theorem words_one {i : Instr} {w : Nat} (h : encode i = [w]) (b : w < 2 ^ 32) : Words.Statement i := by
  simp [Words.Statement, h]; exact b
theorem words_two {i : Instr} {w v : Nat} (h : encode i = [w, v]) (b : w < 2 ^ 32) (c : v < 2 ^ 32) : Words.Statement i := by
  simp [Words.Statement, h]; exact ⟨b, c⟩

theorem Words.iadd (d : VR) (a : VR) (b : VR) (cc : CC) (t : IT) : Words.Statement (.iadd d a b cc t) := 
  words_one rfl (by have := d.isLt; have := a.isLt; have := b.isLt; have := cc.isLt; have := code_it t; simp only [wordA]; omega)
theorem Words.isub (d : VR) (a : VR) (b : VR) (cc : CC) (t : IT) : Words.Statement (.isub d a b cc t) := 
  words_one rfl (by have := d.isLt; have := a.isLt; have := b.isLt; have := cc.isLt; have := code_it t; simp only [wordA]; omega)
theorem Words.imul (d : VR) (a : VR) (b : VR) (cc : CC) (t : IT) : Words.Statement (.imul d a b cc t) := 
  words_one rfl (by have := d.isLt; have := a.isLt; have := b.isLt; have := cc.isLt; have := code_it t; simp only [wordA]; omega)
theorem Words.imulh (d : VR) (a : VR) (b : VR) (cc : CC) (t : IT) : Words.Statement (.imulh d a b cc t) := 
  words_one rfl (by have := d.isLt; have := a.isLt; have := b.isLt; have := cc.isLt; have := code_it t; simp only [wordA]; omega)
theorem Words.imac (d : VR) (a : VR) (b : VR) (cc : CC) (t : IT) : Words.Statement (.imac d a b cc t) := 
  words_one rfl (by have := d.isLt; have := a.isLt; have := b.isLt; have := cc.isLt; have := code_it t; simp only [wordA]; omega)
theorem Words.idiv (d : VR) (a : VR) (b : VR) (cc : CC) (t : IT) : Words.Statement (.idiv d a b cc t) := 
  words_one rfl (by have := d.isLt; have := a.isLt; have := b.isLt; have := cc.isLt; have := code_it t; simp only [wordA]; omega)
theorem Words.irem (d : VR) (a : VR) (b : VR) (cc : CC) (t : IT) : Words.Statement (.irem d a b cc t) := 
  words_one rfl (by have := d.isLt; have := a.isLt; have := b.isLt; have := cc.isLt; have := code_it t; simp only [wordA]; omega)
theorem Words.imin (d : VR) (a : VR) (b : VR) (cc : CC) (t : IT) : Words.Statement (.imin d a b cc t) := 
  words_one rfl (by have := d.isLt; have := a.isLt; have := b.isLt; have := cc.isLt; have := code_it t; simp only [wordA]; omega)
theorem Words.imax (d : VR) (a : VR) (b : VR) (cc : CC) (t : IT) : Words.Statement (.imax d a b cc t) := 
  words_one rfl (by have := d.isLt; have := a.isLt; have := b.isLt; have := cc.isLt; have := code_it t; simp only [wordA]; omega)
theorem Words.iadds (d : VR) (a : VR) (b : VR) (cc : CC) (t : IT) : Words.Statement (.iadds d a b cc t) := 
  words_one rfl (by have := d.isLt; have := a.isLt; have := b.isLt; have := cc.isLt; have := code_it t; simp only [wordA]; omega)
theorem Words.iaddc (d : VR) (a : VR) (b : VR) (cc : CC) (t : BT) : Words.Statement (.iaddc d a b cc t) := 
  words_one rfl (by have := d.isLt; have := a.isLt; have := b.isLt; have := cc.isLt; have := code_bt t; simp only [wordA]; omega)
theorem Words.inegB64 (d : VR) (a : VR) (cc : CC) : Words.Statement (.inegB64 d a cc) := 
  words_one rfl (by have := d.isLt; have := a.isLt; have := cc.isLt; simp only [wordA]; omega)
theorem Words.iabsB64 (d : VR) (a : VR) (cc : CC) : Words.Statement (.iabsB64 d a cc) := 
  words_one rfl (by have := d.isLt; have := a.isLt; have := cc.isLt; simp only [wordA]; omega)
theorem Words.notB64 (d : VR) (a : VR) (cc : CC) : Words.Statement (.notB64 d a cc) := 
  words_one rfl (by have := d.isLt; have := a.isLt; have := cc.isLt; simp only [wordA]; omega)
theorem Words.popcB64 (d : VR) (a : VR) (cc : CC) : Words.Statement (.popcB64 d a cc) := 
  words_one rfl (by have := d.isLt; have := a.isLt; have := cc.isLt; simp only [wordA]; omega)
theorem Words.clzB64 (d : VR) (a : VR) (cc : CC) : Words.Statement (.clzB64 d a cc) := 
  words_one rfl (by have := d.isLt; have := a.isLt; have := cc.isLt; simp only [wordA]; omega)
theorem Words.ctzB64 (d : VR) (a : VR) (cc : CC) : Words.Statement (.ctzB64 d a cc) := 
  words_one rfl (by have := d.isLt; have := a.isLt; have := cc.isLt; simp only [wordA]; omega)
theorem Words.brevB64 (d : VR) (a : VR) (cc : CC) : Words.Statement (.brevB64 d a cc) := 
  words_one rfl (by have := d.isLt; have := a.isLt; have := cc.isLt; simp only [wordA]; omega)
theorem Words.bswapB64 (d : VR) (a : VR) (cc : CC) : Words.Statement (.bswapB64 d a cc) := 
  words_one rfl (by have := d.isLt; have := a.isLt; have := cc.isLt; simp only [wordA]; omega)
theorem Words.movB64 (d : VR) (a : VR) (cc : CC) : Words.Statement (.movB64 d a cc) := 
  words_one rfl (by have := d.isLt; have := a.isLt; have := cc.isLt; simp only [wordA]; omega)
theorem Words.inegB32 (d : VR) (a : VR) (cc : CC) : Words.Statement (.inegB32 d a cc) := 
  words_one rfl (by have := d.isLt; have := a.isLt; have := cc.isLt; simp only [wordA]; omega)
theorem Words.iabsB32 (d : VR) (a : VR) (cc : CC) : Words.Statement (.iabsB32 d a cc) := 
  words_one rfl (by have := d.isLt; have := a.isLt; have := cc.isLt; simp only [wordA]; omega)
theorem Words.notB32 (d : VR) (a : VR) (cc : CC) : Words.Statement (.notB32 d a cc) := 
  words_one rfl (by have := d.isLt; have := a.isLt; have := cc.isLt; simp only [wordA]; omega)
theorem Words.popcB32 (d : VR) (a : VR) (cc : CC) : Words.Statement (.popcB32 d a cc) := 
  words_one rfl (by have := d.isLt; have := a.isLt; have := cc.isLt; simp only [wordA]; omega)
theorem Words.clzB32 (d : VR) (a : VR) (cc : CC) : Words.Statement (.clzB32 d a cc) := 
  words_one rfl (by have := d.isLt; have := a.isLt; have := cc.isLt; simp only [wordA]; omega)
theorem Words.ctzB32 (d : VR) (a : VR) (cc : CC) : Words.Statement (.ctzB32 d a cc) := 
  words_one rfl (by have := d.isLt; have := a.isLt; have := cc.isLt; simp only [wordA]; omega)
theorem Words.brevB32 (d : VR) (a : VR) (cc : CC) : Words.Statement (.brevB32 d a cc) := 
  words_one rfl (by have := d.isLt; have := a.isLt; have := cc.isLt; simp only [wordA]; omega)
theorem Words.bswapB32 (d : VR) (a : VR) (cc : CC) : Words.Statement (.bswapB32 d a cc) := 
  words_one rfl (by have := d.isLt; have := a.isLt; have := cc.isLt; simp only [wordA]; omega)
theorem Words.shl (d : VR) (a : VR) (b : VR) (cc : CC) (t : BT) : Words.Statement (.shl d a b cc t) := 
  words_one rfl (by have := d.isLt; have := a.isLt; have := b.isLt; have := cc.isLt; have := code_bt t; simp only [wordA]; omega)
theorem Words.shr (d : VR) (a : VR) (b : VR) (cc : CC) (t : BT) : Words.Statement (.shr d a b cc t) := 
  words_one rfl (by have := d.isLt; have := a.isLt; have := b.isLt; have := cc.isLt; have := code_bt t; simp only [wordA]; omega)
theorem Words.sar (d : VR) (a : VR) (b : VR) (cc : CC) (t : BT) : Words.Statement (.sar d a b cc t) := 
  words_one rfl (by have := d.isLt; have := a.isLt; have := b.isLt; have := cc.isLt; have := code_bt t; simp only [wordA]; omega)
theorem Words.rot (d : VR) (a : VR) (b : VR) (cc : CC) (t : BT) : Words.Statement (.rot d a b cc t) := 
  words_one rfl (by have := d.isLt; have := a.isLt; have := b.isLt; have := cc.isLt; have := code_bt t; simp only [wordA]; omega)
theorem Words.andb (d : VR) (a : VR) (b : VR) (cc : CC) (t : BT) : Words.Statement (.andb d a b cc t) := 
  words_one rfl (by have := d.isLt; have := a.isLt; have := b.isLt; have := cc.isLt; have := code_bt t; simp only [wordA]; omega)
theorem Words.orb (d : VR) (a : VR) (b : VR) (cc : CC) (t : BT) : Words.Statement (.orb d a b cc t) := 
  words_one rfl (by have := d.isLt; have := a.isLt; have := b.isLt; have := cc.isLt; have := code_bt t; simp only [wordA]; omega)
theorem Words.xorb (d : VR) (a : VR) (b : VR) (cc : CC) (t : BT) : Words.Statement (.xorb d a b cc t) := 
  words_one rfl (by have := d.isLt; have := a.isLt; have := b.isLt; have := cc.isLt; have := code_bt t; simp only [wordA]; omega)
theorem Words.andn (d : VR) (a : VR) (b : VR) (cc : CC) (t : BT) : Words.Statement (.andn d a b cc t) := 
  words_one rfl (by have := d.isLt; have := a.isLt; have := b.isLt; have := cc.isLt; have := code_bt t; simp only [wordA]; omega)
theorem Words.bfx (d : VR) (a : VR) (b : VR) (cc : CC) (t : IT) : Words.Statement (.bfx d a b cc t) := 
  words_one rfl (by have := d.isLt; have := a.isLt; have := b.isLt; have := cc.isLt; have := code_it t; simp only [wordA]; omega)
theorem Words.bfi (d : VR) (a : VR) (b : VR) (cc : CC) (t : BT) : Words.Statement (.bfi d a b cc t) := 
  words_one rfl (by have := d.isLt; have := a.isLt; have := b.isLt; have := cc.isLt; have := code_bt t; simp only [wordA]; omega)
theorem Words.icmp (d : VR) (a : VR) (b : VR) (cc : CC) (w : BT) (r : IRel) : Words.Statement (.icmp d a b cc w r) := 
  words_one rfl (by have := d.isLt; have := a.isLt; have := b.isLt; have := cc.isLt; have := code_bt w; have := code_irel r; have := code_bit (w == .b32); simp only [wordA]; omega)
theorem Words.sel (d : VR) (a : VR) (b : VR) (cc : CC) (k : KR) : Words.Statement (.sel d a b cc k) := 
  words_one rfl (by have := d.isLt; have := a.isLt; have := b.isLt; have := cc.isLt; have := k.isLt; simp only [wordA]; omega)
theorem Words.lea (d : VR) (a : VR) (b : VR) (cc : CC) (sh : BitVec 4) : Words.Statement (.lea d a b cc sh) := 
  words_one rfl (by have := d.isLt; have := a.isLt; have := b.isLt; have := cc.isLt; have := sh.isLt; simp only [wordA]; omega)
theorem Words.movi (d : VR) (cc : CC) (imm : BitVec 16) : Words.Statement (.movi d cc imm) := 
  words_one rfl (by have := d.isLt; have := cc.isLt; have := imm.isLt; simp only [wordI]; omega)
theorem Words.movhi (d : VR) (cc : CC) (imm : BitVec 16) : Words.Statement (.movhi d cc imm) := 
  words_one rfl (by have := d.isLt; have := cc.isLt; have := imm.isLt; simp only [wordI]; omega)
theorem Words.iaddi (d : VR) (a : VR) (cc : CC) (imm : BitVec 10) : Words.Statement (.iaddi d a cc imm) := 
  words_one rfl (by have := d.isLt; have := a.isLt; have := cc.isLt; have := imm.isLt; simp only [wordI]; omega)
theorem Words.andi (d : VR) (a : VR) (cc : CC) (imm : BitVec 10) : Words.Statement (.andi d a cc imm) := 
  words_one rfl (by have := d.isLt; have := a.isLt; have := cc.isLt; have := imm.isLt; simp only [wordI]; omega)
theorem Words.ori (d : VR) (a : VR) (cc : CC) (imm : BitVec 10) : Words.Statement (.ori d a cc imm) := 
  words_one rfl (by have := d.isLt; have := a.isLt; have := cc.isLt; have := imm.isLt; simp only [wordI]; omega)
theorem Words.xori (d : VR) (a : VR) (cc : CC) (imm : BitVec 10) : Words.Statement (.xori d a cc imm) := 
  words_one rfl (by have := d.isLt; have := a.isLt; have := cc.isLt; have := imm.isLt; simp only [wordI]; omega)
theorem Words.shli (d : VR) (a : VR) (cc : CC) (imm : BitVec 6) : Words.Statement (.shli d a cc imm) := 
  words_one rfl (by have := d.isLt; have := a.isLt; have := cc.isLt; have := imm.isLt; simp only [wordI]; omega)
theorem Words.unif (d : VR) (a : VR) (cc : CC) : Words.Statement (.unif d a cc) := 
  words_one rfl (by have := d.isLt; have := a.isLt; have := cc.isLt; simp only [wordA]; omega)
theorem Words.matz (d : VR) (a : VR) (cc : CC) : Words.Statement (.matz d a cc) := 
  words_one rfl (by have := d.isLt; have := a.isLt; have := cc.isLt; simp only [wordA]; omega)
theorem Words.affine (d : VR) (a : VR) (b : VR) (cc : CC) : Words.Statement (.affine d a b cc) := 
  words_one rfl (by have := d.isLt; have := a.isLt; have := b.isLt; have := cc.isLt; simp only [wordA]; omega)
theorem Words.shape (d : VR) (a : VR) (cc : CC) : Words.Statement (.shape d a cc) := 
  words_one rfl (by have := d.isLt; have := a.isLt; have := cc.isLt; simp only [wordA]; omega)
theorem Words.mand (d : KR) (a : KR) (b : KR) : Words.Statement (.mand d a b) := 
  words_one rfl (by have := d.isLt; have := a.isLt; have := b.isLt; simp only [wordA]; omega)
theorem Words.mor (d : KR) (a : KR) (b : KR) : Words.Statement (.mor d a b) := 
  words_one rfl (by have := d.isLt; have := a.isLt; have := b.isLt; simp only [wordA]; omega)
theorem Words.mxor (d : KR) (a : KR) (b : KR) : Words.Statement (.mxor d a b) := 
  words_one rfl (by have := d.isLt; have := a.isLt; have := b.isLt; simp only [wordA]; omega)
theorem Words.mandn (d : KR) (a : KR) (b : KR) : Words.Statement (.mandn d a b) := 
  words_one rfl (by have := d.isLt; have := a.isLt; have := b.isLt; simp only [wordA]; omega)
theorem Words.mnot (d : KR) (a : KR) : Words.Statement (.mnot d a) := 
  words_one rfl (by have := d.isLt; have := a.isLt; simp only [wordA]; omega)
theorem Words.mpopc (d : VR) (a : KR) (cc : CC) : Words.Statement (.mpopc d a cc) := 
  words_one rfl (by have := d.isLt; have := a.isLt; have := cc.isLt; simp only [wordA]; omega)
theorem Words.mfirst (d : VR) (a : KR) (cc : CC) : Words.Statement (.mfirst d a cc) := 
  words_one rfl (by have := d.isLt; have := a.isLt; have := cc.isLt; simp only [wordA]; omega)
theorem Words.mfrom (d : KR) (a : VR) : Words.Statement (.mfrom d a) := 
  words_one rfl (by have := d.isLt; have := a.isLt; simp only [wordA]; omega)
theorem Words.mto (d : VR) (a : KR) (cc : CC) : Words.Statement (.mto d a cc) := 
  words_one rfl (by have := d.isLt; have := a.isLt; have := cc.isLt; simp only [wordA]; omega)
theorem Words.ballot (d : VR) (a : VR) (cc : CC) : Words.Statement (.ballot d a cc) := 
  words_one rfl (by have := d.isLt; have := a.isLt; have := cc.isLt; simp only [wordA]; omega)
theorem Words.exget (d : KR) : Words.Statement (.exget d) := 
  words_one rfl (by have := d.isLt; simp only [wordA]; omega)
theorem Words.exset (a : KR) : Words.Statement (.exset a) := 
  words_one rfl (by have := a.isLt; simp only [wordA]; omega)
theorem Words.mset (d : KR) (a : VR) : Words.Statement (.mset d a) := 
  words_one rfl (by have := d.isLt; have := a.isLt; simp only [wordA]; omega)
theorem Words.xlane (d : VR) (a : VR) (b : VR) (cc : CC) : Words.Statement (.xlane d a b cc) := 
  words_one rfl (by have := d.isLt; have := a.isLt; have := b.isLt; have := cc.isLt; simp only [wordA]; omega)
theorem Words.xbfly (d : VR) (a : VR) (cc : CC) (imm : BitVec 10) : Words.Statement (.xbfly d a cc imm) := 
  words_one rfl (by have := d.isLt; have := a.isLt; have := cc.isLt; have := imm.isLt; simp only [wordI]; omega)
theorem Words.xshift (d : VR) (a : VR) (cc : CC) (imm : BitVec 10) : Words.Statement (.xshift d a cc imm) := 
  words_one rfl (by have := d.isLt; have := a.isLt; have := cc.isLt; have := imm.isLt; simp only [wordI]; omega)
theorem Words.xbcast (d : VR) (a : VR) (cc : CC) (imm : BitVec 10) : Words.Statement (.xbcast d a cc imm) := 
  words_one rfl (by have := d.isLt; have := a.isLt; have := cc.isLt; have := imm.isLt; simp only [wordI]; omega)
theorem Words.scanadd (d : VR) (a : VR) (cc : CC) (exc : Bool) (t : IT) : Words.Statement (.scanadd d a cc exc t) := 
  words_one rfl (by have := d.isLt; have := a.isLt; have := cc.isLt; have := code_bit exc; have := code_it t; simp only [wordA]; omega)
theorem Words.greduceAdd (d : VR) (a : VR) (cc : CC) (t : IT) : Words.Statement (.greduceAdd d a cc t) := 
  words_one rfl (by have := d.isLt; have := a.isLt; have := cc.isLt; have := code_it t; simp only [wordA]; omega)
theorem Words.greduceMin (d : VR) (a : VR) (cc : CC) (t : IT) : Words.Statement (.greduceMin d a cc t) := 
  words_one rfl (by have := d.isLt; have := a.isLt; have := cc.isLt; have := code_it t; simp only [wordA]; omega)
theorem Words.greduceMax (d : VR) (a : VR) (cc : CC) (t : IT) : Words.Statement (.greduceMax d a cc t) := 
  words_one rfl (by have := d.isLt; have := a.isLt; have := cc.isLt; have := code_it t; simp only [wordA]; omega)
theorem Words.fadd (d : VR) (a : VR) (b : VR) (cc : CC) (rm : RM) (t : FT) : Words.Statement (.fadd d a b cc rm t) := 
  words_one rfl (by have := d.isLt; have := a.isLt; have := b.isLt; have := cc.isLt; have := code_rm rm; have := code_ft t; simp only [wordA]; omega)
theorem Words.fsub (d : VR) (a : VR) (b : VR) (cc : CC) (rm : RM) (t : FT) : Words.Statement (.fsub d a b cc rm t) := 
  words_one rfl (by have := d.isLt; have := a.isLt; have := b.isLt; have := cc.isLt; have := code_rm rm; have := code_ft t; simp only [wordA]; omega)
theorem Words.fmul (d : VR) (a : VR) (b : VR) (cc : CC) (rm : RM) (t : FT) : Words.Statement (.fmul d a b cc rm t) := 
  words_one rfl (by have := d.isLt; have := a.isLt; have := b.isLt; have := cc.isLt; have := code_rm rm; have := code_ft t; simp only [wordA]; omega)
theorem Words.fma (d : VR) (a : VR) (b : VR) (cc : CC) (rm : RM) (t : FT) : Words.Statement (.fma d a b cc rm t) := 
  words_one rfl (by have := d.isLt; have := a.isLt; have := b.isLt; have := cc.isLt; have := code_rm rm; have := code_ft t; simp only [wordA]; omega)
theorem Words.fms (d : VR) (a : VR) (b : VR) (cc : CC) (rm : RM) (t : FT) : Words.Statement (.fms d a b cc rm t) := 
  words_one rfl (by have := d.isLt; have := a.isLt; have := b.isLt; have := cc.isLt; have := code_rm rm; have := code_ft t; simp only [wordA]; omega)
theorem Words.fnma (d : VR) (a : VR) (b : VR) (cc : CC) (rm : RM) (t : FT) : Words.Statement (.fnma d a b cc rm t) := 
  words_one rfl (by have := d.isLt; have := a.isLt; have := b.isLt; have := cc.isLt; have := code_rm rm; have := code_ft t; simp only [wordA]; omega)
theorem Words.fmin (d : VR) (a : VR) (b : VR) (cc : CC) (t : FT) : Words.Statement (.fmin d a b cc t) := 
  words_one rfl (by have := d.isLt; have := a.isLt; have := b.isLt; have := cc.isLt; have := code_ft t; simp only [wordA]; omega)
theorem Words.fmax (d : VR) (a : VR) (b : VR) (cc : CC) (t : FT) : Words.Statement (.fmax d a b cc t) := 
  words_one rfl (by have := d.isLt; have := a.isLt; have := b.isLt; have := cc.isLt; have := code_ft t; simp only [wordA]; omega)
theorem Words.fminm (d : VR) (a : VR) (b : VR) (cc : CC) (t : FT) : Words.Statement (.fminm d a b cc t) := 
  words_one rfl (by have := d.isLt; have := a.isLt; have := b.isLt; have := cc.isLt; have := code_ft t; simp only [wordA]; omega)
theorem Words.fmaxm (d : VR) (a : VR) (b : VR) (cc : CC) (t : FT) : Words.Statement (.fmaxm d a b cc t) := 
  words_one rfl (by have := d.isLt; have := a.isLt; have := b.isLt; have := cc.isLt; have := code_ft t; simp only [wordA]; omega)
theorem Words.fabs (d : VR) (a : VR) (cc : CC) (t : FT) : Words.Statement (.fabs d a cc t) := 
  words_one rfl (by have := d.isLt; have := a.isLt; have := cc.isLt; have := code_ft t; simp only [wordA]; omega)
theorem Words.fneg (d : VR) (a : VR) (cc : CC) (t : FT) : Words.Statement (.fneg d a cc t) := 
  words_one rfl (by have := d.isLt; have := a.isLt; have := cc.isLt; have := code_ft t; simp only [wordA]; omega)
theorem Words.fcopysign (d : VR) (a : VR) (b : VR) (cc : CC) (t : FT) : Words.Statement (.fcopysign d a b cc t) := 
  words_one rfl (by have := d.isLt; have := a.isLt; have := b.isLt; have := cc.isLt; have := code_ft t; simp only [wordA]; omega)
theorem Words.fcmp (d : VR) (a : VR) (b : VR) (cc : CC) (r : FRel) (t : FT) : Words.Statement (.fcmp d a b cc r t) := 
  words_one rfl (by have := d.isLt; have := a.isLt; have := b.isLt; have := cc.isLt; have := code_frel r; have := code_ft t; simp only [wordA]; omega)
theorem Words.fclass (d : VR) (a : VR) (cc : CC) (t : FT) : Words.Statement (.fclass d a cc t) := 
  words_one rfl (by have := d.isLt; have := a.isLt; have := cc.isLt; have := code_ft t; simp only [wordA]; omega)
theorem Words.frcp (d : VR) (a : VR) (cc : CC) (rm : RM) (t : FT) : Words.Statement (.frcp d a cc rm t) := 
  words_one rfl (by have := d.isLt; have := a.isLt; have := cc.isLt; have := code_rm rm; have := code_ft t; simp only [wordA]; omega)
theorem Words.frsq (d : VR) (a : VR) (cc : CC) (rm : RM) (t : FT) : Words.Statement (.frsq d a cc rm t) := 
  words_one rfl (by have := d.isLt; have := a.isLt; have := cc.isLt; have := code_rm rm; have := code_ft t; simp only [wordA]; omega)
theorem Words.fsqrt (d : VR) (a : VR) (cc : CC) (rm : RM) (t : FT) : Words.Statement (.fsqrt d a cc rm t) := 
  words_one rfl (by have := d.isLt; have := a.isLt; have := cc.isLt; have := code_rm rm; have := code_ft t; simp only [wordA]; omega)
theorem Words.fdiv (d : VR) (a : VR) (b : VR) (cc : CC) (rm : RM) (t : FT) : Words.Statement (.fdiv d a b cc rm t) := 
  words_one rfl (by have := d.isLt; have := a.isLt; have := b.isLt; have := cc.isLt; have := code_rm rm; have := code_ft t; simp only [wordA]; omega)
theorem Words.fexp2 (d : VR) (a : VR) (cc : CC) (t : FT) : Words.Statement (.fexp2 d a cc t) := 
  words_one rfl (by have := d.isLt; have := a.isLt; have := cc.isLt; have := code_ft t; simp only [wordA]; omega)
theorem Words.flog2 (d : VR) (a : VR) (cc : CC) (t : FT) : Words.Statement (.flog2 d a cc t) := 
  words_one rfl (by have := d.isLt; have := a.isLt; have := cc.isLt; have := code_ft t; simp only [wordA]; omega)
theorem Words.fsin (d : VR) (a : VR) (cc : CC) (t : FT) : Words.Statement (.fsin d a cc t) := 
  words_one rfl (by have := d.isLt; have := a.isLt; have := cc.isLt; have := code_ft t; simp only [wordA]; omega)
theorem Words.fcos (d : VR) (a : VR) (cc : CC) (t : FT) : Words.Statement (.fcos d a cc t) := 
  words_one rfl (by have := d.isLt; have := a.isLt; have := cc.isLt; have := code_ft t; simp only [wordA]; omega)
theorem Words.frnd (d : VR) (a : VR) (cc : CC) (rm : RM) (t : FT) : Words.Statement (.frnd d a cc rm t) := 
  words_one rfl (by have := d.isLt; have := a.isLt; have := cc.isLt; have := code_rm rm; have := code_ft t; simp only [wordA]; omega)
theorem Words.ffrac (d : VR) (a : VR) (cc : CC) (t : FT) : Words.Statement (.ffrac d a cc t) := 
  words_one rfl (by have := d.isLt; have := a.isLt; have := cc.isLt; have := code_ft t; simp only [wordA]; omega)
theorem Words.fscaleb (d : VR) (a : VR) (b : VR) (cc : CC) (rm : RM) (t : FT) : Words.Statement (.fscaleb d a b cc rm t) := 
  words_one rfl (by have := d.isLt; have := a.isLt; have := b.isLt; have := cc.isLt; have := code_rm rm; have := code_ft t; simp only [wordA]; omega)
theorem Words.cvt (d : VR) (a : VR) (cc : CC) (sat : Bool) (rm : RM) (ct : CT) (from_ : CT) : Words.Statement (.cvt d a cc sat rm ct from_) := 
  words_two rfl (by have := d.isLt; have := a.isLt; have := cc.isLt; have := code_bit sat; have := code_rm rm; have := code_ct ct; have := code_ct from_; simp only [wordL]; omega)
    (by have := d.isLt; have := a.isLt; have := cc.isLt; have := code_bit sat; have := code_rm rm; have := code_ct ct; have := code_ct from_; omega)
theorem Words.packF16x2 (d : VR) (a : VR) (b : VR) (cc : CC) : Words.Statement (.packF16x2 d a b cc) := 
  words_one rfl (by have := d.isLt; have := a.isLt; have := b.isLt; have := cc.isLt; simp only [wordA]; omega)
theorem Words.packBf16x2 (d : VR) (a : VR) (b : VR) (cc : CC) : Words.Statement (.packBf16x2 d a b cc) := 
  words_one rfl (by have := d.isLt; have := a.isLt; have := b.isLt; have := cc.isLt; simp only [wordA]; omega)
theorem Words.unpackLoF16x2 (d : VR) (a : VR) (cc : CC) : Words.Statement (.unpackLoF16x2 d a cc) := 
  words_one rfl (by have := d.isLt; have := a.isLt; have := cc.isLt; simp only [wordA]; omega)
theorem Words.unpackHiF16x2 (d : VR) (a : VR) (cc : CC) : Words.Statement (.unpackHiF16x2 d a cc) := 
  words_one rfl (by have := d.isLt; have := a.isLt; have := cc.isLt; simp only [wordA]; omega)
theorem Words.unpackLoBf16x2 (d : VR) (a : VR) (cc : CC) : Words.Statement (.unpackLoBf16x2 d a cc) := 
  words_one rfl (by have := d.isLt; have := a.isLt; have := cc.isLt; simp only [wordA]; omega)
theorem Words.unpackHiBf16x2 (d : VR) (a : VR) (cc : CC) : Words.Statement (.unpackHiBf16x2 d a cc) := 
  words_one rfl (by have := d.isLt; have := a.isLt; have := cc.isLt; simp only [wordA]; omega)
theorem Words.ordkey (d : VR) (a : VR) (b : VR) (cc : CC) (nanlo : Bool) (t : FT) : Words.Statement (.ordkey d a b cc nanlo t) := 
  words_one rfl (by have := d.isLt; have := a.isLt; have := b.isLt; have := cc.isLt; have := code_bit nanlo; have := code_ft t; simp only [wordA]; omega)
theorem Words.packedFadd (d : VR) (a : VR) (b : VR) (cc : CC) (bf : Bool) : Words.Statement (.packedFadd d a b cc bf) := 
  words_one rfl (by have := d.isLt; have := a.isLt; have := b.isLt; have := cc.isLt; have := code_bit bf; simp only [wordA]; omega)
theorem Words.packedFsub (d : VR) (a : VR) (b : VR) (cc : CC) (bf : Bool) : Words.Statement (.packedFsub d a b cc bf) := 
  words_one rfl (by have := d.isLt; have := a.isLt; have := b.isLt; have := cc.isLt; have := code_bit bf; simp only [wordA]; omega)
theorem Words.packedFmul (d : VR) (a : VR) (b : VR) (cc : CC) (bf : Bool) : Words.Statement (.packedFmul d a b cc bf) := 
  words_one rfl (by have := d.isLt; have := a.isLt; have := b.isLt; have := cc.isLt; have := code_bit bf; simp only [wordA]; omega)
theorem Words.packedFma (d : VR) (a : VR) (b : VR) (cc : CC) (bf : Bool) : Words.Statement (.packedFma d a b cc bf) := 
  words_one rfl (by have := d.isLt; have := a.isLt; have := b.isLt; have := cc.isLt; have := code_bit bf; simp only [wordA]; omega)
theorem Words.ldN8 (d : VR) (a : VR) (cc : CC) (acq : Option Scp) (off : BitVec 5) : Words.Statement (.ldN8 d a cc acq off) := 
  words_one rfl (by have := d.isLt; have := a.isLt; have := cc.isLt; have := code_acq acq; have := code_pair acq; have := off.isLt; simp only [wordM]; omega)
theorem Words.ldN16 (d : VR) (a : VR) (cc : CC) (acq : Option Scp) (off : BitVec 5) : Words.Statement (.ldN16 d a cc acq off) := 
  words_one rfl (by have := d.isLt; have := a.isLt; have := cc.isLt; have := code_acq acq; have := code_pair acq; have := off.isLt; simp only [wordM]; omega)
theorem Words.ldN32 (d : VR) (a : VR) (cc : CC) (acq : Option Scp) (off : BitVec 5) : Words.Statement (.ldN32 d a cc acq off) := 
  words_one rfl (by have := d.isLt; have := a.isLt; have := cc.isLt; have := code_acq acq; have := code_pair acq; have := off.isLt; simp only [wordM]; omega)
theorem Words.ldN64 (d : VR) (a : VR) (cc : CC) (acq : Option Scp) (off : BitVec 5) : Words.Statement (.ldN64 d a cc acq off) := 
  words_one rfl (by have := d.isLt; have := a.isLt; have := cc.isLt; have := code_acq acq; have := code_pair acq; have := off.isLt; simp only [wordM]; omega)
theorem Words.ldS8 (d : VR) (a : VR) (cc : CC) (acq : Option Scp) (off : BitVec 5) : Words.Statement (.ldS8 d a cc acq off) := 
  words_one rfl (by have := d.isLt; have := a.isLt; have := cc.isLt; have := code_acq acq; have := code_pair acq; have := off.isLt; simp only [wordM]; omega)
theorem Words.ldS16 (d : VR) (a : VR) (cc : CC) (acq : Option Scp) (off : BitVec 5) : Words.Statement (.ldS16 d a cc acq off) := 
  words_one rfl (by have := d.isLt; have := a.isLt; have := cc.isLt; have := code_acq acq; have := code_pair acq; have := off.isLt; simp only [wordM]; omega)
theorem Words.ldS32 (d : VR) (a : VR) (cc : CC) (acq : Option Scp) (off : BitVec 5) : Words.Statement (.ldS32 d a cc acq off) := 
  words_one rfl (by have := d.isLt; have := a.isLt; have := cc.isLt; have := code_acq acq; have := code_pair acq; have := off.isLt; simp only [wordM]; omega)
theorem Words.stB8 (s : VR) (a : VR) (rel : Option Scp) (off : BitVec 5) : Words.Statement (.stB8 s a rel off) := 
  words_one rfl (by have := s.isLt; have := a.isLt; have := code_rel rel; have := code_pair rel; have := off.isLt; simp only [wordM]; omega)
theorem Words.stB16 (s : VR) (a : VR) (rel : Option Scp) (off : BitVec 5) : Words.Statement (.stB16 s a rel off) := 
  words_one rfl (by have := s.isLt; have := a.isLt; have := code_rel rel; have := code_pair rel; have := off.isLt; simp only [wordM]; omega)
theorem Words.stB32 (s : VR) (a : VR) (rel : Option Scp) (off : BitVec 5) : Words.Statement (.stB32 s a rel off) := 
  words_one rfl (by have := s.isLt; have := a.isLt; have := code_rel rel; have := code_pair rel; have := off.isLt; simp only [wordM]; omega)
theorem Words.stB64 (s : VR) (a : VR) (rel : Option Scp) (off : BitVec 5) : Words.Statement (.stB64 s a rel off) := 
  words_one rfl (by have := s.isLt; have := a.isLt; have := code_rel rel; have := code_pair rel; have := off.isLt; simp only [wordM]; omega)
theorem Words.lduN64 (d : VR) (a : VR) (cc : CC) (acq : Option Scp) (off : BitVec 5) : Words.Statement (.lduN64 d a cc acq off) := 
  words_one rfl (by have := d.isLt; have := a.isLt; have := cc.isLt; have := code_acq acq; have := code_pair acq; have := off.isLt; simp only [wordM]; omega)
theorem Words.ldlit (d : VR) (cc : CC) (w64 : Bool) (lit : BitVec 32) : Words.Statement (.ldlit d cc w64 lit) := 
  words_two rfl (by have := d.isLt; have := cc.isLt; have := code_bit w64; have := lit.isLt; simp only [wordL]; omega)
    (by have := d.isLt; have := cc.isLt; have := code_bit w64; have := lit.isLt; omega)
theorem Words.ldv (d : VR) (a : VR) (w : WR) (cc : CC) (sx : Bool) : Words.Statement (.ldv d a w cc sx) := 
  words_one rfl (by have := d.isLt; have := a.isLt; have := w.isLt; have := cc.isLt; have := code_bit sx; simp only [wordA]; omega)
theorem Words.stv (s : VR) (a : VR) (w : WR) : Words.Statement (.stv s a w) := 
  words_one rfl (by have := s.isLt; have := a.isLt; have := w.isLt; simp only [wordA]; omega)
theorem Words.atomAdd (d : VR) (a : VR) (b : VR) (cc : CC) (ord : Ord) (scp : Scp) (ty : AT) : Words.Statement (.atomAdd d a b cc ord scp ty) := 
  words_two rfl (by have := d.isLt; have := a.isLt; have := b.isLt; have := cc.isLt; have := code_ord ord; have := code_scp scp; have := code_at ty; simp only [wordL]; omega)
    (by have := d.isLt; have := a.isLt; have := b.isLt; have := cc.isLt; have := code_ord ord; have := code_scp scp; have := code_at ty; simp only [wordAtom]; omega)
theorem Words.atomAnd (d : VR) (a : VR) (b : VR) (cc : CC) (ord : Ord) (scp : Scp) (ty : AT) : Words.Statement (.atomAnd d a b cc ord scp ty) := 
  words_two rfl (by have := d.isLt; have := a.isLt; have := b.isLt; have := cc.isLt; have := code_ord ord; have := code_scp scp; have := code_at ty; simp only [wordL]; omega)
    (by have := d.isLt; have := a.isLt; have := b.isLt; have := cc.isLt; have := code_ord ord; have := code_scp scp; have := code_at ty; simp only [wordAtom]; omega)
theorem Words.atomOr (d : VR) (a : VR) (b : VR) (cc : CC) (ord : Ord) (scp : Scp) (ty : AT) : Words.Statement (.atomOr d a b cc ord scp ty) := 
  words_two rfl (by have := d.isLt; have := a.isLt; have := b.isLt; have := cc.isLt; have := code_ord ord; have := code_scp scp; have := code_at ty; simp only [wordL]; omega)
    (by have := d.isLt; have := a.isLt; have := b.isLt; have := cc.isLt; have := code_ord ord; have := code_scp scp; have := code_at ty; simp only [wordAtom]; omega)
theorem Words.atomXor (d : VR) (a : VR) (b : VR) (cc : CC) (ord : Ord) (scp : Scp) (ty : AT) : Words.Statement (.atomXor d a b cc ord scp ty) := 
  words_two rfl (by have := d.isLt; have := a.isLt; have := b.isLt; have := cc.isLt; have := code_ord ord; have := code_scp scp; have := code_at ty; simp only [wordL]; omega)
    (by have := d.isLt; have := a.isLt; have := b.isLt; have := cc.isLt; have := code_ord ord; have := code_scp scp; have := code_at ty; simp only [wordAtom]; omega)
theorem Words.atomMin (d : VR) (a : VR) (b : VR) (cc : CC) (ord : Ord) (scp : Scp) (ty : AT) : Words.Statement (.atomMin d a b cc ord scp ty) := 
  words_two rfl (by have := d.isLt; have := a.isLt; have := b.isLt; have := cc.isLt; have := code_ord ord; have := code_scp scp; have := code_at ty; simp only [wordL]; omega)
    (by have := d.isLt; have := a.isLt; have := b.isLt; have := cc.isLt; have := code_ord ord; have := code_scp scp; have := code_at ty; simp only [wordAtom]; omega)
theorem Words.atomMax (d : VR) (a : VR) (b : VR) (cc : CC) (ord : Ord) (scp : Scp) (ty : AT) : Words.Statement (.atomMax d a b cc ord scp ty) := 
  words_two rfl (by have := d.isLt; have := a.isLt; have := b.isLt; have := cc.isLt; have := code_ord ord; have := code_scp scp; have := code_at ty; simp only [wordL]; omega)
    (by have := d.isLt; have := a.isLt; have := b.isLt; have := cc.isLt; have := code_ord ord; have := code_scp scp; have := code_at ty; simp only [wordAtom]; omega)
theorem Words.atomExch (d : VR) (a : VR) (b : VR) (cc : CC) (ord : Ord) (scp : Scp) (ty : AT) : Words.Statement (.atomExch d a b cc ord scp ty) := 
  words_two rfl (by have := d.isLt; have := a.isLt; have := b.isLt; have := cc.isLt; have := code_ord ord; have := code_scp scp; have := code_at ty; simp only [wordL]; omega)
    (by have := d.isLt; have := a.isLt; have := b.isLt; have := cc.isLt; have := code_ord ord; have := code_scp scp; have := code_at ty; simp only [wordAtom]; omega)
theorem Words.atomCas (d : VR) (a : VR) (b : VR) (c : VR) (cc : CC) (ord : Ord) (scp : Scp) (ty : AT) : Words.Statement (.atomCas d a b c cc ord scp ty) := 
  words_two rfl (by have := d.isLt; have := a.isLt; have := b.isLt; have := c.isLt; have := cc.isLt; have := code_ord ord; have := code_scp scp; have := code_at ty; simp only [wordL]; omega)
    (by have := d.isLt; have := a.isLt; have := b.isLt; have := c.isLt; have := cc.isLt; have := code_ord ord; have := code_scp scp; have := code_at ty; simp only [wordAtom]; omega)
theorem Words.atomFadd (d : VR) (a : VR) (b : VR) (cc : CC) (ord : Ord) (scp : Scp) (ty : AT) : Words.Statement (.atomFadd d a b cc ord scp ty) := 
  words_two rfl (by have := d.isLt; have := a.isLt; have := b.isLt; have := cc.isLt; have := code_ord ord; have := code_scp scp; have := code_at ty; simp only [wordL]; omega)
    (by have := d.isLt; have := a.isLt; have := b.isLt; have := cc.isLt; have := code_ord ord; have := code_scp scp; have := code_at ty; simp only [wordAtom]; omega)
theorem Words.atomnAdd (a : VR) (b : VR) (ord : Ord) (scp : Scp) (ty : AT) : Words.Statement (.atomnAdd a b ord scp ty) := 
  words_two rfl (by have := a.isLt; have := b.isLt; have := code_ord ord; have := code_scp scp; have := code_at ty; simp only [wordL]; omega)
    (by have := a.isLt; have := b.isLt; have := code_ord ord; have := code_scp scp; have := code_at ty; simp only [wordAtom]; omega)
theorem Words.atomnAnd (a : VR) (b : VR) (ord : Ord) (scp : Scp) (ty : AT) : Words.Statement (.atomnAnd a b ord scp ty) := 
  words_two rfl (by have := a.isLt; have := b.isLt; have := code_ord ord; have := code_scp scp; have := code_at ty; simp only [wordL]; omega)
    (by have := a.isLt; have := b.isLt; have := code_ord ord; have := code_scp scp; have := code_at ty; simp only [wordAtom]; omega)
theorem Words.atomnOr (a : VR) (b : VR) (ord : Ord) (scp : Scp) (ty : AT) : Words.Statement (.atomnOr a b ord scp ty) := 
  words_two rfl (by have := a.isLt; have := b.isLt; have := code_ord ord; have := code_scp scp; have := code_at ty; simp only [wordL]; omega)
    (by have := a.isLt; have := b.isLt; have := code_ord ord; have := code_scp scp; have := code_at ty; simp only [wordAtom]; omega)
theorem Words.atomnXor (a : VR) (b : VR) (ord : Ord) (scp : Scp) (ty : AT) : Words.Statement (.atomnXor a b ord scp ty) := 
  words_two rfl (by have := a.isLt; have := b.isLt; have := code_ord ord; have := code_scp scp; have := code_at ty; simp only [wordL]; omega)
    (by have := a.isLt; have := b.isLt; have := code_ord ord; have := code_scp scp; have := code_at ty; simp only [wordAtom]; omega)
theorem Words.atomnMin (a : VR) (b : VR) (ord : Ord) (scp : Scp) (ty : AT) : Words.Statement (.atomnMin a b ord scp ty) := 
  words_two rfl (by have := a.isLt; have := b.isLt; have := code_ord ord; have := code_scp scp; have := code_at ty; simp only [wordL]; omega)
    (by have := a.isLt; have := b.isLt; have := code_ord ord; have := code_scp scp; have := code_at ty; simp only [wordAtom]; omega)
theorem Words.atomnMax (a : VR) (b : VR) (ord : Ord) (scp : Scp) (ty : AT) : Words.Statement (.atomnMax a b ord scp ty) := 
  words_two rfl (by have := a.isLt; have := b.isLt; have := code_ord ord; have := code_scp scp; have := code_at ty; simp only [wordL]; omega)
    (by have := a.isLt; have := b.isLt; have := code_ord ord; have := code_scp scp; have := code_at ty; simp only [wordAtom]; omega)
theorem Words.atomnFadd (a : VR) (b : VR) (ord : Ord) (scp : Scp) (ty : AT) : Words.Statement (.atomnFadd a b ord scp ty) := 
  words_two rfl (by have := a.isLt; have := b.isLt; have := code_ord ord; have := code_scp scp; have := code_at ty; simp only [wordL]; omega)
    (by have := a.isLt; have := b.isLt; have := code_ord ord; have := code_scp scp; have := code_at ty; simp only [wordAtom]; omega)
theorem Words.waitv (r : WRel) (a : VR) (b : VR) (acq : Option Scp) (w64 : Bool) : Words.Statement (.waitv r a b acq w64) := 
  words_two rfl (by have := code_wrel r; have := a.isLt; have := b.isLt; have := code_acq acq; have := code_pair acq; have := code_bit w64; simp only [wordL]; omega)
    (by have := code_wrel r; have := a.isLt; have := b.isLt; have := code_acq acq; have := code_pair acq; have := code_bit w64; simp only [wordAtom]; omega)
theorem Words.stspill (d : VR) (a : VR) : Words.Statement (.stspill d a) := 
  words_one rfl (by have := d.isLt; have := a.isLt; simp only [wordA]; omega)
theorem Words.ldspill (d : VR) (a : VR) : Words.Statement (.ldspill d a) := 
  words_one rfl (by have := d.isLt; have := a.isLt; simp only [wordA]; omega)
theorem Words.br (tgt : BitVec 19) : Words.Statement (.br tgt) := 
  words_one rfl (by have := tgt.isLt; simp only [wordJ]; omega)
theorem Words.brNz (k : BitVec 3) (tgt : BitVec 19) : Words.Statement (.brNz k tgt) := 
  words_one rfl (by have := k.isLt; have := tgt.isLt; simp only [wordJ]; omega)
theorem Words.brZ (k : BitVec 3) (tgt : BitVec 19) : Words.Statement (.brZ k tgt) := 
  words_one rfl (by have := k.isLt; have := tgt.isLt; simp only [wordJ]; omega)
theorem Words.brcAny (k : KR) (tgt : BitVec 19) : Words.Statement (.brcAny k tgt) := 
  words_one rfl (by have := k.isLt; have := tgt.isLt; simp only [wordJ]; omega)
theorem Words.brcAll (k : KR) (tgt : BitVec 19) : Words.Statement (.brcAll k tgt) := 
  words_one rfl (by have := k.isLt; have := tgt.isLt; simp only [wordJ]; omega)
theorem Words.brcNone (k : KR) (tgt : BitVec 19) : Words.Statement (.brcNone k tgt) := 
  words_one rfl (by have := k.isLt; have := tgt.isLt; simp only [wordJ]; omega)
theorem Words.brz (tgt : BitVec 19) : Words.Statement (.brz tgt) := 
  words_one rfl (by have := tgt.isLt; simp only [wordJ]; omega)
theorem Words.call (tgt : BitVec 19) : Words.Statement (.call tgt) := 
  words_one rfl (by have := tgt.isLt; simp only [wordJ]; omega)
theorem Words.ret : Words.Statement (.ret) := 
  words_one rfl (by decide)
theorem Words.jmpi (a : VR) : Words.Statement (.jmpi a) := 
  words_one rfl (by have := a.isLt; simp only [wordA]; omega)
theorem Words.regang : Words.Statement (.regang) := 
  words_one rfl (by decide)
theorem Words.yield : Words.Statement (.yield) := 
  words_one rfl (by decide)
theorem Words.exit : Words.Statement (.exit) := 
  words_one rfl (by decide)
theorem Words.nop : Words.Statement (.nop) := 
  words_one rfl (by decide)
theorem Words.bar (id : BitVec 4) : Words.Statement (.bar id) := 
  words_one rfl (by have := id.isLt; simp only [wordS]; omega)
theorem Words.arriveTeam (id : BitVec 4) : Words.Statement (.arriveTeam id) := 
  words_one rfl (by have := id.isLt; simp only [wordS]; omega)
theorem Words.arriveClu (id : BitVec 4) : Words.Statement (.arriveClu id) := 
  words_one rfl (by have := id.isLt; simp only [wordS]; omega)
theorem Words.waitbTeam (id : BitVec 4) : Words.Statement (.waitbTeam id) := 
  words_one rfl (by have := id.isLt; simp only [wordS]; omega)
theorem Words.waitbClu (id : BitVec 4) : Words.Statement (.waitbClu id) := 
  words_one rfl (by have := id.isLt; simp only [wordS]; omega)
theorem Words.waitf (flg : BitVec 12) : Words.Statement (.waitf flg) := 
  words_one rfl (by have := flg.isLt; simp only [wordS]; omega)
theorem Words.waitc (cls : Ctr) (thr : BitVec 6) : Words.Statement (.waitc cls thr) := 
  words_one rfl (by have := code_ctr cls; have := thr.isLt; simp only [wordS]; omega)
theorem Words.fence (ord : FOrd) (scp : Scp) : Words.Statement (.fence ord scp) := 
  words_one rfl (by have := code_ford ord; have := code_scp scp; simp only [wordS]; omega)
theorem Words.rfence : Words.Statement (.rfence) := 
  words_one rfl (by decide)
theorem Words.ifence : Words.Statement (.ifence) := 
  words_one rfl (by decide)
theorem Words.sigdec (a : VR) (scp : Scp) : Words.Statement (.sigdec a scp) := 
  words_one rfl (by have := a.isLt; have := code_scp scp; simp only [wordS]; omega)
theorem Words.trap (code : BitVec 16) : Words.Statement (.trap code) := 
  words_one rfl (by have := code.isLt; simp only [wordS]; omega)
theorem Words.tret : Words.Statement (.tret) := 
  words_one rfl (by decide)
theorem Words.bkpt (code : BitVec 16) : Words.Statement (.bkpt code) := 
  words_one rfl (by have := code.isLt; simp only [wordS]; omega)
theorem Words.trmark (a : VR) (id : BitVec 8) : Words.Statement (.trmark a id) := 
  words_one rfl (by have := a.isLt; have := id.isLt; simp only [wordS]; omega)
theorem Words.rdsr (d : VR) (n : BitVec 6) (cc : CC) : Words.Statement (.rdsr d n cc) := 
  words_one rfl (by have := d.isLt; have := n.isLt; have := cc.isLt; simp only [wordS]; omega)
theorem Words.wrsr (s : VR) (n : BitVec 6) : Words.Statement (.wrsr s n) := 
  words_one rfl (by have := s.isLt; have := n.isLt; simp only [wordS]; omega)
theorem Words.grow (n : BitVec 3) : Words.Statement (.grow n) := 
  words_one rfl (by have := n.isLt; simp only [wordS]; omega)
theorem Words.shrink (n : BitVec 3) : Words.Statement (.shrink n) := 
  words_one rfl (by have := n.isLt; simp only [wordS]; omega)
theorem Words.enq (d : VR) (a : VR) (cc : CC) : Words.Statement (.enq d a cc) := 
  words_one rfl (by have := d.isLt; have := a.isLt; have := cc.isLt; simp only [wordL]; omega)
theorem Words.tlbi (a : VR) (all : Bool) : Words.Statement (.tlbi a all) := 
  words_one rfl (by have := a.isLt; have := code_bit all; simp only [wordS]; omega)
theorem Words.tlbsync : Words.Statement (.tlbsync) := 
  words_one rfl (by decide)
theorem Words.poolget (d : VR) (cc : CC) : Words.Statement (.poolget d cc) := 
  words_one rfl (by have := d.isLt; have := cc.isLt; simp only [wordL]; omega)
theorem Words.setratel (a : VR) : Words.Statement (.setratel a) := 
  words_one rfl (by have := a.isLt; simp only [wordL]; omega)
theorem Words.rdcost (d : VR) (a : VR) (cc : CC) : Words.Statement (.rdcost d a cc) := 
  words_one rfl (by have := d.isLt; have := a.isLt; have := cc.isLt; simp only [wordL]; omega)
theorem Words.mma (a : VR) (b : VR) (t : TR) (z : Bool) (mq : BitVec 4) (ks : BitVec 8) (p : BitVec 2) (pl : BitVec 5) (sc : Bool) (sa : VR) (sb : VR) : Words.Statement (.mma a b t z mq ks p pl sc sa sb) := 
  words_two rfl (by have := a.isLt; have := b.isLt; have := t.isLt; have := code_bit z; have := mq.isLt; have := ks.isLt; have := p.isLt; have := pl.isLt; have := code_bit sc; have := sa.isLt; have := sb.isLt; simp only [wordMma]; omega)
    (by have := a.isLt; have := b.isLt; have := t.isLt; have := code_bit z; have := mq.isLt; have := ks.isLt; have := p.isLt; have := pl.isLt; have := code_bit sc; have := sa.isLt; have := sb.isLt; simp only [wordMma2]; omega)
theorem Words.mmag (a : VR) (b : VR) (t : TR) (z : Bool) (mq : BitVec 4) (ks : BitVec 8) (p : BitVec 2) (pl : BitVec 5) (x : VR) : Words.Statement (.mmag a b t z mq ks p pl x) := 
  words_two rfl (by have := a.isLt; have := b.isLt; have := t.isLt; have := code_bit z; have := mq.isLt; have := ks.isLt; have := p.isLt; have := pl.isLt; have := x.isLt; simp only [wordMma]; omega)
    (by have := a.isLt; have := b.isLt; have := t.isLt; have := code_bit z; have := mq.isLt; have := ks.isLt; have := p.isLt; have := pl.isLt; have := x.isLt; simp only [wordMma2]; omega)
theorem Words.mms (d : VR) (a : VR) (b : VR) (cc : CC) (eng : Eng) (fmt : CT) (m : BitVec 3) (n : BitVec 3) (k : BitVec 3) : Words.Statement (.mms d a b cc eng fmt m n k) := 
  words_two rfl (by have := d.isLt; have := a.isLt; have := b.isLt; have := cc.isLt; have := code_eng eng; have := code_ct fmt; have := m.isLt; have := n.isLt; have := k.isLt; simp only [wordL]; omega)
    (by have := d.isLt; have := a.isLt; have := b.isLt; have := cc.isLt; have := code_eng eng; have := code_ct fmt; have := m.isLt; have := n.isLt; have := k.isLt; omega)
theorem Words.mzero (t : TR) : Words.Statement (.mzero t) := 
  words_two rfl (by have := t.isLt; simp only [wordS]; omega)
    (by decide)
theorem Words.mlda (a : VR) (t : TR) (roff : BitVec 7) (coff : BitVec 8) : Words.Statement (.mlda a t roff coff) := 
  words_two rfl (by have := a.isLt; have := t.isLt; have := roff.isLt; have := coff.isLt; simp only [wordS]; omega)
    (by have := a.isLt; have := t.isLt; have := roff.isLt; have := coff.isLt; omega)
theorem Words.msta (a : VR) (t : TR) (roff : BitVec 7) (coff : BitVec 8) (sat : Bool) : Words.Statement (.msta a t roff coff sat) := 
  words_two rfl (by have := a.isLt; have := t.isLt; have := roff.isLt; have := coff.isLt; have := code_bit sat; simp only [wordS]; omega)
    (by have := a.isLt; have := t.isLt; have := roff.isLt; have := coff.isLt; have := code_bit sat; omega)
theorem Words.mrow (d : VR) (cc : CC) (t : TR) (row : BitVec 7) (col : BitVec 8) : Words.Statement (.mrow d cc t row col) := 
  words_two rfl (by have := d.isLt; have := cc.isLt; have := t.isLt; have := row.isLt; have := col.isLt; simp only [wordS]; omega)
    (by have := d.isLt; have := cc.isLt; have := t.isLt; have := row.isLt; have := col.isLt; omega)
theorem Words.mfence : Words.Statement (.mfence) := 
  words_two rfl (by decide)
    (by decide)
theorem Words.copy (a : VR) (b : VR) (dv : Bool) (sat : Bool) (rm : RM) : Words.Statement (.copy a b dv sat rm) := 
  words_two rfl (by have := a.isLt; have := b.isLt; have := code_bit dv; have := code_bit sat; have := code_rm rm; simp only [wordS]; omega)
    (by have := a.isLt; have := b.isLt; have := code_bit dv; have := code_bit sat; have := code_rm rm; omega)
theorem Words.copyg (a : VR) (b : VR) (x : VR) (sat : Bool) (rm : RM) : Words.Statement (.copyg a b x sat rm) := 
  words_two rfl (by have := a.isLt; have := b.isLt; have := x.isLt; have := code_bit sat; have := code_rm rm; simp only [wordS]; omega)
    (by have := a.isLt; have := b.isLt; have := x.isLt; have := code_bit sat; have := code_rm rm; omega)
theorem Words.ccolAllreduce (a : VR) (b : VR) (d : VR) (red : Red) : Words.Statement (.ccolAllreduce a b d red) := 
  words_two rfl (by have := a.isLt; have := b.isLt; have := d.isLt; have := code_red red; simp only [wordS]; omega)
    (by have := a.isLt; have := b.isLt; have := d.isLt; have := code_red red; simp only [wordCcol2]; omega)
theorem Words.ccolRedscat (a : VR) (b : VR) (d : VR) (red : Red) : Words.Statement (.ccolRedscat a b d red) := 
  words_two rfl (by have := a.isLt; have := b.isLt; have := d.isLt; have := code_red red; simp only [wordS]; omega)
    (by have := a.isLt; have := b.isLt; have := d.isLt; have := code_red red; simp only [wordCcol2]; omega)
theorem Words.ccolAllgather (a : VR) (b : VR) (d : VR) : Words.Statement (.ccolAllgather a b d) := 
  words_two rfl (by have := a.isLt; have := b.isLt; have := d.isLt; simp only [wordS]; omega)
    (by have := a.isLt; have := b.isLt; have := d.isLt; simp only [wordCcol2]; omega)
theorem Words.ccolBcast (a : VR) (b : VR) (d : VR) : Words.Statement (.ccolBcast a b d) := 
  words_two rfl (by have := a.isLt; have := b.isLt; have := d.isLt; simp only [wordS]; omega)
    (by have := a.isLt; have := b.isLt; have := d.isLt; simp only [wordCcol2]; omega)
theorem Words.ccolAlltoall (a : VR) (b : VR) (d : VR) : Words.Statement (.ccolAlltoall a b d) := 
  words_two rfl (by have := a.isLt; have := b.isLt; have := d.isLt; simp only [wordS]; omega)
    (by have := a.isLt; have := b.isLt; have := d.isLt; simp only [wordCcol2]; omega)
theorem Words.vopen (w : WR) (a : VR) : Words.Statement (.vopen w a) := 
  words_two rfl (by have := w.isLt; have := a.isLt; simp only [wordS]; omega)
    (by decide)
theorem Words.vretire (w : WR) : Words.Statement (.vretire w) := 
  words_two rfl (by have := w.isLt; simp only [wordS]; omega)
    (by decide)
theorem Words.vinfo (d : VR) (w : WR) (cc : CC) (fld : BitVec 3) : Words.Statement (.vinfo d w cc fld) := 
  words_two rfl (by have := d.isLt; have := w.isLt; have := cc.isLt; have := fld.isLt; simp only [wordS]; omega)
    (by have := d.isLt; have := w.isLt; have := cc.isLt; have := fld.isLt; omega)
theorem Words.vaddr (d : VR) (a : VR) (w : WR) (cc : CC) : Words.Statement (.vaddr d a w cc) := 
  words_two rfl (by have := d.isLt; have := a.isLt; have := w.isLt; have := cc.isLt; simp only [wordL]; omega)
    (by have := d.isLt; have := a.isLt; have := w.isLt; have := cc.isLt; omega)
theorem Words.stcov (s : VR) : Words.Statement (.stcov s) := 
  words_two rfl (by have := s.isLt; simp only [wordS]; omega)
    (by decide)
theorem Words.cvstat (d : VR) (cc : CC) (fld : BitVec 3) : Words.Statement (.cvstat d cc fld) := 
  words_two rfl (by have := d.isLt; have := cc.isLt; have := fld.isLt; simp only [wordS]; omega)
    (by have := d.isLt; have := cc.isLt; have := fld.isLt; omega)
theorem Words.toolx (idx : BitVec 25) : Words.Statement (.toolx idx) := 
  words_one rfl (by have := idx.isLt; simp only [wordT]; omega)
theorem Words.trampret : Words.Statement (.trampret) := 
  words_one rfl (by decide)
theorem Words.tramp (idx : BitVec 25) : Words.Statement (.tramp idx) := 
  words_one rfl (by have := idx.isLt; simp only [wordT]; omega)
theorem Words.unitBoundary : Words.Statement (.unitBoundary) := words_none rfl
theorem Words.regangMerge (g : Nat) : Words.Statement (.regangMerge g) := words_none rfl
theorem Words.trapEntry (g : Nat) (p : Nat) : Words.Statement (.trapEntry g p) := words_none rfl
theorem Words.heldTrapEntry (g : Nat) : Words.Statement (.heldTrapEntry g) := words_none rfl
theorem Words.memOpComplete (g : Nat) (op : Nat) : Words.Statement (.memOpComplete g op) := words_none rfl
theorem Words.absentLineResume (g : Nat) (p : Nat) : Words.Statement (.absentLineResume g p) := words_none rfl
theorem Words.waitvRecheck (g : Nat) (p : Nat) : Words.Statement (.waitvRecheck g p) := words_none rfl
theorem Words.barrierGenerationComplete (clu : Bool) (team : Nat) (id : BitVec 4) : Words.Statement (.barrierGenerationComplete clu team id) := words_none rfl
theorem Words.watchdog (g : Nat) (p : Nat) : Words.Statement (.watchdog g p) := words_none rfl
theorem Words.teamPlacement (launch : Nat) : Words.Statement (.teamPlacement launch) := words_none rfl
theorem Words.headAged (launch : Nat) : Words.Statement (.headAged launch) := words_none rfl
theorem Words.dependentTeamDispatch (launch : Nat) : Words.Statement (.dependentTeamDispatch launch) := words_none rfl
theorem Words.teamEnd (team : Nat) : Words.Statement (.teamEnd team) := words_none rfl
theorem Words.preemptRequest (team : Nat) : Words.Statement (.preemptRequest team) := words_none rfl
theorem Words.preemptSave (team : Nat) : Words.Statement (.preemptSave team) := words_none rfl
theorem Words.preemptWithdraw (team : Nat) : Words.Statement (.preemptWithdraw team) := words_none rfl
theorem Words.teamResume (team : Nat) : Words.Statement (.teamResume team) := words_none rfl
theorem Words.queuePoll (q : Nat) : Words.Statement (.queuePoll q) := words_none rfl
theorem Words.ticketClaim : Words.Statement (.ticketClaim) := words_none rfl
theorem Words.launchPacket (q : Nat) (idx : Nat) : Words.Statement (.launchPacket q idx) := words_none rfl
theorem Words.barrierPacket (q : Nat) (idx : Nat) : Words.Statement (.barrierPacket q idx) := words_none rfl
theorem Words.signalPacket (q : Nat) (idx : Nat) : Words.Statement (.signalPacket q idx) := words_none rfl
theorem Words.indirectPacket (q : Nat) (idx : Nat) : Words.Statement (.indirectPacket q idx) := words_none rfl
theorem Words.predicatePacket (q : Nat) (idx : Nat) : Words.Statement (.predicatePacket q idx) := words_none rfl
theorem Words.loopPacket (q : Nat) (idx : Nat) : Words.Statement (.loopPacket q idx) := words_none rfl
theorem Words.fetchFencePacket (q : Nat) (idx : Nat) : Words.Statement (.fetchFencePacket q idx) := words_none rfl
theorem Words.packetComplete (q : Nat) (idx : Nat) : Words.Statement (.packetComplete q idx) := words_none rfl
theorem Words.matrixBatchComplete (g : Nat) : Words.Statement (.matrixBatchComplete g) := words_none rfl
theorem Words.copyComplete (g : Nat) (op : Nat) : Words.Statement (.copyComplete g op) := words_none rfl
theorem Words.engineTransferFault (g : Nat) (op : Nat) : Words.Statement (.engineTransferFault g op) := words_none rfl
theorem Words.ccolComplete (g : Nat) (op : Nat) : Words.Statement (.ccolComplete g op) := words_none rfl
theorem Words.stcovPerform (g : Nat) (op : Nat) : Words.Statement (.stcovPerform g op) := words_none rfl
theorem Words.trellisGrant (g : Nat) (op : Nat) : Words.Statement (.trellisGrant g op) := words_none rfl
theorem Words.vopenReexecute (g : Nat) (p : Nat) : Words.Statement (.vopenReexecute g p) := words_none rfl
theorem Words.gleanerReconstruct (launch : Nat) (block : Nat) : Words.Statement (.gleanerReconstruct launch block) := words_none rfl
theorem Words.rateTick (pmw : Nat) : Words.Statement (.rateTick pmw) := words_none rfl
theorem Words.clockStretch (dom current : Nat) : Words.Statement (.clockStretch dom current) := words_none rfl
theorem Words.opDecision (core : Nat) (active : Nat) (memWait : Nat) : Words.Statement (.opDecision core active memWait) := words_none rfl
theorem Words.opMoveComplete (core : Nat) : Words.Statement (.opMoveComplete core) := words_none rfl
theorem Words.regulatorLimitMove (core : Nat) (highest : Option (BitVec 3)) : Words.Statement (.regulatorLimitMove core highest) := words_none rfl
theorem Words.laneDecision (port : Nat) (bytes : Nat) : Words.Statement (.laneDecision port bytes) := words_none rfl
theorem Words.migrationDecision (ten : Nat) (page : Nat) (dst : Nat) (gainT : Nat) (gainE : Nat) (costT : Nat) (costE : Nat) : Words.Statement (.migrationDecision ten page dst gainT gainE costT costE) := words_none rfl
theorem Words.pageMigration (move : Nat) : Words.Statement (.pageMigration move) := words_none rfl
theorem Words.migrationAck (ten : Nat) : Words.Statement (.migrationAck ten) := words_none rfl
theorem Words.poolRefill (ten : Nat) (pages : List (BitVec 64)) : Words.Statement (.poolRefill ten pages) := words_none rfl
theorem Words.stage2FaultResolve (g : Nat) (p : Nat) (ans : S2Answer) : Words.Statement (.stage2FaultResolve g p ans) := words_none rfl
theorem Words.tenancyReset (m : Mgmt) (ten : Nat) : Words.Statement (.tenancyReset m ten) := words_none rfl
theorem Words.tenancyFreeze (m : Mgmt) (ten target : Nat) : Words.Statement (.tenancyFreeze m ten target) := words_none rfl
theorem Words.logReplay (ten : Nat) (log : List Frame) : Words.Statement (.logReplay ten log) := words_none rfl
theorem Words.errorDetected (e : ErrInfo) : Words.Statement (.errorDetected e) := words_none rfl
theorem Words.scrubRow (stack : Nat) (row : Nat) (fixed : List Nat) (bad : List Nat) : Words.Statement (.scrubRow stack row fixed bad) := words_none rfl
theorem Words.linkFlitResend (link : Nat) (d2d : Bool) : Words.Statement (.linkFlitResend link d2d) := words_none rfl
theorem Words.d2dLinkFailure (link : Nat) : Words.Statement (.d2dLinkFailure link) := words_none rfl
theorem Words.ccolChunkResend (ten : Nat) (cid : Word) (seq rank start port : Nat) :
    Words.Statement (.ccolChunkResend ten cid seq rank start port) := words_none rfl
theorem Words.coreLoss (core : Nat) : Words.Statement (.coreLoss core) := words_none rfl
theorem Words.regulatorPhaseFailure (dom : Nat) : Words.Statement (.regulatorPhaseFailure dom) := words_none rfl
theorem Words.warmReset : Words.Statement (.warmReset) := words_none rfl
theorem Words.coldBoot (img : BootImage) : Words.Statement (.coldBoot img) := words_none rfl
theorem Words.port0Training : Words.Statement (.port0Training) := words_none rfl
theorem Words.frameRead (f : Frame) : Words.Statement (.frameRead f) := words_none rfl
theorem Words.frameWrite (f : Frame) : Words.Statement (.frameWrite f) := words_none rfl
theorem Words.frameAtomic (f : Frame) : Words.Statement (.frameAtomic f) := words_none rfl
theorem Words.frameResp (f : Frame) : Words.Statement (.frameResp f) := words_none rfl
theorem Words.frameNote (f : Frame) : Words.Statement (.frameNote f) := words_none rfl
theorem Words.frameCcol (f : Frame) : Words.Statement (.frameCcol f) := words_none rfl
theorem Words.mgmtRegRead (m : Mgmt) (addr : BitVec 64) : Words.Statement (.mgmtRegRead m addr) := words_none rfl
theorem Words.mgmtRegWrite (m : Mgmt) (addr val : BitVec 64) : Words.Statement (.mgmtRegWrite m addr val) := words_none rfl
theorem Words.mgmtMemWrite (m : Mgmt) (addr : BitVec 64) (data : List Byte) : Words.Statement (.mgmtMemWrite m addr data) := words_none rfl
theorem Words.createQueue (m : Mgmt) (q : QueueDesc) : Words.Statement (.createQueue m q) := words_none rfl
theorem Words.restartq (m : Mgmt) (qnum : Nat) (mode : RestartMode) (rd : Nat) : Words.Statement (.restartq m qnum mode rd) := words_none rfl
theorem Words.loadKey (m : Mgmt) (ten : Nat) (key : BitVec 256) : Words.Statement (.loadKey m ten key) := words_none rfl
theorem Words.registerPeer (m : Mgmt) (ten part peer : Nat) : Words.Statement (.registerPeer m ten part peer) := words_none rfl
theorem Words.registerCommunicator (m : Mgmt) (ten cid nrank : Nat) : Words.Statement (.registerCommunicator m ten cid nrank) := words_none rfl
theorem Words.publishCosts (m : Mgmt) : Words.Statement (.publishCosts m) := words_none rfl
theorem Words.dumpRequest (m : Mgmt) (team : Nat) (pa : BitVec 64) : Words.Statement (.dumpRequest m team pa) := words_none rfl
theorem Words.wbrset (m : Mgmt) (val : BitVec 32) : Words.Statement (.wbrset m val) := words_none rfl
theorem Words.debugStop (m : Mgmt) (core : Nat) (slot : Nat) (path : Nat) : Words.Statement (.debugStop m core slot path) := words_none rfl
theorem Words.debugResume (m : Mgmt) (core : Nat) (slot : Nat) (path : Nat) : Words.Statement (.debugResume m core slot path) := words_none rfl
theorem Words.debugStep (m : Mgmt) (core : Nat) (slot : Nat) (path : Nat) : Words.Statement (.debugStep m core slot path) := words_none rfl
theorem Words.traceSyncPoint (core : Nat) : Words.Statement (.traceSyncPoint core) := words_none rfl
theorem Words.traceLossWrite (core : Nat) : Words.Statement (.traceLossWrite core) := words_none rfl
theorem Words.stallSample (core : Nat) : Words.Statement (.stallSample core) := words_none rfl
theorem Words.notificationSend (ten : Nat) : Words.Statement (.notificationSend ten) := words_none rfl
theorem Words.matrixOperationComplete (g : Nat) (op : Nat) : Words.Statement (.matrixOperationComplete g op) := words_none rfl
theorem Words.clockStretchEnd (dom current : Nat) : Words.Statement (.clockStretchEnd dom current) := words_none rfl
theorem Words.laneChangeComplete (port : Nat) : Words.Statement (.laneChangeComplete port) := words_none rfl
theorem Words.transportLossReport (tag : BitVec 32) : Words.Statement (.transportLossReport tag) := words_none rfl

end Sys2Proof.Laws
end

