-- ==== Sys2Proof/Laws/State.lean ====
section
/-! SUPPORT. What the plain updates of the state leave in each field. -/

namespace Sys2Proof.Machine

/-! ### putGroup -/

@[simp] theorem putGroup_groups (s : State) (k : Nat) (g : Group) : (putGroup s k g).groups = tput s.groups k g := rfl
@[simp] theorem putGroup_teams (s : State) (k : Nat) (g : Group) : (putGroup s k g).teams = s.teams := rfl
@[simp] theorem putGroup_clusters (s : State) (k : Nat) (g : Group) : (putGroup s k g).clusters = s.clusters := rfl
@[simp] theorem putGroup_launches (s : State) (k : Nat) (g : Group) : (putGroup s k g).launches = s.launches := rfl
@[simp] theorem putGroup_trees (s : State) (k : Nat) (g : Group) : (putGroup s k g).trees = s.trees := rfl
@[simp] theorem putGroup_queues (s : State) (k : Nat) (g : Group) : (putGroup s k g).queues = s.queues := rfl
@[simp] theorem putGroup_tickets (s : State) (k : Nat) (g : Group) : (putGroup s k g).tickets = s.tickets := rfl
@[simp] theorem putGroup_claimed (s : State) (k : Nat) (g : Group) : (putGroup s k g).claimed = s.claimed := rfl
@[simp] theorem putGroup_mem (s : State) (k : Nat) (g : Group) : (putGroup s k g).mem = s.mem := rfl
@[simp] theorem putGroup_poison (s : State) (k : Nat) (g : Group) : (putGroup s k g).poison = s.poison := rfl
@[simp] theorem putGroup_absent (s : State) (k : Nat) (g : Group) : (putGroup s k g).absent = s.absent := rfl
@[simp] theorem putGroup_owner (s : State) (k : Nat) (g : Group) : (putGroup s k g).owner = s.owner := rfl
@[simp] theorem putGroup_unitKey (s : State) (k : Nat) (g : Group) : (putGroup s k g).unitKey = s.unitKey := rfl
@[simp] theorem putGroup_rcache (s : State) (k : Nat) (g : Group) : (putGroup s k g).rcache = s.rcache := rfl
@[simp] theorem putGroup_icache (s : State) (k : Nat) (g : Group) : (putGroup s k g).icache = s.icache := rfl
@[simp] theorem putGroup_tlb (s : State) (k : Nat) (g : Group) : (putGroup s k g).tlb = s.tlb := rfl
@[simp] theorem putGroup_nonleafs (s : State) (k : Nat) (g : Group) : (putGroup s k g).nonleafs = s.nonleafs := rfl
@[simp] theorem putGroup_s2held (s : State) (k : Nat) (g : Group) : (putGroup s k g).s2held = s.s2held := rfl
@[simp] theorem putGroup_tlbis (s : State) (k : Nat) (g : Group) : (putGroup s k g).tlbis = s.tlbis := rfl
@[simp] theorem putGroup_heat (s : State) (k : Nat) (g : Group) : (putGroup s k g).heat = s.heat := rfl
@[simp] theorem putGroup_moves (s : State) (k : Nat) (g : Group) : (putGroup s k g).moves = s.moves := rfl
@[simp] theorem putGroup_trellis (s : State) (k : Nat) (g : Group) : (putGroup s k g).trellis = s.trellis := rfl
@[simp] theorem putGroup_s2faults (s : State) (k : Nat) (g : Group) : (putGroup s k g).s2faults = s.s2faults := rfl
@[simp] theorem putGroup_comms (s : State) (k : Nat) (g : Group) : (putGroup s k g).comms = s.comms := rfl
@[simp] theorem putGroup_calls (s : State) (k : Nat) (g : Group) : (putGroup s k g).calls = s.calls := rfl
@[simp] theorem putGroup_rwaits (s : State) (k : Nat) (g : Group) : (putGroup s k g).rwaits = s.rwaits := rfl
@[simp] theorem putGroup_time (s : State) (k : Nat) (g : Group) : (putGroup s k g).time = s.time := rfl
@[simp] theorem putGroup_clk (s : State) (k : Nat) (g : Group) : (putGroup s k g).clk = s.clk := rfl
@[simp] theorem putGroup_pace (s : State) (k : Nat) (g : Group) : (putGroup s k g).pace = s.pace := rfl
@[simp] theorem putGroup_cpace (s : State) (k : Nat) (g : Group) : (putGroup s k g).cpace = s.cpace := rfl
@[simp] theorem putGroup_scheds (s : State) (k : Nat) (g : Group) : (putGroup s k g).scheds = s.scheds := rfl
@[simp] theorem putGroup_wb (s : State) (k : Nat) (g : Group) : (putGroup s k g).wb = s.wb := rfl
@[simp] theorem putGroup_cores (s : State) (k : Nat) (g : Group) : (putGroup s k g).cores = s.cores := rfl
@[simp] theorem putGroup_ports (s : State) (k : Nat) (g : Group) : (putGroup s k g).ports = s.ports := rfl
@[simp] theorem putGroup_domains (s : State) (k : Nat) (g : Group) : (putGroup s k g).domains = s.domains := rfl
@[simp] theorem putGroup_tcbs (s : State) (k : Nat) (g : Group) : (putGroup s k g).tcbs = s.tcbs := rfl
@[simp] theorem putGroup_peers (s : State) (k : Nat) (g : Group) : (putGroup s k g).peers = s.peers := rfl
@[simp] theorem putGroup_notes (s : State) (k : Nat) (g : Group) : (putGroup s k g).notes = s.notes := rfl
@[simp] theorem putGroup_prelim (s : State) (k : Nat) (g : Group) : (putGroup s k g).prelim = s.prelim := rfl
@[simp] theorem putGroup_agelim (s : State) (k : Nat) (g : Group) : (putGroup s k g).agelim = s.agelim := rfl
@[simp] theorem putGroup_errs (s : State) (k : Nat) (g : Group) : (putGroup s k g).errs = s.errs := rfl
@[simp] theorem putGroup_scrubs (s : State) (k : Nat) (g : Group) : (putGroup s k g).scrubs = s.scrubs := rfl
@[simp] theorem putGroup_repairs (s : State) (k : Nat) (g : Group) : (putGroup s k g).repairs = s.repairs := rfl
@[simp] theorem putGroup_stopped (s : State) (k : Nat) (g : Group) : (putGroup s k g).stopped = s.stopped := rfl
@[simp] theorem putGroup_doomed (s : State) (k : Nat) (g : Group) : (putGroup s k g).doomed = s.doomed := rfl
@[simp] theorem putGroup_resets (s : State) (k : Nat) (g : Group) : (putGroup s k g).resets = s.resets := rfl
@[simp] theorem putGroup_ready (s : State) (k : Nat) (g : Group) : (putGroup s k g).ready = s.ready := rfl
@[simp] theorem putGroup_bootst (s : State) (k : Nat) (g : Group) : (putGroup s k g).bootst = s.bootst := rfl
@[simp] theorem putGroup_caps (s : State) (k : Nat) (g : Group) : (putGroup s k g).caps = s.caps := rfl
@[simp] theorem putGroup_leaving (s : State) (k : Nat) (g : Group) : (putGroup s k g).leaving = s.leaving := rfl
@[simp] theorem putGroup_idkey (s : State) (k : Nat) (g : Group) : (putGroup s k g).idkey = s.idkey := rfl
@[simp] theorem putGroup_obs (s : State) (k : Nat) (g : Group) : (putGroup s k g).obs = s.obs := rfl
@[simp] theorem putGroup_dbarm (s : State) (k : Nat) (g : Group) : (putGroup s k g).dbarm = s.dbarm := rfl
@[simp] theorem putGroup_dumps (s : State) (k : Nat) (g : Group) : (putGroup s k g).dumps = s.dumps := rfl
@[simp] theorem putGroup_domidx (s : State) (k : Nat) (g : Group) : (putGroup s k g).domidx = s.domidx := rfl
@[simp] theorem putGroup_routes (s : State) (k : Nat) (g : Group) : (putGroup s k g).routes = s.routes := rfl
@[simp] theorem putGroup_mgmtEp (s : State) (k : Nat) (g : Group) : (putGroup s k g).mgmtEp = s.mgmtEp := rfl
@[simp] theorem putGroup_held (s : State) (k : Nat) (g : Group) : (putGroup s k g).held = s.held := rfl
@[simp] theorem putGroup_waits (s : State) (k : Nat) (g : Group) : (putGroup s k g).waits = s.waits := rfl
@[simp] theorem putGroup_mgmtq (s : State) (k : Nat) (g : Group) : (putGroup s k g).mgmtq = s.mgmtq := rfl
@[simp] theorem putGroup_outbox (s : State) (k : Nat) (g : Group) : (putGroup s k g).outbox = s.outbox := rfl
@[simp] theorem putGroup_published (s : State) (k : Nat) (g : Group) : (putGroup s k g).published = s.published := rfl
@[simp] theorem putGroup_lastOpen (s : State) (k : Nat) (g : Group) : (putGroup s k g).lastOpen = s.lastOpen := rfl
@[simp] theorem putGroup_lastTicket (s : State) (k : Nat) (g : Group) : (putGroup s k g).lastTicket = s.lastTicket := rfl
@[simp] theorem putGroup_nextPoll (s : State) (k : Nat) (g : Group) : (putGroup s k g).nextPoll = s.nextPoll := rfl
@[simp] theorem putGroup_cur (s : State) (k : Nat) (g : Group) : (putGroup s k g).cur = s.cur := rfl
@[simp] theorem putGroup_path (s : State) (k : Nat) (g : Group) : (putGroup s k g).path = s.path := rfl
@[simp] theorem putGroup_agenda (s : State) (k : Nat) (g : Group) : (putGroup s k g).agenda = s.agenda := rfl
@[simp] theorem putGroup_cursor (s : State) (k : Nat) (g : Group) : (putGroup s k g).cursor = s.cursor := rfl
@[simp] theorem putGroup_free (s : State) (k : Nat) (g : Group) : (putGroup s k g).free = s.free := rfl
@[simp] theorem putGroup_serial (s : State) (k : Nat) (g : Group) : (putGroup s k g).serial = s.serial := rfl
@[simp] theorem putGroup_stall (s : State) (k : Nat) (g : Group) : (putGroup s k g).stall = s.stall := rfl
@[simp] theorem putGroup_yielded (s : State) (k : Nat) (g : Group) : (putGroup s k g).yielded = s.yielded := rfl

/-! ### putQueue -/

@[simp] theorem putQueue_groups (s : State) (n : Nat) (q : Queue) : (putQueue s n q).groups = s.groups := rfl
@[simp] theorem putQueue_teams (s : State) (n : Nat) (q : Queue) : (putQueue s n q).teams = s.teams := rfl
@[simp] theorem putQueue_clusters (s : State) (n : Nat) (q : Queue) : (putQueue s n q).clusters = s.clusters := rfl
@[simp] theorem putQueue_launches (s : State) (n : Nat) (q : Queue) : (putQueue s n q).launches = s.launches := rfl
@[simp] theorem putQueue_trees (s : State) (n : Nat) (q : Queue) : (putQueue s n q).trees = s.trees := rfl
@[simp] theorem putQueue_queues (s : State) (n : Nat) (q : Queue) : (putQueue s n q).queues = tput s.queues n q := rfl
@[simp] theorem putQueue_tickets (s : State) (n : Nat) (q : Queue) : (putQueue s n q).tickets = s.tickets := rfl
@[simp] theorem putQueue_claimed (s : State) (n : Nat) (q : Queue) : (putQueue s n q).claimed = s.claimed := rfl
@[simp] theorem putQueue_mem (s : State) (n : Nat) (q : Queue) : (putQueue s n q).mem = s.mem := rfl
@[simp] theorem putQueue_poison (s : State) (n : Nat) (q : Queue) : (putQueue s n q).poison = s.poison := rfl
@[simp] theorem putQueue_absent (s : State) (n : Nat) (q : Queue) : (putQueue s n q).absent = s.absent := rfl
@[simp] theorem putQueue_owner (s : State) (n : Nat) (q : Queue) : (putQueue s n q).owner = s.owner := rfl
@[simp] theorem putQueue_unitKey (s : State) (n : Nat) (q : Queue) : (putQueue s n q).unitKey = s.unitKey := rfl
@[simp] theorem putQueue_rcache (s : State) (n : Nat) (q : Queue) : (putQueue s n q).rcache = s.rcache := rfl
@[simp] theorem putQueue_icache (s : State) (n : Nat) (q : Queue) : (putQueue s n q).icache = s.icache := rfl
@[simp] theorem putQueue_tlb (s : State) (n : Nat) (q : Queue) : (putQueue s n q).tlb = s.tlb := rfl
@[simp] theorem putQueue_nonleafs (s : State) (n : Nat) (q : Queue) : (putQueue s n q).nonleafs = s.nonleafs := rfl
@[simp] theorem putQueue_s2held (s : State) (n : Nat) (q : Queue) : (putQueue s n q).s2held = s.s2held := rfl
@[simp] theorem putQueue_tlbis (s : State) (n : Nat) (q : Queue) : (putQueue s n q).tlbis = s.tlbis := rfl
@[simp] theorem putQueue_heat (s : State) (n : Nat) (q : Queue) : (putQueue s n q).heat = s.heat := rfl
@[simp] theorem putQueue_moves (s : State) (n : Nat) (q : Queue) : (putQueue s n q).moves = s.moves := rfl
@[simp] theorem putQueue_trellis (s : State) (n : Nat) (q : Queue) : (putQueue s n q).trellis = s.trellis := rfl
@[simp] theorem putQueue_s2faults (s : State) (n : Nat) (q : Queue) : (putQueue s n q).s2faults = s.s2faults := rfl
@[simp] theorem putQueue_comms (s : State) (n : Nat) (q : Queue) : (putQueue s n q).comms = s.comms := rfl
@[simp] theorem putQueue_calls (s : State) (n : Nat) (q : Queue) : (putQueue s n q).calls = s.calls := rfl
@[simp] theorem putQueue_rwaits (s : State) (n : Nat) (q : Queue) : (putQueue s n q).rwaits = s.rwaits := rfl
@[simp] theorem putQueue_time (s : State) (n : Nat) (q : Queue) : (putQueue s n q).time = s.time := rfl
@[simp] theorem putQueue_clk (s : State) (n : Nat) (q : Queue) : (putQueue s n q).clk = s.clk := rfl
@[simp] theorem putQueue_pace (s : State) (n : Nat) (q : Queue) : (putQueue s n q).pace = s.pace := rfl
@[simp] theorem putQueue_cpace (s : State) (n : Nat) (q : Queue) : (putQueue s n q).cpace = s.cpace := rfl
@[simp] theorem putQueue_scheds (s : State) (n : Nat) (q : Queue) : (putQueue s n q).scheds = s.scheds := rfl
@[simp] theorem putQueue_wb (s : State) (n : Nat) (q : Queue) : (putQueue s n q).wb = s.wb := rfl
@[simp] theorem putQueue_cores (s : State) (n : Nat) (q : Queue) : (putQueue s n q).cores = s.cores := rfl
@[simp] theorem putQueue_ports (s : State) (n : Nat) (q : Queue) : (putQueue s n q).ports = s.ports := rfl
@[simp] theorem putQueue_domains (s : State) (n : Nat) (q : Queue) : (putQueue s n q).domains = s.domains := rfl
@[simp] theorem putQueue_tcbs (s : State) (n : Nat) (q : Queue) : (putQueue s n q).tcbs = s.tcbs := rfl
@[simp] theorem putQueue_peers (s : State) (n : Nat) (q : Queue) : (putQueue s n q).peers = s.peers := rfl
@[simp] theorem putQueue_notes (s : State) (n : Nat) (q : Queue) : (putQueue s n q).notes = s.notes := rfl
@[simp] theorem putQueue_prelim (s : State) (n : Nat) (q : Queue) : (putQueue s n q).prelim = s.prelim := rfl
@[simp] theorem putQueue_agelim (s : State) (n : Nat) (q : Queue) : (putQueue s n q).agelim = s.agelim := rfl
@[simp] theorem putQueue_errs (s : State) (n : Nat) (q : Queue) : (putQueue s n q).errs = s.errs := rfl
@[simp] theorem putQueue_scrubs (s : State) (n : Nat) (q : Queue) : (putQueue s n q).scrubs = s.scrubs := rfl
@[simp] theorem putQueue_repairs (s : State) (n : Nat) (q : Queue) : (putQueue s n q).repairs = s.repairs := rfl
@[simp] theorem putQueue_stopped (s : State) (n : Nat) (q : Queue) : (putQueue s n q).stopped = s.stopped := rfl
@[simp] theorem putQueue_doomed (s : State) (n : Nat) (q : Queue) : (putQueue s n q).doomed = s.doomed := rfl
@[simp] theorem putQueue_resets (s : State) (n : Nat) (q : Queue) : (putQueue s n q).resets = s.resets := rfl
@[simp] theorem putQueue_ready (s : State) (n : Nat) (q : Queue) : (putQueue s n q).ready = s.ready := rfl
@[simp] theorem putQueue_bootst (s : State) (n : Nat) (q : Queue) : (putQueue s n q).bootst = s.bootst := rfl
@[simp] theorem putQueue_caps (s : State) (n : Nat) (q : Queue) : (putQueue s n q).caps = s.caps := rfl
@[simp] theorem putQueue_leaving (s : State) (n : Nat) (q : Queue) : (putQueue s n q).leaving = s.leaving := rfl
@[simp] theorem putQueue_idkey (s : State) (n : Nat) (q : Queue) : (putQueue s n q).idkey = s.idkey := rfl
@[simp] theorem putQueue_obs (s : State) (n : Nat) (q : Queue) : (putQueue s n q).obs = s.obs := rfl
@[simp] theorem putQueue_dbarm (s : State) (n : Nat) (q : Queue) : (putQueue s n q).dbarm = s.dbarm := rfl
@[simp] theorem putQueue_dumps (s : State) (n : Nat) (q : Queue) : (putQueue s n q).dumps = s.dumps := rfl
@[simp] theorem putQueue_domidx (s : State) (n : Nat) (q : Queue) : (putQueue s n q).domidx = s.domidx := rfl
@[simp] theorem putQueue_routes (s : State) (n : Nat) (q : Queue) : (putQueue s n q).routes = s.routes := rfl
@[simp] theorem putQueue_mgmtEp (s : State) (n : Nat) (q : Queue) : (putQueue s n q).mgmtEp = s.mgmtEp := rfl
@[simp] theorem putQueue_held (s : State) (n : Nat) (q : Queue) : (putQueue s n q).held = s.held := rfl
@[simp] theorem putQueue_waits (s : State) (n : Nat) (q : Queue) : (putQueue s n q).waits = s.waits := rfl
@[simp] theorem putQueue_mgmtq (s : State) (n : Nat) (q : Queue) : (putQueue s n q).mgmtq = s.mgmtq := rfl
@[simp] theorem putQueue_outbox (s : State) (n : Nat) (q : Queue) : (putQueue s n q).outbox = s.outbox := rfl
@[simp] theorem putQueue_published (s : State) (n : Nat) (q : Queue) : (putQueue s n q).published = s.published := rfl
@[simp] theorem putQueue_lastOpen (s : State) (n : Nat) (q : Queue) : (putQueue s n q).lastOpen = s.lastOpen := rfl
@[simp] theorem putQueue_lastTicket (s : State) (n : Nat) (q : Queue) : (putQueue s n q).lastTicket = s.lastTicket := rfl
@[simp] theorem putQueue_nextPoll (s : State) (n : Nat) (q : Queue) : (putQueue s n q).nextPoll = s.nextPoll := rfl
@[simp] theorem putQueue_cur (s : State) (n : Nat) (q : Queue) : (putQueue s n q).cur = s.cur := rfl
@[simp] theorem putQueue_path (s : State) (n : Nat) (q : Queue) : (putQueue s n q).path = s.path := rfl
@[simp] theorem putQueue_agenda (s : State) (n : Nat) (q : Queue) : (putQueue s n q).agenda = s.agenda := rfl
@[simp] theorem putQueue_cursor (s : State) (n : Nat) (q : Queue) : (putQueue s n q).cursor = s.cursor := rfl
@[simp] theorem putQueue_free (s : State) (n : Nat) (q : Queue) : (putQueue s n q).free = s.free := rfl
@[simp] theorem putQueue_serial (s : State) (n : Nat) (q : Queue) : (putQueue s n q).serial = s.serial := rfl
@[simp] theorem putQueue_stall (s : State) (n : Nat) (q : Queue) : (putQueue s n q).stall = s.stall := rfl
@[simp] theorem putQueue_yielded (s : State) (n : Nat) (q : Queue) : (putQueue s n q).yielded = s.yielded := rfl

/-! ### markYield -/

@[simp] theorem markYield_groups (s : State) : (markYield s).groups = s.groups := rfl
@[simp] theorem markYield_teams (s : State) : (markYield s).teams = s.teams := rfl
@[simp] theorem markYield_clusters (s : State) : (markYield s).clusters = s.clusters := rfl
@[simp] theorem markYield_launches (s : State) : (markYield s).launches = s.launches := rfl
@[simp] theorem markYield_trees (s : State) : (markYield s).trees = s.trees := rfl
@[simp] theorem markYield_queues (s : State) : (markYield s).queues = s.queues := rfl
@[simp] theorem markYield_tickets (s : State) : (markYield s).tickets = s.tickets := rfl
@[simp] theorem markYield_claimed (s : State) : (markYield s).claimed = s.claimed := rfl
@[simp] theorem markYield_mem (s : State) : (markYield s).mem = s.mem := rfl
@[simp] theorem markYield_poison (s : State) : (markYield s).poison = s.poison := rfl
@[simp] theorem markYield_absent (s : State) : (markYield s).absent = s.absent := rfl
@[simp] theorem markYield_owner (s : State) : (markYield s).owner = s.owner := rfl
@[simp] theorem markYield_unitKey (s : State) : (markYield s).unitKey = s.unitKey := rfl
@[simp] theorem markYield_rcache (s : State) : (markYield s).rcache = s.rcache := rfl
@[simp] theorem markYield_icache (s : State) : (markYield s).icache = s.icache := rfl
@[simp] theorem markYield_tlb (s : State) : (markYield s).tlb = s.tlb := rfl
@[simp] theorem markYield_nonleafs (s : State) : (markYield s).nonleafs = s.nonleafs := rfl
@[simp] theorem markYield_s2held (s : State) : (markYield s).s2held = s.s2held := rfl
@[simp] theorem markYield_tlbis (s : State) : (markYield s).tlbis = s.tlbis := rfl
@[simp] theorem markYield_heat (s : State) : (markYield s).heat = s.heat := rfl
@[simp] theorem markYield_moves (s : State) : (markYield s).moves = s.moves := rfl
@[simp] theorem markYield_trellis (s : State) : (markYield s).trellis = s.trellis := rfl
@[simp] theorem markYield_s2faults (s : State) : (markYield s).s2faults = s.s2faults := rfl
@[simp] theorem markYield_comms (s : State) : (markYield s).comms = s.comms := rfl
@[simp] theorem markYield_calls (s : State) : (markYield s).calls = s.calls := rfl
@[simp] theorem markYield_rwaits (s : State) : (markYield s).rwaits = s.rwaits := rfl
@[simp] theorem markYield_time (s : State) : (markYield s).time = s.time := rfl
@[simp] theorem markYield_clk (s : State) : (markYield s).clk = s.clk := rfl
@[simp] theorem markYield_pace (s : State) : (markYield s).pace = s.pace := rfl
@[simp] theorem markYield_cpace (s : State) : (markYield s).cpace = s.cpace := rfl
@[simp] theorem markYield_scheds (s : State) : (markYield s).scheds = s.scheds := rfl
@[simp] theorem markYield_wb (s : State) : (markYield s).wb = s.wb := rfl
@[simp] theorem markYield_cores (s : State) : (markYield s).cores = s.cores := rfl
@[simp] theorem markYield_ports (s : State) : (markYield s).ports = s.ports := rfl
@[simp] theorem markYield_domains (s : State) : (markYield s).domains = s.domains := rfl
@[simp] theorem markYield_tcbs (s : State) : (markYield s).tcbs = s.tcbs := rfl
@[simp] theorem markYield_peers (s : State) : (markYield s).peers = s.peers := rfl
@[simp] theorem markYield_notes (s : State) : (markYield s).notes = s.notes := rfl
@[simp] theorem markYield_prelim (s : State) : (markYield s).prelim = s.prelim := rfl
@[simp] theorem markYield_agelim (s : State) : (markYield s).agelim = s.agelim := rfl
@[simp] theorem markYield_errs (s : State) : (markYield s).errs = s.errs := rfl
@[simp] theorem markYield_scrubs (s : State) : (markYield s).scrubs = s.scrubs := rfl
@[simp] theorem markYield_repairs (s : State) : (markYield s).repairs = s.repairs := rfl
@[simp] theorem markYield_stopped (s : State) : (markYield s).stopped = s.stopped := rfl
@[simp] theorem markYield_doomed (s : State) : (markYield s).doomed = s.doomed := rfl
@[simp] theorem markYield_resets (s : State) : (markYield s).resets = s.resets := rfl
@[simp] theorem markYield_ready (s : State) : (markYield s).ready = s.ready := rfl
@[simp] theorem markYield_bootst (s : State) : (markYield s).bootst = s.bootst := rfl
@[simp] theorem markYield_caps (s : State) : (markYield s).caps = s.caps := rfl
@[simp] theorem markYield_leaving (s : State) : (markYield s).leaving = s.leaving := rfl
@[simp] theorem markYield_idkey (s : State) : (markYield s).idkey = s.idkey := rfl
@[simp] theorem markYield_obs (s : State) : (markYield s).obs = s.obs := rfl
@[simp] theorem markYield_dbarm (s : State) : (markYield s).dbarm = s.dbarm := rfl
@[simp] theorem markYield_dumps (s : State) : (markYield s).dumps = s.dumps := rfl
@[simp] theorem markYield_domidx (s : State) : (markYield s).domidx = s.domidx := rfl
@[simp] theorem markYield_routes (s : State) : (markYield s).routes = s.routes := rfl
@[simp] theorem markYield_mgmtEp (s : State) : (markYield s).mgmtEp = s.mgmtEp := rfl
@[simp] theorem markYield_held (s : State) : (markYield s).held = s.held := rfl
@[simp] theorem markYield_waits (s : State) : (markYield s).waits = s.waits := rfl
@[simp] theorem markYield_mgmtq (s : State) : (markYield s).mgmtq = s.mgmtq := rfl
@[simp] theorem markYield_outbox (s : State) : (markYield s).outbox = s.outbox := rfl
@[simp] theorem markYield_published (s : State) : (markYield s).published = s.published := rfl
@[simp] theorem markYield_lastOpen (s : State) : (markYield s).lastOpen = s.lastOpen := rfl
@[simp] theorem markYield_lastTicket (s : State) : (markYield s).lastTicket = s.lastTicket := rfl
@[simp] theorem markYield_nextPoll (s : State) : (markYield s).nextPoll = s.nextPoll := rfl
@[simp] theorem markYield_cur (s : State) : (markYield s).cur = s.cur := rfl
@[simp] theorem markYield_path (s : State) : (markYield s).path = s.path := rfl
@[simp] theorem markYield_agenda (s : State) : (markYield s).agenda = s.agenda := rfl
@[simp] theorem markYield_cursor (s : State) : (markYield s).cursor = s.cursor := rfl
@[simp] theorem markYield_free (s : State) : (markYield s).free = s.free := rfl
@[simp] theorem markYield_serial (s : State) : (markYield s).serial = s.serial := rfl
@[simp] theorem markYield_stall (s : State) : (markYield s).stall = s.stall := rfl
@[simp] theorem markYield_yielded (s : State) : (markYield s).yielded = true := rfl

/-! ### dropReadCache -/

@[simp] theorem dropReadCache_groups (s : State) (c : Nat) : (dropReadCache s c).groups = s.groups := rfl
@[simp] theorem dropReadCache_teams (s : State) (c : Nat) : (dropReadCache s c).teams = s.teams := rfl
@[simp] theorem dropReadCache_clusters (s : State) (c : Nat) : (dropReadCache s c).clusters = s.clusters := rfl
@[simp] theorem dropReadCache_launches (s : State) (c : Nat) : (dropReadCache s c).launches = s.launches := rfl
@[simp] theorem dropReadCache_trees (s : State) (c : Nat) : (dropReadCache s c).trees = s.trees := rfl
@[simp] theorem dropReadCache_queues (s : State) (c : Nat) : (dropReadCache s c).queues = s.queues := rfl
@[simp] theorem dropReadCache_tickets (s : State) (c : Nat) : (dropReadCache s c).tickets = s.tickets := rfl
@[simp] theorem dropReadCache_claimed (s : State) (c : Nat) : (dropReadCache s c).claimed = s.claimed := rfl
@[simp] theorem dropReadCache_mem (s : State) (c : Nat) : (dropReadCache s c).mem = s.mem := rfl
@[simp] theorem dropReadCache_poison (s : State) (c : Nat) : (dropReadCache s c).poison = s.poison := rfl
@[simp] theorem dropReadCache_absent (s : State) (c : Nat) : (dropReadCache s c).absent = s.absent := rfl
@[simp] theorem dropReadCache_owner (s : State) (c : Nat) : (dropReadCache s c).owner = s.owner := rfl
@[simp] theorem dropReadCache_unitKey (s : State) (c : Nat) : (dropReadCache s c).unitKey = s.unitKey := rfl
@[simp] theorem dropReadCache_rcache (s : State) (c : Nat) : (dropReadCache s c).rcache = s.rcache.filter fun l => l.core != c := rfl
@[simp] theorem dropReadCache_icache (s : State) (c : Nat) : (dropReadCache s c).icache = s.icache := rfl
@[simp] theorem dropReadCache_tlb (s : State) (c : Nat) : (dropReadCache s c).tlb = s.tlb := rfl
@[simp] theorem dropReadCache_nonleafs (s : State) (c : Nat) : (dropReadCache s c).nonleafs = s.nonleafs := rfl
@[simp] theorem dropReadCache_s2held (s : State) (c : Nat) : (dropReadCache s c).s2held = s.s2held := rfl
@[simp] theorem dropReadCache_tlbis (s : State) (c : Nat) : (dropReadCache s c).tlbis = s.tlbis := rfl
@[simp] theorem dropReadCache_heat (s : State) (c : Nat) : (dropReadCache s c).heat = s.heat := rfl
@[simp] theorem dropReadCache_moves (s : State) (c : Nat) : (dropReadCache s c).moves = s.moves := rfl
@[simp] theorem dropReadCache_trellis (s : State) (c : Nat) : (dropReadCache s c).trellis = s.trellis := rfl
@[simp] theorem dropReadCache_s2faults (s : State) (c : Nat) : (dropReadCache s c).s2faults = s.s2faults := rfl
@[simp] theorem dropReadCache_comms (s : State) (c : Nat) : (dropReadCache s c).comms = s.comms := rfl
@[simp] theorem dropReadCache_calls (s : State) (c : Nat) : (dropReadCache s c).calls = s.calls := rfl
@[simp] theorem dropReadCache_rwaits (s : State) (c : Nat) : (dropReadCache s c).rwaits = s.rwaits := rfl
@[simp] theorem dropReadCache_time (s : State) (c : Nat) : (dropReadCache s c).time = s.time := rfl
@[simp] theorem dropReadCache_clk (s : State) (c : Nat) : (dropReadCache s c).clk = s.clk := rfl
@[simp] theorem dropReadCache_pace (s : State) (c : Nat) : (dropReadCache s c).pace = s.pace := rfl
@[simp] theorem dropReadCache_cpace (s : State) (c : Nat) : (dropReadCache s c).cpace = s.cpace := rfl
@[simp] theorem dropReadCache_scheds (s : State) (c : Nat) : (dropReadCache s c).scheds = s.scheds := rfl
@[simp] theorem dropReadCache_wb (s : State) (c : Nat) : (dropReadCache s c).wb = s.wb := rfl
@[simp] theorem dropReadCache_cores (s : State) (c : Nat) : (dropReadCache s c).cores = s.cores := rfl
@[simp] theorem dropReadCache_ports (s : State) (c : Nat) : (dropReadCache s c).ports = s.ports := rfl
@[simp] theorem dropReadCache_domains (s : State) (c : Nat) : (dropReadCache s c).domains = s.domains := rfl
@[simp] theorem dropReadCache_tcbs (s : State) (c : Nat) : (dropReadCache s c).tcbs = s.tcbs := rfl
@[simp] theorem dropReadCache_peers (s : State) (c : Nat) : (dropReadCache s c).peers = s.peers := rfl
@[simp] theorem dropReadCache_notes (s : State) (c : Nat) : (dropReadCache s c).notes = s.notes := rfl
@[simp] theorem dropReadCache_prelim (s : State) (c : Nat) : (dropReadCache s c).prelim = s.prelim := rfl
@[simp] theorem dropReadCache_agelim (s : State) (c : Nat) : (dropReadCache s c).agelim = s.agelim := rfl
@[simp] theorem dropReadCache_errs (s : State) (c : Nat) : (dropReadCache s c).errs = s.errs := rfl
@[simp] theorem dropReadCache_scrubs (s : State) (c : Nat) : (dropReadCache s c).scrubs = s.scrubs := rfl
@[simp] theorem dropReadCache_repairs (s : State) (c : Nat) : (dropReadCache s c).repairs = s.repairs := rfl
@[simp] theorem dropReadCache_stopped (s : State) (c : Nat) : (dropReadCache s c).stopped = s.stopped := rfl
@[simp] theorem dropReadCache_doomed (s : State) (c : Nat) : (dropReadCache s c).doomed = s.doomed := rfl
@[simp] theorem dropReadCache_resets (s : State) (c : Nat) : (dropReadCache s c).resets = s.resets := rfl
@[simp] theorem dropReadCache_ready (s : State) (c : Nat) : (dropReadCache s c).ready = s.ready := rfl
@[simp] theorem dropReadCache_bootst (s : State) (c : Nat) : (dropReadCache s c).bootst = s.bootst := rfl
@[simp] theorem dropReadCache_caps (s : State) (c : Nat) : (dropReadCache s c).caps = s.caps := rfl
@[simp] theorem dropReadCache_leaving (s : State) (c : Nat) : (dropReadCache s c).leaving = s.leaving := rfl
@[simp] theorem dropReadCache_idkey (s : State) (c : Nat) : (dropReadCache s c).idkey = s.idkey := rfl
@[simp] theorem dropReadCache_obs (s : State) (c : Nat) : (dropReadCache s c).obs = s.obs := rfl
@[simp] theorem dropReadCache_dbarm (s : State) (c : Nat) : (dropReadCache s c).dbarm = s.dbarm := rfl
@[simp] theorem dropReadCache_dumps (s : State) (c : Nat) : (dropReadCache s c).dumps = s.dumps := rfl
@[simp] theorem dropReadCache_domidx (s : State) (c : Nat) : (dropReadCache s c).domidx = s.domidx := rfl
@[simp] theorem dropReadCache_routes (s : State) (c : Nat) : (dropReadCache s c).routes = s.routes := rfl
@[simp] theorem dropReadCache_mgmtEp (s : State) (c : Nat) : (dropReadCache s c).mgmtEp = s.mgmtEp := rfl
@[simp] theorem dropReadCache_held (s : State) (c : Nat) : (dropReadCache s c).held = s.held := rfl
@[simp] theorem dropReadCache_waits (s : State) (c : Nat) : (dropReadCache s c).waits = s.waits := rfl
@[simp] theorem dropReadCache_mgmtq (s : State) (c : Nat) : (dropReadCache s c).mgmtq = s.mgmtq := rfl
@[simp] theorem dropReadCache_outbox (s : State) (c : Nat) : (dropReadCache s c).outbox = s.outbox := rfl
@[simp] theorem dropReadCache_published (s : State) (c : Nat) : (dropReadCache s c).published = s.published := rfl
@[simp] theorem dropReadCache_lastOpen (s : State) (c : Nat) : (dropReadCache s c).lastOpen = s.lastOpen := rfl
@[simp] theorem dropReadCache_lastTicket (s : State) (c : Nat) : (dropReadCache s c).lastTicket = s.lastTicket := rfl
@[simp] theorem dropReadCache_nextPoll (s : State) (c : Nat) : (dropReadCache s c).nextPoll = s.nextPoll := rfl
@[simp] theorem dropReadCache_cur (s : State) (c : Nat) : (dropReadCache s c).cur = s.cur := rfl
@[simp] theorem dropReadCache_path (s : State) (c : Nat) : (dropReadCache s c).path = s.path := rfl
@[simp] theorem dropReadCache_agenda (s : State) (c : Nat) : (dropReadCache s c).agenda = s.agenda := rfl
@[simp] theorem dropReadCache_cursor (s : State) (c : Nat) : (dropReadCache s c).cursor = s.cursor := rfl
@[simp] theorem dropReadCache_free (s : State) (c : Nat) : (dropReadCache s c).free = s.free := rfl
@[simp] theorem dropReadCache_serial (s : State) (c : Nat) : (dropReadCache s c).serial = s.serial := rfl
@[simp] theorem dropReadCache_stall (s : State) (c : Nat) : (dropReadCache s c).stall = s.stall := rfl
@[simp] theorem dropReadCache_yielded (s : State) (c : Nat) : (dropReadCache s c).yielded = s.yielded := rfl

/-! ### retireViews -/

@[simp] theorem retireViews_groups (s : State) (p : Reg → Bool) : (retireViews s p).groups = s.groups := rfl
@[simp] theorem retireViews_teams (s : State) (p : Reg → Bool) : (retireViews s p).teams = s.teams := rfl
@[simp] theorem retireViews_clusters (s : State) (p : Reg → Bool) : (retireViews s p).clusters = s.clusters := rfl
@[simp] theorem retireViews_launches (s : State) (p : Reg → Bool) : (retireViews s p).launches = s.launches := rfl
@[simp] theorem retireViews_trees (s : State) (p : Reg → Bool) : (retireViews s p).trees = s.trees := rfl
@[simp] theorem retireViews_queues (s : State) (p : Reg → Bool) : (retireViews s p).queues = s.queues := rfl
@[simp] theorem retireViews_tickets (s : State) (p : Reg → Bool) : (retireViews s p).tickets = s.tickets := rfl
@[simp] theorem retireViews_claimed (s : State) (p : Reg → Bool) : (retireViews s p).claimed = s.claimed := rfl
@[simp] theorem retireViews_mem (s : State) (p : Reg → Bool) : (retireViews s p).mem = s.mem := rfl
@[simp] theorem retireViews_poison (s : State) (p : Reg → Bool) : (retireViews s p).poison = s.poison := rfl
@[simp] theorem retireViews_absent (s : State) (p : Reg → Bool) : (retireViews s p).absent = s.absent := rfl
@[simp] theorem retireViews_owner (s : State) (p : Reg → Bool) : (retireViews s p).owner = s.owner := rfl
@[simp] theorem retireViews_unitKey (s : State) (p : Reg → Bool) : (retireViews s p).unitKey = s.unitKey := rfl
@[simp] theorem retireViews_rcache (s : State) (p : Reg → Bool) : (retireViews s p).rcache = s.rcache := rfl
@[simp] theorem retireViews_icache (s : State) (p : Reg → Bool) : (retireViews s p).icache = s.icache := rfl
@[simp] theorem retireViews_tlb (s : State) (p : Reg → Bool) : (retireViews s p).tlb = s.tlb := rfl
@[simp] theorem retireViews_nonleafs (s : State) (p : Reg → Bool) : (retireViews s p).nonleafs = s.nonleafs := rfl
@[simp] theorem retireViews_s2held (s : State) (p : Reg → Bool) : (retireViews s p).s2held = s.s2held := rfl
@[simp] theorem retireViews_tlbis (s : State) (p : Reg → Bool) : (retireViews s p).tlbis = s.tlbis := rfl
@[simp] theorem retireViews_heat (s : State) (p : Reg → Bool) : (retireViews s p).heat = s.heat := rfl
@[simp] theorem retireViews_moves (s : State) (p : Reg → Bool) : (retireViews s p).moves = s.moves := rfl
@[simp] theorem retireViews_trellis (s : State) (p : Reg → Bool) : (retireViews s p).trellis = s.trellis.filter fun r => !p r := rfl
@[simp] theorem retireViews_s2faults (s : State) (p : Reg → Bool) : (retireViews s p).s2faults = s.s2faults := rfl
@[simp] theorem retireViews_comms (s : State) (p : Reg → Bool) : (retireViews s p).comms = s.comms := rfl
@[simp] theorem retireViews_calls (s : State) (p : Reg → Bool) : (retireViews s p).calls = s.calls := rfl
@[simp] theorem retireViews_rwaits (s : State) (p : Reg → Bool) : (retireViews s p).rwaits = s.rwaits := rfl
@[simp] theorem retireViews_time (s : State) (p : Reg → Bool) : (retireViews s p).time = s.time := rfl
@[simp] theorem retireViews_clk (s : State) (p : Reg → Bool) : (retireViews s p).clk = s.clk := rfl
@[simp] theorem retireViews_pace (s : State) (p : Reg → Bool) : (retireViews s p).pace = s.pace := rfl
@[simp] theorem retireViews_cpace (s : State) (p : Reg → Bool) : (retireViews s p).cpace = s.cpace := rfl
@[simp] theorem retireViews_scheds (s : State) (p : Reg → Bool) : (retireViews s p).scheds = s.scheds := rfl
@[simp] theorem retireViews_wb (s : State) (p : Reg → Bool) : (retireViews s p).wb = s.wb := rfl
@[simp] theorem retireViews_cores (s : State) (p : Reg → Bool) : (retireViews s p).cores = s.cores := rfl
@[simp] theorem retireViews_ports (s : State) (p : Reg → Bool) : (retireViews s p).ports = s.ports := rfl
@[simp] theorem retireViews_domains (s : State) (p : Reg → Bool) : (retireViews s p).domains = s.domains := rfl
@[simp] theorem retireViews_tcbs (s : State) (p : Reg → Bool) : (retireViews s p).tcbs = s.tcbs := rfl
@[simp] theorem retireViews_peers (s : State) (p : Reg → Bool) : (retireViews s p).peers = s.peers := rfl
@[simp] theorem retireViews_notes (s : State) (p : Reg → Bool) : (retireViews s p).notes = s.notes := rfl
@[simp] theorem retireViews_prelim (s : State) (p : Reg → Bool) : (retireViews s p).prelim = s.prelim := rfl
@[simp] theorem retireViews_agelim (s : State) (p : Reg → Bool) : (retireViews s p).agelim = s.agelim := rfl
@[simp] theorem retireViews_errs (s : State) (p : Reg → Bool) : (retireViews s p).errs = s.errs := rfl
@[simp] theorem retireViews_scrubs (s : State) (p : Reg → Bool) : (retireViews s p).scrubs = s.scrubs := rfl
@[simp] theorem retireViews_repairs (s : State) (p : Reg → Bool) : (retireViews s p).repairs = s.repairs := rfl
@[simp] theorem retireViews_stopped (s : State) (p : Reg → Bool) : (retireViews s p).stopped = s.stopped := rfl
@[simp] theorem retireViews_doomed (s : State) (p : Reg → Bool) : (retireViews s p).doomed = s.doomed := rfl
@[simp] theorem retireViews_resets (s : State) (p : Reg → Bool) : (retireViews s p).resets = s.resets := rfl
@[simp] theorem retireViews_ready (s : State) (p : Reg → Bool) : (retireViews s p).ready = s.ready := rfl
@[simp] theorem retireViews_bootst (s : State) (p : Reg → Bool) : (retireViews s p).bootst = s.bootst := rfl
@[simp] theorem retireViews_caps (s : State) (p : Reg → Bool) : (retireViews s p).caps = s.caps := rfl
@[simp] theorem retireViews_leaving (s : State) (p : Reg → Bool) : (retireViews s p).leaving = s.leaving := rfl
@[simp] theorem retireViews_idkey (s : State) (p : Reg → Bool) : (retireViews s p).idkey = s.idkey := rfl
@[simp] theorem retireViews_obs (s : State) (p : Reg → Bool) : (retireViews s p).obs = s.obs := rfl
@[simp] theorem retireViews_dbarm (s : State) (p : Reg → Bool) : (retireViews s p).dbarm = s.dbarm := rfl
@[simp] theorem retireViews_dumps (s : State) (p : Reg → Bool) : (retireViews s p).dumps = s.dumps := rfl
@[simp] theorem retireViews_domidx (s : State) (p : Reg → Bool) : (retireViews s p).domidx = s.domidx := rfl
@[simp] theorem retireViews_routes (s : State) (p : Reg → Bool) : (retireViews s p).routes = s.routes := rfl
@[simp] theorem retireViews_mgmtEp (s : State) (p : Reg → Bool) : (retireViews s p).mgmtEp = s.mgmtEp := rfl
@[simp] theorem retireViews_held (s : State) (p : Reg → Bool) : (retireViews s p).held = s.held := rfl
@[simp] theorem retireViews_waits (s : State) (p : Reg → Bool) : (retireViews s p).waits = s.waits := rfl
@[simp] theorem retireViews_mgmtq (s : State) (p : Reg → Bool) : (retireViews s p).mgmtq = s.mgmtq := rfl
@[simp] theorem retireViews_outbox (s : State) (p : Reg → Bool) : (retireViews s p).outbox = s.outbox := rfl
@[simp] theorem retireViews_published (s : State) (p : Reg → Bool) : (retireViews s p).published = s.published := rfl
@[simp] theorem retireViews_lastOpen (s : State) (p : Reg → Bool) : (retireViews s p).lastOpen = s.lastOpen := rfl
@[simp] theorem retireViews_lastTicket (s : State) (p : Reg → Bool) : (retireViews s p).lastTicket = s.lastTicket := rfl
@[simp] theorem retireViews_nextPoll (s : State) (p : Reg → Bool) : (retireViews s p).nextPoll = s.nextPoll := rfl
@[simp] theorem retireViews_cur (s : State) (p : Reg → Bool) : (retireViews s p).cur = s.cur := rfl
@[simp] theorem retireViews_path (s : State) (p : Reg → Bool) : (retireViews s p).path = s.path := rfl
@[simp] theorem retireViews_agenda (s : State) (p : Reg → Bool) : (retireViews s p).agenda = s.agenda := rfl
@[simp] theorem retireViews_cursor (s : State) (p : Reg → Bool) : (retireViews s p).cursor = s.cursor := rfl
@[simp] theorem retireViews_free (s : State) (p : Reg → Bool) : (retireViews s p).free = s.free := rfl
@[simp] theorem retireViews_serial (s : State) (p : Reg → Bool) : (retireViews s p).serial = s.serial := rfl
@[simp] theorem retireViews_stall (s : State) (p : Reg → Bool) : (retireViews s p).stall = s.stall := rfl
@[simp] theorem retireViews_yielded (s : State) (p : Reg → Bool) : (retireViews s p).yielded = s.yielded := rfl

/-! ### sendFrame -/

@[simp] theorem sendFrame_groups (s : State) (n : Nat) (f : Frame) : (sendFrame s n f).groups = s.groups := rfl
@[simp] theorem sendFrame_teams (s : State) (n : Nat) (f : Frame) : (sendFrame s n f).teams = s.teams := rfl
@[simp] theorem sendFrame_clusters (s : State) (n : Nat) (f : Frame) : (sendFrame s n f).clusters = s.clusters := rfl
@[simp] theorem sendFrame_launches (s : State) (n : Nat) (f : Frame) : (sendFrame s n f).launches = s.launches := rfl
@[simp] theorem sendFrame_trees (s : State) (n : Nat) (f : Frame) : (sendFrame s n f).trees = s.trees := rfl
@[simp] theorem sendFrame_queues (s : State) (n : Nat) (f : Frame) : (sendFrame s n f).queues = s.queues := rfl
@[simp] theorem sendFrame_tickets (s : State) (n : Nat) (f : Frame) : (sendFrame s n f).tickets = s.tickets := rfl
@[simp] theorem sendFrame_claimed (s : State) (n : Nat) (f : Frame) : (sendFrame s n f).claimed = s.claimed := rfl
@[simp] theorem sendFrame_mem (s : State) (n : Nat) (f : Frame) : (sendFrame s n f).mem = s.mem := rfl
@[simp] theorem sendFrame_poison (s : State) (n : Nat) (f : Frame) : (sendFrame s n f).poison = s.poison := rfl
@[simp] theorem sendFrame_absent (s : State) (n : Nat) (f : Frame) : (sendFrame s n f).absent = s.absent := rfl
@[simp] theorem sendFrame_owner (s : State) (n : Nat) (f : Frame) : (sendFrame s n f).owner = s.owner := rfl
@[simp] theorem sendFrame_unitKey (s : State) (n : Nat) (f : Frame) : (sendFrame s n f).unitKey = s.unitKey := rfl
@[simp] theorem sendFrame_rcache (s : State) (n : Nat) (f : Frame) : (sendFrame s n f).rcache = s.rcache := rfl
@[simp] theorem sendFrame_icache (s : State) (n : Nat) (f : Frame) : (sendFrame s n f).icache = s.icache := rfl
@[simp] theorem sendFrame_tlb (s : State) (n : Nat) (f : Frame) : (sendFrame s n f).tlb = s.tlb := rfl
@[simp] theorem sendFrame_nonleafs (s : State) (n : Nat) (f : Frame) : (sendFrame s n f).nonleafs = s.nonleafs := rfl
@[simp] theorem sendFrame_s2held (s : State) (n : Nat) (f : Frame) : (sendFrame s n f).s2held = s.s2held := rfl
@[simp] theorem sendFrame_tlbis (s : State) (n : Nat) (f : Frame) : (sendFrame s n f).tlbis = s.tlbis := rfl
@[simp] theorem sendFrame_heat (s : State) (n : Nat) (f : Frame) : (sendFrame s n f).heat = s.heat := rfl
@[simp] theorem sendFrame_moves (s : State) (n : Nat) (f : Frame) : (sendFrame s n f).moves = s.moves := rfl
@[simp] theorem sendFrame_trellis (s : State) (n : Nat) (f : Frame) : (sendFrame s n f).trellis = s.trellis := rfl
@[simp] theorem sendFrame_s2faults (s : State) (n : Nat) (f : Frame) : (sendFrame s n f).s2faults = s.s2faults := rfl
@[simp] theorem sendFrame_comms (s : State) (n : Nat) (f : Frame) : (sendFrame s n f).comms = s.comms := rfl
@[simp] theorem sendFrame_calls (s : State) (n : Nat) (f : Frame) : (sendFrame s n f).calls = s.calls := rfl
@[simp] theorem sendFrame_rwaits (s : State) (n : Nat) (f : Frame) : (sendFrame s n f).rwaits = s.rwaits := rfl
@[simp] theorem sendFrame_time (s : State) (n : Nat) (f : Frame) : (sendFrame s n f).time = s.time := rfl
@[simp] theorem sendFrame_clk (s : State) (n : Nat) (f : Frame) : (sendFrame s n f).clk = s.clk := rfl
@[simp] theorem sendFrame_pace (s : State) (n : Nat) (f : Frame) : (sendFrame s n f).pace = s.pace := rfl
@[simp] theorem sendFrame_cpace (s : State) (n : Nat) (f : Frame) : (sendFrame s n f).cpace = s.cpace := rfl
@[simp] theorem sendFrame_scheds (s : State) (n : Nat) (f : Frame) : (sendFrame s n f).scheds = s.scheds := rfl
@[simp] theorem sendFrame_wb (s : State) (n : Nat) (f : Frame) : (sendFrame s n f).wb = s.wb := rfl
@[simp] theorem sendFrame_cores (s : State) (n : Nat) (f : Frame) : (sendFrame s n f).cores = s.cores := rfl
@[simp] theorem sendFrame_ports (s : State) (n : Nat) (f : Frame) : (sendFrame s n f).ports = s.ports := rfl
@[simp] theorem sendFrame_domains (s : State) (n : Nat) (f : Frame) : (sendFrame s n f).domains = s.domains := rfl
@[simp] theorem sendFrame_tcbs (s : State) (n : Nat) (f : Frame) : (sendFrame s n f).tcbs = s.tcbs := rfl
@[simp] theorem sendFrame_peers (s : State) (n : Nat) (f : Frame) : (sendFrame s n f).peers = s.peers := rfl
@[simp] theorem sendFrame_notes (s : State) (n : Nat) (f : Frame) : (sendFrame s n f).notes = s.notes := rfl
@[simp] theorem sendFrame_prelim (s : State) (n : Nat) (f : Frame) : (sendFrame s n f).prelim = s.prelim := rfl
@[simp] theorem sendFrame_agelim (s : State) (n : Nat) (f : Frame) : (sendFrame s n f).agelim = s.agelim := rfl
@[simp] theorem sendFrame_errs (s : State) (n : Nat) (f : Frame) : (sendFrame s n f).errs = s.errs := rfl
@[simp] theorem sendFrame_scrubs (s : State) (n : Nat) (f : Frame) : (sendFrame s n f).scrubs = s.scrubs := rfl
@[simp] theorem sendFrame_repairs (s : State) (n : Nat) (f : Frame) : (sendFrame s n f).repairs = s.repairs := rfl
@[simp] theorem sendFrame_stopped (s : State) (n : Nat) (f : Frame) : (sendFrame s n f).stopped = s.stopped := rfl
@[simp] theorem sendFrame_doomed (s : State) (n : Nat) (f : Frame) : (sendFrame s n f).doomed = s.doomed := rfl
@[simp] theorem sendFrame_resets (s : State) (n : Nat) (f : Frame) : (sendFrame s n f).resets = s.resets := rfl
@[simp] theorem sendFrame_ready (s : State) (n : Nat) (f : Frame) : (sendFrame s n f).ready = s.ready := rfl
@[simp] theorem sendFrame_bootst (s : State) (n : Nat) (f : Frame) : (sendFrame s n f).bootst = s.bootst := rfl
@[simp] theorem sendFrame_caps (s : State) (n : Nat) (f : Frame) : (sendFrame s n f).caps = s.caps := rfl
@[simp] theorem sendFrame_leaving (s : State) (n : Nat) (f : Frame) : (sendFrame s n f).leaving = s.leaving := rfl
@[simp] theorem sendFrame_idkey (s : State) (n : Nat) (f : Frame) : (sendFrame s n f).idkey = s.idkey := rfl
@[simp] theorem sendFrame_obs (s : State) (n : Nat) (f : Frame) : (sendFrame s n f).obs = s.obs := rfl
@[simp] theorem sendFrame_dbarm (s : State) (n : Nat) (f : Frame) : (sendFrame s n f).dbarm = s.dbarm := rfl
@[simp] theorem sendFrame_dumps (s : State) (n : Nat) (f : Frame) : (sendFrame s n f).dumps = s.dumps := rfl
@[simp] theorem sendFrame_domidx (s : State) (n : Nat) (f : Frame) : (sendFrame s n f).domidx = s.domidx := rfl
@[simp] theorem sendFrame_routes (s : State) (n : Nat) (f : Frame) : (sendFrame s n f).routes = s.routes := rfl
@[simp] theorem sendFrame_mgmtEp (s : State) (n : Nat) (f : Frame) : (sendFrame s n f).mgmtEp = s.mgmtEp := rfl
@[simp] theorem sendFrame_held (s : State) (n : Nat) (f : Frame) : (sendFrame s n f).held = s.held := rfl
@[simp] theorem sendFrame_waits (s : State) (n : Nat) (f : Frame) : (sendFrame s n f).waits = s.waits := rfl
@[simp] theorem sendFrame_mgmtq (s : State) (n : Nat) (f : Frame) : (sendFrame s n f).mgmtq = s.mgmtq := rfl
@[simp] theorem sendFrame_outbox (s : State) (n : Nat) (f : Frame) : (sendFrame s n f).outbox = s.outbox ++ [.frame n f] := rfl
@[simp] theorem sendFrame_published (s : State) (n : Nat) (f : Frame) : (sendFrame s n f).published = s.published := rfl
@[simp] theorem sendFrame_lastOpen (s : State) (n : Nat) (f : Frame) : (sendFrame s n f).lastOpen = s.lastOpen := rfl
@[simp] theorem sendFrame_lastTicket (s : State) (n : Nat) (f : Frame) : (sendFrame s n f).lastTicket = s.lastTicket := rfl
@[simp] theorem sendFrame_nextPoll (s : State) (n : Nat) (f : Frame) : (sendFrame s n f).nextPoll = s.nextPoll := rfl
@[simp] theorem sendFrame_cur (s : State) (n : Nat) (f : Frame) : (sendFrame s n f).cur = s.cur := rfl
@[simp] theorem sendFrame_path (s : State) (n : Nat) (f : Frame) : (sendFrame s n f).path = s.path := rfl
@[simp] theorem sendFrame_agenda (s : State) (n : Nat) (f : Frame) : (sendFrame s n f).agenda = s.agenda := rfl
@[simp] theorem sendFrame_cursor (s : State) (n : Nat) (f : Frame) : (sendFrame s n f).cursor = s.cursor := rfl
@[simp] theorem sendFrame_free (s : State) (n : Nat) (f : Frame) : (sendFrame s n f).free = s.free := rfl
@[simp] theorem sendFrame_serial (s : State) (n : Nat) (f : Frame) : (sendFrame s n f).serial = s.serial := rfl
@[simp] theorem sendFrame_stall (s : State) (n : Nat) (f : Frame) : (sendFrame s n f).stall = s.stall := rfl
@[simp] theorem sendFrame_yielded (s : State) (n : Nat) (f : Frame) : (sendFrame s n f).yielded = s.yielded := rfl

/-! ### aim -/

@[simp] theorem aim_groups (s : State) (k n : Nat) : (aim s k n).groups = s.groups := rfl
@[simp] theorem aim_teams (s : State) (k n : Nat) : (aim s k n).teams = s.teams := rfl
@[simp] theorem aim_clusters (s : State) (k n : Nat) : (aim s k n).clusters = s.clusters := rfl
@[simp] theorem aim_launches (s : State) (k n : Nat) : (aim s k n).launches = s.launches := rfl
@[simp] theorem aim_trees (s : State) (k n : Nat) : (aim s k n).trees = s.trees := rfl
@[simp] theorem aim_queues (s : State) (k n : Nat) : (aim s k n).queues = s.queues := rfl
@[simp] theorem aim_tickets (s : State) (k n : Nat) : (aim s k n).tickets = s.tickets := rfl
@[simp] theorem aim_claimed (s : State) (k n : Nat) : (aim s k n).claimed = s.claimed := rfl
@[simp] theorem aim_mem (s : State) (k n : Nat) : (aim s k n).mem = s.mem := rfl
@[simp] theorem aim_poison (s : State) (k n : Nat) : (aim s k n).poison = s.poison := rfl
@[simp] theorem aim_absent (s : State) (k n : Nat) : (aim s k n).absent = s.absent := rfl
@[simp] theorem aim_owner (s : State) (k n : Nat) : (aim s k n).owner = s.owner := rfl
@[simp] theorem aim_unitKey (s : State) (k n : Nat) : (aim s k n).unitKey = s.unitKey := rfl
@[simp] theorem aim_rcache (s : State) (k n : Nat) : (aim s k n).rcache = s.rcache := rfl
@[simp] theorem aim_icache (s : State) (k n : Nat) : (aim s k n).icache = s.icache := rfl
@[simp] theorem aim_tlb (s : State) (k n : Nat) : (aim s k n).tlb = s.tlb := rfl
@[simp] theorem aim_nonleafs (s : State) (k n : Nat) : (aim s k n).nonleafs = s.nonleafs := rfl
@[simp] theorem aim_s2held (s : State) (k n : Nat) : (aim s k n).s2held = s.s2held := rfl
@[simp] theorem aim_tlbis (s : State) (k n : Nat) : (aim s k n).tlbis = s.tlbis := rfl
@[simp] theorem aim_heat (s : State) (k n : Nat) : (aim s k n).heat = s.heat := rfl
@[simp] theorem aim_moves (s : State) (k n : Nat) : (aim s k n).moves = s.moves := rfl
@[simp] theorem aim_trellis (s : State) (k n : Nat) : (aim s k n).trellis = s.trellis := rfl
@[simp] theorem aim_s2faults (s : State) (k n : Nat) : (aim s k n).s2faults = s.s2faults := rfl
@[simp] theorem aim_comms (s : State) (k n : Nat) : (aim s k n).comms = s.comms := rfl
@[simp] theorem aim_calls (s : State) (k n : Nat) : (aim s k n).calls = s.calls := rfl
@[simp] theorem aim_rwaits (s : State) (k n : Nat) : (aim s k n).rwaits = s.rwaits := rfl
@[simp] theorem aim_time (s : State) (k n : Nat) : (aim s k n).time = s.time := rfl
@[simp] theorem aim_clk (s : State) (k n : Nat) : (aim s k n).clk = s.clk := rfl
@[simp] theorem aim_pace (s : State) (k n : Nat) : (aim s k n).pace = s.pace := rfl
@[simp] theorem aim_cpace (s : State) (k n : Nat) : (aim s k n).cpace = s.cpace := rfl
@[simp] theorem aim_scheds (s : State) (k n : Nat) : (aim s k n).scheds = s.scheds := rfl
@[simp] theorem aim_wb (s : State) (k n : Nat) : (aim s k n).wb = s.wb := rfl
@[simp] theorem aim_cores (s : State) (k n : Nat) : (aim s k n).cores = s.cores := rfl
@[simp] theorem aim_ports (s : State) (k n : Nat) : (aim s k n).ports = s.ports := rfl
@[simp] theorem aim_domains (s : State) (k n : Nat) : (aim s k n).domains = s.domains := rfl
@[simp] theorem aim_tcbs (s : State) (k n : Nat) : (aim s k n).tcbs = s.tcbs := rfl
@[simp] theorem aim_peers (s : State) (k n : Nat) : (aim s k n).peers = s.peers := rfl
@[simp] theorem aim_notes (s : State) (k n : Nat) : (aim s k n).notes = s.notes := rfl
@[simp] theorem aim_prelim (s : State) (k n : Nat) : (aim s k n).prelim = s.prelim := rfl
@[simp] theorem aim_agelim (s : State) (k n : Nat) : (aim s k n).agelim = s.agelim := rfl
@[simp] theorem aim_errs (s : State) (k n : Nat) : (aim s k n).errs = s.errs := rfl
@[simp] theorem aim_scrubs (s : State) (k n : Nat) : (aim s k n).scrubs = s.scrubs := rfl
@[simp] theorem aim_repairs (s : State) (k n : Nat) : (aim s k n).repairs = s.repairs := rfl
@[simp] theorem aim_stopped (s : State) (k n : Nat) : (aim s k n).stopped = s.stopped := rfl
@[simp] theorem aim_doomed (s : State) (k n : Nat) : (aim s k n).doomed = s.doomed := rfl
@[simp] theorem aim_resets (s : State) (k n : Nat) : (aim s k n).resets = s.resets := rfl
@[simp] theorem aim_ready (s : State) (k n : Nat) : (aim s k n).ready = s.ready := rfl
@[simp] theorem aim_bootst (s : State) (k n : Nat) : (aim s k n).bootst = s.bootst := rfl
@[simp] theorem aim_caps (s : State) (k n : Nat) : (aim s k n).caps = s.caps := rfl
@[simp] theorem aim_leaving (s : State) (k n : Nat) : (aim s k n).leaving = s.leaving := rfl
@[simp] theorem aim_idkey (s : State) (k n : Nat) : (aim s k n).idkey = s.idkey := rfl
@[simp] theorem aim_obs (s : State) (k n : Nat) : (aim s k n).obs = s.obs := rfl
@[simp] theorem aim_dbarm (s : State) (k n : Nat) : (aim s k n).dbarm = s.dbarm := rfl
@[simp] theorem aim_dumps (s : State) (k n : Nat) : (aim s k n).dumps = s.dumps := rfl
@[simp] theorem aim_domidx (s : State) (k n : Nat) : (aim s k n).domidx = s.domidx := rfl
@[simp] theorem aim_routes (s : State) (k n : Nat) : (aim s k n).routes = s.routes := rfl
@[simp] theorem aim_mgmtEp (s : State) (k n : Nat) : (aim s k n).mgmtEp = s.mgmtEp := rfl
@[simp] theorem aim_held (s : State) (k n : Nat) : (aim s k n).held = s.held := rfl
@[simp] theorem aim_waits (s : State) (k n : Nat) : (aim s k n).waits = s.waits := rfl
@[simp] theorem aim_mgmtq (s : State) (k n : Nat) : (aim s k n).mgmtq = s.mgmtq := rfl
@[simp] theorem aim_outbox (s : State) (k n : Nat) : (aim s k n).outbox = s.outbox := rfl
@[simp] theorem aim_published (s : State) (k n : Nat) : (aim s k n).published = s.published := rfl
@[simp] theorem aim_lastOpen (s : State) (k n : Nat) : (aim s k n).lastOpen = s.lastOpen := rfl
@[simp] theorem aim_lastTicket (s : State) (k n : Nat) : (aim s k n).lastTicket = s.lastTicket := rfl
@[simp] theorem aim_nextPoll (s : State) (k n : Nat) : (aim s k n).nextPoll = s.nextPoll := rfl
@[simp] theorem aim_cur (s : State) (k n : Nat) : (aim s k n).cur = k := rfl
@[simp] theorem aim_path (s : State) (k n : Nat) : (aim s k n).path = n := rfl
@[simp] theorem aim_agenda (s : State) (k n : Nat) : (aim s k n).agenda = s.agenda := rfl
@[simp] theorem aim_cursor (s : State) (k n : Nat) : (aim s k n).cursor = s.cursor := rfl
@[simp] theorem aim_free (s : State) (k n : Nat) : (aim s k n).free = s.free := rfl
@[simp] theorem aim_serial (s : State) (k n : Nat) : (aim s k n).serial = s.serial := rfl
@[simp] theorem aim_stall (s : State) (k n : Nat) : (aim s k n).stall = none := rfl
@[simp] theorem aim_yielded (s : State) (k n : Nat) : (aim s k n).yielded = false := rfl

/-! ### A gang that moves on -/

@[simp] theorem Path.moved_slices (p : Path) (sp : Spot) : (p.moved sp).slices = p.slices := rfl
@[simp] theorem Path.moved_exec (p : Path) (sp : Spot) : (p.moved sp).exec = p.exec := rfl
@[simp] theorem Path.moved_spot (p : Path) (sp : Spot) : (p.moved sp).spot = sp := rfl
@[simp] theorem Path.moved_code (p : Path) (sp : Spot) : (p.moved sp).code = p.code := rfl
@[simp] theorem Path.moved_park (p : Path) (sp : Spot) : (p.moved sp).park = none := rfl
@[simp] theorem Path.moved_trap (p : Path) (sp : Spot) : (p.moved sp).trap = none := rfl
@[simp] theorem Path.moved_only (p : Path) (sp : Spot) : (p.moved sp).only = none := rfl
@[simp] theorem Path.moved_quiet (p : Path) (sp : Spot) : (p.moved sp).quiet = false := rfl
@[simp] theorem Path.moved_noinv (p : Path) (sp : Spot) : (p.moved sp).noinv = false := rfl
@[simp] theorem Path.moved_since (p : Path) (sp : Spot) : (p.moved sp).since = none := rfl
@[simp] theorem Path.moved_arrived (p : Path) (sp : Spot) : (p.moved sp).arrived = p.arrived := rfl
@[simp] theorem Path.moved_stop (p : Path) (sp : Spot) : (p.moved sp).stop = p.stop := rfl
@[simp] theorem Path.moved_wdog (p : Path) (sp : Spot) : (p.moved sp).wdog = p.wdog := rfl
@[simp] theorem Path.moved_latched (p : Path) (sp : Spot) : (p.moved sp).latched = p.latched := rfl
@[simp] theorem Path.moved_owes_boundary (p : Path) (n : Nat) : (p.moved (.boundary n)).owes = [] := rfl
@[simp] theorem Path.moved_owes_inside (p : Path) (off : Nat) (h : IWord) (pc : Nat) : (p.moved (.inside off h pc)).owes = p.owes := rfl

end Sys2Proof.Machine
end

