-- ==== Sys2Proof/Tests/Slice0.lean ====
section
/-! SUPPORT. The smoke tests: ill-formed terms, words of the encoding tables, small single steps, and for each obligation
a state and operands that meet its hypotheses. Expected values come from the spec's tables and rules, worked by hand. -/

namespace Sys2Proof.Tests
open Sys2Proof.Machine
set_option Elab.async false

/-! ### WellFormed refuses what a row's limits exclude -/

theorem test_rdsr_number : wellFormed (.rdsr 1 0x24 0) = false := by decide
theorem test_wrsr_read_only : wellFormed (.wrsr 1 0x14) = false := by decide
theorem test_atom_add_float_type : wellFormed (.atomAdd 1 2 3 0 .rlx .grp .f32) = false := by decide
theorem test_atom_and_signed_type : wellFormed (.atomAnd 1 2 3 0 .rlx .grp .s32) = false := by decide
theorem test_atom_fadd_integer_type : wellFormed (.atomFadd 1 2 3 0 .rlx .grp .n32) = false := by decide
theorem test_fexp2_f64 : wellFormed (.fexp2 1 2 0 .f64) = false := by decide
theorem test_ordkey_f64 : wellFormed (.ordkey 1 2 3 0 false .f64) = false := by decide
theorem test_mms_s8 : wellFormed (.mms 1 2 3 0 .arr .s8 3 3 3) = false := by decide
theorem test_mma_k_steps : wellFormed (.mma 0 1 2 false 15 2 1 0 false 0 0) = false := by decide
theorem test_mma_scaled_block : wellFormed (.mma 0 1 2 false 15 7 0 0 true 3 4) = false := by decide
theorem test_mma_unscaled_scale : wellFormed (.mma 0 1 2 false 15 3 0 0 false 3 0) = false := by decide
theorem test_mmag_k_steps : wellFormed (.mmag 0 1 2 false 15 2 1 0 3) = false := by decide
theorem test_xbfly_distance : wellFormed (.xbfly 1 2 0 3) = false := by decide
theorem test_xshift_distance : wellFormed (.xshift 1 2 0 64) = false := by decide
theorem test_xbcast_lane : wellFormed (.xbcast 1 2 0 64) = false := by decide
theorem test_cvt_saturation : wellFormed (.cvt 1 2 0 true .rne .f16 .f32) = false := by decide
theorem test_grow_zero : wellFormed (.grow 0) = false := by decide
theorem test_shrink_zero : wellFormed (.shrink 0) = false := by decide
theorem test_tlbi_all_with_register : wellFormed (.tlbi 7 true) = false := by decide
theorem test_copy_view_register : wellFormed (.copy 1 16 true false .rne) = false := by decide
theorem test_cvstat_field : wellFormed (.cvstat 1 0 6) = false := by decide
theorem test_xbfly_width : widthOk 16 (.xbfly 1 2 0 16) = false := by decide
theorem test_xbcast_width : widthOk 16 (.xbcast 1 2 0 16) = false := by decide
/-! ### Words of the encoding tables (R101 to R105, R194 to R211), field by field -/

/-- OPC 0x01 to 0x12 (R101, R105): D 3, A 1, B 2, CC 1. -/
theorem test_words_integer :
    decodeWords 0x02182113 none = .ok (.iadd 3 1 2 1 .s32) ∧
    decodeWords 0x04182113 none = .ok (.isub 3 1 2 1 .s32) ∧
    decodeWords 0x06182113 none = .ok (.imul 3 1 2 1 .s32) ∧
    decodeWords 0x08182113 none = .ok (.imulh 3 1 2 1 .s32) ∧
    decodeWords 0x0A182113 none = .ok (.imac 3 1 2 1 .s32) ∧
    decodeWords 0x0C182111 none = .ok (.idiv 3 1 2 1 .s64) ∧
    decodeWords 0x0C182116 none = .ok (.irem 3 1 2 1 .n32) ∧
    decodeWords 0x0E182110 none = .ok (.imin 3 1 2 1 .n64) ∧
    decodeWords 0x0E182115 none = .ok (.imax 3 1 2 1 .s64) ∧
    decodeWords 0x10182111 none = .ok (.iadds 3 1 2 1 .s64) ∧
    decodeWords 0x12182112 none = .ok (.iaddc 3 1 2 1 .b32) := by decide

/-- OPC 0x0A and 0x0B. -/
theorem test_words_unary :
    decodeWords 0x15FC0070 none = .ok (.inegB64 63 32 7) ∧
    decodeWords 0x15FC0071 none = .ok (.iabsB64 63 32 7) ∧
    decodeWords 0x15FC0072 none = .ok (.notB64 63 32 7) ∧
    decodeWords 0x15FC0073 none = .ok (.popcB64 63 32 7) ∧
    decodeWords 0x15FC0074 none = .ok (.clzB64 63 32 7) ∧
    decodeWords 0x15FC0075 none = .ok (.ctzB64 63 32 7) ∧
    decodeWords 0x15FC0076 none = .ok (.brevB64 63 32 7) ∧
    decodeWords 0x15FC0077 none = .ok (.bswapB64 63 32 7) ∧
    decodeWords 0x15FC0078 none = .ok (.movB64 63 32 7) ∧
    decodeWords 0x17FC0070 none = .ok (.inegB32 63 32 7) ∧
    decodeWords 0x17FC0071 none = .ok (.iabsB32 63 32 7) ∧
    decodeWords 0x17FC0072 none = .ok (.notB32 63 32 7) ∧
    decodeWords 0x17FC0073 none = .ok (.popcB32 63 32 7) ∧
    decodeWords 0x17FC0074 none = .ok (.clzB32 63 32 7) ∧
    decodeWords 0x17FC0075 none = .ok (.ctzB32 63 32 7) ∧
    decodeWords 0x17FC0076 none = .ok (.brevB32 63 32 7) ∧
    decodeWords 0x17FC0077 none = .ok (.bswapB32 63 32 7) := by decide

/-- OPC 0x0C to 0x12. -/
theorem test_words_shifts_logic :
    decodeWords 0x18182112 none = .ok (.shl 3 1 2 1 .b32) ∧
    decodeWords 0x18182116 none = .ok (.shr 3 1 2 1 .b32) ∧
    decodeWords 0x1818211A none = .ok (.sar 3 1 2 1 .b32) ∧
    decodeWords 0x1818211E none = .ok (.rot 3 1 2 1 .b32) ∧
    decodeWords 0x1A182110 none = .ok (.andb 3 1 2 1 .b64) ∧
    decodeWords 0x1A182114 none = .ok (.orb 3 1 2 1 .b64) ∧
    decodeWords 0x1A182118 none = .ok (.xorb 3 1 2 1 .b64) ∧
    decodeWords 0x1A18211C none = .ok (.andn 3 1 2 1 .b64) ∧
    decodeWords 0x1C182113 none = .ok (.bfx 3 1 2 1 .s32) ∧
    decodeWords 0x1E182112 none = .ok (.bfi 3 1 2 1 .b32) ∧
    decodeWords 0x2018211C none = .ok (.icmp 3 1 2 1 .b32 .ltn) ∧
    decodeWords 0x22182115 none = .ok (.sel 3 1 2 1 5) ∧
    decodeWords 0x24182119 none = .ok (.lea 3 1 2 1 9) := by decide

/-- OPC 0x13 to 0x19: constant 0x1234 lies in A (bits 15:10) and IMM (bits 9:0). -/
theorem test_words_constants :
    decodeWords 0x26288234 none = .ok (.movi 5 0 0x1234) ∧
    decodeWords 0x28288A34 none = .ok (.movhi 5 2 0x1234) ∧
    decodeWords 0x2A1827FE none = .ok (.iaddi 3 1 1 0x3FE) ∧
    decodeWords 0x2C1827FE none = .ok (.andi 3 1 1 0x3FE) ∧
    decodeWords 0x2E1827FE none = .ok (.ori 3 1 1 0x3FE) ∧
    decodeWords 0x301827FE none = .ok (.xori 3 1 1 0x3FE) ∧
    decodeWords 0x3218243F none = .ok (.shli 3 1 1 63) := by decide

/-- OPC 0x20 to 0x23. -/
theorem test_words_shape_mask :
    decodeWords 0x40182010 none = .ok (.unif 3 1 1) ∧
    decodeWords 0x40182011 none = .ok (.matz 3 1 1) ∧
    decodeWords 0x40182112 none = .ok (.affine 3 1 2 1) ∧
    decodeWords 0x40182013 none = .ok (.shape 3 1 1) ∧
    decodeWords 0x42182100 none = .ok (.mand 3 1 2) ∧
    decodeWords 0x42182101 none = .ok (.mor 3 1 2) ∧
    decodeWords 0x42182102 none = .ok (.mxor 3 1 2) ∧
    decodeWords 0x42182103 none = .ok (.mandn 3 1 2) ∧
    decodeWords 0x42182004 none = .ok (.mnot 3 1) ∧
    decodeWords 0x44182010 none = .ok (.mpopc 3 1 1) ∧
    decodeWords 0x44182011 none = .ok (.mfirst 3 1 1) ∧
    decodeWords 0x44182002 none = .ok (.mfrom 3 1) ∧
    decodeWords 0x44182013 none = .ok (.mto 3 1 1) ∧
    decodeWords 0x44182014 none = .ok (.ballot 3 1 1) ∧
    decodeWords 0x46180000 none = .ok (.exget 3) ∧
    decodeWords 0x46002001 none = .ok (.exset 1) ∧
    decodeWords 0x46182002 none = .ok (.mset 3 1) := by decide

/-- OPC 0x24 to 0x29. -/
theorem test_words_lane_exchange :
    decodeWords 0x48182110 none = .ok (.xlane 3 1 2 1) ∧
    decodeWords 0x4A182408 none = .ok (.xbfly 3 1 1 8) ∧
    decodeWords 0x4C1827C1 none = .ok (.xshift 3 1 1 0x3C1) ∧
    decodeWords 0x4E18243F none = .ok (.xbcast 3 1 1 63) ∧
    decodeWords 0x50182016 none = .ok (.scanadd 3 1 1 true .n32) ∧
    decodeWords 0x52182011 none = .ok (.greduceAdd 3 1 1 .s64) ∧
    decodeWords 0x52182015 none = .ok (.greduceMin 3 1 1 .s64) ∧
    decodeWords 0x52182019 none = .ok (.greduceMax 3 1 1 .s64) := by decide

/-- OPC 0x2C to 0x31, 0x36 to 0x39, 0x3B and 0x3D: RM in SUB[3:2], FT in SUB[1:0]. -/
theorem test_words_float_rounding :
    decodeWords 0x58202110 none = .ok (.fadd 4 1 2 1 .rne .f16) ∧
    decodeWords 0x5A202115 none = .ok (.fsub 4 1 2 1 .rtz .bf16) ∧
    decodeWords 0x5C20211A none = .ok (.fmul 4 1 2 1 .rup .f32) ∧
    decodeWords 0x5E20211F none = .ok (.fma 4 1 2 1 .rdn .f64) ∧
    decodeWords 0x60202112 none = .ok (.fms 4 1 2 1 .rne .f32) ∧
    decodeWords 0x62202116 none = .ok (.fnma 4 1 2 1 .rtz .f32) ∧
    decodeWords 0x7220211B none = .ok (.fdiv 4 1 2 1 .rup .f64) ∧
    decodeWords 0x7A20211C none = .ok (.fscaleb 4 1 2 1 .rdn .f16) ∧
    decodeWords 0x6C202016 none = .ok (.frcp 4 1 1 .rtz .f32) ∧
    decodeWords 0x6E202016 none = .ok (.frsq 4 1 1 .rtz .f32) ∧
    decodeWords 0x70202016 none = .ok (.fsqrt 4 1 1 .rtz .f32) ∧
    decodeWords 0x76202016 none = .ok (.frnd 4 1 1 .rtz .f32) := by decide

/-- OPC 0x32 to 0x35, 0x3A, 0x3C and 0x3E to 0x41; cvt is long. -/
theorem test_words_float_other :
    decodeWords 0x64202113 none = .ok (.fmin 4 1 2 1 .f64) ∧
    decodeWords 0x64202117 none = .ok (.fmax 4 1 2 1 .f64) ∧
    decodeWords 0x6420211B none = .ok (.fminm 4 1 2 1 .f64) ∧
    decodeWords 0x6420211F none = .ok (.fmaxm 4 1 2 1 .f64) ∧
    decodeWords 0x66202012 none = .ok (.fabs 4 1 1 .f32) ∧
    decodeWords 0x66202016 none = .ok (.fneg 4 1 1 .f32) ∧
    decodeWords 0x6620211A none = .ok (.fcopysign 4 1 2 1 .f32) ∧
    decodeWords 0x68202119 none = .ok (.fcmp 4 1 2 1 .le .bf16) ∧
    decodeWords 0x6A202010 none = .ok (.fclass 4 1 1 .f16) ∧
    decodeWords 0x74202012 none = .ok (.fexp2 4 1 1 .f32) ∧
    decodeWords 0x74202016 none = .ok (.flog2 4 1 1 .f32) ∧
    decodeWords 0x7420201A none = .ok (.fsin 4 1 1 .f32) ∧
    decodeWords 0x7420201E none = .ok (.fcos 4 1 1 .f32) ∧
    decodeWords 0x78202013 none = .ok (.ffrac 4 1 1 .f64) ∧
    decodeWords 0x7C010120 (some 0x00060402) = .ok (.cvt 4 1 1 true .rup .e4m3 .f32) ∧
    decodeWords 0x7E202110 none = .ok (.packF16x2 4 1 2 1) ∧
    decodeWords 0x7E202111 none = .ok (.packBf16x2 4 1 2 1) ∧
    decodeWords 0x7E202012 none = .ok (.unpackLoF16x2 4 1 1) ∧
    decodeWords 0x7E202013 none = .ok (.unpackHiF16x2 4 1 1) ∧
    decodeWords 0x7E202014 none = .ok (.unpackLoBf16x2 4 1 1) ∧
    decodeWords 0x7E202015 none = .ok (.unpackHiBf16x2 4 1 1) ∧
    decodeWords 0x8020211A none = .ok (.ordkey 4 1 2 1 true .f32) ∧
    decodeWords 0x82202111 none = .ok (.packedFadd 4 1 2 1 true) ∧
    decodeWords 0x82202115 none = .ok (.packedFsub 4 1 2 1 true) ∧
    decodeWords 0x82202119 none = .ok (.packedFmul 4 1 2 1 true) ∧
    decodeWords 0x8220211D none = .ok (.packedFma 4 1 2 1 true) := by decide

/-- OPC 0x48 to 0x56, 0x5A and 0x5B. -/
theorem test_words_loads_stores :
    decodeWords 0x90190545 none = .ok (.ldN8 3 8 1 (some .clu) 5) ∧
    decodeWords 0x92190545 none = .ok (.ldN16 3 8 1 (some .clu) 5) ∧
    decodeWords 0x94190545 none = .ok (.ldN32 3 8 1 (some .clu) 5) ∧
    decodeWords 0x96190545 none = .ok (.ldN64 3 8 1 (some .clu) 5) ∧
    decodeWords 0x98190545 none = .ok (.ldS8 3 8 1 (some .clu) 5) ∧
    decodeWords 0x9A190545 none = .ok (.ldS16 3 8 1 (some .clu) 5) ∧
    decodeWords 0x9C190545 none = .ok (.ldS32 3 8 1 (some .clu) 5) ∧
    decodeWords 0x9E190282 none = .ok (.stB8 3 8 (some .dev) 2) ∧
    decodeWords 0xA0190282 none = .ok (.stB16 3 8 (some .dev) 2) ∧
    decodeWords 0xA2190282 none = .ok (.stB32 3 8 (some .dev) 2) ∧
    decodeWords 0xA4190282 none = .ok (.stB64 3 8 (some .dev) 2) ∧
    decodeWords 0xA619041F none = .ok (.lduN64 3 8 1 none 31) ∧
    decodeWords 0xA810C020 (some 0xFFFFFFFE) = .ok (.ldlit 3 1 true 0xFFFFFFFE) ∧
    decodeWords 0xAA190491 none = .ok (.ldv 3 8 9 1 true) ∧
    decodeWords 0xAC190480 none = .ok (.stv 3 8 9) ∧
    decodeWords 0xB4190000 none = .ok (.stspill 3 8) ∧
    decodeWords 0xB6190000 none = .ok (.ldspill 3 8) := by decide

/-- OPC 0x57 to 0x59, with second words (R104). -/
theorem test_words_atomics :
    decodeWords 0xAE00C120 (some 0x080CB000) = .ok (.atomAdd 3 1 2 1 .ar .team .s64) ∧
    decodeWords 0xAE10C120 (some 0x080CA000) = .ok (.atomAnd 3 1 2 1 .ar .team .n64) ∧
    decodeWords 0xAE20C120 (some 0x080C8000) = .ok (.atomOr 3 1 2 1 .ar .team .n32) ∧
    decodeWords 0xAE30C120 (some 0x080CA000) = .ok (.atomXor 3 1 2 1 .ar .team .n64) ∧
    decodeWords 0xAE40C120 (some 0x080C9000) = .ok (.atomMin 3 1 2 1 .ar .team .s32) ∧
    decodeWords 0xAE50C120 (some 0x080C8000) = .ok (.atomMax 3 1 2 1 .ar .team .n32) ∧
    decodeWords 0xAE60C120 (some 0x080CA000) = .ok (.atomExch 3 1 2 1 .ar .team .n64) ∧
    decodeWords 0xAE70C120 (some 0x085B2000) = .ok (.atomCas 3 1 2 5 1 .rel .sys .n64) ∧
    decodeWords 0xAE80C120 (some 0x0806C000) = .ok (.atomFadd 3 1 2 1 .acq .dom .f32) ∧
    decodeWords 0xB0000100 (some 0x080CB000) = .ok (.atomnAdd 1 2 .ar .team .s64) ∧
    decodeWords 0xB0100100 (some 0x080CA000) = .ok (.atomnAnd 1 2 .ar .team .n64) ∧
    decodeWords 0xB0200100 (some 0x080C8000) = .ok (.atomnOr 1 2 .ar .team .n32) ∧
    decodeWords 0xB0300100 (some 0x080CA000) = .ok (.atomnXor 1 2 .ar .team .n64) ∧
    decodeWords 0xB0400100 (some 0x080C9000) = .ok (.atomnMin 1 2 .ar .team .s32) ∧
    decodeWords 0xB0500100 (some 0x080C8000) = .ok (.atomnMax 1 2 .ar .team .n32) ∧
    decodeWords 0xB0800100 (some 0x08006000) = .ok (.atomnFadd 1 2 .rlx .grp .f16x2) ∧
    decodeWords 0xB2300100 (some 0x0805A000) = .ok (.waitv .gen 1 2 (some .die) true) := by decide

/-- OPC 0x5C to 0x65. -/
theorem test_words_control :
    decodeWords 0xB800000C none = .ok (.br 12) ∧
    decodeWords 0xB87FFFFF none = .ok (.brNz 7 0x7FFFF) ∧
    decodeWords 0xB8980009 none = .ok (.brZ 3 9) ∧
    decodeWords 0xBA180009 none = .ok (.brcAny 3 9) ∧
    decodeWords 0xBA580009 none = .ok (.brcAll 3 9) ∧
    decodeWords 0xBA980009 none = .ok (.brcNone 3 9) ∧
    decodeWords 0xBC000009 none = .ok (.brz 9) ∧
    decodeWords 0xBE000009 none = .ok (.call 9) ∧
    decodeWords 0xC0000000 none = .ok (.ret) ∧
    decodeWords 0xC2042000 none = .ok (.jmpi 33) ∧
    decodeWords 0xC4000000 none = .ok (.regang) ∧
    decodeWords 0xC6000000 none = .ok (.yield) ∧
    decodeWords 0xC8000000 none = .ok (.exit) ∧
    decodeWords 0xCA000000 none = .ok (.nop) := by decide

/-- OPC 0x68 to 0x6F. -/
theorem test_words_synchronisation :
    decodeWords 0xD00B0000 none = .ok (.bar 11) ∧
    decodeWords 0xD21B0000 none = .ok (.arriveTeam 11) ∧
    decodeWords 0xD22B0000 none = .ok (.arriveClu 11) ∧
    decodeWords 0xD41B0000 none = .ok (.waitbTeam 11) ∧
    decodeWords 0xD42B0000 none = .ok (.waitbClu 11) ∧
    decodeWords 0xD6080100 none = .ok (.waitf 0x801) ∧
    decodeWords 0xD8085000 none = .ok (.waitc .x 5) ∧
    decodeWords 0xDA0E0000 none = .ok (.fence .ar .dev) ∧
    decodeWords 0xDC000000 none = .ok (.rfence) ∧
    decodeWords 0xDC100000 none = .ok (.ifence) ∧
    decodeWords 0xDE027000 none = .ok (.sigdec 9 .sys) := by decide

/-- OPC 0x70 to 0x76. -/
theorem test_words_system :
    decodeWords 0xE0000007 none = .ok (.trap 7) ∧
    decodeWords 0xE0100000 none = .ok (.tret) ∧
    decodeWords 0xE0200002 none = .ok (.bkpt 2) ∧
    decodeWords 0xE0314021 none = .ok (.trmark 5 0x21) ∧
    decodeWords 0xE2011440 none = .ok (.rdsr 4 0x14 2) ∧
    decodeWords 0xE2119500 none = .ok (.wrsr 6 0x15) ∧
    decodeWords 0xE4040000 none = .ok (.grow 2) ∧
    decodeWords 0xE4120000 none = .ok (.shrink 1) ∧
    decodeWords 0xE6010920 none = .ok (.enq 4 9 1) ∧
    decodeWords 0xE801C000 none = .ok (.tlbi 7 false) ∧
    decodeWords 0xE8002000 none = .ok (.tlbi 0 true) ∧
    decodeWords 0xE8100000 none = .ok (.tlbsync) ∧
    decodeWords 0xEA024060 none = .ok (.poolget 9 3) ∧
    decodeWords 0xEC000300 none = .ok (.setratel 3) ∧
    decodeWords 0xEC110320 none = .ok (.rdcost 4 3 1) := by decide

/-- OPC 0x78 and 0x79 (R194 to R199): the words of the strips and of the printed examples. -/
theorem test_words_matrix :
    decodeWords 0xF0151540 (some 0x70780580) = .ok (.mmag 20 21 2 false 7 7 2 0 22) ∧
    decodeWords 0xF0051550 (some 0xF034979F) = .ok (.mma 20 21 2 true 15 3 1 4 true 30 31) ∧
    decodeWords 0xF0210100 (some 0x08020B6C) = .ok (.mms 4 1 2 0 .auto .bf16 3 3 3) ∧
    decodeWords 0xF2060000 (some 0x00000000) = .ok (.mzero 3) ∧
    decodeWords 0xF21180A0 (some 0xC9900000) = .ok (.mlda 6 5 100 200) ∧
    decodeWords 0xF2218020 (some 0x01010000) = .ok (.msta 6 1 0 128 true) ∧
    decodeWords 0xF2324020 (some 0x21400000) = .ok (.mrow 9 1 1 5 0) ∧
    decodeWords 0xF2400000 (some 0x00000000) = .ok (.mfence) := by decide

/-- OPC 0x7A and 0x7B (R200 to R211). -/
theorem test_words_transfers_views :
    decodeWords 0xF4018700 (some 0x00000000) = .ok (.copy 6 7 false false .rne) ∧
    decodeWords 0xF4018280 (some 0x00000000) = .ok (.copy 6 2 true false .rne) ∧
    decodeWords 0xF4118700 (some 0x20000000) = .ok (.copyg 6 7 8 false .rne) ∧
    decodeWords 0xF4228B00 (some 0x30000000) = .ok (.ccolAllreduce 10 11 12 .add) ∧
    decodeWords 0xF4228B00 (some 0x30A00000) = .ok (.ccolRedscat 10 11 12 .max) ∧
    decodeWords 0xF4228B00 (some 0x31000000) = .ok (.ccolAllgather 10 11 12) ∧
    decodeWords 0xF4228B00 (some 0x31800000) = .ok (.ccolBcast 10 11 12) ∧
    decodeWords 0xF4228B00 (some 0x32000000) = .ok (.ccolAlltoall 10 11 12) ∧
    decodeWords 0xF6030500 (some 0x00000000) = .ok (.vopen 3 5) ∧
    decodeWords 0xF6130000 (some 0x00000000) = .ok (.vretire 3) ∧
    decodeWords 0xF6210300 (some 0x00000002) = .ok (.vinfo 4 3 0 2) ∧
    decodeWords 0xF6310220 (some 0x00000003) = .ok (.vaddr 4 2 3 1) ∧
    decodeWords 0xF641C000 (some 0x00000000) = .ok (.stcov 7) ∧
    decodeWords 0xF6510020 (some 0x00000003) = .ok (.cvstat 4 1 3) := by decide

/-- OPC 0x7C to 0x7E. -/
theorem test_words_tools :
    decodeWords 0xF9FFFFFF none = .ok (.toolx 0x1FFFFFF) ∧
    decodeWords 0xFA000000 none = .ok (.trampret) ∧
    decodeWords 0xFC000003 none = .ok (.tramp 3) := by decide

theorem test_words_refused :
    decodeWords 0x00000000 none = .bad .opcode ∧ decodeWords 0xFE000000 none = .bad .opcode ∧
    (∀ w ∈ [0x34000000, 0x02182117, 0x12182111, 0x14000080, 0x90000020, 0x900000E0, 0xCA000001, 0xE0400000, 0xE4000000, 0xFA000001],
      ∀ i, decodeWords w none ≠ .ok i) ∧
    decodeWords 0xF0000000 none = .bad .straddle := by
  refine ⟨by decide, by decide, ?_, by decide⟩
  intro w hw
  have h : (match decodeWords w none with | .ok _ => false | .bad _ => true) = true := by revert hw w; decide
  intro i hi
  rw [hi] at h
  cases h

/-- A word as the opcode table numbers its bits, the second word above the first. -/
theorem test_table_words :
    decodeTableWord 32 0x02182113 = some (.iadd 3 1 2 1 .s32) ∧ decodeTableWord 64 0x00000000F6030500 = some (.vopen 3 5) ∧
    decodeTableWord 32 0xF6030500 = some (.vopen 3 5) := by decide

/-! ### A small part: one group of 16 lanes, its registers U, persistent and LIVE in its four slices -/

def demoCode : Code := ⟨0x10000, 16, .supervisor⟩
/-- A clause of three words, its gang at the first. -/
def demoPath : Path where
  slices := 0xF
  exec := 0xFFFF
  spot := .inside 0 (seedHeader 0 3) 1
  code := demoCode
  park := none
  trap := none
  only := none
  quiet := false
  noinv := false
  since := none
  owes := []
  arrived := 0
  stop := .none
  wdog := false
  latched := false

def demoRegs (v : Nat → Word) : Vector VReg 64 := Vector.ofFn fun i => ⟨.uni (v i), 0x8888⟩
def demoGroup (v : Nat → Word) : Group where
  team := 0
  gid := 0
  w := 16
  ten := 0
  regs := demoRegs v
  masks := Vector.replicate 8 0
  live := 0xFFFF
  views := Vector.replicate 16 none
  allot := 64
  budget := 5000
  ratel := 0
  mstat := 0
  fstat := 0
  fpinv := false
  tvec := 0
  tlink := Vector.replicate 16 0
  rstack := Vector.replicate 16 []
  paths := (Vector.replicate 16 none).set 0 (some demoPath)
  last := 15
  ops := []
  closed := []
  nbatch := 0
  reports := []
  recs := []
  handler := none
  wcount := 0
  tried := []
  wlast := 0
  barAt := Vector.replicate 32 0
  points := []
  rpoison := []

/-- A page of HBM at VA 0x10000 for every use, for core 0 and for the front end, one at 0x20000 for reading alone, an entry at
0x30000 that is not valid for either, and a page of Silo at 0x40000. -/
def demoTlb : List TlbEntry :=
  [{ seedTlb with wr := true }, { seedTlb with base := 0x20000, wr := false, x := { Xlate.none with pa := hbmBase + 0x10000 } },
    { seedTlb with base := 0x30000, code := 1, rd := false, x := Xlate.none },
    { seedTlb with base := 0x40000, wr := true, x := Xlate.none }, { seedTlb with die := dieOf feCore, wr := true },
    { seedTlb with die := dieOf feCore, base := 0x30000, code := 1, rd := false, x := Xlate.none }]
def demoCaps : Caps := ⟨0xFFFFFFFFFFFFFFFF, 0xFF, List.replicate 8 0x30FFFFFFFF, 0xFFFF, 0xFFFF⟩
def demoState (g : Group) : State :=
  { State.reset with
    groups := [(0, g)], teams := [(0, seedTeam 1 State.reset)], launches := [(1, seedLaunch 0x10000 2)], trees := [(2, ⟨1, 1, 0⟩)],
    serial := 3, tlb := demoTlb, owner := [(0, 0)], caps := demoCaps, ready := 0x3F }
def demo (v : Nat → Word) : State := demoState (demoGroup v)

theorem popcount_le : ∀ n x : Nat, popcount n x ≤ n
  | 0, _ => Nat.le_refl 0
  | n + 1, x => by
    have := popcount_le n (x / 2)
    have h : popcount (n + 1) x = x % 2 + popcount n (x / 2) := rfl
    omega

theorem units_le (r : VReg) : r.units ≤ 64 := by
  unfold VReg.units VReg.liveCount
  split
  · omega
  · omega
  · exact popcount_le _ _
  · omega

theorem storageFrom_le (h : Bool) (n : Nat) : ∀ (l : List VReg) (i : Nat), storageFrom h n i l ≤ 64 * l.length
  | [], _ => Nat.le_refl 0
  | r :: t, i => by
    have h1 := storageFrom_le h n t (i + 1)
    have h2 := units_le r
    simp only [storageFrom, List.length_cons]
    split <;> omega

/-- No register file exceeds a budget of 4,096. -/
theorem storage_le (g : Group) : g.storage ≤ 4096 := by
  have h := storageFrom_le g.handler.isSome g.allot g.regs.toList 0
  have h2 : g.regs.toList.length = 64 := by simp
  rw [h2] at h
  exact h

theorem roomy (g0 g1 : Group) (h : 4096 ≤ g0.budget) : overBudget g0 g1 = false := by
  have := storage_le g1
  unfold overBudget
  simp only [Bool.and_eq_false_iff, decide_eq_false_iff_not]
  omega

/-- Such a group passes the checks of every instruction that names no register run beyond its limit. -/
theorem clear_of {s : State} {g : Group} {p : Path} {v : Nat → Word} (u : Use) (c : curGang s = some (g, p)) (l : p.code.level ≠ .user)
    (o : g.ops = []) (q : g.reports = []) (h : g.handler = none) (a : g.allot = 64) (r : g.regs = demoRegs v) (m : g.rpoison = [])
    (b : u.beyond = false) (z : p.slices = 0xF := by rfl) : Clear u s g p where
  gang := c
  level := fun _ => l
  settled := fun x _ => by simp [Group.isHeld, o]
  low := fun x => by simp [h] at x
  report := fun x hx => by simp [q] at hx
  fits := b
  range := fun x _ => by have := x.isLt; omega
  uni := fun x _ => by simp [Group.reg, r, demoRegs, Shape.isUni]
  live := by
    refine Or.inr fun x _ sl hs hi => ?_
    have e : (g.reg x).nib = 0x8888 := by simp [Group.reg, r, demoRegs]
    simp only [VReg.live, e]
    rw [z] at hi
    exact (by decide : ∀ sl < 16, inSlices 0xF sl = true → decide (nibble 0x8888 sl ≥ 8) = true) sl hs hi
  clean := fun x _ => by simp [m, tget]

/-- An instruction that names no register. -/
theorem clear_none {s : State} {g : Group} {p : Path} (n : Nat) (c : curGang s = some (g, p)) : Clear { rd := [], len := n } s g p where
  gang := c
  level := fun h => by cases h
  settled := fun x hx => by cases hx
  low := fun _ => Or.inr fun x hx => by cases hx
  report := fun _ _ _ x hx => by cases hx
  fits := rfl
  range := fun x hx => by cases hx
  uni := fun x hx => by cases hx
  live := Or.inr fun x hx => by cases hx
  clean := fun x hx => by cases hx

theorem demo_clear (u : Use) (v : Nat → Word) (b : u.beyond = false) : Clear u (demo v) (demoGroup v) demoPath :=
  clear_of (v := v) u rfl (by decide) rfl rfl rfl rfl rfl rfl b

theorem released_budget (g : Group) (p : Path) (u : Use) : (released g p u).budget = g.budget := by
  rw [released_only g p u]

theorem demo_budget (u : Use) (d : VR) (cc : CC) (s : State) (g : Group) (p : Path) (sh : Option Shape) (f : Nat → Word)
    (h : 4096 ≤ g.budget) : WithinBudget u d cc s g p sh f :=
  roomy _ _ (by rw [released_budget]; exact h)

/-- What the register statements assume: for operands of every kind there is a state that meets it. -/
def Met (i : Instr) (u : Use) (d : VR) (cc : CC) : Prop :=
  ∃ s g p, Clear u s g p ∧ widthOk g.w i = true ∧ (∀ sh f, WithinBudget u d cc s g p sh f) ∧ g.fpinv = false ∧ p.active ≠ 0

theorem met (i : Instr) (u : Use) (d : VR) (cc : CC) (h : widthOk 16 i = true) (b : u.beyond = false := by rfl) : Met i u d cc :=
  ⟨demo fun _ => 7, demoGroup fun _ => 7, demoPath, demo_clear u _ b, h, fun _ _ => demo_budget _ _ _ _ _ _ _ _ (by decide), rfl,
    by decide⟩

/-- Register d of group 0 after an answer. -/
def regOf (r : Result) (d : VR) : Option Shape :=
  match r with
  | .next s => (tget s.groups 0).map fun g => (g.reg d).val
  | .fault _ => none
  | .refused _ => none
/-! ### Single instructions, by hand calculation -/

/-- v1 and v2 of the demo group. -/
def two (a b : Word) : State := demo fun i => if i = 1 then a else if i = 2 then b else 0
/-- The result that a two-operand row writes to v3. -/
def res (i : Instr) (a b : Word) : Option Shape := regOf (exec i (two a b)) 3

theorem test_iadd_s32_wraps : res (.iadd 3 1 2 0 .s32) 0x7FFFFFFF 1 = some (.uni 0xFFFFFFFF80000000) := by decide +kernel
theorem test_isub_n32_borrows : res (.isub 3 1 2 0 .n32) 0 1 = some (.uni 0xFFFFFFFF) := by decide +kernel
theorem test_imulh_n64 : res (.imulh 3 1 2 0 .n64) 0xFFFFFFFFFFFFFFFF 0xFFFFFFFFFFFFFFFF = some (.uni 0xFFFFFFFFFFFFFFFE) := by decide +kernel
theorem test_imulh_s32 : res (.imulh 3 1 2 0 .s32) 0xFFFFFFFF 2 = some (.uni 0xFFFFFFFFFFFFFFFF) := by decide +kernel
theorem test_idiv_by_zero : res (.idiv 3 1 2 0 .s32) 7 0 = some (.uni 0xFFFFFFFFFFFFFFFF) := by decide +kernel
theorem test_idiv_most_negative : res (.idiv 3 1 2 0 .s64) 0x8000000000000000 0xFFFFFFFFFFFFFFFF = some (.uni 0x8000000000000000) := by decide +kernel
theorem test_irem_sign : res (.irem 3 1 2 0 .s64) 0xFFFFFFFFFFFFFFF9 2 = some (.uni 0xFFFFFFFFFFFFFFFF) := by decide +kernel
theorem test_iadds_top : res (.iadds 3 1 2 0 .s64) 0x7FFFFFFFFFFFFFFF 1 = some (.uni 0x7FFFFFFFFFFFFFFF) := by decide +kernel
theorem test_iaddc_carry : res (.iaddc 3 1 2 0 .b64) 0xFFFFFFFFFFFFFFFF 1 = some (.uni 1) := by decide +kernel
theorem test_sar_amount : res (.sar 3 1 2 0 .b32) 0x80000000 33 = some (.uni 0xC0000000) := by decide +kernel
theorem test_bfx_sign : res (.bfx 3 1 2 0 .s32) 0xF0 0x404 = some (.uni 0xFFFFFFFFFFFFFFFF) := by decide +kernel
theorem test_icmp_signed : res (.icmp 3 1 2 0 .b32 .lts) 0xFFFFFFFF 0 = some (.uni 1) := by decide +kernel
theorem test_bswap : res (.bswapB32 3 1 0) 0x11223344 0 = some (.uni 0x44332211) := by decide +kernel
theorem test_clz_b32 : res (.clzB32 3 1 0) 1 0 = some (.uni 31) := by decide +kernel
theorem test_movhi : regOf (exec (.movhi 3 0 0xBEEF) (demo fun _ => 0x123456789ABC)) 3 = some (.uni 0x123456789ABCBEEF) := by decide +kernel
theorem test_lea_affine : res (.lea 3 1 2 0 3) 0x1000 5 = some (.uni 0x1028) := by decide +kernel
theorem test_affine_lanes : res (.affine 3 1 2 0) 100 8 = some (.aff 100 8) := by decide +kernel
theorem test_greduce_add : res (.greduceAdd 3 1 0 .n64) 7 0 = some (.uni 112) := by decide +kernel
theorem test_ballot : res (.ballot 3 1 0) 1 0 = some (.uni 0xFFFF) := by decide +kernel
theorem test_fadd_f32 : res (.fadd 3 1 2 0 .rne .f32) 0x3F800000 0x33800000 = some (.uni 0x3F800000) := by decide +kernel
theorem test_fadd_up : res (.fadd 3 1 2 0 .rup .f32) 0x3F800000 0x33800000 = some (.uni 0x3F800001) := by decide +kernel
theorem test_fdiv_third : res (.fdiv 3 1 2 0 .rne .f32) 0x3F800000 0x40400000 = some (.uni 0x3EAAAAAB) := by decide +kernel
theorem test_fsqrt_two : res (.fsqrt 3 1 0 .rne .f32) 0x40000000 0 = some (.uni 0x3FB504F3) := by decide +kernel
theorem test_fmin_zeros : res (.fmin 3 1 2 0 .f32) 0 0x80000000 = some (.uni 0x80000000) := by decide +kernel
theorem test_fcmp_unordered : res (.fcmp 3 1 2 0 .un .f32) 0x7FC00000 0 = some (.uni 1) := by decide +kernel
theorem test_fexp2_one : res (.fexp2 3 1 0 .f32) 0x3F800000 0 = some (.uni 0x40000000) := by decide +kernel
theorem test_flog2_eight : res (.flog2 3 1 0 .f32) 0x41000000 0 = some (.uni 0x40400000) := by decide +kernel
theorem test_cvt_saturates : res (.cvt 3 1 0 true .rne .e4m3 .f32) 0x447A0000 0 = some (.uni 0x7E) := by decide +kernel
theorem test_cvt_to_nan : res (.cvt 3 1 0 false .rne .e4m3 .f32) 0x447A0000 0 = some (.uni 0x7F) := by decide +kernel

/-- R148's worked example: 1.5 at index 5. -/
theorem test_ordkey : res (.ordkey 3 1 2 0 false .f16) 0x3E00 5 = some (.uni 0xBFC00000FFFFFFFA) := by decide +kernel
/-- The load step with a cap event worked in chapter 15, at GSEL 2 and 2,000 W. -/
theorem test_rate_law : scaleRate 0x80000 (rateStep 2100000 2000000 2) = 0x8218B ∧ scaleRate 0x8218B 16 = 0x87DB3 ∧
    scaleRate 0x87DB3 (rateStep 1950000 2000000 2) = 0x86C1D := by decide +kernel

/-- A loaded instruction runs in the very next step. -/
theorem test_step_runs_movi :
    (match step (State.reset.withFetchWord 32 0x26288234) with
     | .next s => (tget s.groups 0).map fun g => (g.reg 5).val
     | .fault _ => none
     | .refused _ => none) = some (.uni 0x1234) := by decide +kernel

/-- A store to 0x10008 and the byte it leaves there, the low one at the lowest address. -/
theorem test_store_then_read :
    (match exec (.stB32 1 2 none 0) (two 0xA1B2C3D4 0x10008) with
     | .next s => (match exec (.memOpComplete 0 3) s with
       | .next t => readBytes t 0 (hbmBase + 8) 4
       | _ => [])
     | _ => []) = [0xD4, 0xC3, 0xB2, 0xA1] := by decide +kernel

/-- R59 to R61: the read of v1 under a count of 1 kills it. -/
theorem test_last_read :
    (match exec (.mfrom 0 1) (demoState { demoGroup (fun _ => 3) with regs := (demoRegs fun _ => 3).set 1 ⟨.uni 3, 0x9999⟩ }) with
     | .next s => (tget s.groups 0).map fun g => ((g.reg 1).val, g.mask 0)
     | _ => none) = some (.dead, 0xFFFF) := by decide +kernel

/-- R168: the lanes that exit leave the live mask. -/
theorem test_exit_ends_group :
    (match exec .exit (demo fun _ => 0) with
     | .next s => (tget s.groups 0).map fun g => g.live
     | _ => some 1) ≠ some 0xFFFF := by decide +kernel

/-! ### Every hypothesis can be met: registers, masks, floating point -/

theorem meets_IntegerArithmetic : Met (.iadd 3 1 2 0 .s32) { rd := [1, 2], wr := [3], lanewise := true } 3 0 ∧
    Met (.imac 3 1 2 0 .n64) { rd := [3, 1, 2], lanewise := true } 3 0 ∧
    Met (.iaddc 3 1 2 7 .b32) { rd := [1, 2], wr := [3], lanewise := true } 3 7 :=
  ⟨met _ _ _ _ rfl, met _ _ _ _ rfl, met _ _ _ _ rfl⟩

theorem meets_UnaryRowsAndConstants : Met (.clzB32 63 1 0) { rd := [1], wr := [63], lanewise := true } 63 0 ∧
    Met (.movi 5 0 0xFFFF) { rd := [], wr := [5] } 5 0 ∧ Met (.movhi 5 0 0xFFFF) { rd := [5], wr := [5], lanewise := true } 5 0 :=
  ⟨met _ _ _ _ rfl, met _ _ _ _ rfl, met _ _ _ _ rfl⟩

theorem meets_ShiftsAndLogic : Met (.rot 1 1 1 0 .b32) { rd := [1, 1], wr := [1], lanewise := true } 1 0 := met _ _ _ _ rfl

theorem meets_BitFieldsComparesAndAddresses : Met (.bfx 3 1 2 0 .s64) { rd := [1, 2], wr := [3], lanewise := true } 3 0 ∧
    Met (.bfi 3 1 2 0 .b32) { rd := [3, 1, 2], lanewise := true } 3 0 ∧
    Met (.sel 3 1 2 0 7) { rd := [1, 2], wr := [3], lanewise := true } 3 0 :=
  ⟨met _ _ _ _ rfl, met _ _ _ _ rfl, met _ _ _ _ rfl⟩

/-- Also a base that is not U, which traps. -/
theorem meets_ShapeConversions : Met (.affine 3 1 2 0) { rd := [1, 2], uni := [1, 2], wr := [3] } 3 0 ∧
    Met (.shape 3 1 0) { rd := [1], wr := [3] } 3 0 ∧
    ∃ s g p, curGang s = some (g, p) ∧ g.isHeld 3 = false ∧ g.isHeld 1 = false ∧ g.isHeld 2 = false ∧ g.handler = none ∧
      g.reports = [] ∧ 3 < g.allot ∧ (g.reg 1).val.isUni = false := by
  refine ⟨met _ _ _ _ rfl, met _ _ _ _ rfl, ?_⟩
  let g := (demoGroup fun _ => 1).setReg 1 ⟨.aff 0 4, 0x8888⟩
  exact ⟨demoState g, g, demoPath, rfl, by decide +kernel, by decide +kernel, by decide +kernel, rfl, rfl, by decide +kernel, by decide +kernel⟩

theorem meets_MaskRows : Met (.mfrom 3 9) { rd := [9] } 9 0 ∧ Met (.mset 3 9) { rd := [9], uni := [9] } 9 0 ∧
    Met (.exset 3) { rd := [] } 0 0 ∧ Met (.ballot 1 2 0) { rd := [2], wr := [1] } 1 0 :=
  ⟨met _ _ _ _ rfl, met _ _ _ _ rfl, met _ _ _ _ rfl, met _ _ _ _ rfl⟩

/-- At the ends of each range. -/
theorem meets_LaneExchange : Met (.xlane 3 1 2 0) { rd := [1, 2], wr := [3] } 3 0 ∧
    (wellFormed (.xbfly 3 1 0 8) = true ∧ Met (.xbfly 3 1 0 8) { rd := [1], wr := [3] } 3 0) ∧
    (wellFormed (.xshift 3 1 0 0x3C1) = true ∧ Met (.xshift 3 1 0 0x3C1) { rd := [1], wr := [3] } 3 0) ∧
    (wellFormed (.xbcast 3 1 0 15) = true ∧ Met (.xbcast 3 1 0 15) { rd := [1], wr := [3] } 3 0) ∧
    Met (.scanadd 3 1 0 true .s32) { rd := [1], wr := [3] } 3 0 ∧ Met (.greduceMax 3 1 0 .n32) { rd := [1], wr := [3] } 3 0 :=
  ⟨met _ _ _ _ rfl, ⟨rfl, met _ _ _ _ rfl⟩, ⟨rfl, met _ _ _ _ rfl⟩, ⟨rfl, met _ _ _ _ rfl⟩, met _ _ _ _ rfl, met _ _ _ _ rfl⟩

theorem meets_ReadsCountDown : ∃ s g p, p.quiet = false ∧ Clear { rd := [1] } s g p ∧
    Clear { rd := [1, 1], wr := [3], lanewise := true } s g p ∧
    WithinBudget { rd := [1, 1], wr := [3], lanewise := true } 3 0 s g p none (g.val 1) :=
  ⟨demo fun _ => 7, _, demoPath, rfl, demo_clear _ _ rfl, demo_clear _ _ rfl, demo_budget _ _ _ _ _ _ _ _ (by decide)⟩

theorem meets_FloatingPointRows : Met (.fdiv 3 1 2 0 .rdn .f64) { rd := [1, 2], wr := [3], lanewise := true } 3 0 ∧
    Met (.fma 3 1 2 0 .rne .bf16) { rd := [3, 1, 2], lanewise := true } 3 0 ∧
    Met (.cvt 3 1 0 true .rne .e4m3 .f64) { rd := [1], wr := [3], len := 2, lanewise := true } 3 0 ∧
    Met (.fsin 3 1 0 .bf16) { rd := [1], wr := [3], lanewise := true } 3 0 :=
  ⟨met _ _ _ _ rfl, met _ _ _ _ rfl, met _ _ _ _ rfl, met _ _ _ _ rfl⟩

theorem meets_FloatBitRows : Met (.fmaxm 3 1 2 0 .f16) { rd := [1, 2], wr := [3], lanewise := true } 3 0 ∧
    Met (.fclass 3 1 0 .f64) { rd := [1], wr := [3], lanewise := true } 3 0 ∧ FT.f32 ≠ FT.f64 :=
  ⟨met _ _ _ _ rfl, met _ _ _ _ rfl, by decide⟩

/-- A value that rounds and one that overflows. -/
theorem meets_RoundingGivesTheNamedNeighbour : 0 < 3 ∧ ((fmtOf .f16).round .rne false 3 0 false).fl.getLsbD 2 = false ∧
    ((fmtOf .f16).round .rne false 3 20 false).fl.getLsbD 2 = true := by decide +kernel

/-- 0 / 0 with INVEN set. -/
theorem meets_InvalidLanesTrap : ∃ s g p, Clear { rd := [1, 2], wr := [3], lanewise := true } s g p ∧
    (∀ q sh f, WithinBudget { rd := [1, 2], wr := [3], lanewise := true } 3 0 s g q sh f) ∧ g.fpinv = true ∧ p.noinv = false ∧
    (maskOf lanes64 fun l => bitOf p.active l &&
      (((fmtOf .f32).div .rne (valueOf .f32 (g.val 1 l)) (valueOf .f32 (g.val 2 l))).lane).2.getLsbD 0) ≠ 0 := by
  let g := { demoGroup (fun _ => 0) with fpinv := true }
  exact ⟨demoState g, g, demoPath, clear_of (v := fun _ => 0) _ rfl (by decide) rfl rfl rfl rfl rfl rfl rfl,
    fun _ _ _ => demo_budget _ _ _ _ _ _ _ _ (by decide), rfl, rfl, by decide +kernel⟩

/-! ### Memory instructions -/

def reachB (s : State) (g : Group) (p : Path) (need : Need) (n : Nat) (va : Word) : Bool :=
  decide (va.toNat < 2 ^ 56) && va.toNat % n == 0 &&
    match translate s (coreOf s.cur) g.ten p.code.level need va.toNat with
    | .ok x => (match hereOf s x with
      | some pa => !lineAbsent s pa
      | none => true)
    | .fault _ => false
    | .stage2 => false
    | .pte _ => false

theorem reach_of {s : State} {g : Group} {p : Path} {need : Need} {n : Nat} {va : Word} (h : reachB s g p need n va = true) :
    Reachable s g p need n va := by
  unfold reachB at h
  simp only [Bool.and_eq_true, decide_eq_true_eq, beq_iff_eq] at h
  obtain ⟨⟨h1, h2⟩, h3⟩ := h
  refine ⟨h1, h2, ?_⟩
  split at h3
  · next x hx =>
    refine ⟨x, hx, fun pa hp => ?_⟩
    rw [hp] at h3
    simpa using h3
  · cases h3
  · cases h3
  · cases h3

/-- Every lane's address, the page's first byte or its last aligned one. -/
def atPage : Nat → Word := fun i => if i = 1 then 0x10000 else 0x1FFF8

theorem all_reach {s : State} {g : Group} {p : Path} {need : Need} {n : Nat} {va : Nat → Word}
    (h : ((activeList p).all fun l => reachB s g p need n (va l)) = true) : ∀ l ∈ activeList p, Reachable s g p need n (va l) :=
  fun l hl => reach_of (List.all_eq_true.1 h l hl)

/-- The first and the last access of a page, and the shared load's one address. -/
theorem meets_LoadsIssue : ∃ s g p, Clear { rd := [1], wr := [3] } s g p ∧ Clear { rd := [1], uni := [1], wr := [3] } s g p ∧
    Clear { rd := [2], wr := [3] } s g p ∧
    WithinBudget { rd := [1], wr := [3] } 3 0 s g p none (fun _ => 0) ∧
    WithinBudget { rd := [1], uni := [1], wr := [3] } 3 0 s g p (some (.uni 0)) (fun _ => 0) ∧
    (∀ l ∈ activeList p, Reachable s g p .read 8 (g.val 1 l + BitVec.ofNat 64 (31 * 8))) ∧
    (∀ l ∈ activeList p, Reachable s g p .read 8 (g.val 2 l + BitVec.ofNat 64 (0 * 8))) ∧
    Reachable s g p .read 8 ((g.reg 1).val.lane 0 + BitVec.ofNat 64 (31 * 8)) ∧ p.active ≠ 0 ∧ g.counter .m < 63 :=
  ⟨demo atPage, _, demoPath, demo_clear _ _ rfl, demo_clear _ _ rfl, demo_clear _ _ rfl, demo_budget _ _ _ _ _ _ _ _ (by decide),
    demo_budget _ _ _ _ _ _ _ _ (by decide), all_reach (by decide +kernel), all_reach (by decide +kernel),
    reach_of (by decide +kernel), by decide, by decide +kernel⟩

/-- A view of two dimensions over the page. -/
def demoView : OpenView := ⟨⟨0x10000, 3, 2, 3, [4, 2, 0, 0], [1, 4, 0, 0]⟩, ⟨1, 0, 0⟩, [0]⟩
def viewGroup (v : Nat → Word) : Group := { demoGroup v with views := (Vector.replicate 16 none).set 9 (some demoView) }

theorem inside_demo (x : Word) (h : (List.range 4).all (fun i => if i < 2 then decide (0 ≤ coordOf x i) &&
    decide (coordOf x i < (([4, 2, 0, 0] : List Nat).getD i 0 : Int)) else decide (coordOf x i = 0)) = true) :
    insideView demoView.desc x := by
  intro i hi
  have := List.all_eq_true.1 h i (List.mem_range.2 hi)
  show if i < 2 then _ else _
  by_cases c : i < 2
  · simp only [c, if_true, Bool.and_eq_true, decide_eq_true_eq] at this ⊢
    exact this
  · simp only [c, if_false, decide_eq_true_eq] at this ⊢
    exact this

/-- The view's last element. -/
theorem meets_StoresAndViewAccessesIssue : ∃ s g p ov, Clear { rd := [1, 2] } s g p ∧ Clear { rd := [1], wr := [3] } s g p ∧
    (∀ l ∈ activeList p, Reachable s g p .write 8 (g.val 2 l + BitVec.ofNat 64 (0 * 8))) ∧
    g.view 9 = some ov ∧ ov.desc.mode ≠ 1 ∧ ov.desc.mode ≠ 2 ∧ WithinBudget { rd := [1], wr := [3] } 3 0 s g p none (fun _ => 0) ∧
    (∀ l ∈ activeList p, insideView ov.desc (g.val 1 l) ∧ Reachable s g p .write (2 ^ ov.desc.esize) (elementVa ov.desc (g.val 1 l)) ∧
      Reachable s g p .read (2 ^ ov.desc.esize) (elementVa ov.desc (g.val 1 l))) ∧ g.counter .m < 63 := by
  let v : Nat → Word := fun i => if i = 1 then 0x10003 else 0x1FFF8
  refine ⟨demoState (viewGroup v), viewGroup v, demoPath, demoView, clear_of (v := v) _ rfl (by decide) rfl rfl rfl rfl rfl rfl rfl,
    clear_of (v := v) _ rfl (by decide) rfl rfl rfl rfl rfl rfl rfl, all_reach (by decide +kernel), rfl, by decide, by decide,
    demo_budget _ _ _ _ _ _ _ _ (by decide), fun l hl => ⟨?_, ?_, ?_⟩, by decide +kernel⟩
  · have h : ((activeList demoPath).all fun l => decide ((viewGroup v).val 1 l = 0x10003)) = true := by decide +kernel
    have e := of_decide_eq_true (List.all_eq_true.1 h l hl)
    rw [e]
    exact inside_demo _ (by decide)
  · exact all_reach (va := fun l => elementVa demoView.desc ((viewGroup v).val 1 l)) (by decide +kernel) l hl
  · exact all_reach (va := fun l => elementVa demoView.desc ((viewGroup v).val 1 l)) (by decide +kernel) l hl

theorem meets_AtomicsIssue : wellFormed (.atomCas 3 1 2 4 0 .ar .sys .n64) = true ∧ wellFormed (.atomnFadd 1 2 .rlx .grp .f32) = true ∧
    ∃ s g p, Clear { rd := [1, 2, 4], wr := [3], len := 2 } s g p ∧ Clear { rd := [1, 2], len := 2 } s g p ∧
      WithinBudget { rd := [1, 2, 4], wr := [3], len := 2 } 3 0 s g p none (fun _ => 0) ∧
      (∀ l ∈ activeList p, Reachable s g p .atomic 8 (g.val 1 l)) ∧ (∀ l ∈ activeList p, Reachable s g p .atomic 4 (g.val 1 l)) ∧
      g.counter .m < 63 :=
  ⟨by decide, by decide, demo atPage, _, demoPath, demo_clear _ _ rfl, demo_clear _ _ rfl, demo_budget _ _ _ _ _ _ _ _ (by decide),
    all_reach (by decide +kernel), all_reach (by decide +kernel), by decide +kernel⟩

/-- The image of a U register, and the one that memory of zeros holds. -/
theorem meets_RegisterImagesIssue : ∃ s g p, Clear { rd := [1], uni := [1], wr := [3] } s g p ∧ p.active ≠ 0 ∧
    (∀ x ∈ (List.range (((g.reg 3).image g.w 3).length / 8)).map (fun i => ((0, (g.reg 1).val.lane 0 + BitVec.ofNat 64 (8 * i)) : Nat × Word)),
      Reachable s g p .write 8 x.2) ∧
    (∃ s1 tag, imageTag s s.cur g p ((g.reg 1).val.lane 0) = (s1, some tag) ∧
      ∀ x ∈ (List.range (imageSize tag g.w / 8)).map (fun i => ((0, (g.reg 1).val.lane 0 + BitVec.ofNat 64 (8 * i)) : Nat × Word)),
        Reachable s1 g p .read 8 x.2) ∧
    WithinBudget { rd := [1], uni := [1], wr := [3] } 3 0 s g p none (fun _ => 0) ∧ g.counter .m < 63 ∧
    Clear { rd := [], uni := [1], wr := [3, 1] } s g p ∧ (tget g.rpoison 3).getD 0 = 0 ∧ (tget g.rpoison 1).getD 0 &&& p.active = 0 := by
  refine ⟨demo atPage, demoGroup atPage, demoPath, demo_clear _ _ rfl, by decide, fun x hx => ?_,
    ⟨demo atPage, 0, Prod.ext rfl (by decide +kernel), fun x hx => ?_⟩, demo_budget _ _ _ _ _ _ _ _ (by decide), by decide +kernel,
    demo_clear _ _ rfl, by decide, by decide⟩
  · exact reach_of (List.all_eq_true.1 (by decide +kernel : (List.all _ fun x : Nat × Word =>
      reachB (demo atPage) (demoGroup atPage) demoPath .write 8 x.2) = true) x hx)
  · exact reach_of (List.all_eq_true.1 (by decide +kernel : (List.all _ fun x : Nat × Word =>
      reachB (demo atPage) (demoGroup atPage) demoPath .read 8 x.2) = true) x hx)

/-- Literals at the kernel's first and last word, one beyond either end, and a literal of two words. -/
theorem meets_LiteralsLoad : ∃ s g p, Clear { rd := [], wr := [3], len := 2 } s g p ∧ curGang s = some (g, p) ∧
    (∃ s1 w, fetchWord s s.cur g p 0 = (s1, .word w)) ∧ (∃ s1 w, fetchWord s s.cur g p 15 = (s1, .word w)) ∧
    (∃ s1 s2 lo hi, fetchWord s s.cur g p 14 = (s1, .word lo) ∧ fetchWord s1 s1.cur g p 15 = (s2, .word hi)) ∧
    (p.spot.offset : Int) + 1 + (0xFFFFFFFE#32).toInt = 0 ∧ (p.spot.offset : Int) + 1 + (13#32).toInt + 1 ≤ p.code.klen ∧
    (p.spot.offset : Int) + 1 + (0xFFFFFFFD#32).toInt < 0 ∧ (p.code.klen : Int) < (p.spot.offset : Int) + 1 + (14#32).toInt + 1 ∧
    (∀ sh f t, WithinBudget { rd := [], wr := [3], len := 2 } 3 0 t g p sh f) := by
  let s := demo fun _ => 0
  let g := demoGroup fun _ => 0
  refine ⟨s, g, demoPath, demo_clear _ _ rfl, rfl, ⟨_, 0, Prod.ext rfl (by decide +kernel)⟩, ⟨_, 0, Prod.ext rfl (by decide +kernel)⟩,
    ⟨_, _, 0, 0, Prod.ext rfl (by decide +kernel), Prod.ext rfl (by decide +kernel)⟩, by decide, by decide, by decide, by decide,
    fun _ _ _ => demo_budget _ _ _ _ _ _ _ _ (by decide)⟩

/-- Words of zero: equal to a comparand of zero, and not to another. -/
theorem meets_WaitvHoldsOrParks : ∃ s g p, Clear { rd := [1, 2], len := 2 } s g p ∧ p.park = none ∧
    (∀ l ∈ activeList p, l < g.w ∧ (g.val 1 l).toNat < 2 ^ 56 ∧ (g.val 1 l).toNat % 8 = 0 ∧
      ∃ x, translate { s with serial := s.serial + 1 } (coreOf s.cur) g.ten p.code.level .read (g.val 1 l).toNat = .ok x) ∧
    (let lanes := (activeList p).map fun l => (l, g.val 1 l, g.val 2 l)
     let s1 := lanes.foldl (fun q x => tlbFill q (coreOf s.cur) g.ten (x.2.1.toNat % 2 ^ 56)) { s with serial := s.serial + 1 }
     let w := fun r => waitScan s.cur (released g p { rd := [1, 2], len := 2 }) s.serial p.code.level r 8 true s1 0 lanes ⟨s1, 0, 0, 0, 0⟩
     ∀ r ∈ [WRel.ne, .eq], (w r).bad = 0 ∧ (w r).ref = 0 ∧ (r = .ne ↔ p.active &&& ~~~(w r).sat = 0)) := by
  let v : Nat → Word := fun i => if i = 1 then 0x10000 else 5
  refine ⟨demo v, demoGroup v, demoPath, demo_clear _ _ rfl, rfl, fun l hl => ?_, by decide +kernel⟩
  have h := all_reach (s := { demo v with serial := (demo v).serial + 1 }) (g := demoGroup v) (need := .read) (n := 8)
    (va := fun l => (demoGroup v).val 1 l) (by decide +kernel) l hl
  refine ⟨?_, h.1, h.2.1, ?_⟩
  · exact of_decide_eq_true (List.all_eq_true.1 (by decide +kernel : ((activeList demoPath).all fun l => decide (l < (demoGroup v).w)) = true) l hl)
  · obtain ⟨x, hx, _⟩ := h.2.2
    exact ⟨x, hx⟩

/-- A lane whose word lies here, no older access before it. -/
theorem meets_WaitvHoldsOrParks_lane : 63 < 64 ∧ ∃ s g x pa, translate s (coreOf 0) g.ten .supervisor .read ((0x10000#64).toNat % 2 ^ 56) = .ok x ∧
    waitReady s 0 g 2 x 8 true = true ∧ hereOf s x = some pa ∧ poisoned (setAD (dropReadLine s (coreOf 0) (pa / 64)) g.ten x false) pa 8 = false :=
  ⟨by decide, demo fun _ => 0, demoGroup fun _ => 0, _, hbmBase, rfl, by decide +kernel, by decide +kernel, by decide +kernel⟩

/-- Each check fails with the ones before it passing: bits above 55, an odd address, no mapping. -/
theorem meets_AccessChecksInOrder :
    let low := fun (s : State) (g : Group) => Clear { rd := [1], wr := [3] } s g demoPath ∧
      WithinBudget { rd := [1], wr := [3] } 3 0 s g demoPath none (fun _ => 0)
    let lanes := fun (c : Nat → Bool) => maskOf lanes64 fun l => bitOf demoPath.active l && c l
    let res := fun (s : State) (g : Group) (l : Nat) => translate s 0 g.ten .supervisor .read ((g.val 1 l).toNat % 2 ^ 56)
    (∃ s g, low s g ∧ lanes (fun l => decide (2 ^ 56 ≤ (g.val 1 l).toNat)) ≠ 0) ∧
    (∃ s g, low s g ∧ lanes (fun l => decide (2 ^ 56 ≤ (g.val 1 l).toNat)) = 0 ∧ lanes (fun l => (g.val 1 l).toNat % 8 != 0) ≠ 0) ∧
    ∃ s g c, low s g ∧ lanes (fun l => decide (2 ^ 56 ≤ (g.val 1 l).toNat)) = 0 ∧ lanes (fun l => (g.val 1 l).toNat % 8 != 0) = 0 ∧
      lanes (fun l => (res s g l).isFault) ≠ 0 ∧ res s g (((activeList demoPath).find? fun l => (res s g l).isFault).getD 0) = .fault c := by
  refine ⟨⟨demo fun _ => 0x100000000000000, _, ⟨demo_clear _ _ rfl, demo_budget _ _ _ _ _ _ _ _ (by decide)⟩, by decide +kernel⟩,
    ⟨demo fun _ => 0x10004, _, ⟨demo_clear _ _ rfl, demo_budget _ _ _ _ _ _ _ _ (by decide)⟩, by decide +kernel, by decide +kernel⟩,
    ⟨demo fun _ => 0x30000, _, 1, ⟨demo_clear _ _ rfl, demo_budget _ _ _ _ _ _ _ _ (by decide)⟩, by decide +kernel, by decide +kernel,
      by decide +kernel, by decide +kernel⟩⟩

/-! ### Control and synchronisation -/

/-- The demo page holds a unit with TGT at offset 1 and nothing else; masks k1 and k2 hold every lane and one slice. -/
def codeGroup (v : Nat → Word) : Group :=
  { demoGroup v with masks := ((Vector.replicate 8 (0 : Mask)).set 1 0xFFFF).set 2 0xF }
def codeState (g : Group) : State := { demoState g with mem := [(hbmBase + 4, 8)] }

theorem code_clear (u : Use) (v : Nat → Word) (b : u.beyond = false) : Clear u (codeState (codeGroup v)) (codeGroup v) demoPath :=
  clear_of (v := v) u rfl (by decide) rfl rfl rfl rfl rfl rfl b

theorem target_of {s : State} {g : Group} {p : Path} {T : Nat} (w : IWord) (h1 : T < p.code.klen) (h2 : (fetchWord s s.cur g p T).2 = .word w)
    (h3 : w.getLsbD 3 = true) : TargetOk s g p T (fetchWord s s.cur g p T).1 :=
  ⟨h1, w, Prod.ext rfl h2, h3⟩

/-- All slices go, none goes, one goes; the target is a unit, lies beyond the kernel, or is no unit. -/
theorem meets_BranchesTransfer : ∃ s g p s1, Clear { rd := [] } s g p ∧ Clear { rd := [3], uni := [3] } s g p ∧ p.slices ≠ 0 ∧
    TargetOk s g p 1 s1 ∧ g.freePath < 16 ∧
    (let taken := fun (k : KR) (sl : Nat) => (g.mask k &&& p.exec).toNat / 2 ^ (4 * sl) % 16 != 0
     let yes := fun k => slicesWhere p (taken k)
     let no := fun k => slicesWhere p fun sl => !taken k sl
     (yes 1 ≠ 0 ∧ no 1 = 0) ∧ yes 0 = 0 ∧ (yes 2 ≠ 0 ∧ no 2 ≠ 0)) ∧
    p.code.klen ≤ 16 ∧ ∃ t w, 2 < p.code.klen ∧ fetchWord s s.cur g p 2 = (t, .word w) ∧ w.getLsbD 3 = false := by
  refine ⟨codeState (codeGroup fun _ => 1), codeGroup fun _ => 1, demoPath, _, code_clear _ _ rfl, code_clear _ _ rfl, by decide,
    target_of 8 (by decide) (by decide +kernel) (by decide), by decide +kernel, by decide +kernel, by decide, _, 0, by decide,
    Prod.ext rfl (by decide +kernel), by decide⟩

theorem targets_cons {s s2 : State} {g : Group} {p : Path} {T : Nat} {l : List Nat} (h1 : TargetOk s g p T s2)
    (h2 : ∃ s1, TargetsOk s2 g p l s1) : ∃ s1, TargetsOk s g p (T :: l) s1 :=
  h2.elim fun a b => ⟨a, s2, h1, b⟩

theorem all_nil {α : Type} {P : α → Prop} {l : List α} (h : l = []) : ∀ x ∈ l, P x := by
  intro x hx
  rw [h] at hx
  cases hx

def fullStacks : Group := { codeGroup fun _ => 1 with rstack := Vector.replicate 16 (List.replicate 16 1) }
theorem returns_ok : ∃ s1, TargetsOk (codeState fullStacks) fullStacks demoPath [1, 1, 1, 1] s1 :=
  targets_cons (target_of 8 (by decide) (by decide +kernel) (by decide)) (targets_cons (target_of 8 (by decide) (by decide +kernel) (by decide))
    (targets_cons (target_of 8 (by decide) (by decide +kernel) (by decide)) (targets_cons (target_of 8 (by decide) (by decide +kernel) (by decide))
      ⟨_, rfl⟩)))

/-- Stacks with room, full, empty, and with entries of their own in every slice. -/
theorem meets_CallsAndReturns : demoPath.slices ≠ 0 ∧
    (∃ s g s1, Clear { rd := [] } s g demoPath ∧ TargetOk s g demoPath 1 s1 ∧
      ∀ sl, sl < 16 ∧ inSlices demoPath.slices sl = true → (g.stack sl).length < 16) ∧
    (∃ s g s1 sl, Clear { rd := [] } s g demoPath ∧ TargetOk s g demoPath 1 s1 ∧ sl < 16 ∧ inSlices demoPath.slices sl = true ∧
      16 ≤ (g.stack sl).length) ∧
    (∃ s g sl, Clear { rd := [] } s g demoPath ∧ g.handler = none ∧ sl < 16 ∧ inSlices demoPath.slices sl = true ∧ g.stack sl = []) ∧
    (∃ s g s1, Clear { rd := [] } s g demoPath ∧ g.handler = none ∧
      (∀ sl, sl < 16 ∧ inSlices demoPath.slices sl = true → g.stack sl ≠ []) ∧
      TargetsOk s g demoPath (((List.range 16).filter (inSlices demoPath.slices)).map fun sl => (g.stack sl).headD 0) s1 ∧
      ((List.range 16).filter (inSlices demoPath.slices)).length ≤ 1 + ((List.range 16).filter fun j => (g.path j).isNone).length) ∧
    (∃ s g s1, Clear { rd := [5], uni := [5] } s g demoPath ∧ TargetOk s g demoPath ((g.reg 5).val.lane 0).toNat s1) ∧
    ∃ s g, Clear { rd := [5], uni := [5] } s g demoPath ∧ demoPath.code.klen ≤ ((g.reg 5).val.lane 0).toNat := by
  let g0 := codeGroup fun _ => 1
  let g1 := fullStacks
  obtain ⟨sr, hr⟩ := returns_ok
  have c1 : ∀ u : Use, u.beyond = false → Clear u (codeState g1) g1 demoPath := fun u b =>
    clear_of (v := fun _ => 1) u rfl (by decide) rfl rfl rfl rfl rfl rfl b
  have t0 := fun g (h : (fetchWord (codeState g) (codeState g).cur g demoPath 1).2 = .word 8) =>
    target_of (s := codeState g) (g := g) (p := demoPath) (T := 1) 8 (by decide) h (by decide)
  refine ⟨by decide, ⟨codeState g0, g0, _, code_clear _ _ rfl, t0 g0 (by decide +kernel), ?_⟩,
    ⟨codeState g1, g1, _, 0, c1 _ rfl, t0 g1 (by decide +kernel), by decide, by decide, by decide +kernel⟩,
    ⟨codeState g0, g0, 0, code_clear _ _ rfl, rfl, by decide, by decide, by decide +kernel⟩,
    ⟨codeState g1, g1, sr, c1 _ rfl, rfl, ?_, ?_, by decide +kernel⟩,
    ⟨codeState g0, g0, _, code_clear _ _ rfl, t0 g0 (by decide +kernel)⟩,
    ⟨demo fun _ => 16, demoGroup fun _ => 16, demo_clear _ _ rfl, by decide +kernel⟩⟩
  · rintro sl ⟨h, _⟩
    exact of_decide_eq_true (List.all_eq_true.1 (by decide +kernel : ((List.range 16).all fun sl => decide ((g0.stack sl).length < 16)) = true) sl
      (List.mem_range.2 h))
  · rintro sl ⟨h, _⟩
    exact of_decide_eq_true (List.all_eq_true.1 (by decide +kernel : ((List.range 16).all fun sl => decide (g1.stack sl ≠ [])) = true) sl
      (List.mem_range.2 h))
  · have e : (((List.range 16).filter (inSlices demoPath.slices)).map fun sl => (g1.stack sl).headD 0) = [1, 1, 1, 1] := by decide +kernel
    rw [e]
    exact hr

/-- A gang that exits whole, and one of whose lanes some stay. -/
theorem meets_RegangYieldExitNop : ∃ s g, Clear { rd := [] } s g demoPath ∧ (∀ r ∈ g.reports, r.mine demoPath = 0) ∧
    (∀ o ∈ g.ops, o.okPoison = false) ∧ g.live &&& ~~~demoPath.active &&& laneMask demoPath.slices = 0 ∧
    ∃ t h p, Clear { rd := [] } t h p ∧ (∀ r ∈ h.reports, r.mine p = 0) ∧ (∀ o ∈ h.ops, o.okPoison = false) ∧
      h.live &&& ~~~p.active &&& laneMask p.slices ≠ 0 := by
  let p : Path := { demoPath with exec := 0xF }
  let h : Group := { demoGroup (fun _ => 0) with paths := (Vector.replicate 16 none).set 0 (some p) }
  exact ⟨demo fun _ => 0, _, demo_clear _ _ rfl, all_nil rfl, all_nil rfl,
    by decide +kernel, demoState h, h, p, clear_of (v := fun _ => 0) _ rfl (by decide) rfl rfl rfl rfl rfl rfl rfl,
    all_nil rfl, all_nil rfl, by decide +kernel⟩

/-- Barriers 0 and 15 of both kinds: not yet arrived, and arrived; a generation with and without an arrival. -/
theorem meets_BarriersArriveAndPark : ∃ s g, Clear { rd := [] } s g demoPath ∧
    (∀ i ∈ [0, 15, 16, 31], demoPath.arrived.getLsbD i = false ∧ g.barAt[i]? = some 0) ∧
    ∃ t h p, Clear { rd := [] } t h p ∧ ∀ i ∈ [0, 15, 16, 31], p.arrived.getLsbD i = true ∧ h.barAt[i]? ≠ some 0 := by
  let p : Path := { demoPath with arrived := 0xFFFFFFFF }
  let h : Group := { demoGroup (fun _ => 0) with paths := (Vector.replicate 16 none).set 0 (some p), barAt := Vector.replicate 32 1 }
  exact ⟨demo fun _ => 0, _, demo_clear _ _ rfl, by decide +kernel, demoState h, h, p,
    clear_of (v := fun _ => 0) _ rfl (by decide) rfl rfl rfl rfl rfl rfl rfl, by decide +kernel⟩

theorem paths_all {g : Group} (f : Path → Bool) (h : ((List.range 16).all fun j => (g.path j).all f) = true) :
    ∀ j p, g.path j = some p → f p = true := by
  intro j p hp
  have := List.all_eq_true.1 h j (List.mem_range.2 (g.path_lt j p hp))
  rw [hp] at this
  exact this

theorem no_waitv {g : Group} {n : Nat} (h : ((List.range 16).all fun j => (g.path j).all fun q => q.park.isNone) = true) : ¬ WaitvBefore g n := by
  rintro ⟨j, q, id, sat, as, cs, r, w, acq, hq, hp, _⟩
  have := paths_all _ h j q hq
  rw [hp] at this
  cases this

theorem alone_of {g : Group} {pi : Nat} (h : ((List.range 16).all fun j => j == pi || (g.path j).all fun q => q.trap.isNone) = true) : Alone g pi := by
  intro j hj hn q hq
  have e := List.all_eq_true.1 h j (List.mem_range.2 hj)
  rw [hq] at e
  simpa [hn] using e

/-- A pending store with flag f3, and the same as a load to v9. -/
def demoOp : POp where
  id := 1
  cls := .mem
  kind := .store
  word := 1
  kbase := 0x10000
  level := .supervisor
  slices := 0xF
  lanes := 0xFFFF
  full := true
  dest := none
  nregs := 0
  flag := some 3
  accs := []
  ord := .rlx
  scp := .grp
  view := none
  batch := none
  done := false
  halted := false
  okPoison := false
  inHandler := false
  pages := []

/-- `clear_of` where operations are pending, for an instruction that names no register they write. -/
theorem clear_ops {s : State} {g : Group} {p : Path} {v : Nat → Word} (u : Use) (c : curGang s = some (g, p)) (l : p.code.level ≠ .user)
    (o : ∀ r ∈ u.all, g.isHeld r.toNat = false)
    (q : g.reports = []) (h : g.handler = none) (a : g.allot = 64) (r : g.regs = demoRegs v) (m : g.rpoison = [])
    (b : u.beyond = false) (z : p.slices = 0xF := by rfl) : Clear u s g p where
  gang := c
  level := fun _ => l
  settled := o
  low := fun x => by simp [h] at x
  report := fun x hx => by simp [q] at hx
  fits := b
  range := fun x _ => by have := x.isLt; omega
  uni := fun x _ => by simp [Group.reg, r, demoRegs, Shape.isUni]
  live := by
    refine Or.inr fun x _ sl hs hi => ?_
    have e : (g.reg x).nib = 0x8888 := by simp [Group.reg, r, demoRegs]
    simp only [VReg.live, e]
    rw [z] at hi
    exact (by decide : ∀ sl < 16, inSlices 0xF sl = true → decide (nibble 0x8888 sl ≥ 8) = true) sl hs hi
  clean := fun x _ => by simp [m, tget]

def busyGroup : Group := { demoGroup (fun _ => 0x10000) with ops := [demoOp] }
theorem busy_clear (u : Use) (hu : u.beyond = false) (o : ∀ r ∈ u.all, busyGroup.isHeld r.toNat = false := by decide +kernel) :
    Clear u (demoState busyGroup) busyGroup demoPath :=
  clear_ops (v := fun _ => 0x10000) u rfl (by decide) o rfl rfl rfl rfl rfl hu

theorem meets_WaitsOnFlagsAndCounters : ∃ s g, Clear { rd := [] } s g demoPath ∧ (∀ r ∈ g.reports, r.mine demoPath = 0) ∧
    (∀ i < 12, (0xFF7#12).getLsbD i = true → ¬ pendingFlag g i) ∧ (∃ i < 12, (0x008#12).getLsbD i = true ∧ pendingFlag g i) ∧
    g.counter .m ≤ (1#6).toNat ∧ (0#6).toNat < g.counter .m := by
  refine ⟨demoState busyGroup, busyGroup, busy_clear _ rfl, all_nil rfl, ?_, ⟨3, by decide, by decide, Or.inl ⟨demoOp, ?_, rfl, rfl⟩⟩,
    by decide +kernel, by decide +kernel⟩
  · rintro i hi hb (⟨o, ho, hd, hf⟩ | ⟨j, hj, q, hdr, h, pc, hq, hs, last, hl, hm⟩ | ⟨k, hdr, h, pc, hk, _⟩)
    · have e : o = demoOp := by simpa [busyGroup] using ho
      subst e
      have : i = 3 := by simpa [demoOp] using hf.symm
      subst this
      exact absurd hb (by decide)
    · have e := paths_all (g := busyGroup) (fun q => q.owes.isEmpty) (by decide +kernel) j q hq
      rw [List.isEmpty_iff.1 e] at hm
      cases hm
    · cases hk
  · simp [busyGroup]

/-- An older store that has not performed, and no operation at all. -/
theorem meets_FencesWaitForOlderAccesses :
    (∃ s g, Clear { rd := [] } s g demoPath ∧ g.ops = []) ∧
    ∃ s g o, Clear { rd := [] } s g demoPath ∧ o ∈ g.ops ∧ o.done = false ∧ o.id < demoPath.since.getD s.serial ∧
      OpKind.isWrite o.kind = true ∧ o.cls = .mem ∧ opVisible .dev o = false :=
  ⟨⟨demo fun _ => 0, _, demo_clear _ _ rfl, rfl⟩,
    ⟨demoState busyGroup, busyGroup, demoOp, busy_clear _ rfl, by simp [busyGroup], rfl, by decide, rfl, rfl, by decide +kernel⟩⟩

theorem meets_SignalsDecrement : ∃ s g, Clear { rd := [1], uni := [1] } s g demoPath ∧ g.counter .m < 63 ∧
    Reachable s g demoPath .atomic 8 ((g.reg 1).val.lane 0) :=
  ⟨demo atPage, _, demo_clear _ _ rfl, by decide +kernel, reach_of (by decide +kernel)⟩

/-! ### System instructions -/

/-- A trap descriptor at VA 0x1F000: the handler at 0x10000, 16 words long and starting with a unit, and frames at 0x18000. -/
def trapGroup : Group := { demoGroup (fun _ => 7) with tvec := 0x1F000 }
def trapMem : List Host.Cell :=
  [(hbmBase, 8), (hbmBase + 0xF002, 1), (hbmBase + 0xF008, 16), (hbmBase + 0xF011, 0x80), (hbmBase + 0xF012, 1)]
def trapState (g : Group) : State := { demoState g with mem := trapMem }
def trapDesc : TrapDesc := ⟨0x10000, 16, 0x18000⟩

theorem handler_found (g : Group) (k : Nat) (s : State) (h1 : g.handler = none) (h2 : ∀ r < 4, g.isHeld r = false)
    (x y : Xlate) (pa : Nat)
    (a : translate s (coreOf k) g.ten .supervisor .read (g.tvec.toNat % 2 ^ 56) = .ok x)
    (b : (peekRead (tlbFill s (coreOf k) g.ten (g.tvec.toNat % 2 ^ 56)) k g.ten x 64).2 = some (readBytes s g.ten x.pa 64, 0))
    (d : parseTrapDesc (readBytes s g.ten x.pa 64) = some trapDesc)
    (t : let s1 := (peekRead (tlbFill s (coreOf k) g.ten (g.tvec.toNat % 2 ^ 56)) k g.ten x 64).1
      (handlerTgt s1 k g.ten trapDesc.hbase).2 = .ok)
    (e : let s1 := (handlerTgt (peekRead (tlbFill s (coreOf k) g.ten (g.tvec.toNat % 2 ^ 56)) k g.ten x 64).1 k g.ten trapDesc.hbase).1
      translate s1 (coreOf k) g.ten .supervisor .write ((frameAt trapDesc k).toNat % 2 ^ 56) = .ok y ∧
      hereOf s1 y = some pa ∧ poisoned s1 pa 0x900 = false ∧ lineAbsent s1 pa = false) (m : y.mp = false) :
    HandlerFound s k g trapDesc y pa
      (dropAnswer (handlerTgt (peekRead (tlbFill s (coreOf k) g.ten (g.tvec.toNat % 2 ^ 56)) k g.ten x 64).1 k g.ten trapDesc.hbase).1 k x 64) where
  free := h1
  low := h2
  found := ⟨x, readBytes s g.ten x.pa 64, _, _, a, Prod.ext rfl b, d, Prod.ext rfl t, e.1, e.2.1, e.2.2.1, e.2.2.2, rfl⟩
  steady := m

def pageAt (off : Nat) : Xlate := { Xlate.none with pa := hbmBase + off }

/-- A stop that is armed, and one that is not. -/
theorem meets_TrapsEnterTheHandler : ∃ s g d y pa s1, Clear { rd := [] } s g demoPath ∧ Alone g s.path ∧ HandlerFound s s.cur g d y pa s1 ∧
    s.dbarm.getLsbD g.ten = false ∧ Memory.wf s1.mem = true ∧ (obsOf s1 (coreOf s.cur)).en = false ∧ y.cnt = false ∧ pa % 4096 = 0 ∧
    ∃ t, Clear { rd := [] } t g demoPath ∧ t.dbarm.getLsbD g.ten = true := by
  refine ⟨trapState trapGroup, trapGroup, trapDesc, pageAt 0x8000, hbmBase + 0x8000, _, clear_none 1 rfl, alone_of (by decide +kernel),
    handler_found trapGroup 0 (trapState trapGroup) rfl (by decide +kernel) (pageAt 0xF000) (pageAt 0x8000) (hbmBase + 0x8000)
      (by decide +kernel) (by decide +kernel) (by decide +kernel) (by decide +kernel) (by decide +kernel) rfl,
    by decide, by decide +kernel, by decide +kernel, by decide, by decide, { trapState trapGroup with dbarm := 1 }, clear_none 1 rfl, by decide⟩

def demoTrap (n : Nat) : TrapRec := { demoPath.trapRec n with lanes := 0xFFFF, fault := 0xF }
def demoHandler (n : Nat) : Handler := ⟨0, 0x18000, demoTrap n, demoCode, .inside 0 (seedHeader 0 3) 1, 0xF, List.replicate 16 0, [], 0, []⟩
def handlerGroup (n : Nat) : Group := { demoGroup (fun _ => 7) with handler := some (demoHandler n) }
/-- A frame block of zeros, with images of four U registers of W = 16 whose nibbles are 0. -/
def frameMem : List Host.Cell :=
  [(hbmBase + 0x8082, 4), (hbmBase + 0x82A2, 4), (hbmBase + 0x84C2, 4), (hbmBase + 0x86E2, 4)]
def handlerState (n : Nat) : State := { demoState (handlerGroup n) with mem := frameMem }

/-- Outside a handler; in one with its operations done and pending; a trap of each kind of return. -/
theorem meets_TrapReturnRestores :
    (∃ s g, Clear { rd := [] } s g demoPath ∧ ∀ h, g.handler = some h → h.path ≠ s.path) ∧
    (∃ s g h o, Clear { rd := [] } s g demoPath ∧ g.handler = some h ∧ h.path = s.path ∧ o ∈ g.ops ∧ o.inHandler = true ∧ o.cls = .mem ∧
      o.done = false) ∧
    ∀ n ∈ [0x08, 0x0C, 0x0B], ∃ s g h x s1 bs, Clear { rd := [] } s g demoPath ∧ g.handler = some h ∧ h.path = s.path ∧ g.ops = [] ∧
      translate s (coreOf s.cur) g.ten .supervisor .read (h.fb.toNat % 2 ^ 56) = .ok x ∧
      syncRead s s.cur g.ten x (if (hereOf s x).isSome then 0x900 else 4096) false = (s1, some (bs, 0)) ∧ h.trap.cause = n ∧ h.trap.hdrt = false ∧ h.trap.next = false ∧
      (field bs 0x48 8 % 2 == 1) = false ∧
      ∀ r < 4, VReg.ofImage g.w ((bs.drop (0x80 + 0x220 * r)).take 0x220) ≠ none := by
  refine ⟨⟨demo fun _ => 0, demoGroup fun _ => 0, clear_none 1 rfl, fun h e => by cases e⟩,
    ⟨demoState { handlerGroup 8 with ops := [{ demoOp with inHandler := true }] }, _, demoHandler 8, { demoOp with inHandler := true },
      clear_none 1 rfl, rfl, rfl, List.mem_singleton.2 rfl, rfl, rfl, rfl⟩, fun n hn => ?_⟩
  refine ⟨handlerState n, handlerGroup n, demoHandler n, pageAt 0x8000, (syncRead (handlerState n) 0 0 (pageAt 0x8000) 0x900 false).1,
    readBytes (handlerState n) 0 (hbmBase + 0x8000) 0x900, clear_none 1 rfl, rfl, rfl, rfl, ?_, Prod.ext rfl ?_, rfl, rfl, rfl, ?_, ?_⟩ <;>
    (revert hn n; decide +kernel)

/-- Every special register's read, at its ends. -/
theorem meets_SpecialRegistersRead : Met (.rdsr 3 0x00 0) { rd := [], wr := [3] } 3 0 ∧ Met (.rdsr 3 0x23 0) { rd := [], wr := [3] } 3 0 :=
  ⟨met _ _ _ _ rfl, met _ _ _ _ rfl⟩

theorem demo_user {p : Path} (g : Group) (h : g.paths = (Vector.replicate 16 none).set 0 (some p)) :
    curGang (demoState g) = some (g, p) := by
  have e : g.path 0 = some p := by simp [Group.path, h]
  show (match tget [(0, g)] 0 with
    | some g => (match g.path 0 with
      | some p => some (g, p)
      | none => none)
    | none => none) = some (g, p)
  simp only [tget]
  simp [e]

def userPath : Path := { demoPath with code := { demoCode with level := .user } }
def userGroup : Group := { demoGroup (fun _ => 7) with paths := (Vector.replicate 16 none).set 0 (some userPath) }
def idlePath : Path := { demoPath with exec := 0 }
def idleGroup (v : Nat → Word) : Group := { demoGroup v with paths := (Vector.replicate 16 none).set 0 (some idlePath) }
theorem idle_clear (u : Use) (v : Nat → Word) (b : u.beyond = false) : Clear u (demoState (idleGroup v)) (idleGroup v) idlePath :=
  clear_of (v := v) u rfl (by decide) rfl rfl rfl rfl rfl rfl b

/-- Supervisor and user code, and an empty EXEC. -/
theorem meets_SpecialRegistersWrite : ∃ s g, Clear { rd := [1] } s g demoPath ∧ Clear { rd := [1], priv := true } s g demoPath ∧
    Clear { rd := [1], uni := [1] } s g demoPath ∧ demoPath.active ≠ 0 ∧
    (∃ t h q, curGang t = some (h, q) ∧ q.code.level = .user) ∧
    ∃ t h q, Clear { rd := [1] } t h q ∧ q.active = 0 :=
  ⟨demo fun _ => 7, _, demo_clear _ _ rfl, demo_clear _ _ rfl, demo_clear _ _ rfl, by decide,
    ⟨demoState userGroup, userGroup, userPath, rfl, rfl⟩, ⟨demoState (idleGroup fun _ => 7), _, idlePath, idle_clear _ _ rfl, rfl⟩⟩

/-- Room to grow to 64 and none; room to shrink to 8 and none; a pending write to the last register. -/
theorem meets_AllotmentGrowsAndShrinks : ∃ s g, Clear { rd := [] } s g demoPath ∧ g.allot + 8 * (7#3).toNat = 64 ∧
    g.allot < 8 * (1#3).toNat + 8 ∧
    ∃ t h, Clear { rd := [] } t h demoPath ∧ 64 < h.allot + 8 * (1#3).toNat ∧ 8 * (7#3).toNat + 8 = h.allot ∧
      (∀ r, 8 ≤ r → r < h.allot → h.isHeld r = false) ∧
      ∃ t2 h2 r, Clear { rd := [] } t2 h2 demoPath ∧ h2.allot = 64 ∧ 56 ≤ r ∧ r < h2.allot ∧ h2.isHeld r = true := by
  let g : Group := { demoGroup (fun _ => 0) with allot := 8 }
  let h2 : Group := { demoGroup (fun _ => 0) with ops := [{ demoOp with dest := some (63, 0), nregs := 1 }] }
  refine ⟨demoState g, g, clear_none 1 rfl, by decide, by decide, demo fun _ => 0, _, clear_none 1 rfl, by decide, by decide,
    fun r _ _ => by simp [Group.isHeld, demoGroup], demoState h2, h2, 63, clear_none 1 rfl, by decide, by decide, by decide, by decide +kernel⟩

/-- Nothing pending and a store pending; a tlbi of the group's own in effect and on its way; a pool with an entry and none. -/
theorem meets_TranslationMaintenance :
    (∃ s g, Clear { rd := [1], uni := [1], priv := true } s g demoPath ∧ Clear { rd := [], priv := true } s g demoPath ∧ g.ops = [] ∧
      s.tlbis = [] ∧ g.ten < 32 ∧ demoPath.active ≠ 0 ∧ (tcbOf s g.ten).phead = (tcbOf s g.ten).ptail ∧
      ∀ sh f, WithinBudget { rd := [], wr := [3], priv := true } 3 0 s g demoPath sh f) ∧
    (∃ s g o, Clear { rd := [1], uni := [1], priv := true } s g demoPath ∧ o ∈ g.ops ∧ o.id < s.serial ∧ o.cls = .mem ∧
      opVisible .dev o = false) ∧
    (∃ s g t, Clear { rd := [], priv := true } s g demoPath ∧ t ∈ s.tlbis ∧ t.group = s.cur ∧ t.id < s.serial ∧ tlbiDone s t = false) ∧
    (∃ s g, Clear { rd := [], priv := true } s g demoPath ∧ (tcbOf s g.ten).phead ≠ (tcbOf s g.ten).ptail) ∧
    (∃ s g, Clear { rd := [], wr := [3], priv := true } s g idlePath ∧ idlePath.active = 0) ∧
    ∃ s g p, curGang s = some (g, p) ∧ p.code.level = .user := by
  refine ⟨⟨demo fun _ => 7, _, demo_clear _ _ rfl, demo_clear _ _ rfl, rfl, rfl, by decide, by decide, by decide,
      fun _ _ => demo_budget _ _ _ _ _ _ _ _ (by decide)⟩,
    ⟨demoState busyGroup, busyGroup, demoOp, busy_clear _ rfl, List.mem_singleton.2 rfl, by decide, rfl, by decide +kernel⟩,
    ⟨{ demo (fun _ => 7) with tlbis := [⟨1, 0, 0, none, none⟩] }, demoGroup fun _ => 7, ⟨1, 0, 0, none, none⟩,
      clear_of (v := fun _ => 7) _ rfl (by decide) rfl rfl rfl rfl rfl rfl rfl, List.mem_singleton.2 rfl, rfl, by decide, by decide +kernel⟩,
    ⟨setTcb (demo fun _ => 7) 0 { Tcb.reset with ptail := 1 }, demoGroup fun _ => 7,
      clear_of (v := fun _ => 7) _ rfl (by decide) rfl rfl rfl rfl rfl rfl rfl, by decide +kernel⟩,
    ⟨demoState (idleGroup fun _ => 7), _, idle_clear _ _ rfl, rfl⟩, ⟨demoState userGroup, userGroup, userPath, rfl, rfl⟩⟩

/-- A kernel with a trampoline table at 0x14000 whose entry 0 names the unit at offset 1. -/
def trampLaunch (tbase : Word) : Launch := { seedLaunch 0x10000 2 with kdesc := some { seedDesc 0x10000 with tbase := tbase, trampn := 4 } }
def trampState (g : Group) (tbase : Word) : State :=
  { demoState g with
    teams := [(0, { seedTeam 1 State.reset with launch := 1 })], launches := [(1, trampLaunch tbase)], mem := [(hbmBase, 0x18), (hbmBase + 3, 0x20), (hbmBase + 4, 8), (hbmBase + 0x4000, 1)] }
/-- Every slice linked to the clause at 0 with its return at 1. -/
def linkedGroup : Group := { demoGroup (fun _ => 7) with tlink := Vector.replicate 16 0x8000000000000001 }

/-- TOOLEN clear and set; a trampoline table that is absent, present, and present with a link in force; links to return by. -/
theorem meets_MarksCostsAndTrampolines :
    (Met (.rdcost 3 1 0) { rd := [1], wr := [3], lanewise := true } 3 0 ∧ ∃ s g, Clear { rd := [1] } s g demoPath) ∧
    (∃ s g, curGang s = some (g, demoPath) ∧ (tcbOf s g.ten).toolen = false) ∧
    (∃ s g, Clear { rd := [] } s g demoPath ∧ (tcbOf s g.ten).toolen = true) ∧
    (∃ s g kd, Clear { rd := [] } s g demoPath ∧ kdescOf s g = some kd ∧ kd.tbase = 0) ∧
    (∃ s g kd, Clear { rd := [] } s g demoPath ∧ kdescOf s g = some kd ∧ kd.tbase ≠ 0 ∧ (3#25).toNat < kd.trampn ∧ kd.trampn ≤ (4#25).toNat ∧
      inSlices demoPath.slices 0 = true ∧ ((g.tlink[0]?).getD 0).toNat / 2 ^ 63 = 1) ∧
    (∃ s g kd x pa bs, Clear { rd := [] } s g demoPath ∧ kdescOf s g = some kd ∧ kd.tbase ≠ 0 ∧ (0#25).toNat < kd.trampn ∧
      (∀ sl < 16, ((g.tlink[sl]?).getD 0).toNat / 2 ^ 63 ≠ 1) ∧ kd.tbase.toNat % 8 = 0 ∧
      translate s 0 g.ten .supervisor .read kd.tbase.toNat = .ok x ∧ hereOf s x = some pa ∧ lineAbsent s pa = false ∧
      (syncRead (tlbFill s 0 g.ten kd.tbase.toNat) 0 g.ten x 8 false).2 = some (bs, 0) ∧
      ∃ t, TargetOk (syncRead (tlbFill s 0 g.ten kd.tbase.toNat) 0 g.ten x 8 false).1 g demoPath (field bs 0 4) t) ∧
    demoPath.slices ≠ 0 := by
  refine ⟨⟨met _ _ _ _ rfl, demo fun _ => 7, _, demo_clear _ _ rfl⟩, ⟨demo fun _ => 7, _, rfl, by decide +kernel⟩,
    ⟨setTcb (demo fun _ => 7) 0 { Tcb.reset with toolen := true }, demoGroup fun _ => 7, clear_none 1 rfl, by decide +kernel⟩,
    ⟨trampState (demoGroup fun _ => 7) 0, demoGroup fun _ => 7, _, clear_none 1 rfl, rfl, by decide⟩,
    ⟨trampState linkedGroup 0x14000, linkedGroup, _, clear_none 1 rfl, rfl, by decide, by decide, by decide, by decide, by decide +kernel⟩,
    ⟨trampState (demoGroup fun _ => 7) 0x14000, demoGroup fun _ => 7, _, pageAt 0x4000, hbmBase + 0x4000, [1, 0, 0, 0, 0, 0, 0, 0],
      clear_none 1 rfl, rfl, by decide, by decide, by decide +kernel, by decide, by decide +kernel, by decide +kernel, by decide +kernel,
      by decide +kernel, _, target_of 8 (by decide) (by decide +kernel) (by decide)⟩, by decide⟩

/-! ### Engine instructions -/

theorem tile_clean {s : State} {g : Group} {i : Nat} (rows : List Nat) (h : (tileAt s g i).poison = []) : TileClean s g i rows := by
  intro r _
  rw [h]
  exact List.not_mem_nil

/-- A shape record, field by field (R91). -/
def recBytes (base fmt lay planes rows cols rst pst : Nat) : List Byte :=
  leBytes 8 base ++ [BitVec.ofNat 8 fmt, BitVec.ofNat 8 lay, BitVec.ofNat 8 planes, 0] ++ leBytes 4 rows ++ leBytes 4 cols ++
    leBytes 4 0 ++ leBytes 8 rst ++ leBytes 8 pst ++ leBytes 4 8 ++ leBytes 4 8 ++ List.replicate 16 0

/-- v i holds the address of the i-th structure of a list, all of them in the group's record cache. -/
def recRegs : Nat → Word := fun i => BitVec.ofNat 64 (0x10000 + 64 * i)
def recGroup (l : List (List Byte)) : Group := { demoGroup recRegs with recs := (List.range l.length).zip l |>.map fun x => (0x400 + x.1, x.2) }
theorem rec_clear (l : List (List Byte)) (u : Use) (b : u.beyond = false) : Clear u (demoState (recGroup l)) (recGroup l) demoPath :=
  clear_of (v := recRegs) u rfl (by decide) rfl rfl rfl rfl rfl rfl b

def okRes : XRes → Bool
  | .ok _ => true
  | .fault _ => false
  | .stage2 => false
  | .pte _ => false

/-- A record that the group's record cache holds, at an address that the die's TLB holds for reading. -/
theorem cached {s : State} {g : Group} {p : Path} {va : Word} {bs : List Byte}
    (h : va.toNat % 64 = 0 ∧ va.toNat < 2 ^ 56 ∧ tget g.recs (va.toNat / 64) = some bs ∧ tput g.recs (va.toNat / 64) bs = g.recs ∧
      okRes (translate s (coreOf s.cur) g.ten p.code.level .read va.toNat) = true ∧
      (s.tlb.find? (tlbHit (coreOf s.cur) g.ten va.toNat)).isSome = true) : RecordRead s g p va s g bs := by
  obtain ⟨a, b, c, d, e, f⟩ := h
  refine ⟨a, b, by rw [d], ?_⟩
  cases hx : translate s (coreOf s.cur) g.ten p.code.level .read va.toNat with
  | ok x =>
    refine ⟨x, rfl, Or.inl ⟨c, ?_⟩⟩
    obtain ⟨y, hy⟩ := Option.isSome_iff_exists.1 f
    simp [tlbFill, hy]
  | fault _ => rw [hx] at e; cases e
  | stage2 => rw [hx] at e; cases e
  | pte _ => rw [hx] at e; cases e

def planeRecs : List (List Byte) :=
  [recBytes 0x10000 1 2 8 8 32 136 8, recBytes 0x10000 1 2 8 32 256 544 32, List.replicate 64 0,
   recBytes 0x10000 4 2 4 8 128 144 16, recBytes 0x10000 4 2 4 128 256 288 32]
def bf16A : Rec := ⟨0x10000, .bf16, 2, 8, 8, 32, 136, 8, 8, 8⟩
def bf16B : Rec := ⟨0x10000, .bf16, 2, 8, 32, 256, 544, 32, 8, 8⟩
def e4m3A : Rec := ⟨0x10000, .e4m3, 2, 4, 8, 128, 144, 16, 8, 8⟩
def e4m3B : Rec := ⟨0x10000, .e4m3, 2, 4, 128, 256, 288, 32, 8, 8⟩

/-- An unscaled product, a scaled one, a gathered one whose rows are 0, and a small one. -/
theorem meets_MatrixProductsIssue :
    let g := recGroup planeRecs
    let s := demoState g
    let at_ := fun (r : VR) => (g.reg r).val.lane 0
    (Clear { rd := [0, 1], uni := [0, 1], len := 2, beyond := tileOver s g 7 || false } s g demoPath ∧
      RecordRead s g demoPath (at_ 0) s g (planeRecs.getD 0 []) ∧ RecordRead s g demoPath (at_ 1) s g (planeRecs.getD 1 []) ∧
      parseRec (planeRecs.getD 0 []) = some bf16A ∧ parseRec (planeRecs.getD 1 []) = some bf16B ∧
      ProductOk bf16A bf16B 8 0 0 false false ∧ ProductOk bf16A bf16B 8 0 0 false true ∧ TileClean s g 7 (List.range 8)) ∧
    (Clear { rd := [3, 4] ++ (runOf 8 1).1 ++ [9], uni := [3, 4, 9], len := 2, beyond := tileOver s g 7 || (runOf 8 1).2 } s g demoPath ∧
      RecordRead s g demoPath (at_ 3) s g (planeRecs.getD 3 []) ∧ RecordRead s g demoPath (at_ 4) s g (planeRecs.getD 4 []) ∧
      parseRec (planeRecs.getD 3 []) = some e4m3A ∧ parseRec (planeRecs.getD 4 []) = some e4m3B ∧
      ProductOk e4m3A e4m3B 8 3 4 true false) ∧
    (Clear { rd := [0, 1, 2], uni := [0, 1, 2], len := 2, beyond := tileOver s g 7 } s g demoPath ∧
      BlockRead s g demoPath (at_ 2) 1 s g (List.replicate 64 0) ∧
      ∀ y ∈ (List.range 8).map (fun j => (field (List.replicate 64 0) (2 * j) 2, field (List.replicate 64 0) (16 + 2 * j) 2)),
        y.1 < bf16A.rows ∧ (y.2 < 128 ∨ y.2 = 0xFFFF)) ∧
    (Clear { rd := (runOf 10 2).1 ++ (runOf 1 1).1 ++ (runOf 2 1).1, len := 2 } s g demoPath ∧ 4096 ≤ g.budget ∧
      ∀ l < g.w, bitOf demoPath.active l = true) := by
  have c := fun (u : Use) (b : u.beyond = false) => rec_clear planeRecs u b
  refine ⟨⟨c _ (by decide +kernel), cached (by decide +kernel), cached (by decide +kernel), by decide +kernel,
      by decide +kernel, ⟨by decide, by decide, by decide, by decide, by decide, by decide⟩,
      ⟨by decide, by decide, by decide, by decide, by decide, by decide⟩, tile_clean _ (by decide +kernel)⟩,
    ⟨c _ (by decide +kernel), cached (by decide +kernel), cached (by decide +kernel), by decide +kernel,
      by decide +kernel, ⟨by decide, by decide, by decide, by decide, by decide, by decide⟩⟩,
    ⟨c _ (by decide +kernel), ⟨_, _, List.replicate 64 0, [], rfl, cached (by decide +kernel), ⟨rfl, rfl, rfl⟩, rfl⟩, by decide +kernel⟩,
    ⟨c _ rfl, by decide, ?_⟩⟩
  exact fun l hl => of_decide_eq_true (List.all_eq_true.1 (by decide +kernel : ((List.range 16).all fun l => decide (bitOf demoPath.active l = true)) = true)
      l (List.mem_range.2 hl))

def rowRecs : List (List Byte) :=
  [recBytes 0x10000 2 0 0 4 8 32 0, recBytes 0x11000 2 0 0 4 8 32 0, recBytes 0x12000 4 0 0 4 8 8 0, recBytes 0x13000 1 0 0 4 2 4 0]
def f32Rec (base : Nat) : Rec := ⟨BitVec.ofNat 64 base, .f32, 0, 0, 4, 8, 32, 0, 8, 8⟩

/-- A record at the tile's last rows and columns, one of E4M3, a row read, and a closing with the counter full and not. -/
theorem meets_TileInstructionsIssue :
    let g := recGroup rowRecs
    let s := demoState g
    (Clear { rd := [], len := 2, beyond := tileOver s g 7 } s g demoPath ∧ Clear { rd := [0], uni := [0], len := 2, beyond := tileOver s g 7 } s g demoPath ∧
      RecordRead s g demoPath ((g.reg 0).val.lane 0) s g (rowRecs.getD 0 []) ∧ parseRec (rowRecs.getD 0 []) = some (f32Rec 0x10000) ∧
      (f32Rec 0x10000).layout ≠ 2 ∧ (124#7).toNat + (f32Rec 0x10000).rows ≤ 128 ∧ (248#8).toNat + (f32Rec 0x10000).cols ≤ 256 ∧
      TileClean s g 7 ((List.range 4).map ((124#7).toNat + ·)) ∧
      (parseRec (rowRecs.getD 2 [])).map (·.fmt) = some .e4m3) ∧
    (Clear { rd := [], wr := [3], len := 2, beyond := tileOver s g 7 } s g demoPath ∧ (224#8).toNat + 2 * g.w ≤ 256 ∧ TileClean s g 7 [5] ∧
      overBudget g (g.setReg 3 ((g.reg 3).write g.w demoPath.slices demoPath.active false 0 none fun _ => 0)) = false) ∧
    (Clear { rd := [], len := 2 } s g demoPath ∧ g.counter .x < 63) ∧
    ∃ t h, Clear { rd := [], len := 2 } t h demoPath ∧ 63 ≤ h.counter .x := by
  have c := fun (u : Use) (b : u.beyond = false) => rec_clear rowRecs u b
  let h : Group := { demoGroup (fun _ => 0) with closed := List.range 63 }
  refine ⟨⟨c _ (by decide +kernel), c _ (by decide +kernel), cached (by decide +kernel), by decide +kernel, by decide, by decide,
      by decide, tile_clean _ (by decide +kernel), by decide +kernel⟩,
    ⟨c _ (by decide +kernel), by decide, tile_clean _ (by decide +kernel), by decide +kernel⟩, ⟨c _ rfl, by decide +kernel⟩,
    ⟨demoState h, h, clear_none 2 rfl, by decide +kernel⟩⟩

/-- A view of the record's shape, in w2. -/
def copyGroup : Group :=
  { recGroup rowRecs with
    views := (Vector.replicate 16 none).set 2 (some ⟨⟨0x11000, 2, 2, 3, [8, 4, 0, 0], [1, 8, 0, 0]⟩, ⟨1, 0, 0⟩, []⟩) }
def collBytes : List Byte := leBytes 8 5 ++ leBytes 4 1 ++ List.replicate 52 0

theorem meets_CopiesAndCollectivesIssue :
    let s := demoState copyGroup
    let g := copyGroup
    let at_ := fun (r : VR) => (g.reg r).val.lane 0
    (Clear { rd := [0, 1], uni := [0, 1], len := 2 } s g demoPath ∧ Clear { rd := [0, 1, 3], uni := [0, 1, 3], len := 2 } s g demoPath ∧
      Clear { rd := [0], uni := [0], len := 2 } s g demoPath ∧ demoPath.active ≠ 0 ∧ g.counter .c < 63 ∧
      (∀ kd, kdescOf s g = some kd → kd.producer = g.gid) ∧
      RecordRead s g demoPath (at_ 0) s g (rowRecs.getD 0 []) ∧ RecordRead s g demoPath (at_ 1) s g (rowRecs.getD 1 []) ∧
      parseRec (rowRecs.getD 0 []) = some (f32Rec 0x10000) ∧ parseRec (rowRecs.getD 1 []) = some (f32Rec 0x11000) ∧
      ∃ ov, g.view 2 = some ov ∧ CT.bytes (f32Rec 0x10000).fmt = 2 ^ ov.desc.esize ∧ ov.desc.mode ≠ 1 ∧ ov.desc.rank = 2 ∧
        ov.desc.ext.getD 0 0 = (f32Rec 0x10000).cols ∧ ov.desc.ext.getD 1 0 = (f32Rec 0x10000).rows) ∧
    ∃ t h, Clear { rd := [2, 0, 1], uni := [2, 0, 1], len := 2 } t h demoPath ∧ h.counter .l < 63 ∧
      RecordRead t h demoPath ((h.reg 2).val.lane 0) t h collBytes ∧ parseColl false collBytes = some ⟨5, 1, 0, 0⟩ ∧
      parseColl true collBytes = some ⟨5, 1, 0, 0⟩ ∧ CT.f32 ∈ reducible ∧
      (∀ o ∈ [CollOp.allreduce .add, .redscat .max, .allgather, .bcast, .alltoall], collAgrees o 1 (f32Rec 0x10000) (f32Rec 0x11000)) ∧
      (h.ten, (5 : Word), 1) ∈ t.comms := by
  let l := [rowRecs.getD 0 [], rowRecs.getD 1 [], collBytes]
  refine ⟨⟨clear_of (v := recRegs) _ rfl (by decide) rfl rfl rfl rfl rfl rfl rfl, clear_of (v := recRegs) _ rfl (by decide) rfl rfl rfl rfl rfl rfl rfl,
      clear_of (v := recRegs) _ rfl (by decide) rfl rfl rfl rfl rfl rfl rfl, by decide, by decide +kernel, fun kd h => ?_,
      cached (by decide +kernel), cached (by decide +kernel), by decide +kernel, by decide +kernel, _, rfl, by decide,
      by decide, by decide, by decide, by decide⟩,
    { demoState (recGroup l) with comms := [(0, 5, 1)] }, recGroup l, clear_of (v := recRegs) _ rfl (by decide) rfl rfl rfl rfl rfl rfl rfl,
    by decide +kernel, cached (by decide +kernel), by decide +kernel, by decide +kernel, by decide, ?_, List.mem_singleton.2 rfl⟩
  · have e : kdescOf (demoState copyGroup) copyGroup = some (seedDesc 0x10000) := by decide +kernel
    rw [e] at h
    cases h
    rfl
  · intro o ho
    simp only [List.mem_cons, List.not_mem_nil, or_false] at ho
    rcases ho with rfl | rfl | rfl | rfl | rfl <;> exact ⟨rfl, by decide⟩

def viewBytes : List Byte := leBytes 8 0x10000 ++ [3, 1, 3, 0] ++ leBytes 2 16 ++ leBytes 2 1 ++ leBytes 2 1 ++ leBytes 2 1 ++ leBytes 4 1 ++
  List.replicate 32 0

/-- No view of another group holds a ticket of this ns. -/
def Untaken (s : State) (g : Group) : Prop := ∀ n k, s.lastTicket = some (n, k) → k ≠ g.team * 64 + g.gid + 1 → n < s.time

/-- A closed register and an open one; free shards and full ones; a ticket of this ns; an access through the view pending. -/
theorem meets_ViewsOpenAndRetire :
    (∃ s g, Clear { rd := [0], uni := [0], len := 2 } s g demoPath ∧ demoPath.active ≠ 0 ∧ g.view 9 = none ∧ Untaken s g ∧
      RecordRead s g demoPath ((g.reg 0).val.lane 0) s g viewBytes ∧ ∃ ds, parseView viewBytes = some ds ∧
        (let r := viewHomes s (coreOf s.cur) g.ten ds; shardsFree r.1 r.2 r.1.serial = true) ∧
        ∃ t, Clear { rd := [0], uni := [0], len := 2 } t g demoPath ∧ Untaken t g ∧
          RecordRead t g demoPath ((g.reg 0).val.lane 0) t g viewBytes ∧
          let r := viewHomes t (coreOf t.cur) g.ten ds; shardsFree r.1 r.2 r.1.serial = false) ∧
    (∃ s g, Clear { rd := [0], uni := [0], len := 2 } s g demoPath ∧ demoPath.active ≠ 0 ∧ g.view 9 = none ∧
      ∃ n k, s.lastTicket = some (n, k) ∧ k ≠ g.team * 64 + g.gid + 1 ∧ s.time ≤ n) ∧
    (∃ s g ov, Clear { rd := [0], uni := [0], len := 2 } s g demoPath ∧ Clear { rd := [], len := 2 } s g demoPath ∧
      Clear { rd := [], wr := [3], len := 2 } s g demoPath ∧ Clear { rd := [1], wr := [3], len := 2, lanewise := true } s g demoPath ∧
      g.view 9 = some ov ∧ viewBusy g 9 = false ∧ ov.desc.mode ≠ 0 ∧ (∀ l ∈ activeList demoPath, insideView ov.desc (g.val 1 l)) ∧
      ∀ u sh f, WithinBudget u 3 0 s g demoPath sh f) ∧
    ∃ s g ov, Clear { rd := [], len := 2 } s g demoPath ∧ g.view 9 = some ov ∧ viewBusy g 9 = true := by
  let l := [viewBytes]
  let v : Nat → Word := fun i => if i = 1 then 0x10003 else 0x10000
  let busy : Group := { viewGroup v with ops := [{ demoOp with view := some (9, demoView) }] }
  let ds : ViewDesc := ⟨0x10000, 3, 1, 3, [16, 1, 1, 1], [1, 0, 0, 0]⟩
  have cv : ∀ u : Use, u.beyond = false → Clear u (demoState (viewGroup v)) (viewGroup v) demoPath := fun u b =>
    clear_of (v := v) u rfl (by decide) rfl rfl rfl rfl rfl rfl b
  let full := List.replicate 2048 (⟨⟨1, 0, 0⟩, ds, (viewHomes (demoState (recGroup l)) 0 0 ds).2, none, 0, 0, 0⟩ : Reg)
  refine ⟨⟨demoState (recGroup l), recGroup l, rec_clear l _ rfl, by decide, by decide +kernel, fun _ _ h => (by cases h), cached (by decide +kernel), ds,
      by decide +kernel, by decide +kernel, { demoState (recGroup l) with trellis := full },
      clear_of (v := recRegs) _ rfl (by decide) rfl rfl rfl rfl rfl rfl rfl,
      fun _ _ h => (by cases h), cached (by decide +kernel), by decide +kernel⟩,
    ⟨{ demoState (recGroup l) with lastTicket := some (0, 32) }, recGroup l,
      clear_of (v := recRegs) _ rfl (by decide) rfl rfl rfl rfl rfl rfl rfl, by decide, by decide +kernel,
      0, 32, rfl, by decide, by decide⟩,
    ⟨demoState (viewGroup v), viewGroup v, demoView, cv _ rfl, cv _ rfl, cv _ rfl, cv _ rfl, rfl, by decide +kernel, by decide, fun l hl => ?_,
      fun _ _ _ => demo_budget _ _ _ _ _ _ _ _ (by decide)⟩,
    ⟨demoState busy, busy, demoView, clear_none 2 rfl, rfl, by decide +kernel⟩⟩
  have h : ((activeList demoPath).all fun l => decide ((viewGroup v).val 1 l = 0x10003)) = true := by decide +kernel
  have e := of_decide_eq_true (List.all_eq_true.1 h l hl)
  rw [e]
  exact inside_demo _ (by decide)

/-- A coverage launch of f32 points, one for each lane. -/
def demoCov : Cov := ⟨0x10000, 4, 4, 1, 2, 1, 0, .f32, 0x10000, 0, 0, 0, 1, 4, [], [], 0, 0, 0, 0⟩
def covGroup : Group := { demoGroup (fun _ => 7) with points := List.replicate 16 (some ⟨1, 1, 0, false, false⟩) }
def covState (g : Group) : State := { demoState g with launches := [(1, { seedLaunch 0x10000 2 with cov := some demoCov, form := 2 })] }

theorem meets_CoverageInstructions : ∃ s g, Clear { rd := [1], len := 2 } s g demoPath ∧ (∃ x, covOf s g = some x) ∧
    Clear { rd := [], wr := [3], len := 2 } s g demoPath ∧ demoPath.active ≠ 0 ∧ (∃ tm, teamOf s g = some tm) ∧ (5#3).toNat < 6 ∧
    WithinBudget { rd := [], wr := [3], len := 2 } 3 0 s g demoPath (some (.uni 0)) (fun _ => 0) ∧
    ∃ t h, Clear { rd := [1], len := 2 } t h demoPath ∧ Clear { rd := [], wr := [3], len := 2 } t h demoPath ∧ covOf t h = none :=
  have c : ∀ u : Use, u.beyond = false → Clear u (covState covGroup) covGroup demoPath := fun u b =>
    clear_of (v := fun _ => 7) u rfl (by decide) rfl rfl rfl rfl rfl rfl b
  ⟨covState covGroup, covGroup, c _ rfl, ⟨_, rfl⟩, c _ rfl, by decide, ⟨_, rfl⟩, by decide, demo_budget _ _ _ _ _ _ _ _ (by decide),
    demo fun _ => 7, _, demo_clear _ _ rfl, demo_clear _ _ rfl, by decide +kernel⟩

/-- A packet of zeros (BADPKT) at a mapped address, and an older store in the way. -/
theorem meets_ChildLaunchesEnqueue :
    (∃ s g l x s1 bs, Clear { rd := [1], uni := [1], wr := [3] } s g demoPath ∧ demoPath.active ≠ 0 ∧ g.ops = [] ∧ launchOf s g = some l ∧
      ((g.reg 1).val.lane 0).toNat < 2 ^ 56 ∧ ((g.reg 1).val.lane 0).toNat % 128 = 0 ∧
      translate s (coreOf s.cur) g.ten demoPath.code.level .read ((g.reg 1).val.lane 0).toNat = .ok x ∧
      (∃ pa, hereOf s x = some pa ∧ lineAbsent s pa = false) ∧
      syncRead (tlbFill s (coreOf s.cur) g.ten ((g.reg 1).val.lane 0).toNat) s.cur g.ten x 128 false = (s1, some (bs, 0)) ∧
      WithinBudget { rd := [1], uni := [1], wr := [3] } 3 0 s g demoPath (some (.uni 0)) (fun _ => 0)) ∧
    ∃ s g o, Clear { rd := [1], uni := [1], wr := [3] } s g demoPath ∧ o ∈ g.ops ∧ o.id < s.serial ∧ o.cls = .mem ∧ opVisible .dev o = false :=
  ⟨⟨demo atPage, demoGroup atPage, _, pageAt 0, _, readBytes (demo atPage) 0 hbmBase 128, demo_clear _ _ rfl, by decide, rfl, rfl, by decide,
      by decide, by decide +kernel, ⟨hbmBase, by decide +kernel, by decide +kernel⟩, Prod.ext rfl (by decide +kernel),
      demo_budget _ _ _ _ _ _ _ _ (by decide)⟩,
    ⟨demoState busyGroup, busyGroup, demoOp, busy_clear _ rfl, List.mem_singleton.2 rfl, by decide, rfl, by decide +kernel⟩⟩


/-- A gang with an empty EXEC whose group has structures in its record cache. -/
def restGroup (g : Group) : Group := { g with paths := (Vector.replicate 16 none).set 0 (some idlePath) }
theorem rest_clear (l : List (List Byte)) (u : Use) (b : u.beyond = false) :
    Clear u (demoState (restGroup (recGroup l))) (restGroup (recGroup l)) idlePath :=
  clear_of (v := recRegs) u rfl (by decide) rfl rfl rfl rfl rfl rfl b

/-- With an empty EXEC: records of a product, of a tile and of a copy, a collective's descriptor, a view's, and a coverage launch. -/
theorem meets_EnginesWithNoLane : idlePath.active = 0 ∧
    (let l := planeRecs; let g := restGroup (recGroup l); let s := demoState g
      (∀ u : Use, u.beyond = false → Clear u s g idlePath) ∧ (tileOver s g 7 || false) = false ∧
      RecordRead s g idlePath ((g.reg 0).val.lane 0) s g (l.getD 0 []) ∧ RecordRead s g idlePath ((g.reg 1).val.lane 0) s g (l.getD 1 [])) ∧
    (let l := rowRecs; let g := restGroup (recGroup l); let s := demoState g
      (∀ u : Use, u.beyond = false → Clear u s g idlePath) ∧ tileOver s g 7 = false ∧ (∀ kd, kdescOf s g = some kd → kd.producer = g.gid) ∧
      RecordRead s g idlePath ((g.reg 0).val.lane 0) s g (l.getD 0 []) ∧ RecordRead s g idlePath ((g.reg 1).val.lane 0) s g (l.getD 1 [])) ∧
    (let l := [collBytes, viewBytes]; let g := restGroup (recGroup l); let s := demoState g
      (∀ u : Use, u.beyond = false → Clear u s g idlePath) ∧ g.view 9 = none ∧ Untaken s g ∧
      RecordRead s g idlePath ((g.reg 0).val.lane 0) s g collBytes ∧ RecordRead s g idlePath ((g.reg 1).val.lane 0) s g viewBytes) ∧
    Clear { rd := [], wr := [3], len := 2 } (covState (restGroup covGroup)) (restGroup covGroup) idlePath ∧ covOf (covState (restGroup covGroup)) (restGroup covGroup) ≠ none := by
  refine ⟨by decide, ⟨fun u b => rest_clear _ u b, by decide +kernel, cached (by decide +kernel), cached (by decide +kernel)⟩,
    ⟨fun u b => rest_clear _ u b, by decide +kernel, fun kd h => ?_, cached (by decide +kernel), cached (by decide +kernel)⟩,
    ⟨fun u b => rest_clear _ u b, by decide +kernel, fun _ _ h => (by cases h), cached (by decide +kernel), cached (by decide +kernel)⟩,
    clear_of (v := fun _ => 7) _ rfl (by decide) rfl rfl rfl rfl rfl rfl rfl, by decide +kernel⟩
  have e : kdescOf (demoState (restGroup (recGroup rowRecs))) (restGroup (recGroup rowRecs)) = some (seedDesc 0x10000) := by decide +kernel
  rw [e] at h
  cases h
  rfl
/-! ### Steps of gangs and of pending operations -/

def boundaryPath (off : Nat) : Path := { demoPath with spot := .boundary off }
def boundaryGroup (p : Path) : Group := { demoGroup (fun _ => 0) with paths := (Vector.replicate 16 none).set 0 (some p), ops := [demoOp] }
/-- Offset 1 holds a word: a clause of one word, the same waiting for f3, a pool of one word. -/
def unitState (p : Path) (w : BitVec 32) : State :=
  { demoState (boundaryGroup p) with mem := Memory.setMany [] (hbmBase + 4) (bytesOfWord w.toNat) }

/-- The same with a team that has been asked. -/
def askedState (w : BitVec 32) : State :=
  { unitState (boundaryPath 1) w with teams := [(0, { seedTeam 1 State.reset with mode := .asked 0 })] }

theorem unit_met (p : Path) (w : BitVec 32) (h : (fetchWord (unitState p w) (unitState p w).cur (boundaryGroup p) p 1).2 = .word w) :
    ∃ s1, fetchWord (unitState p w) (unitState p w).cur (boundaryGroup p) p 1 = (s1, .word w) ∧
      s1 = (fetchWord (unitState p w) (unitState p w).cur (boundaryGroup p) p 1).1 := ⟨_, Prod.ext rfl h, rfl⟩

/-- A gang at offset 1 whose word is w, its kernel long enough, nothing reported and its team running. -/
def AtUnit (p : Path) (w : BitVec 32) : Prop :=
  curGang (unitState p w) = some (boundaryGroup p, p) ∧ p.spot = .boundary 1 ∧ 1 < p.code.klen ∧ (boundaryGroup p).reports = [] ∧
    ∃ s1, fetchWord (unitState p w) (unitState p w).cur (boundaryGroup p) p 1 = (s1, .word w) ∧
      ∀ tm n, teamOf s1 (boundaryGroup p) = some tm → tm.mode ≠ .asked n

/-- Each kind of word at the boundary, an offset beyond the kernel, a raised watchdog and a requested stop. -/
theorem meets_UnitBoundaries :
    (∀ p ∈ [boundaryPath 1, { boundaryPath 1 with wdog := true }, { boundaryPath 1 with stop := .atNext }],
      ∀ w ∈ [0x10001FE8, 0x10011FE8, 0x0E002000, 0], AtUnit p (BitVec.ofNat 32 w)) ∧
    ClauseLegal 0x10001FE8 1 16 ∧ ¬ PoolLegal 0x10001FE8 1 16 ∧ PoolLegal 0x0E002000 1 16 ∧ ¬ ClauseLegal 0 1 16 ∧ ¬ PoolLegal 0 1 16 ∧
    (∃ i < 12, (0x10011FE8#32).getLsbD (13 + i) = true ∧ pendingFlag (boundaryGroup (boundaryPath 1)) i) ∧
    (∀ i < 12, (0x10001FE8#32).getLsbD (13 + i) = false) ∧
    (∃ s g p, curGang s = some (g, p) ∧ p.spot = .boundary 16 ∧ p.code.klen ≤ 16) ∧
    ∃ s g p s1 tm, curGang s = some (g, p) ∧ p.spot = .boundary 1 ∧ 1 < p.code.klen ∧ fetchWord s s.cur g p 1 = (s1, .word 0x10001FF8) ∧
      p.wdog = false ∧ p.stop ≠ .atNext ∧ teamOf s1 g = some tm ∧ tm.mode = .asked 0 ∧ (0x10001FF8#32).getLsbD 4 = true ∧ g.counter .c = 0 ∧
      ClauseLegal 0x10001FF8 1 16 ∧ ¬ PoolLegal 0x10001FF8 1 16 := by
  have all : ∀ p ∈ [boundaryPath 1, { boundaryPath 1 with wdog := true }, { boundaryPath 1 with stop := .atNext }],
      ∀ w ∈ [0x10001FE8, 0x10011FE8, 0x0E002000, 0],
      let s := unitState p (BitVec.ofNat 32 w)
      (decide (p.spot = .boundary 1) && decide (1 < p.code.klen) && match fetchWord s s.cur (boundaryGroup p) p 1 with
        | (s1, .word x) => x == BitVec.ofNat 32 w && (teamOf s1 (boundaryGroup p)).all fun tm => decide (tm.mode = .running)
        | _ => false) = true := by decide +kernel
  have ask : (match fetchWord (askedState 0x10001FF8) 0 (boundaryGroup (boundaryPath 1)) (boundaryPath 1) 1 with
      | (s1, .word x) => x == 0x10001FF8 && teamOf s1 (boundaryGroup (boundaryPath 1)) == some { seedTeam 1 State.reset with mode := .asked 0 }
      | _ => false) = true := by decide +kernel
  refine ⟨fun p hp w hw => ?_,
    ⟨by decide, by decide, by decide, by decide, by decide⟩, fun h => absurd h.kind (by decide), ⟨by decide, by decide, by decide⟩,
    fun h => absurd h.count (by decide), fun h => absurd h.kind (by decide), ⟨3, by decide, by decide, Or.inl ⟨demoOp, List.mem_singleton.2 rfl, rfl, rfl⟩⟩,
    by decide, ⟨demoState (boundaryGroup (boundaryPath 16)), _, _, rfl, rfl, by decide⟩, askedState 0x10001FF8, boundaryGroup (boundaryPath 1), boundaryPath 1, ?_⟩
  · have e := all p hp w hw
    simp only [Bool.and_eq_true, decide_eq_true_eq] at e
    obtain ⟨⟨e1, e2⟩, e3⟩ := e
    refine ⟨rfl, e1, e2, rfl, ?_⟩
    split at e3
    · next s1 x hx =>
      simp only [Bool.and_eq_true, beq_iff_eq] at e3
      obtain ⟨rfl, e4⟩ := e3
      refine ⟨s1, hx, fun tm n h hm => ?_⟩
      rw [h] at e4
      simp [hm] at e4
    · cases e3
  · split at ask
    · next s1 x hx =>
      simp only [Bool.and_eq_true, beq_iff_eq] at ask
      obtain ⟨rfl, e⟩ := ask
      exact ⟨s1, _, rfl, rfl, by decide, hx, rfl, by decide, e, rfl, by decide, by decide +kernel,
        ⟨by decide, by decide, by decide, by decide, by decide⟩, fun h => absurd h.kind (by decide)⟩
    · cases ask

/-- Two gangs of one group, of two slices each. -/
def pairGroup (f : Path → Path) : Group :=
  { demoGroup (fun _ => 0) with
    paths := ((Vector.replicate 16 none).set 0 (some (f { demoPath with slices := 0x3, exec := 0xFF }))).set 3
      (some (f { demoPath with slices := 0xC, exec := 0xFF00 })) }
def regangGroup : Group := pairGroup fun p => { p with park := some .regang }
def heldGroup : Group :=
  { trapGroup with paths := (Vector.replicate 16 none).set 0 (some { demoPath with trap := some (demoTrap 7), park := some .heldTrap }) }
def waitingGroup : Group := { trapGroup with paths := (Vector.replicate 16 none).set 0 (some { demoPath with trap := some (demoTrap 7) }) }
def barrierGroup : Group :=
  { demoGroup (fun _ => 0) with
    barAt := Vector.replicate 32 4, paths := (Vector.replicate 16 none).set 0 (some { demoPath with arrived := 0xFFFFFFFF }) }

theorem found_waiting : ∃ d y pa s1, HandlerFound (trapState waitingGroup) 0 waitingGroup d y pa s1 :=
  ⟨trapDesc, pageAt 0x8000, hbmBase + 0x8000, _, handler_found waitingGroup 0 (trapState waitingGroup) rfl (fun _ _ => rfl) (pageAt 0xF000)
    (pageAt 0x8000) (hbmBase + 0x8000) (by decide +kernel) (by decide +kernel) (by decide +kernel) (by decide +kernel) (by decide +kernel) rfl⟩
theorem found_held : ∃ d y pa s1, HandlerFound (trapState heldGroup) 0 heldGroup d y pa s1 :=
  ⟨trapDesc, pageAt 0x8000, hbmBase + 0x8000, _, handler_found heldGroup 0 (trapState heldGroup) rfl (fun _ _ => rfl) (pageAt 0xF000)
    (pageAt 0x8000) (hbmBase + 0x8000) (by decide +kernel) (by decide +kernel) (by decide +kernel) (by decide +kernel) (by decide +kernel) rfl⟩

/-- Gangs all parked at a regang; a waiting and a held trap; the watchdog's limit; a generation that is complete. -/
theorem meets_GangSteps :
    (∃ (s : State) (g : Group), tget s.groups 0 = some g ∧ (∀ j p, g.path j = some p → p.latched = false) ∧ (∃ j, (g.path j).isSome = true) ∧ ∀ j p, g.path j = some p → AtRegang p) ∧
    (∃ s g p r, tget s.groups 0 = some g ∧ g.path 0 = some p ∧ p.trap = some r ∧ r.spill = false ∧ p.park = none ∧ Alone g 0 ∧
      ∃ d y pa s1, HandlerFound s 0 g d y pa s1) ∧
    (∃ s g p r, tget s.groups 0 = some g ∧ g.path 0 = some p ∧ p.trap = some r ∧ r.spill = false ∧ p.park = some .heldTrap ∧
      p.latched = false ∧ (∀ j < 0, ∀ q, g.path j = some q → q.park ≠ some .heldTrap) ∧ ∃ d y pa s1, HandlerFound s 0 g d y pa s1) ∧
    (∃ (s : State) (g : Group) (p : Path) (sc : Sched) (wd : Nat), tget s.groups 0 = some g ∧ g.path 0 = some p ∧ 0 % 32 ≠ 31 ∧ s.scheds[0 / 32 * 4 + 0 % 32 / 8]? = some sc ∧ sc.wdexp[g.ten]? = some wd ∧
      g.wlast = 0 ∧ 2 ^ wd ≤ g.wcount ∧ ∀ j q, g.path j = some q → q.wdog = false ∧ ∀ t, q.trap = some t → t.cause ≠ 0x14) ∧
    ∃ s t, tget s.teams 0 = some t ∧ ∀ clu i, i = (if clu then 31 else 15) →
      (∃ x ∈ barrierSpan s clu 0 t, ∃ g, GroupOf s x g ∧ (g.barAt[i]?).getD 0 ≠ 0) ∧
      ∀ x ∈ barrierSpan s clu 0 t, ∀ g, GroupOf s x g → Arrived (if clu then .clu else .team) i g := by
  refine ⟨⟨demoState regangGroup, regangGroup, rfl,
    fun j p hp => by simpa using paths_all (g := regangGroup) (fun p => !p.latched) (by decide +kernel) j p hp, ⟨0, by decide +kernel⟩, fun j p hp => ?_⟩,
    ⟨trapState waitingGroup, waitingGroup, _, _, rfl, rfl, rfl, rfl, rfl, alone_of (by decide +kernel), found_waiting⟩,
    ⟨trapState heldGroup, heldGroup, _, _, rfl, rfl, rfl, rfl, rfl, rfl, fun j hj => absurd hj (Nat.not_lt_zero j), found_held⟩,
    ⟨demoState { demoGroup (fun _ => 0) with wlast := 0, wcount := 2 ^ 22 }, _, demoPath, Sched.reset, 22, rfl, rfl, by decide, by decide +kernel,
      by decide +kernel, rfl, by decide, fun j q hq => ?_⟩,
    demoState barrierGroup, seedTeam 1 State.reset, rfl, ?_⟩
  · have := paths_all (g := regangGroup) (fun p => decide (p.park = some .regang) && decide (p.stop ≠ .stopped)) (by decide +kernel) j p hp
    simpa [AtRegang] using this
  · have h := paths_all (g := { demoGroup (fun _ => 0) with wlast := 0, wcount := 2 ^ 22 }) (fun q => !q.wdog && q.trap.isNone) (by decide +kernel) j q hq
    simp only [Bool.and_eq_true, Bool.not_eq_true', Option.isNone_iff_eq_none] at h
    exact ⟨h.1, fun t ht => by rw [h.2] at ht; cases ht⟩
  · have span : ∀ clu, barrierSpan (demoState barrierGroup) clu 0 (seedTeam 1 State.reset) = [0] := by decide +kernel
    have only : ∀ g, GroupOf (demoState barrierGroup) 0 g → g = barrierGroup := by
      rintro g ⟨t, ht, h⟩
      have : t = seedTeam 1 State.reset := by
        have e : tget (demoState barrierGroup).teams 0 = some (seedTeam 1 State.reset) := rfl
        rw [e] at ht
        cases ht
        rfl
      subst this
      rcases h with h | ⟨k, hk, h⟩
      · cases h
      · have : k = 0 := List.mem_singleton.1 hk
        subst this
        have e : tget (demoState barrierGroup).groups 0 = some barrierGroup := rfl
        rw [e] at h
        cases h
        rfl
    intro clu i hi
    rw [span]
    refine ⟨⟨0, List.mem_singleton.2 rfl, barrierGroup, ⟨_, rfl, Or.inr ⟨0, List.mem_singleton.2 rfl, rfl⟩⟩, ?_⟩, ?_⟩
    · subst hi
      cases clu <;> decide +kernel
    · intro x hx g hg
      have : x = 0 := List.mem_singleton.1 hx
      subst this
      rw [only g hg]
      refine ⟨fun _ => ⟨all_nil rfl, no_waitv (by decide +kernel)⟩, Or.inr ⟨?_, fun j p hp => ?_⟩⟩
      · subst hi
        cases clu <;> decide +kernel
      · subst hi
        have := paths_all (g := barrierGroup) (fun p => p.arrived.getLsbD 31 && p.arrived.getLsbD 15) (by decide +kernel) j p hp
        simp only [Bool.and_eq_true] at this
        cases clu
        · exact this.2
        · exact this.1

/-- One access of four bytes at VA 0x10008. -/
def demoAcc : Acc := ⟨0, 0x10008, 4, 0x11223344, 0, pageAt 8, false, none, 0, 0, 0⟩
def accOp (k : OpKind) (d : Option (VR × CC)) : POp := { demoOp with kind := k, dest := d, accs := [demoAcc] }
def opGroup (o : POp) : Group := { demoGroup (fun _ => 7) with ops := [o] }

theorem last_of (o : POp) (s : State) (h : s.groups = [(0, opGroup o)]) (a : o.accs = [demoAcc]) (c : o.cls = .mem)
    (w : o.done = false ∧ o.halted = false)
    (m : mayPerform s 0 (opGroup o) o demoAcc [] = true) (e : hereOf s (pageAt 8) = some (hbmBase + 8))
    (p : poisoned s (hbmBase + 8) 4 = false) (v : anyCov s = false) (x : Memory.wf s.mem = true) :
    LastAccess s 0 (opGroup o) o demoAcc (hbmBase + 8) [] [] where
  group := by rw [h]; rfl
  op := by simp [Group.op, opGroup]
  cls := c
  waits := w
  accs := a
  rest := all_nil rfl
  may := m
  here := e
  clean := ⟨rfl, p⟩
  plain := ⟨rfl, rfl, v⟩
  size := by decide
  mem := x

theorem last_demo (k : OpKind) (d : Option (VR × CC))
    (m : mayPerform (demoState (opGroup (accOp k d))) 0 (opGroup (accOp k d)) (accOp k d) demoAcc [] = true) :
    LastAccess (demoState (opGroup (accOp k d))) 0 (opGroup (accOp k d)) (accOp k d) demoAcc (hbmBase + 8) [] [] :=
  last_of _ _ rfl rfl rfl ⟨rfl, rfl⟩ m rfl rfl rfl rfl

def doneOp (k : OpKind) (n : Nat) : POp :=
  { demoOp with kind := k, dest := some (9, 0), accs := (List.range n).map fun i => { demoAcc with done := true, res := if i = 0 then 0x40000 else 0 } }

/-- A store, a load and an atomic at their last access, and operations of each kind whose accesses have performed. -/
theorem meets_MemoryOperationsComplete :
    LastAccess (demoState (opGroup (accOp .store none))) 0 (opGroup (accOp .store none)) (accOp .store none) demoAcc (hbmBase + 8) [] [] ∧
    (LastAccess (demoState (opGroup (accOp (.load 4 true) (some (9, 0))))) 0 (opGroup (accOp (.load 4 true) (some (9, 0))))
        (accOp (.load 4 true) (some (9, 0))) demoAcc (hbmBase + 8) [] [] ∧
      ∀ l ∈ (demoState (opGroup (accOp (.load 4 true) (some (9, 0))))).rcache, l.core = coreOf 0 → l.line ≠ (hbmBase + 8) / 64) ∧
    (LastAccess (demoState (opGroup (accOp (.atomic .add .n32) (some (9, 0))))) 0 (opGroup (accOp (.atomic .add .n32) (some (9, 0))))
        (accOp (.atomic .add .n32) (some (9, 0))) demoAcc (hbmBase + 8) [] [] ∧ demoAcc.size = AT.width .n32 / 8) ∧
    (∀ k ∈ [OpKind.load 8 false, .atomic .xor .n64, .loadu], ∃ (s : State) (g : Group) (o : POp), tget s.groups 0 = some g ∧ g.op o.id = some o ∧ o.cls = .mem ∧
      o.done = false ∧ o.halted = false ∧ (∀ a ∈ o.accs, a.done = true ∧ a.err = 0) ∧ o.kind = k ∧ o.full = true ∧ o.lanes &&& g.live ≠ 0) ∧
    ∃ (s : State) (g : Group) (o : POp), tget s.groups 0 = some g ∧ g.op o.id = some o ∧ (∀ a ∈ o.accs, a.done = true ∧ a.err = 0) ∧ o.accs ≠ [] ∧
      o.kind = .unspill 9 ∧ (VReg.ofImage g.w ((o.accs.map fun a => leBytes 8 a.res.toNat).flatten)).isSome = true ∧ g.holdsLive o.slices = true := by
  refine ⟨last_demo _ _ (by decide +kernel), ⟨last_demo _ _ (by decide +kernel), all_nil rfl⟩, ⟨last_demo _ _ (by decide +kernel), by decide⟩,
    fun k _ => ⟨demoState (opGroup (doneOp k 1)), opGroup (doneOp k 1), doneOp k 1, rfl, by simp [Group.op, opGroup], rfl, rfl, rfl, ?_, rfl, rfl,
      (by decide : (0xFFFF#64) &&& 0xFFFF ≠ 0)⟩,
    ⟨demoState (opGroup (doneOp (.unspill 9) 3)), _, doneOp (.unspill 9) 3, rfl, by simp [Group.op, opGroup], ?_, by decide +kernel, rfl,
      by decide +kernel, by decide +kernel⟩⟩ <;>
  · intro a ha
    simp only [doneOp, List.mem_map] at ha
    obtain ⟨i, _, rfl⟩ := ha
    exact ⟨rfl, rfl⟩

def parkGroup (p : Park) (v : Nat → Word) : Group :=
  { demoGroup v with paths := (Vector.replicate 16 none).set 0 (some { demoPath with park := some p }) }
/-- A parked waitv on words of zero in every lane. -/
def waitPark (r : WRel) : Park := .waitv 0 0 (List.replicate 64 0x10000) (List.replicate 64 5) r true none

/-- A gang runs, and another of its group stands at a waitv issued before. -/
theorem meets_FencesWaitForOlderAccesses_waitv : ∃ s g, Clear { rd := [] } s g demoPath ∧ WaitvBefore g s.serial :=
  let g : Group := { demoGroup (fun _ => 0) with
    paths := ((Vector.replicate 16 none).set 0 (some demoPath)).set 1 (some { demoPath with slices := 0, park := some (waitPark .eq) }) }
  ⟨demoState g, g, clear_of (v := fun _ => 0) _ rfl (by decide) rfl rfl rfl rfl rfl rfl rfl, 1, _, _, _, _, _, _, _, _, rfl, rfl, by decide⟩

/-- Lines that are present; and lanes that then hold, or do not. -/
theorem meets_ParkedAccessesResume :
    (∃ (s : State) (g : Group) (p : Path), tget s.groups 0 = some g ∧ g.path 0 = some p ∧ p.latched = false ∧ p.park = some (.line [3, 4]) ∧ ∀ l ∈ [3, 4], l ∉ s.absent) ∧
    (∃ (s : State) (g : Group) (p : Path), tget s.groups 0 = some g ∧ g.path 0 = some p ∧ p.latched = false ∧ p.park = some (waitPark .ne) ∧
      (∀ va : Word, va = 0x10000 → ∃ x, translate s (coreOf 0) g.ten p.code.level .read (va.toNat % 2 ^ 56) = .ok x) ∧
      let lanes := (activeList p).map fun l => (l, (List.replicate 64 (0x10000 : Word)).getD l 0, (List.replicate 64 (5 : Word)).getD l 0)
      let s1 := lanes.foldl (fun q x => tlbFill q (coreOf 0) g.ten (x.2.1.toNat % 2 ^ 56)) s
      let w := fun r => waitScan 0 g 0 p.code.level r 8 false s1 0 lanes ⟨s1, 0, 0, 0, 0⟩
      ∀ r ∈ [WRel.ne, .eq], (w r).bad = 0 ∧ (w r).ref = 0 ∧ (r = .ne ↔ p.active &&& ~~~(w r).sat = 0)) := by
  refine ⟨⟨demoState (parkGroup (.line [3, 4]) fun _ => 0), _, _, rfl, rfl, rfl, rfl, ?_⟩,
    ⟨demoState (parkGroup (waitPark .ne) fun _ => 0), _, _, rfl, rfl, rfl, rfl, fun va h => ⟨pageAt 0, ?_⟩, by decide +kernel⟩⟩
  · intro l _ h
    cases h
  · subst h
    decide +kernel

def matOp (k : OpKind) (d : Option (VR × CC)) (n : Nat) : POp := { demoOp with cls := .mat, kind := k, dest := d, nregs := n, flag := none }
theorem turn_of (k : OpKind) (d : Option (VR × CC)) (n : Nat) :
    MatTurn (demoState (opGroup (matOp k d n))) 0 (opGroup (matOp k d n)) (matOp k d n) where
  group := rfl
  op := by simp [Group.op, opGroup]
  cls := rfl
  waits := ⟨rfl, rfl⟩
  turn := by
    have e : olderOps (opGroup (matOp k d n)) (matOp k d n) = [] := by simp [olderOps, opGroup]
    rw [e]
    exact all_nil rfl
  team := ⟨_, rfl⟩

/-- One element of f32 at a VA; and rows of bits that lie over each other in Silo. -/
def oneRec (va : Nat) : Rec := ⟨BitVec.ofNat 64 va, .f32, 0, 0, 1, 1, 4, 0, 1, 1⟩
def flatRec (rows cols : Nat) : Rec := ⟨0x40000, .s4, 2, 0, rows, cols, 0, 0, 8, 8⟩

/-- A byte that an engine may read from Silo, its page in the die's TLB. -/
def siloByte (s : State) (w : EWho) (va : Nat) : Bool :=
  va / 2 ^ 56 == 0 && s.rcache.isEmpty && (s.tlb.find? (tlbHit (coreOf w.k) w.ten va)).isSome && match translate s (coreOf w.k) w.ten w.lvl .read va with
    | .ok x => (match hereOf s x with
      | some pa => isSilo pa && !poisoned s pa 1
      | none => false)
    | .fault _ => false
    | .stage2 => false
    | .pte _ => false

theorem read_goes {w : EWho} {e : Xfer} {va : Nat} (h : siloByte e.s w va = true) (st : e.stop = none) :
    (e.read w va).stop = none ∧ (e.read w va).s = e.s := by
  unfold siloByte at h
  simp only [Bool.and_eq_true, beq_iff_eq] at h
  obtain ⟨⟨⟨h1, hc⟩, h0⟩, h2⟩ := h
  have hc : e.s.rcache = [] := List.isEmpty_iff.1 hc
  obtain ⟨y, hy⟩ := Option.isSome_iff_exists.1 h0
  unfold Xfer.read
  split
  · exact ⟨st, rfl⟩
  · split at h2
    · next x hx =>
      split at h2
      · next pa hp =>
        simp only [Bool.and_eq_true, Bool.not_eq_true'] at h2
        have h3 : (va / 2 ^ 56 != 0) = false := by rw [h1]; rfl
        rw [h3]
        simp [hx, Xfer.note, tlbFill, hy, hp, h2.1, h2.2, st, dropLines, hc]
        rw [← hc]
      · cases h2
    · cases h2
    · cases h2
    · cases h2

theorem reads_go {w : EWho} : ∀ (l : List Nat) (e : Xfer), (∀ va ∈ l, siloByte e.s w va = true) → e.stop = none →
    (e.readAll w l).stop = none
  | [], _, _, st => st
  | va :: t, e, h, st => by
    have r := read_goes (h va List.mem_cons_self) st
    refine reads_go t (e.read w va) (fun x hx => ?_) r.1
    rw [r.2]
    exact h x (List.mem_cons_of_mem _ hx)

theorem flat_bytes (rows cols r c : Nat) : (flatRec rows cols).elemBytes r c = [vaOf (0x40000 + (c / 8 : Nat))] := by
  simp [Rec.elemBytes, flatRec, planeExp, Rec.planeByte]

theorem peek_stop (w : EWho) (e : Xfer) (va : Nat) : (e.peek w va).stop = e.stop := by
  unfold Xfer.peek
  repeat' split
  all_goals rfl
theorem peeks_stop (w : EWho) : ∀ (l : List Nat) (e : Xfer), (l.foldl (Xfer.peek w) e).stop = e.stop
  | [], _ => rfl
  | va :: t, e => (peeks_stop w t (e.peek w va)).trans (peek_stop w e va)

def productOp : POp := matOp (.mma (flatRec 1 32) (flatRec 32 256) 3 true 1 0 1 0 none none) none 0
/-- The bytes of A by the product's elements, those past its planes beside them, and the bytes of B. -/
def productA : List (List Nat × List Nat) := ((productRows 1 none).map fun x => (List.range 32).map fun c => (flatRec 1 32).elemPlanes 0 x.1 c).flatten
def productB : List Nat := ((List.range 32).map fun r => ((List.range 256).map fun c => (flatRec 32 256).elemBytes r c).flatten).flatten
theorem product_reads :
    let w := engWho 0 (opGroup productOp) productOp true
    ((productA.map (·.2)).flatten.foldl (Xfer.peek w)
      ((Xfer.start (demoState (opGroup productOp))).readAll w ((productA.map (·.1)).flatten ++ productB))).stop = none := by
  intro w
  rw [peeks_stop]
  have ea : (productA.map (·.1)).flatten = ((productRows 1 none).map fun x => ((List.range 32).map fun c => (flatRec 1 32).elemBytes x.1 c).flatten).flatten := by
    simp [productA, Rec.elemPlanes, productRows, List.map_map, Function.comp_def]
  rw [ea, productB]
  refine reads_go _ _ (fun va hva => ?_) rfl
  have ok : ∀ c < 256, siloByte (demoState (opGroup productOp)) (engWho 0 (opGroup productOp) productOp true)
      (vaOf (0x40000 + (c / 8 : Nat))) = true := by decide +kernel
  simp only [List.mem_append, List.mem_flatten, List.mem_map, flat_bytes] at hva
  rcases hva with ⟨l, ⟨x, _, rfl⟩, hl⟩ | ⟨l, ⟨x, _, rfl⟩, hl⟩ <;>
  · simp only [List.mem_flatten, List.mem_map, List.mem_range] at hl
    obtain ⟨_, ⟨c, hc, rfl⟩, hv⟩ := hl
    rw [List.mem_singleton.1 hv]
    exact ok c (by omega)

/-- A turn of each kind; a transfer that goes through and one that meets an entry that is not valid; a product from Silo. -/
theorem meets_MatrixOperationsComplete :
    (∀ k d n, MatTurn (demoState (opGroup (matOp k d n))) 0 (opGroup (matOp k d n)) (matOp k d n)) ∧
    (10 + 1 ≤ 64 ∧ (demoGroup fun _ => 7).w ∈ [16, 32, 64] ∧ 1 * 8 * 16 < 4 + 8 * 16 ∧
      ∀ l < 16, 8 * l < 4 → bitOf (demoOp.lanes &&& (demoGroup fun _ => 7).live) l = true ∧ inSlices demoOp.slices (l / 4) = true) ∧
    (let o := matOp (.mlda (oneRec 0x10000) 15 127 255) none 0
     ((Xfer.start (demoState (opGroup o))).readAll (engWho 0 (opGroup o) o false) ((oneRec 0x10000).elemBytes 0 0)).stop = none) ∧
    (let o := matOp (.mlda (oneRec 0x30000) 15 127 255) none 0
     ((Xfer.start (demoState (opGroup o))).readAll (engWho 0 (opGroup o) o false) ((oneRec 0x30000).elemBytes 0 0)).stop = some (.fault 1 0x30000)) ∧
    (let w := engWho 0 (opGroup productOp) productOp true
     ((productA.map (·.2)).flatten.foldl (Xfer.peek w)
       ((Xfer.start (demoState (opGroup productOp))).readAll w ((productA.map (·.1)).flatten ++ productB))).stop = none) ∧
    ((productRows 1 none).map (·.2)).Nodup :=
  ⟨turn_of, by decide +kernel, by decide +kernel, by decide +kernel, product_reads, by decide⟩


/-! ### Transfers, views and collectives at their completion -/

def copyOp : POp :=
  { demoOp with cls := .copy, kind := .copy 0x10000 0x10040 (oneRec 0x10000) (.record (oneRec 0x10040)) none false .rne 0 [], flag := none }
/-- A coverage launch around the group. -/
def coverOp : POp := { accOp (.stcov false) none with cls := .cov }
def nibbleOp : POp := { coverOp with kind := .stcov true, accs := [{ demoAcc with size := 1, cmp := 1 }] }
theorem cover_met (o : POp) (nib : Bool) (a : Acc) (x : Xlate) (hc : o.cls = .cov) (hk : o.kind = .stcov nib) (hd : o.done = false ∧ o.halted = false)
    (ha : o.accs = [a]) (he : x.mp = false ∧ x.cnt = false) (t : a.done = false ∧ covTurn (opGroup o) o a = true)
    (pl : a.va.toNat < 2 ^ 56 ∧ translate (covState (opGroup o)) (coreOf 0) (opGroup o).ten o.level .write a.va.toNat = .ok x)
    (m : mayPerform (tlbFill (covState (opGroup o)) (coreOf 0) (opGroup o).ten a.va.toNat) 0 (opGroup o) { o with accs := [] } { a with x := x, err := 0 } [] = true)
    (h : hereOf (covState (opGroup o)) x = some (hbmBase + 8)) (z : 0 < a.size ∧ (hbmBase + 8) % 8 + a.size ≤ 8 ∧ (nib = true → a.size = 1)) :
    LastCover (covState (opGroup o)) 0 (opGroup o) o nib a x (hbmBase + 8) [] [] where
  group := rfl
  op := by simp [Group.op, opGroup]
  kind := ⟨hc, hk⟩
  waits := hd
  accs := ha
  rest := all_nil rfl
  turn := t
  place := pl
  may := m
  here := h
  clean := rfl
  plain := he
  size := z
  mem := rfl

def grantOp : POp := { accOp .store none with view := some (9, demoView) }
def openGroup : Group :=
  { recGroup [viewBytes] with paths := (Vector.replicate 16 none).set 0 (some { demoPath with park := some (.vopen [3] 0 9 0) }) }

/-- A transfer of one element; writes of a word and of a nibble of a field; a store under a view; a parked vopen. -/
theorem meets_TransfersAndViewsComplete :
    (∃ (s : State) (g : Group) (o : POp) (g1 : Group) (o1 : POp), tget s.groups 0 = some g ∧ g.op o.id = some o ∧ o.cls = .copy ∧ o.done = false ∧ o.halted = false ∧
      (∀ q ∈ olderOps g o, q.cls = .copy → q.done = true) ∧ liveCopy (copyMany 0 o.id (unitsLeft o) s) 0 o.id = some (g1, o1) ∧ unitsLeft o1 = 0) ∧
    (∀ nib, ∃ s g o a x pa, LastCover s 0 g o nib a x pa [] []) ∧
    (∃ s g o a pa w v, LastAccess s 0 g o a pa [] [] ∧ o.kind = .store ∧ o.view = some (w, v)) ∧
    ∃ (s : State) (g : Group) (p : Path), tget s.groups 0 = some g ∧ g.path 0 = some p ∧ p.park = some (.vopen [3] 0 9 0) ∧ shardsFree s [3] 0 = true ∧
      p.latched = false ∧ p.stop ≠ .stopped ∧
      let p0 := { p with park := none }
      let g0 := g.setPath 0 (some p0)
      let s0 := { putGroup s 0 g0 with cur := 0, path := 0 }
      Clear { rd := [0], uni := [0], len := 2 } s0 g0 p0 ∧ p.active ≠ 0 ∧ g.view 9 = none ∧
        RecordRead s0 g0 p0 ((g.reg 0).val.lane 0) s0 g0 viewBytes ∧
        ∃ ds, parseView viewBytes = some ds ∧ (let r := viewHomes s0 (coreOf 0) g.ten ds; shardsFree r.1 r.2 0 = true) := by
  refine ⟨?_, fun nib => ?_, ⟨_, _, grantOp, demoAcc, _, 9, demoView, last_of grantOp (demoState (opGroup grantOp)) rfl rfl rfl ⟨rfl, rfl⟩ (by decide +kernel) rfl rfl rfl rfl, rfl, rfl⟩,
    demoState openGroup, openGroup, _, rfl, rfl, rfl, by decide +kernel, rfl, by decide, ?_⟩
  · have h : (liveCopy (copyMany 0 1 (unitsLeft copyOp) (demoState (opGroup copyOp))) 0 1).any (fun x => unitsLeft x.2 == 0) = true := by decide +kernel
    obtain ⟨x, hx, hu⟩ := (Option.any_eq_true _ _).1 h
    exact ⟨demoState (opGroup copyOp), opGroup copyOp, copyOp, x.1, x.2, rfl, by simp [Group.op, opGroup], rfl, rfl, rfl,
      all_nil (by simp [olderOps, opGroup]), hx, by simpa using hu⟩
  · cases nib
    · exact ⟨_, _, coverOp, demoAcc, pageAt 8, _, cover_met coverOp false _ _ rfl rfl ⟨rfl, rfl⟩ rfl ⟨rfl, rfl⟩ ⟨rfl, by simp [covTurn, olderOps, opGroup]⟩
        (by decide +kernel) (by decide +kernel) rfl (by decide)⟩
    · exact ⟨_, _, nibbleOp, _, pageAt 8, _, cover_met nibbleOp true { demoAcc with size := 1, cmp := 1 } _ rfl rfl ⟨rfl, rfl⟩ rfl ⟨rfl, rfl⟩ ⟨rfl, by simp [covTurn, olderOps, opGroup]⟩
        (by decide +kernel) (by decide +kernel) rfl (by decide)⟩
  · exact ⟨clear_of (v := recRegs) _ rfl (by decide) rfl rfl rfl rfl rfl rfl rfl, by decide, rfl, cached (by decide +kernel),
      ⟨0x10000, 3, 1, 3, [16, 1, 1, 1], [1, 0, 0, 0]⟩, by decide +kernel, by decide +kernel⟩

def collOp : POp := { demoOp with cls := .coll, kind := .ccol .allgather ⟨5, 1, 0, 0⟩ (oneRec 0x10000) (oneRec 0x10040) 0, flag := none }
def demoCall (f : Bool) : Call := ⟨0, 5, 0, 0, 1, .allgather, 0, .f32, 1, 1, 1, [(0, 7)], false, f⟩
def collState (f : Bool) : State := { demoState (opGroup collOp) with calls := [demoCall f] }
/-- A launch of one block of two by two points in a chain of two dimensions, its block finished. -/
def gleanCov : Cov := { demoCov with bx := 2, by_ := 2, finished := [0] }
def gleanLaunch : Launch := { seedLaunch 0x10000 2 with cov := some gleanCov, form := 2 }
def gleanState : State := { demoState (demoGroup fun _ => 0) with launches := [(1, gleanLaunch)] }

/-- An aborted call and one whose elements are here; results at a rank's last row; a block that may be reconstructed. -/
theorem meets_CollectivesAndReconstruction :
    (∀ f, ∃ (s : State) (g : Group) (o : POp) (mine : Call), tget s.groups 0 = some g ∧ g.op o.id = some o ∧ o.done = false ∧ o.halted = false ∧
      o.kind = .ccol .allgather ⟨5, 1, 0, 0⟩ (oneRec 0x10000) (oneRec 0x10040) 0 ∧ callAt s g.ten 5 0 0 = some mine ∧ mine.failed = f ∧
      (f = false → mine.full = true ∧ (∀ r < 1, callAt s g.ten 5 0 r = [mine][r]?) ∧ (∀ q ∈ [mine], callClash mine q = false ∧ q.full = true) ∧
        let w := engWho 0 g o false
        let el := collResult .allgather .f32 1 0 0 1 [mine]
        let old := fun (va : Nat) => match destPa s 0 g.ten o.level va with
          | some pa => readByte s g.ten pa
          | none => Config.freeByte s.free va
        let puts := (Xfer.start s).places w ((oneRec 0x10040).destBytes.map fun x => (x.1, (oneRec 0x10040).destValue el (old x.1) x.2))
        (puts.1.sendPuts w puts.2).stop = none)) ∧
    ([demoCall false, demoCall false].length = 2 ∧ 1 < 2 ∧ 0 < 1 ∧
      ∀ q : Nat, ((([demoCall false, demoCall false] : List Call)[q]?).elim 0 fun (c : Call) => c.el 0 0) < 2 ^ 32) ∧
    (∃ s c, callAt s 0 5 0 0 = some c ∧ c.full = true ∧ c.failed = false ∧ 0 % chunkLen = 0 ∧ 0 < c.elems.length ∧ ∃ k g, (k, g) ∈ s.groups ∧ g.ten = 0 ∧
      ∃ o ∈ g.ops, o.done = false ∧ ∃ co ds a b, o.kind = .ccol co ds a b 0 ∧ ds.cid = 5 ∧ ds.rank = 0) ∧
    (∃ s c, callAt s 0 5 0 0 = some c ∧ s.groups = []) ∧
    (tget gleanState.launches 1 = some gleanLaunch ∧ gleanLaunch.cov = some gleanCov ∧ gleanLaunch.code = 0 ∧
      0 < gleanLaunch.gx * gleanLaunch.gy * gleanLaunch.gz ∧ 0 ∈ gleanCov.finished ∧ 0 ∉ gleanCov.reconstructed ∧
      (∀ x ∈ reachBlocks gleanLaunch gleanCov 0, x ∈ gleanCov.finished) ∧ skippedPts gleanLaunch gleanCov 0 ≠ [] ∧
      ((Xfer.start gleanState).readAll (gleanWho 1 gleanLaunch) (gleanReads gleanLaunch gleanCov 0)).stop = none ∧
      (∀ q ∈ skippedPts gleanLaunch gleanCov 0, q ∉ auditPts gleanLaunch gleanCov 0 →
        pointWaits gleanState gleanLaunch gleanCov q = false ∧ pointOk gleanState gleanLaunch gleanCov q = true) ∧
      gleanCov.reconstructed.length + 1 = blockCount gleanLaunch ∧ controllerWaits gleanState 1 gleanLaunch gleanCov = false) := by
  refine ⟨fun f => ⟨collState f, opGroup collOp, collOp, demoCall f, rfl, by simp [Group.op, opGroup], rfl, rfl, rfl, rfl, rfl, fun hf => ?_⟩,
    ⟨rfl, by decide, by decide, fun q => ?_⟩, ⟨collState false, demoCall false, rfl, by decide +kernel, rfl, rfl, by decide, 0, opGroup collOp, List.mem_singleton.2 rfl, rfl, collOp,
      List.mem_singleton.2 rfl, rfl, _, _, _, _, rfl, rfl, rfl⟩,
    ⟨{ collState false with groups := [] }, demoCall false, rfl, rfl⟩,
    ⟨rfl, rfl, rfl, by decide, by decide, by decide, by decide +kernel, by decide +kernel, by decide +kernel, by decide +kernel, by decide, by decide +kernel⟩⟩
  · subst hf
    refine ⟨rfl, fun r hr => ?_, by decide, by decide +kernel⟩
    have : r = 0 := by omega
    subst this
    rfl
  · rcases q with _ | _ | q
    · decide
    · decide
    · exact (by decide : 0 < 2 ^ 32)

/-! ### Teams -/

/-- A launch of one team that has started, its head waiting; core 0 alone in service. -/
def headLaunch : Launch :=
  { seedLaunch 0x10000 2 with kdesc := some { seedDesc 0x10000 with sppooln := 1 }, next := 0, liveTeams := 0, finished := false }
def headState (l : Launch) : State :=
  { demoState (demoGroup fun _ => 0) with groups := [], teams := [], launches := [(1, l)], caps := { demoCaps with cores := 1 } }
def depLaunch : Launch := { headLaunch with form := 1, templates := [viewBytes] }
def goneGroup : Group := { demoGroup (fun _ => 0) with paths := Vector.replicate 16 none, live := 0 }
def goneState : State := demoState goneGroup

/-- A head that fits core 0; one that has waited; a dependent team whose template is free; a team whose group has gone. -/
theorem meets_DistributorSteps :
    (∃ (s : State) (l : Launch) (k : KDesc) (blks : List Nat) (places : List (Seat × List Nat × List Nat × Nat)), tget s.launches 1 = some l ∧ l.kdesc = some k ∧ l.started = true ∧ l.redo = [] ∧ headReady s l k = true ∧
      inputsFree s 1 l = true ∧ olderLaunches s (headOrder l) = [] ∧ freeBlks s 1 k (nextSeats l k).length = some blks ∧
      findPlace s 1 l k (nextSeats l k) = some places ∧ (places.map fun x => x.2.2.1).flatten.Nodup ∧ nextSeats l k ≠ []) ∧
    (∃ (s : State) (l : Launch), tget s.launches 1 = some l ∧ l.headSince = some 0 ∧ l.aged = false ∧ 0 + 1000 * s.agelim ≤ s.time) ∧
    (∃ (s : State) (l : Launch) (k : KDesc) (st : Seat), tget s.launches 1 = some l ∧ l.kdesc = some k ∧ l.form = 1 ∧ l.templates ≠ [] ∧ l.code = 0 ∧ (tcbOf s l.ten).frozen = false ∧
      producerDone s l = true ∧ s.lastOpen ≤ s.time ∧ (nextSeats l k)[l.pendViews.length / l.templates.length]? = some st ∧
      (let r := openTemplates s l st; templatesFit r.1 r.2 = true ∧ r.2 ≠ [])) ∧
    ∃ (s : State) (tm : Team) (l : Launch) (k : KDesc), tget s.teams 0 = some tm ∧ tget s.launches 1 = some l ∧ tm.launch = 1 ∧ l.kdesc = some k ∧ k.cluster = 1 ∧ l.cov = none ∧
      twf s.teams = true ∧ twf s.groups = true ∧ tm.ended = false ∧ tm.gkeys = [0] ∧
      ∃ g, s.groups = [(0, g)] ∧ g.gone = true ∧ g.team = 0 := by
  have hp : (findPlace (headState headLaunch) 1 headLaunch { seedDesc 0x10000 with sppooln := 1 } (nextSeats headLaunch { seedDesc 0x10000 with sppooln := 1 })).any
      (fun places => decide ((places.map fun x => x.2.2.1).flatten.Nodup)) = true := by decide +kernel
  obtain ⟨places, hx, hn⟩ := (Option.any_eq_true _ _).1 hp
  exact ⟨⟨headState headLaunch, headLaunch, _, [0], places, rfl, rfl, rfl, rfl, by decide +kernel, by decide +kernel, by decide +kernel, by decide +kernel, hx,
      of_decide_eq_true hn, by decide +kernel⟩,
    ⟨{ headState { headLaunch with headSince := some 0 } with time := 64000 }, _, rfl, rfl, rfl, by decide⟩,
    ⟨headState depLaunch, depLaunch, _, seatOf depLaunch { seedDesc 0x10000 with sppooln := 1 } 0, rfl, rfl, rfl, by decide, rfl, by decide +kernel, by decide +kernel, by decide,
      by decide +kernel, by decide +kernel⟩,
    goneState, seedTeam 1 State.reset, _, _, rfl, rfl, rfl, rfl, rfl, rfl, by decide, by decide, rfl, rfl, goneGroup, rfl, by decide +kernel, rfl⟩

def askedTeam : Team := { seedTeam 1 State.reset with mode := .asked 0 }
def savedTeam : Team := { seedTeam 1 State.reset with mode := .saved 0, gkeys := [], saved := [demoGroup fun _ => 7] }
def parkedState : State := { demoState (parkGroup (.waitf 1) fun _ => 7) with teams := [(0, askedTeam)], time := 1000000 }
def savedState : State := { demoState (demoGroup fun _ => 0) with groups := [], teams := [(0, savedTeam)], caps := { demoCaps with cores := 1 } }

/-- A team of one parked gang that has been asked, and a saved one whose core is free. -/
theorem meets_TeamsArePreempted :
    (tget parkedState.teams 0 = some askedTeam ∧ twf parkedState.teams = true ∧ twf parkedState.groups = true ∧ membersOf parkedState 0 = [0] ∧
      (∀ x ∈ membersOf parkedState 0, teamEligible parkedState x = true) ∧
      (∀ x ∈ membersOf parkedState 0, ∀ y ∈ membersOf parkedState 0, x = y) ∧
      askedTeam.mode = .asked 0 ∧ parkedState.time ≤ 0 + parkedState.prelim * 1000 ∧ 0 + 1000 * parkedState.prelim ≤ parkedState.time ∧ (tget parkedState.launches askedTeam.launch).isSome = true) ∧
    ∃ (l : Launch) (k : KDesc) (keys : List Nat), tget savedState.teams 0 = some savedTeam ∧ twf savedState.teams = true ∧ twf savedState.groups = true ∧
      savedTeam.mode = .saved 0 ∧ membersOf savedState 0 = [0] ∧ tget savedState.launches savedTeam.launch = some l ∧ l.kdesc = some k ∧
      (tcbOf savedState l.ten).frozen = false ∧
      resumePlace savedState k [(0, savedTeam)] (earlierSave savedState [0] 0) = some [(0, [0], keys)] ∧ keys.length = savedTeam.saved.length ∧ keys.Nodup := by
  refine ⟨⟨rfl, by decide, by decide, by decide +kernel, by decide +kernel, ?_, rfl, by decide, by decide, rfl⟩,
    seedLaunch 0x10000 2, seedDesc 0x10000, [0], rfl, by decide, by decide, rfl, by decide +kernel, rfl, rfl, by decide +kernel, by decide +kernel,
    rfl, by decide⟩
  have e : membersOf parkedState 0 = [0] := by decide +kernel
  intro x hx y hy
  rw [e] at hx hy
  rw [List.mem_singleton.1 hx, List.mem_singleton.1 hy]

/-! ### Packets -/

/-- A packet of a type with ACQ and REL dev. -/
def pktOf (type : Nat) (l : List Byte) : Packet := leBytes 4 (0x4800 + type) ++ l ++ List.replicate (124 - l.length) 0
def launchPkt (kdesc : Nat) : Packet := pktOf 1 (leBytes 4 0 ++ leBytes 8 kdesc ++ leBytes 8 0 ++ leBytes 4 1 ++ leBytes 4 1 ++ leBytes 4 1)
def barrierPkt (sig dep : Nat) : Packet := pktOf 2 (leBytes 4 0 ++ leBytes 8 dep ++ List.replicate 32 0 ++ leBytes 8 sig)
def signalPkt : Packet := pktOf 3 (leBytes 4 0 ++ leBytes 8 0x10100 ++ leBytes 8 1 ++ leBytes 8 5)
def indirectPkt (va : Nat) : Packet := pktOf 4 (leBytes 4 0 ++ leBytes 8 va)
def predicatePkt (v : Nat) : Packet := pktOf 5 (leBytes 4 0 ++ leBytes 8 0x10200 ++ leBytes 8 0x100 ++ leBytes 8 v)
def loopPkt : Packet := pktOf 6 (leBytes 4 0 ++ leBytes 4 1 ++ leBytes 4 3)

def flightOf (p : Packet) : Flight := ⟨2, p, p, false, false, 0, none, none, none, 0, none⟩
def demoQueue (fs : List Flight) : Queue := ⟨⟨0x11000, 0x12000, 0x12008, 4, 4, 5, 0, 0⟩, 2, 3, 1, 0, none, fs, [], [], 0, 2, [], false, false⟩
/-- A kernel descriptor at 0x10000, its first word marked; packets of types 1 and 4 at 0x10400 and 0x10480. -/
def queueMem : List Host.Cell :=
  Memory.setMany (Memory.setMany (Memory.setMany (Memory.setMany [] hbmBase (leBytes 8 0x10800 ++ leBytes 4 16 ++ [0, 8] ++ leBytes 2 64 ++ [1, 0, 1, 0] ++
    leBytes 8 0 ++ leBytes 4 64 ++ leBytes 8 0 ++ leBytes 8 0 ++ leBytes 8 0x14000 ++ leBytes 4 1 ++ leBytes 4 0xFFFFFFFF)) (hbmBase + 0x800) [8])
    (hbmBase + 0x400) [1, 0x48]) (hbmBase + 0x480) [4, 0x48]
def queueState (q : Queue) : State :=
  { demoState (demoGroup fun _ => 0) with
    mem := queueMem, queues := [(5, q)], tcbs := Vector.replicate 32 { Tcb.reset with en := true, keyok := true } }
/-- A stage-2 fault of the front end stands posted at a VA. -/
def faultState (q : Queue) (va : Nat) : State := { queueState q with s2faults := [feFault 0 va] }
/-- The granule of a page's first word is poisoned. -/
def spoiltState (q : Queue) (off : Nat) : State := { queueState q with poison := [granule (hbmBase + off)] }

/-- A queue of one packet whose turn has come. -/
theorem turn_at (s : State) (p : Packet) (type : Nat) (e : s.queues = [(5, demoQueue [flightOf p])]) (h : pType p = type ∧ pBar p = false) :
    Turn s 5 (demoQueue [flightOf p]) (flightOf p) type where
  queue := by rw [e]; rfl
  here := by
    show ([flightOf p].find? (myTurn (demoQueue [flightOf p]))).orElse (fun _ => some (flightOf p)) = some (flightOf p)
    rw [List.find?_cons]
    cases myTurn (demoQueue [flightOf p]) (flightOf p) <;> rfl
  kind := h.1
  turn := by simp [myTurn, flightOf, demoQueue, h.2]
  once := by simp [demoQueue]
  calm := rfl
  free := by
    intro x hx _ hs
    rw [List.mem_singleton.1 hx] at hs
    cases hs
theorem turn_met (p : Packet) (type : Nat) (h : pType p = type ∧ pBar p = false) :
    Turn (queueState (demoQueue [flightOf p])) 5 (demoQueue [flightOf p]) (flightOf p) type := turn_at _ p type rfl h

/-- A loop at index 4 runs its body, packets 2 and 3, again. -/
def againPkt : Packet := pktOf 6 (leBytes 4 0 ++ leBytes 4 2 ++ leBytes 4 3)
def againFlight : Flight := ⟨4, againPkt, againPkt, true, false, 1, none, none, none, 0, none⟩
def repeated (p : Packet) : Flight := { flightOf p with rep := some 4 }
def repQueue (p : Packet) : Queue := { demoQueue [againFlight, repeated p, { repeated signalPkt with index := 3 }] with rd := 4, wr := 5, nstart := 5 }

/-- A poll of queue 5 is due and no other comes before it. -/
def Due (s : State) (q : Queue) : Prop :=
  tget s.queues 5 = some q ∧ scanned s q = true ∧ q.due ≤ s.time ∧ s.nextPoll ≤ s.time ∧
    (s.queues.all fun x => !(decide (x.2.due < q.due) || (x.2.due == q.due && decide (x.1 < 5)))) = true

/-- Polls that wait, of a ring in bounds and of one beyond its size; a ticket. -/
theorem meets_QueuesRunPackets_scanner :
    (∃ s q, Due s q ∧ feGet s (.queue 5) q.ten .read q.desc.wra.toNat 8 = .wait) ∧
    (∃ s q l, Due s q ∧ feGet s (.queue 5) q.ten .read q.desc.wra.toNat 8 = .ok l ∧ q.flights = [] ∧ q.skips = [] ∧ field l 0 8 - q.rd ≤ q.size ∧
      pollWaits s 5 q (pollSlots q (field l 0 8)) = []) ∧
    (∃ s q l, Due s q ∧ feGet s (.queue 5) q.ten .read q.desc.wra.toNat 8 = .ok l ∧ q.size < field l 0 8 - q.rd) ∧
    ∃ (s : State) (q : Queue) (p : Packet), s.tickets = [(5, 8)] ∧ tget s.queues 5 = some q ∧ q.halted = none ∧
      feGet s (.packet 5 8) q.ten .read (q.slotVa 8) 128 = .ok p ∧ pType p ≠ 0 := by
  have due : ∀ s : State, s.queues = [(5, demoQueue [])] → scanned s (demoQueue []) = true → s.time = 0 → s.nextPoll = 0 → Due s (demoQueue []) := by
    intro s a b c d
    refine ⟨by rw [a]; rfl, b, ?_, by omega, by rw [a]; decide⟩
    rw [c]
    decide
  refine ⟨⟨faultState (demoQueue []) 0x12000, _, due _ rfl (by decide +kernel) rfl rfl, by decide +kernel⟩,
    ⟨queueState (demoQueue []), _, leBytes 8 0, due _ rfl (by decide +kernel) rfl rfl, by decide +kernel, rfl, rfl, by decide, by decide +kernel⟩,
    ⟨{ queueState (demoQueue []) with mem := [(hbmBase + 0x2000, 19)] }, _, leBytes 8 19, due _ rfl (by decide +kernel) rfl rfl, by decide +kernel, by decide⟩,
    ⟨{ queueState { demoQueue [] with desc := ⟨0x10000, 0x12000, 0x12008, 4, 4, 5, 0, 0⟩ } with tickets := [(5, 8)] }, _, _, rfl, rfl, rfl,
      (by decide +kernel : _ = Got.ok (readBytes (queueState (demoQueue [])) 0 (hbmBase + 1024) 128)), by decide +kernel⟩⟩

/-- Illegal headers of every type; launches that are accepted, fail and wait; barriers that wait, cannot read, stand and go, with a
signal that is absent, fine, poisoned and unmapped. -/
theorem meets_QueuesRunPackets_barriers :
    (∀ type ∈ [0, 1, 2, 3, 4, 5, 6, 7, 0xFF], ∃ (s : State) (q : Queue) (f : Flight), Turn s 5 q f type ∧ f.rep = none ∧ f.launch = none ∧ headerOk f.bytes = false) ∧
    ((∃ s q f k ts cov, Turn s 5 q f 1 ∧ launchFieldsOk f.bytes = true ∧ checkLaunch s (askerOf 5 f) q.ten 5 f.index f.bytes = .ok k ts cov) ∧
     (∃ s q f c, Turn s 5 q f 1 ∧ launchFieldsOk f.bytes = true ∧ checkLaunch s (askerOf 5 f) q.ten 5 f.index f.bytes = .code c) ∧
     ∃ s q f need va n, Turn s 5 q f 1 ∧ launchFieldsOk f.bytes = true ∧ checkLaunch s (askerOf 5 f) q.ten 5 f.index f.bytes = .ask need va n) ∧
    (∀ x ∈ [(0x10200, Got.wait), (0x30000, .bad), (0x10000, .ok 0x10800), (0x10208, .ok 0)], ∃ (s : State) (q : Queue) (f : Flight), Turn s 5 q f 2 ∧ f.rep = none ∧
      headerOk f.bytes = true ∧ barrierFieldsOk f.bytes = true ∧ depVas f.bytes = [x.1] ∧ depCounts s (askerOf 5 f) q.ten f.bytes = [x.2]) ∧
    ∀ x ∈ [(0, none), (0x10300, some true), (0x11000, some false), (0x30000, none)], ∃ (s : State) (q : Queue) (f : Flight), Turn s 5 q f 2 ∧ f.rep = none ∧
      headerOk f.bytes = true ∧ barrierFieldsOk f.bytes = true ∧ depCounts s (askerOf 5 f) q.ten f.bytes = [] ∧ pSignal f.bytes = x.1 ∧
      (fePa s q.ten .atomic x.1).map (fun y => !poisoned s y.1 8 && !lineAbsent s y.1 && y.1 % 8 == 0) = x.2 ∧
      (x.1 = 0x30000 → feAt s q.ten .atomic x.1 = .bad) := by
  have t := turn_met
  refine ⟨fun type h => ?_, ⟨?_, ?_, ?_⟩, fun x hx => ?_, fun x hx => ?_⟩
  · have e : ∀ n ∈ [0, 1, 2, 3, 4, 5, 6, 7, 0xFF], (pType (leBytes 4 n ++ List.replicate 124 0) = n ∧ pBar (leBytes 4 n ++ List.replicate 124 0) = false) ∧
        headerOk (leBytes 4 n ++ List.replicate 124 0) = false := by decide +kernel
    exact ⟨_, _, flightOf (leBytes 4 type ++ List.replicate 124 0), t _ _ (e type h).1, rfl, rfl, (e type h).2⟩
  · have h : (match checkLaunch (queueState (demoQueue [flightOf (launchPkt 0x10000)])) (askerOf 5 (flightOf (launchPkt 0x10000))) 0 5 2 (launchPkt 0x10000) with
      | .ok _ _ _ => true | .code _ => false | .ask _ _ _ => false) = true := by decide +kernel
    split at h
    · next k ts cov e => exact ⟨_, _, flightOf (launchPkt 0x10000), k, ts, cov, t _ _ (by decide), by decide, e⟩
    · cases h
    · cases h
  · exact ⟨_, _, flightOf (launchPkt 0x10080), 0x02, t _ _ (by decide), by decide, by decide +kernel⟩
  · exact ⟨faultState _ 0x10000, _, flightOf (launchPkt 0x10000), .read, 0x10000, 128, turn_at _ _ _ rfl (by decide), by decide, by decide +kernel⟩
  · have e : ∀ y ∈ [(0x10200, Got.wait), (0x30000, .bad), (0x10000, .ok 0x10800), (0x10208, .ok 0)],
        let p := barrierPkt 0 y.1
        let s := if y.1 = 0x10200 then faultState (demoQueue [flightOf p]) 0x10200 else queueState (demoQueue [flightOf p])
        (pType p = 2 ∧ pBar p = false) ∧ headerOk p = true ∧ barrierFieldsOk p = true ∧ depVas p = [y.1] ∧ depCounts s (askerOf 5 (flightOf p)) 0 p = [y.2] := by
      decide +kernel
    have c := e x hx
    exact ⟨_, _, flightOf (barrierPkt 0 x.1), turn_at _ _ _ (by split <;> rfl) c.1, rfl, c.2.1, c.2.2.1, c.2.2.2.1, c.2.2.2.2⟩
  · have e : ∀ y ∈ [(0, none), (0x10300, some true), (0x11000, some false), (0x30000, none)],
        let p := barrierPkt y.1 0
        let s := spoiltState (demoQueue [flightOf p]) 0x1000
        (pType p = 2 ∧ pBar p = false) ∧ headerOk p = true ∧ barrierFieldsOk p = true ∧ depCounts s (askerOf 5 (flightOf p)) 0 p = [] ∧ pSignal p = y.1 ∧
        (fePa s 0 .atomic y.1).map (fun z => !poisoned s z.1 8 && !lineAbsent s z.1 && z.1 % 8 == 0) = y.2 ∧
        (y.1 = 0x30000 → feAt s 0 .atomic y.1 = .bad) := by decide +kernel
    have c := e x hx
    exact ⟨_, _, flightOf (barrierPkt x.1 0), turn_at _ _ _ rfl c.1, rfl, c.2.1, c.2.2.1, c.2.2.2.1, c.2.2.2.2.1, c.2.2.2.2.2⟩

/-- The other packets: their words fine, poisoned and unmapped; each type behind an indirect packet; a predicate that holds and one
that does not, in the ring and in a repetition; a loop that is legal and one that reaches back too far; a fence. -/
theorem meets_QueuesRunPackets_others :
    (∀ x ∈ [(0x10100, some true), (0x11000, some false), (0x30000, none)], ∃ (s : State) (q : Queue) (f : Flight), Turn s 5 q f 3 ∧ f.rep = none ∧ headerOk f.bytes = true ∧
      signalFieldsOk f.bytes = true ∧ field f.bytes 8 8 = x.1 ∧
      (fePa s q.ten .atomic x.1).map (fun y => !poisoned s y.1 8 && !lineAbsent s y.1 && y.1 % 8 == 0) = x.2 ∧ (x.1 = 0x30000 → feAt s q.ten .atomic x.1 = .bad)) ∧
    (∀ x ∈ [(0x10400, some 1), (0x10480, some 4), (0x10500, some 0), (0x30000, none)], ∃ (s : State) (q : Queue) (f : Flight), Turn s 5 q f 4 ∧ f.rep = none ∧
      headerOk f.bytes = true ∧ indirectFieldsOk f.bytes = true ∧
      (match feGet s (askerOf 5 f) q.ten .read (field f.bytes 8 8) 128 with | .ok p => some (some (pType p)) | .bad => some none | .wait => none) = some x.2) ∧
    (∀ v, v = 0 ∨ v = 1 → ∃ (s : State) (q : Queue) (f : Flight), Turn s 5 q f 5 ∧ f.rep = none ∧ headerOk f.bytes = true ∧ predicateFieldsOk f.bytes = true ∧
      feGet s (askerOf 5 f) q.ten .read (field f.bytes 8 8) 8 = .ok (leBytes 8 0) ∧ field f.bytes 0x10 1 = 0 ∧ field f.bytes 0x18 8 = v) ∧
    (∃ (s : State) (q : Queue) (f : Flight), Turn s 5 q f 5 ∧ f.rep = none ∧ headerOk f.bytes = true ∧ predicateFieldsOk f.bytes = true ∧
      feGet s (askerOf 5 f) q.ten .read (field f.bytes 8 8) 8 = .bad) ∧
    (∃ (s : State) (q : Queue) (f x : Flight), Turn s 5 q f 5 ∧ headerOk f.bytes = true ∧ predicateFieldsOk f.bytes = true ∧
      feGet s (askerOf 5 f) q.ten .read (field f.bytes 8 8) 8 = .ok (leBytes 8 0) ∧ field f.bytes 0x10 1 = 0 ∧ field f.bytes 0x18 8 = 1 ∧
      f.rep = some 4 ∧ LoopRuns q 4 ∧ x ∈ q.flights ∧ x.rep = some 4 ∧ f.index < x.index ∧ x.index ≤ f.index + field f.bytes 0x11 1 ∧ x.started = false) ∧
    (∀ early : Bool, ∃ (s : State) (q : Queue) (f : Flight), Turn s 5 q f 6 ∧ f.rep = none ∧ headerOk f.bytes = true ∧ loopFieldsOk f.bytes = true ∧
      (if early then f.index < q.first + field f.bytes 8 1 else q.first + field f.bytes 8 1 ≤ f.index ∧ ∀ j ∈ loopBody f, bodyType q j ≠ 6)) ∧
    (∃ (s : State) (q : Queue) (f : Flight), Turn s 5 q f 7 ∧ headerOk f.bytes = true ∧ zeroAt f.bytes 4 124 = true) := by
  have t := turn_met
  refine ⟨fun x hx => ?_, fun x hx => ?_, fun v h => ?_,
    ⟨faultState _ 0, _, flightOf (pktOf 5 (leBytes 4 0 ++ leBytes 8 0x30000 ++ leBytes 8 0x100)), turn_at _ _ _ rfl (by decide), rfl, by decide, by decide, by decide +kernel⟩,
    ⟨queueState (repQueue (predicatePkt 1)), repQueue (predicatePkt 1), repeated (predicatePkt 1), { repeated signalPkt with index := 3 }, ?_, by decide, by decide, by decide +kernel, by decide, by decide, rfl,
      ⟨againFlight, by simp [repQueue, demoQueue], rfl, rfl, rfl, rfl⟩, by simp [repQueue, demoQueue], rfl, by decide, by decide, rfl⟩,
    fun early => ?_, ⟨_, _, flightOf (pktOf 7 []), t _ _ (by decide), by decide, by decide⟩⟩
  · have e : ∀ y ∈ [(0x10100, some true), (0x11000, some false), (0x30000, none)],
        let p := pktOf 3 (leBytes 4 0 ++ leBytes 8 y.1 ++ leBytes 8 1 ++ leBytes 8 5)
        let s := spoiltState (demoQueue [flightOf p]) 0x1000
        (pType p = 3 ∧ pBar p = false) ∧ headerOk p = true ∧ signalFieldsOk p = true ∧ field p 8 8 = y.1 ∧
        (fePa s 0 .atomic y.1).map (fun z => !poisoned s z.1 8 && !lineAbsent s z.1 && z.1 % 8 == 0) = y.2 ∧ (y.1 = 0x30000 → feAt s 0 .atomic y.1 = .bad) := by
      decide +kernel
    have c := e x hx
    exact ⟨_, _, flightOf (pktOf 3 (leBytes 4 0 ++ leBytes 8 x.1 ++ leBytes 8 1 ++ leBytes 8 5)), turn_at _ _ _ rfl c.1, rfl, c.2.1, c.2.2.1, c.2.2.2.1, c.2.2.2.2.1, c.2.2.2.2.2⟩
  · have e : ∀ y ∈ [(0x10400, some 1), (0x10480, some 4), (0x10500, some 0), (0x30000, none)],
        let p := indirectPkt y.1
        (pType p = 4 ∧ pBar p = false) ∧ headerOk p = true ∧ indirectFieldsOk p = true ∧
        (match feGet (queueState (demoQueue [flightOf p])) (askerOf 5 (flightOf p)) 0 .read (field p 8 8) 128 with
          | .ok b => some (some (pType b)) | .bad => some none | .wait => none) = some y.2 := by decide +kernel
    have c := e x hx
    exact ⟨_, _, flightOf (indirectPkt x.1), t _ _ c.1, rfl, c.2.1, c.2.2.1, c.2.2.2⟩
  · rcases h with rfl | rfl
    · exact ⟨_, _, flightOf (predicatePkt 0), t _ _ (by decide), rfl, by decide, by decide, by decide +kernel, by decide, by decide⟩
    · exact ⟨_, _, flightOf (predicatePkt 1), t _ _ (by decide), rfl, by decide, by decide, by decide +kernel, by decide, by decide⟩
  · exact ⟨rfl, rfl, by decide, by decide, by decide, rfl, by
      intro x hx hi hs
      simp only [repQueue, demoQueue, List.mem_cons, List.not_mem_nil, or_false] at hx
      rcases hx with rfl | rfl | rfl
      · cases hi
      · cases hs
      · cases hs⟩
  · cases early
    · exact ⟨_, _, flightOf loopPkt, t _ _ (by decide), rfl, by decide, by decide, by decide⟩
    · exact ⟨_, _, flightOf (pktOf 6 (leBytes 4 0 ++ leBytes 4 3 ++ leBytes 4 3)), t _ _ (by decide), rfl, by decide, by decide, by decide⟩

/-- A started loop with and without its body done, its repetitions none, ended and under way; a started fence, in the ring and in a
repetition, with and without an earlier packet under way; a launch whose tree has completed and one whose tree has not. -/
theorem meets_QueuesRunStartedPackets :
    (∀ (busy : Bool) (left : Nat) (reps : Option Bool), ∃ (s : State) (q : Queue) (f : Flight), tget s.queues 5 = some q ∧
      (runningAt q f.index fun x => pType x.bytes = 6) = some f ∧ f.rep = none ∧ q.restart = [] ∧ f.loopLeft = left ∧ loopBody f = [1] ∧ q.completed 1 = !busy ∧
      q.flights.filter (fun x => x.rep == some f.index) = reps.toList.map fun b => { freshFlight 1 [] (some 2) with finished := b }) ∧
    (∀ busy : Bool, ∃ (s : State) (q : Queue) (f : Flight), tget s.queues 5 = some q ∧ (runningAt q f.index fun x => pType x.bytes = 7) = some f ∧ q.restart = [] ∧
      f.rep = none ∧ q.rd ≤ 1 ∧ 1 < f.index ∧ (∀ j, q.rd ≤ j → j < f.index → j = 1) ∧ q.completed 1 = !busy) ∧
    (∀ busy : Bool, ∃ (s : State) (q : Queue) (f x : Flight), tget s.queues 5 = some q ∧ (runningAt q f.index fun x => pType x.bytes = 7) = some f ∧ q.restart = [] ∧
      f.rep = some 4 ∧ x ∈ q.flights ∧ x.rep = some 4 ∧ x.index < f.index ∧ x.finished = !busy ∧ ∀ y ∈ q.flights, y.rep = some 4 → y.index < f.index → y = x) ∧
    ∀ n, ∃ (s : State) (q : Queue) (f : Flight) (l : Launch) (tr : Tree), tget s.queues 5 = some q ∧ f ∈ q.flights ∧ f.started = true ∧ f.finished = false ∧ f.launch = some 1 ∧
      (∀ x ∈ q.flights, x.index = f.index → x.finished = false → x = f) ∧ tget s.launches 1 = some l ∧ tget s.trees l.tree = some tr ∧ q.restart = [] ∧
      (q.flights.map fun x => (x.index, x.rep)).Nodup ∧ twf s.trees = true ∧ tr.counter = n ∧ (pSignal f.bytes = 0 ∨ signalWaits s (askerOf 5 f) q.ten (pSignal f.bytes) = false) := by
  refine ⟨fun busy left reps => ?_, fun busy => ?_, fun busy => ?_, fun n => ?_⟩
  · let f : Flight := { flightOf loopPkt with started := true, loopLeft := left }
    let q : Queue := { demoQueue (f :: reps.toList.map fun b => { freshFlight 1 [] (some 2) with finished := b }) with rd := if busy then 1 else 2 }
    refine ⟨queueState q, q, f, rfl, rfl, rfl, rfl, rfl, (by decide : (List.range (field loopPkt 8 1)).map (fun j => 2 - field loopPkt 8 1 + j) = [1]), ?_, ?_⟩
    · cases busy <;> rcases reps with _ | _ | _ <;> rfl
    · rcases reps with _ | _ | _ <;> rfl
  · let f : Flight := { flightOf (pktOf 7 []) with started := true }
    let q : Queue := { demoQueue [{ freshFlight 1 [] none with finished := !busy }, f] with rd := 1 }
    refine ⟨queueState q, q, f, rfl, ?_, rfl, rfl, Nat.le_refl 1, (by decide : 1 < 2), fun j h1 h2 => ?_, ?_⟩
    · cases busy <;> rfl
    · change 1 ≤ j at h1
      change j < 2 at h2
      omega
    · cases busy <;> rfl
  · let f : Flight := { repeated (pktOf 7 []) with index := 3, started := true }
    let x : Flight := { repeated signalPkt with finished := !busy }
    let q : Queue := { demoQueue [againFlight, x, f] with rd := 4 }
    refine ⟨queueState q, q, f, x, rfl, ?_, rfl, rfl, by simp [q, demoQueue], rfl, (by decide : 2 < 3), rfl, fun y hy hr hi => ?_⟩
    · cases busy <;> rfl
    · simp only [q, demoQueue, List.mem_cons, List.not_mem_nil, or_false] at hy
      rcases hy with rfl | rfl | rfl
      · cases hr
      · rfl
      · exact absurd hi (by decide)
  · let f : Flight := { flightOf (launchPkt 0x10000) with started := true, launch := some 1 }
    refine ⟨{ queueState (demoQueue [f]) with trees := [(2, ⟨1, n, 0⟩)] }, demoQueue [f], f, _, _, rfl, List.mem_singleton.2 rfl, rfl, rfl, rfl, fun x hx _ _ => List.mem_singleton.1 hx,
      rfl, rfl, rfl, by simp [demoQueue], rfl, rfl, Or.inl (by decide)⟩

/-! ### Power, services and recovery -/

def lawState : State := { State.reset with wb := { Weigh.reset with pending := some (0x1234, 500) }, time := 1000 }

/-- A tick under way and one that ends; a waiting rate; currents above a ceiling, not above it and not below it; decisions at
their instants, of a port with lost lanes too; a move and a change under way; a core whose limit falls. -/
theorem meets_PowerFollowsTheRate :
    (∃ s : State, s.time < ((applyRate s).wb.tick + 1) * 1000) ∧
    (((applyRate lawState).wb.tick + 1) * 1000 ≤ lawState.time ∧ lawState.wb.pending = some (0x1234, 500) ∧ 500 ≤ lawState.time ∧
      (applyRate lawState).wb.rset = none ∧ (applyRate lawState).wb.fix = false) ∧
    (∃ s : State, (applyRate s).wb.rset = some 9) ∧ (∃ s : State, (applyRate s).wb.rset = none ∧ (applyRate s).wb.fix = true) ∧
    (∀ s d, ceilingOf s d < ceilingOf s d + 1 ∧ 0 ≤ ceilingOf s d) ∧
    (∃ s : State, (coreAt s 63).lost = false ∧ (coreAt s 63).move = none ∧ (coreAt s 63).limit ≤ 7 ∧ s.time % 8000 = 125 * 63) ∧
    (∃ s : State, (coreAt s 63).move = some (3, 7)) ∧
    (∀ n ∈ [2, 8], ∃ s : State, (portAt s 15).change = none ∧ s.time % 64000 = 4000 * 15 ∧ (portAt s 15).maxLanes = n) ∧
    (∃ s : State, (portAt s 15).change = some (2, 7)) ∧
    ∀ m ∈ [none, some (7, 9)], ∃ s : State, (coreAt s 63).lost = false ∧ (coreAt s 63).move = m := by
  refine ⟨⟨State.reset, by decide⟩, ⟨by decide, rfl, by decide, by decide, by decide⟩, ⟨{ State.reset with wb := { Weigh.reset with rset := some 9 } }, by decide⟩,
    ⟨{ State.reset with wb := { Weigh.reset with fix := true } }, by decide⟩, fun _ _ => ⟨Nat.lt_succ_self _, Nat.zero_le _⟩,
    ⟨{ State.reset with time := 7875 }, by decide +kernel⟩,
    ⟨{ State.reset with cores := Vector.replicate 64 { Core.reset with move := some (3, 7) } }, by decide +kernel⟩,
    fun n h => ⟨{ State.reset with time := 60000, ports := Vector.replicate 16 { Port.reset with maxLanes := n } }, ?_⟩,
    ⟨{ State.reset with ports := Vector.replicate 16 { Port.reset with change := some (2, 7) } }, by decide +kernel⟩,
    fun m h => ⟨{ State.reset with cores := Vector.replicate 64 { Core.reset with move := m } }, ?_⟩⟩
  · revert h; revert n; decide +kernel
  · revert h; revert m; decide +kernel

/-- A message of the root by port 0. -/
def demoMgmt : Mgmt := ⟨1, 7, 0xFF, 0, true⟩
theorem heard_at (s : State) (h : isEth0 s = true ∧ s.bootst ≠ 3 ∧ s.mgmtq = []) : Heard s demoMgmt :=
  ⟨⟨h.1, h.2.1⟩, by decide, h.2.2⟩

def freshDesc : QueueDesc := ⟨0x11000, 0x12000, 0x12008, 16, 10, 4095, 0, 0⟩
/-- Tables of stage 2 that map intermediate page 0, of 64 KiB, to HBM; tenancy 0 is frozen on its way to another part. -/
def tableMem : List Host.Cell :=
  (List.range 5).foldl (fun m i => Memory.setMany m (hbmBase + 0x1000 * (i + 1))
    (leBytes 8 (if i = 4 then hbmBase + 0x100000 + 7 + (tierCode hbmBase).getD 0 * 1024 else hbmBase + 0x1000 * (i + 2) + 1))) []
/-- Stage 1 of tenancy 0 over tableMem: a page with SIG at intermediate address 0. -/
def sigMem : List Host.Cell :=
  (List.range 5).foldl (fun m i => Memory.setMany m (hbmBase + 0x100000 + 0x1000 * i)
    (leBytes 8 (if i = 4 then 0x200000000000000F else 0x1000 * (i + 1) + 1))) tableMem
def tableState : State :=
  { demoState (demoGroup fun _ => 0) with mem := sigMem, tcbs := Vector.replicate 32 { Tcb.reset with s2root := BitVec.ofNat 64 (hbmBase + 0x1000), keyok := true } }
def moveState (n : Nat) : State :=
  { tableState with moves := [(6, ⟨0, hbmBase + 0x5000, hbmBase + 0x100000, cellarBase, 65536, n⟩)] }
/-- A view of tenancy 0 over its first 64 bytes is registered. -/
def liveState (n : Nat) : State :=
  { moveState n with trellis := [⟨⟨1, 0, 0⟩, ⟨0, 3, 1, 3, [64, 0, 0, 0], [1, 0, 0, 0]⟩, [], none, 0, 0, 9⟩] }
/-- A store of tenancy 0 to the old copy has not performed. -/
def lateState (n : Nat) : State := { moveState n with
    groups := [(0, opGroup { accOp .store none with accs := [{ demoAcc with x := { pageAt 8 with pa := hbmBase + 0x100008 } }] })] }
def frozenState : State := { tableState with tcbs := Vector.replicate 32 { Tcb.reset with frozen := true, freezing := some 0 } }
def haltedQueue (c : Nat) : Queue := { demoQueue [] with halted := some c }
def wrState (c : Nat) : State := { queueState (haltedQueue c) with mem := [(hbmBase + 0x2000, 3)] }
def poolState (low : Bool) : State := { tableState with tcbs := Vector.replicate 32 { Tcb.reset with keyok := true, poollow := low } }

/-- A free queue number whose RDA reads, a taken one, an illegal descriptor and a part that is not ready; each restart, and each that fails. -/
theorem meets_IsolationAndServices_queues :
    (∃ s : State, Heard s demoMgmt ∧ queueDescOk freshDesc = true ∧ tget s.queues freshDesc.qnum.toNat = none ∧ readyAll s = true ∧
      ∃ l, feGet s (.queue freshDesc.qnum.toNat) freshDesc.ten.toNat .read freshDesc.rda.toNat 8 = .ok l ∧ 0 = field l 0 8) ∧
    ((∀ q ∈ [{ freshDesc with logn := 3 }, { freshDesc with rsv := 1 }], queueDescOk q = false) ∧
      (∃ s : State, Heard s demoMgmt ∧ tget s.queues 5 ≠ none) ∧ ∃ s : State, Heard s demoMgmt ∧ readyAll s = false) ∧
    (∀ x ∈ [((0 : RestartMode), 0), (1, 0), (2, 2), (2, 3)], ∃ (s : State) (q : Queue), Heard s demoMgmt ∧
      feGet s (.queue 5) q.ten .read q.desc.wra.toNat 8 = .ok (leBytes 8 3) ∧ tget s.queues 5 = some q ∧ q.halted = some 1 ∧ x.1.toNat ≤ 2 ∧ q.flights = [] ∧ q.restart = [] ∧ q.rd = q.nstart ∧
      restartWaits (feDone (feTouch s q.ten q.desc.wra.toNat 8) (.queue 5)) q (if x.1.toNat = 0 then 0 else if x.1.toNat = 1 then 1 else x.2 - q.rd) = [] ∧ (x.1.toNat = 2 → q.nstart ≤ x.2 ∧ x.2 ≤ field (leBytes 8 3) 0 8) ∧
      3 - (q.rd + if x.1.toNat = 0 then 0 else if x.1.toNat = 1 then 1 else x.2 - q.rd) ≤ q.size) ∧
    ((∃ (s : State) (q : Queue), Heard s demoMgmt ∧ tget s.queues 5 = some q ∧ q.halted = none) ∧ (∃ m : RestartMode, 2 < m.toNat) ∧
      ((demoQueue []).nstart = 2 ∧ 1 < 2 ∧ 3 < 4) ∧
      ∃ (s : State) (q : Queue) (l : List Byte), Heard s demoMgmt ∧ tget s.queues 5 = some q ∧ feGet s (.queue 5) q.ten .read q.desc.wra.toNat 8 = .ok l ∧
        q.halted = some 0x0A ∧ (tcbOf s q.ten).keyok = false) ∧
    ∃ s : State, Heard s demoMgmt ∧ tget s.queues 4095 = none := by
  have h : ∀ x ∈ [((0 : RestartMode), 0), (1, 0), (2, 2), (2, 3)], feGet (wrState 1) (.queue 5) 0 .read 0x12000 8 = .ok (leBytes 8 3) ∧ x.1.toNat ≤ 2 ∧
      restartWaits (feDone (feTouch (wrState 1) 0 0x12000 8) (.queue 5)) (haltedQueue 1) (if x.1.toNat = 0 then 0 else if x.1.toNat = 1 then 1 else x.2 - 2) = [] ∧ (x.1.toNat = 2 → 2 ≤ x.2 ∧ x.2 ≤ field (leBytes 8 3) 0 8) ∧
      3 - (2 + if x.1.toNat = 0 then 0 else if x.1.toNat = 1 then 1 else x.2 - 2) ≤ (haltedQueue 1).size := by decide +kernel
  refine ⟨⟨queueState (demoQueue []), heard_at _ (by decide), by decide, by decide, by decide, leBytes 8 0, by decide +kernel, by decide⟩,
    ⟨by decide, ⟨queueState (demoQueue []), heard_at _ (by decide), by decide⟩, { queueState (demoQueue []) with ready := 2 }, heard_at _ (by decide), by decide⟩,
    fun x hx => ⟨wrState 1, haltedQueue 1, heard_at _ (by decide), (h x hx).1, rfl, rfl, (h x hx).2.1, rfl, rfl, rfl, (h x hx).2.2.1, (h x hx).2.2.2.1, (h x hx).2.2.2.2⟩,
    ⟨⟨queueState (demoQueue []), _, heard_at _ (by decide), rfl, rfl⟩, ⟨3, by decide⟩, by decide,
      { wrState 0x0A with tcbs := Vector.replicate 32 Tcb.reset }, haltedQueue 0x0A, leBytes 8 3, heard_at _ (by decide), rfl, by decide +kernel, rfl, by decide +kernel⟩,
    wrState 1, heard_at _ (by decide), rfl⟩

/-- A tenancy number and ranges at their ends; a running team to freeze; a thawed tenancy with keys and a frozen one; pools; and heat to take. -/
theorem meets_IsolationAndServices_services :
    (∃ s : State, Heard s demoMgmt ∧ 31 < 32 ∧ 8191 < 8192 ∧ 32 ≤ 32 ∧ (1 ≤ 1 ∧ 1 ≤ 524288) ∧ (1 ≤ 524288 ∧ 524288 ≤ 524288) ∧ twf s.queues = true ∧
      (tcbOf s 31).frozen = false) ∧
    (∃ (s : State) (u : Team) (l : Launch), Heard s demoMgmt ∧ (tcbOf s 0).frozen = false ∧ tget s.teams 0 = some u ∧ tget s.launches u.launch = some l ∧ l.ten = 0 ∧ u.ended = false ∧ u.mode = .running) ∧
    ((tcbOf (poolState false) 31).frozen = false ∧ (tcbOf (poolState false) 31).keyok = true ∧ (tcbOf frozenState 0).frozen = true ∧ (tcbOf frozenState 0).freezing ≠ none) ∧
    ((tcbOf (poolState false) 31).poollow = false ∧ let b := tcbOf (poolState true) 31
      b.poollow = true ∧ (b.ptail - b.phead).toNat < 2 ^ b.plog ∧ (b.ptail + 1 - b.phead).toNat < b.lowat.toNat) ∧
    ∃ s : State, (tcbOf s 31).mrrd ≠ (tcbOf s 31).mrwr ∧ twf s.heat = true := by
  refine ⟨⟨poolState false, heard_at _ (by decide), by decide +kernel⟩, ⟨poolState false, seedTeam 1 State.reset, seedLaunch 0x10000 2, heard_at _ (by decide), by decide +kernel, rfl, rfl, rfl, rfl, rfl⟩,
    by decide +kernel, by decide +kernel, { State.reset with tcbs := Vector.replicate 32 { Tcb.reset with mrwr := 1 } }, by decide +kernel⟩

/-- A gang's fault and a front end's; a page that may move and one that stays; each step of a move with and without a live view. -/
theorem meets_IsolationAndServices_pages :
    (∃ (s : State) (g : Group) (p : Path), tget s.groups 0 = some g ∧ (0, 0, (0x10000 : Word)) ∈ s.s2faults ∧ g.path 0 = some p ∧ p.park = some (.stage2 0x10000) ∧ p.latched = false ∧ twf s.queues = true) ∧
    (∃ s : State, (4096 + 31, 0x10, (0x10000 : Word)) ∈ s.s2faults ∧ twf s.queues = true) ∧
    (stage2 tableState 0 0 = some ⟨hbmBase + 0x100000, hbmBase + 0x5000, hbmBase + 0x100000 + 7 + (tierCode hbmBase).getD 0 * 1024, 65536, false⟩ ∧
      (∃ x y, homeOf (hbmBase + 0x100000) = some (.hbm, x) ∧ homeOf cellarBase = some (.cellar, y)) ∧ cellarBase % 65536 = 0 ∧
      populated tableState cellarBase = true ∧ tableState.moves = [] ∧ tableState.trellis = [] ∧
      16 * (0 * 65536 + tableState.wb.rate.toNat * 0) < 15 * (1 * 65536 + tableState.wb.rate.toNat * 0) ∧
      15 * (0 * 65536 + tableState.wb.rate.toNat * 0) ≤ 16 * (0 * 65536 + tableState.wb.rate.toNat * 0)) ∧
    (∀ n, ∃ m, tget (moveState n).moves 6 = some m ∧ m.stepNo = n ∧ inLiveView (moveState n) m.ten m.old m.size = false ∧ oldWrites (moveState n) m = false ∧
      Memory.wf (moveState n).mem = true ∧ (m.old + m.size ≤ m.new ∨ m.new + m.size ≤ m.old) ∧
      twf (moveState n).moves = true ∧ twf (moveState n).heat = true ∧ (moveState n).queues = []) ∧
    (∀ n ∈ [0, 1, 2], ∃ m, tget (liveState n).moves 6 = some m ∧ m.stepNo = n ∧ inLiveView (liveState n) m.ten m.old m.size = true) ∧
    ∃ m, tget (lateState 1).moves 6 = some m ∧ m.stepNo = 1 ∧ inLiveView (lateState 1) m.ten m.old m.size = false ∧ oldWrites (lateState 1) m = true := by
  let wait := parkGroup (.stage2 0x10000) fun _ => 0
  refine ⟨⟨{ demoState wait with s2faults := [(0, 0, 0x10000)] }, wait, _, rfl, List.mem_singleton.2 rfl, rfl, rfl, rfl, rfl⟩,
    ⟨{ State.reset with s2faults := [(4096 + 31, 0x10, 0x10000)] }, List.mem_singleton.2 rfl, rfl⟩,
    ⟨by decide +kernel, ⟨0, 0, by decide, by decide⟩, by decide, by decide, rfl, rfl, by decide⟩, fun n => ⟨_, rfl, rfl, rfl, rfl, ?_, ?_, rfl, rfl, rfl⟩,
    by decide +kernel, by decide +kernel⟩
  · exact (by decide : Memory.wf sigMem = true)
  · exact (by decide : hbmBase + 0x100000 + 65536 ≤ cellarBase ∨ cellarBase + 65536 ≤ hbmBase + 0x100000)

/-! ### Recovery, messages, management -/

def ringState (wri : BitVec 32) (n : Nat) : State :=
  { demoState (demoGroup fun _ => 0) with errs := { Recovery.reset with base := BitVec.ofNat 64 hbmBase, wri := wri, held := List.replicate n [] } }
def corePlace (redispatched : Nat) (replay : Bool) : State :=
  { demoState (demoGroup fun _ => 0) with
    launches := [(1, { seedLaunch 0x10000 2 with replay := replay })], teams := [(0, { seedTeam 1 State.reset with redispatched := redispatched })] }
def errOf (cls src unit ten synd : Nat) : ErrInfo :=
  ⟨BitVec.ofNat 8 cls, BitVec.ofNat 8 src, BitVec.ofNat 16 unit, BitVec.ofNat 8 ten, 0x4000, BitVec.ofNat 32 synd⟩

/-- A ring with room, a full one with room to hold and one without; each class; a port's lanes that fail, and a channel of an
empty stack and of one with a page. -/
theorem meets_RecoveryAndBringUp_errors :
    (errFull (ringState 0 0) = false ∧ errFull (ringState 256 63) = true ∧ (ringState 256 63).errs.held.length < 64 ∧
      errFull (ringState 256 64) = true ∧ 64 ≤ (ringState 256 64).errs.held.length) ∧
    (∀ cls ∈ [1, 2, 3, 4, 5, 6], (errOf cls 0 0 31 0).cls = BitVec.ofNat 8 cls ∧ (errOf cls 0 0 31 0).ten.toNat < 32 ∧ bits (errOf cls 0 0 31 0).synd.toNat 31 31 = 0) ∧
    ((errOf 2 2 0 0 0).src.toNat ≤ 2 ∧ (errOf 2 3 0 0 0).src = 3 ∧ OutsideRing (ringState 0 0) ((errOf 2 2 0 0 0).pa.toNat % 2 ^ 56) ∧ twf (ringState 0 0).queues = true) ∧
    (∀ n ∈ [0, 1, 2, 3, 4, 7, 8], let e := errOf 1 6 15 0 (2 ^ 31 + n)
      bits e.synd.toNat 31 31 = 1 ∧ e.src = 6 ∧ e.unit.toNat = 15 ∧ bits e.synd.toNat 3 0 = n) ∧
    ∀ src ∈ [1, 2], ∀ x ∈ [(7, 0x301F, true), (0, 0, false)], let e := errOf 1 src (64 + x.1) 0 (2 ^ 31 + x.2.1)
      let old := (tableState.caps.chans.getD x.1 0).toNat
      let ch := bits e.synd.toNat 4 0
      let mask := (BitVec.ofNat 32 old &&& ~~~(BitVec.ofNat 32 (2 ^ ch))).toNat
      let cap := min (bits e.synd.toNat 13 8) (bits old 63 32) * 2 ^ 32 + mask
      bits e.synd.toNat 31 31 = 1 ∧ e.src.toNat = src ∧ e.unit.toNat = 64 + x.1 ∧ bits old ch ch = 1 ∧
        ((lostRanges tableState x.1 cap).all fun y => emptyRange tableState y.1 y.2) = x.2.2 := by
  refine ⟨by decide, by decide, ⟨by decide, by decide, ?_, by decide⟩, by decide, by decide +kernel⟩
  show ∀ i < 256, _
  decide +kernel

/-- A stopped part; a row; a lost core of a replayable team and of another; both states of ETH0; and the boots. -/
theorem meets_RecoveryAndBringUp_boots :
    (∃ s : State, s.stopped = true) ∧ ((scrubAt State.reset 7).en = true ∧ ∃ g ∈ { ringState 0 0 with poison := [0x4000] }.poison, granule g = g) ∧
    (∀ n replay, (n, replay) ∈ [(0, true), (0, false), (2, true)] → let s := corePlace n replay
      (coreAt s 0).lost = false ∧ ∃ tm l, tget s.teams 0 = some tm ∧ 0 ∈ tm.cores ∧ tm.ended = false ∧ tget s.launches tm.launch = some l ∧ l.code = 0 ∧
        tm.isSaved = false ∧ replayable s tm = (replay && decide (n < 2)) ∧ endsLost s (lostTeams s 0) tm.launch = !(replay && decide (n < 2))) ∧
    (∀ n ∈ [1, 2], ∃ s : State, bits s.ready.toNat 1 1 = 1 ∧ s.bootst = n ∧ Memory.wf s.mem = true) ∧ bits State.reset.ready.toNat 1 1 ≠ 1 ∧
    (∃ img : BootImage, img.slot0 = false ∧ img.slot1 = true) ∧ State.reset.bootst = 0 ∧ ∃ s : State, s.bootst ≠ 0 := by
  refine ⟨⟨{ State.reset with stopped := true }, rfl⟩, ⟨by decide +kernel, 0x4000, List.mem_singleton.2 rfl, by decide⟩,
    fun n replay h => ?_, fun n _ => ⟨{ State.reset with ready := 0x3F, bootst := n }, (by decide : bits (0x3F : BitVec 24).toNat 1 1 = 1), rfl, rfl⟩, by decide, ⟨⟨false, true, 0, 0, [], 0, 0, []⟩, rfl, rfl⟩, rfl,
    { State.reset with bootst := 2 }, by decide⟩
  simp only [List.mem_cons, List.not_mem_nil, or_false, Prod.mk.injEq] at h
  rcases h with ⟨rfl, rfl⟩ | ⟨rfl, rfl⟩ | ⟨rfl, rfl⟩ <;>
    exact ⟨by decide +kernel, _, _, rfl, by decide, rfl, rfl, rfl, rfl, by decide +kernel, by decide +kernel⟩

/-- A message from tenancy 0 of part 7 to Silo, which tenancy 0 owns. -/
def demoFrame (op : Nat) : Frame := ⟨BitVec.ofNat 8 op, 0, 0, 2, 9, 0x40, 0, 0, List.replicate 8 1, 7, 15, true⟩
/-- One that writes half a byte. -/
def halfFrame : Frame := { demoFrame 3 with size := 0, arg := Config.sigdecSub.setWidth 64 }
def homeState : State :=
  { demoState (demoGroup fun _ => 0) with ready := 0xFFFF3F, peers := [(0, 7, 0)], tcbs := Vector.replicate 32 { Tcb.reset with keyok := true } }
def stubFrame : Frame := { demoFrame 2 with addr := BitVec.ofNat 64 (hbmBase + 0x108000) }
def stubState (f : Option Nat) (log : List Frame) : State :=
  { homeState with
    mem := sigMem
    tcbs := Vector.replicate 32 { Tcb.reset with keyok := true, frozen := true, freezing := f, target := some 4, log := log, s2root := BitVec.ofNat 64 (hbmBase + 0x1000) } }
def sentOp : POp := { accOp .store none with accs := [{ demoAcc with sent := some 9 }] }
/-- An earlier message for the same bytes waits. -/
def waitingState : State := { homeState with held := [⟨0, 0x40, false, demoFrame 2⟩] }

theorem half_fine : isNibble halfFrame = true ∧ frameBad halfFrame = false := by
  have h : ∀ x : BitVec 4, let f : Frame := { demoFrame 3 with size := 0, arg := x.setWidth 64 }
      (f.op == 3 && f.size == 0 && bits f.arg.toNat 3 0 == x.toNat) = true ∧ frameBad f = false := by decide
  exact h Config.sigdecSub

/-- Each kind of access that the home accepts, waits for, or finds poisoned, and one behind another. -/
theorem meets_MessagesAreServed_accepted :
    (∀ op ∈ [1, 2, 3], Accepts homeState (demoFrame op) op 0) ∧ (Accepts homeState halfFrame 3 0 ∧ isNibble halfFrame = true) ∧
    (lineAbsent homeState 0x40 = false ∧ migrating homeState 0x40 = false ∧ poisoned homeState 0x40 4 = false ∧ 2 ^ (demoFrame 2).size.toNat ≤ (demoFrame 2).data.length ∧
      Memory.wf homeState.mem = true ∧ ∃ fn ty, atomFn (demoFrame 3) = some (fn, ty) ∧ 8 * 2 ^ (demoFrame 3).size.toNat = AT.width ty) ∧
    (poisoned { homeState with poison := [0x40] } 0x40 4 = true ∧ lineAbsent { homeState with absent := [1] } 0x40 = true ∧
      migrating { homeState with moves := [(6, ⟨0, 0, 0, hbmBase, 4096, 1⟩)] } 0x40 = true) ∧
    (readyAll waitingState = true ∧ populated waitingState 0x40 = true ∧ homeTen waitingState (demoFrame 1) = some 0 ∧ (tcbOf waitingState 0).frozen = false ∧
      heldBefore waitingState 0 0x40 4 = true) := by
  have acc : ∀ op ∈ [1, 2, 3], (frameBad (demoFrame op) = false ∧ (demoFrame op).auth = true ∧ (demoFrame op).op.toNat = op) ∧ populated homeState (demoFrame op).addr.toNat = true ∧
      homeTen homeState (demoFrame op) = some 0 := by decide +kernel
  have up : Arrives homeState (demoFrame 1) := by unfold Arrives; decide
  exact ⟨fun op h => ⟨⟨up, (acc op h).1, by decide⟩, by decide, (acc op h).2.1, (acc op h).2.2, by decide +kernel, rfl⟩,
    ⟨⟨⟨up, ⟨half_fine.2, rfl, rfl⟩, by decide⟩, by decide, (acc 3 (by decide)).2.1, (acc 3 (by decide)).2.2, by decide +kernel, rfl⟩, half_fine.1⟩,
    ⟨by decide +kernel, by decide, by decide, by decide, by decide, _, _, rfl, by decide⟩, by decide +kernel, by decide +kernel⟩

/-- Refusals; a frozen tenancy's page with and without SIG; messages that are malformed or not sealed; a response; and chunks of each kind. -/
theorem meets_MessagesAreServed_others :
    (homeTen (demoState (demoGroup fun _ => 0)) (demoFrame 1) = none ∧ frameBad (demoFrame 1) = false ∧ frameBad { demoFrame 1 with rsv := 1 } = true ∧
      { demoFrame 1 with auth := false }.auth = false) ∧
    (∀ f log, (f, log) ∈ [(some 0, []), (none, [])] → let s := stubState f log
      (∀ op ∈ [1, 2, 3], (demoFrame op).op.toNat = op ∧ frameBad (demoFrame op) = false ∧ homeTen s (demoFrame op) = some 0) ∧
      readyAll s = true ∧ s.stopped = false ∧ populated s stubFrame.addr.toNat = true ∧ homeTen s stubFrame = some 0 ∧ (tcbOf s 0).frozen = true ∧
      (nonReturning stubFrame && inSigPage s 0 stubFrame.addr.toNat) = true ∧ (nonReturning (demoFrame 1) && inSigPage s 0 0x40) = false ∧
      (tcbOf s 0).freezing = f ∧ (tcbOf s 0).target = some 4 ∧ (tcbOf s 0).log.length < 65536) ∧
    (∃ b : Tcb, b.freezing ≠ none ∧ 65536 ≤ b.log.length) ∧
    (frameBad (demoFrame 4) = false ∧ (demoFrame 4).op = 4 ∧ ∃ (s : State) (g : Group) (o : POp) (a : Acc), tget s.groups 0 = some g ∧ o ∈ g.ops ∧ a ∈ o.accs ∧
      a.sent = some (demoFrame 4).tag.toNat ∧ a.done = false) ∧
    (frameBad (demoFrame 6) = false ∧ (demoFrame 6).op = 6) ∧
    (frameBad { demoFrame 7 with data := List.replicate 4096 0 } = false ∧
      (∃ s : State, ∀ x ∈ s.comms, ¬(x.1 = 0 ∧ x.2.1 = (demoFrame 7).arg)) ∧ (∃ s : State, ∃ x ∈ s.comms, x.1 = 0 ∧ x.2.1 = (demoFrame 7).arg) ∧
      (∀ b : Bool, ∃ l : List Byte, (chunkCall 0 0 l).failed = b) ∧ (∀ k ∈ State.reset.calls, sameCall (chunkCall 0 0 []) k = false) ∧
      sameCall (chunkCall 0 0 []) (chunkCall 0 0 []) = true) := by
  refine ⟨by decide +kernel, fun f log h => ?_,
    ⟨{ Tcb.reset with freezing := some 0, log := List.replicate 65536 stubFrame }, by decide, ?_⟩, ⟨by decide, by decide, demoState (opGroup sentOp), _, sentOp, _, rfl,
      List.mem_singleton.2 rfl, List.mem_singleton.2 rfl, by decide, rfl⟩, by decide,
    ⟨by decide +kernel, ⟨State.reset, all_nil rfl⟩, ⟨{ State.reset with comms := [(0, 0, 2)] }, _, List.mem_singleton.2 rfl, rfl, rfl⟩,
      fun b => ⟨[0, 0, 0, if b then 1 else 0], by cases b <;> decide⟩, all_nil rfl, by decide⟩⟩
  · simp only [List.mem_cons, List.not_mem_nil, or_false, Prod.mk.injEq] at h
    rcases h with ⟨rfl, rfl⟩ | ⟨rfl, rfl⟩ <;> decide +kernel
  · show 65536 ≤ (List.replicate 65536 stubFrame).length
    exact Nat.le_of_eq List.length_replicate.symm

def obsState (o : Obs) (clk : Nat) : State :=
  { demoState { demoGroup (fun _ => 0) with last := 0 } with obs := Vector.replicate 64 o, clk := clk, ready := 0x3F, bootst := 1 }
def traceObs : Obs := { Obs.reset with en := true, gmask := 1, smen := true, synced := [0] }
def stoppedDemo (st : Stop) (spot : Spot) : Group := { demoGroup (fun _ => 0) with paths := (Vector.replicate 16 none).set 0 (some { demoPath with stop := st, spot := spot }) }

/-- A register that reads and one that does not, and one that a part with no image answers for; messages that are not sealed, misaligned,
not the root's, or behind others; a part whose ETH0 is down; a write within populated memory, and one that waits. -/
theorem meets_ManagementAndObservation_messages :
    (let s := obsState traceObs 0;
      Heard s demoMgmt ∧ addrFits 0x3FF00050018 8 = true ∧ (if inWindow 0x3FF00050018 then readImage s 0x3FF00050018 else regRead s 0x3FF00050018) = some 0x3F ∧
      (if inWindow 0x3FF00010048 then readImage s 0x3FF00010048 else regRead s 0x3FF00010048) = none ∧ isReg s 0x3FF00010008 = true ∧ isReg s 0x3FFFFFFFFF8 = false) ∧
    (∃ s : State, s.bootst = 3 ∧ isEth0 s = true ∧ demoMgmt.auth = true ∧ demoMgmt.ten = 0xFF ∧ addrFits 0x3FF00050020 8 = true ∧ addrFits 0x3FF00010008 8 = true) ∧
    ((obsState traceObs 0).bootst ≠ 3 ∧ isEth0 (obsState traceObs 0) = true ∧ { demoMgmt with auth := false }.auth = false ∧ addrFits 0x3FF00050001 8 = false ∧ { demoMgmt with ten := 3 }.ten ≠ 0xFF) ∧
    (∃ s : State, isEth0 s = true ∧ s.bootst ≠ 3 ∧ s.mgmtq ≠ []) ∧ isEth0 State.reset = false ∧
    (let s := obsState traceObs 0;
      let a := hbmBase + 8;
      Heard s demoMgmt ∧ inWindow a = false ∧ addrFits (BitVec.ofNat 64 a) (2 ^ Nat.log2 8) = true ∧ allPopulated s a 8 = true ∧ memWriteWaits s a 8 = false ∧
      Memory.wf s.mem = true ∧ poisoned s a 8 = false ∧ anyCov s = false ∧ memWriteWaits { s with absent := [0x41, 0x42] } 0x1040 8 = true ∧
      inWindow 0x1040 = false ∧ addrFits 0x1040 (2 ^ Nat.log2 8) = true ∧ allPopulated s 0x1040 8 = true ∧ addrFits (BitVec.ofNat 64 hbmBase) (2 ^ Nat.log2 4096) = true ∧
      allPopulated s hbmBase 4096 = true) := by
  refine ⟨⟨heard_at _ (by decide), by decide +kernel⟩, ⟨{ State.reset with ready := 2, bootst := 3 }, by decide⟩, by decide,
    ⟨{ State.reset with ready := 2, mgmtq := [(demoMgmt, .regRead 0)] }, by decide⟩, by decide, heard_at _ (by decide), by decide +kernel⟩

/-- A running team and a saved one to dump; a gang in each state of a debugger, at a unit boundary and inside a clause; sync
points, losses and samples with room and without; reasons of samples; notifications for each endpoint, and none. -/
theorem meets_ManagementAndObservation_observers :
    ((∃ s tm, tget s.teams 0 = some tm ∧ membersOf s 0 ≠ [] ∧ tm.mode = .running) ∧
      ∃ tm l k, tget savedState.teams 0 = some tm ∧ membersOf savedState 0 ≠ [] ∧ tm.mode = .saved 0 ∧ tget savedState.launches tm.launch = some l ∧ l.kdesc = some k ∧
        savedState.dumps = []) ∧
    (∀ st spot, ∃ (s : State) (g : Group) (p : Path), tget s.groups (0 * 32 + 0) = some g ∧ g.path 0 = some p ∧ p.stop = st ∧ p.spot = spot ∧ p.latched = false) ∧
    (let b := fun o c => obsOf (obsState o c) 63;
      (256 ≤ (b { traceObs with sincePkts := 256 } 0).sincePkts ∧ 4096 ≤ (obsState traceObs 4096).clk - (b traceObs 4096).sinceCyc ∧
        (b traceObs 0).sincePkts < 256 ∧ (obsState traceObs 0).clk - (b traceObs 0).sinceCyc < 4096)) ∧
    (∃ n g, let s := obsState traceObs 4096;
      tracedGroups s 0 = [(n, g)] ∧ (obsOf s 0).synced.contains n = true ∧ (obsOf s 0).pendLoss = 0 ∧
        (obsOf s 0).used + (pktBytes 6 n 0 0 (s.clk - (obsOf s 0).prevCyc) (syncPayload s g)).length ≤ 2 ^ (obsOf s 0).tlog ∧
        let f := obsState { traceObs with twr := 65536 } 4096;
        2 ^ (obsOf f 0).tlog < (obsOf f 0).used + (pktBytes 6 n 0 0 (f.clk - (obsOf f 0).prevCyc) (syncPayload f g)).length) ∧
    (∀ x ∈ [(0, true), (65536, false)], let s := obsState { traceObs with pendLoss := 3, twr := BitVec.ofNat 32 x.1 } 0
      (obsOf s 0).pendLoss ≠ 0 ∧ decide ((obsOf s 0).used + (pktBytes 5 0 0 0 0 (leBytes 4 3) ++
        ((tracedGroups s 0).map fun x => pktBytes 6 x.1 0 2 0 (syncPayload s x.2)).flatten).length ≤ 2 ^ (obsOf s 0).tlog) = x.2) ∧
    (∃ n g pi p, let s := obsState traceObs 65536;
      (obsOf s 0).smen = true ∧ s.clk / 2 ^ (obsOf s 0).sper ≠ (obsOf s 0).sampledAt / 2 ^ (obsOf s 0).sper ∧ nextSample s 0 = some (n, g, pi, p) ∧
        ((obsOf s 0).swr - (obsOf s 0).srd).toNat + 32 ≤ 2 ^ (obsOf s 0).slog) ∧
    (let o := { traceObs with swr := 4096 };
      2 ^ o.slog < (o.swr - o.srd).toNat + 32) ∧
    (∀ st k, ∃ p : Path, p.stop = st ∧ p.park = some k) ∧
    ∀ x ∈ [(1, none, some (2 ^ 64)), (0, some 5, some 5), (0, none, none)],
      let s : State := { State.reset with notes := [⟨1, 31, [], 0⟩], mgmtEp := x.2.1.map (BitVec.ofNat 128), tcbs := Vector.replicate 32 { Tcb.reset with nepa := BitVec.ofNat 64 x.1 } }
      (s.notes.filter fun y => y.ten == 31) ≠ [] ∧ (s.notes.filter fun y => y.ten == 0) = [] ∧
        (if (tcbOf s 31).nepa = 0 ∧ (tcbOf s 31).nepb = 0 then s.mgmtEp else some ((tcbOf s 31).nepa ++ (tcbOf s 31).nepb)) = x.2.2.map (BitVec.ofNat 128) := by
  have samp : (nextSample (obsState traceObs 65536) 0).isSome = true := by decide +kernel
  obtain ⟨⟨n, g, pi, p⟩, hx⟩ := Option.isSome_iff_exists.1 samp
  exact ⟨⟨⟨obsState traceObs 0, seedTeam 1 State.reset, rfl, by decide +kernel, rfl⟩, savedTeam, seedLaunch 0x10000 2, _, rfl, by decide +kernel, rfl, rfl, rfl, rfl⟩,
    fun st spot => ⟨demoState (stoppedDemo st spot), _, _, rfl, rfl, rfl, rfl, by rfl⟩,
    by decide +kernel, ⟨0, { demoGroup (fun _ => 0) with last := 0 }, by decide +kernel⟩, by decide +kernel,
    ⟨n, g, pi, p, by decide +kernel, by decide +kernel, hx, by decide +kernel⟩, by decide,
    fun st k => ⟨{ demoPath with stop := st, park := some k }, rfl, rfl⟩, by decide +kernel⟩

/-! ### Encoding and the step -/

/-- An instruction of two words and its place before other bytes. -/
theorem meets_EncodeThenDecode : (Instr.atomCas 3 1 2 4 0 .ar .sys .n64).encoded = true ∧ wellFormed (.atomCas 3 1 2 4 0 .ar .sys .n64) = true := by decide

def placed : State := State.reset.withFetchWord 32 0x26288234
def placedHead : IWord := seedHeader 0x13 1
/-- What a step has before its move: what is due, and the time that passes. -/
def movedOn (s : State) (rest : List Actor) : State :=
  let r := settleDue (leftWork s)
  passTime { r.1 with agenda := rest } r.2 r.1.pace (max 1 r.1.cpace)

def isWord (f : Fetched) (w : BitVec 32) : Bool := match f with | .word x => x == w | .fault _ | .poison | .stage2 | .wait => false
def goesOn (r : Result) : Bool := match r with | .next t => t.stall == none | .fault _ | .refused _ => false

theorem next_of {r : Result} (h : goesOn r = true) : ∃ t, r = .next t ∧ t.stall = none := by
  cases r with
  | next t => exact ⟨t, rfl, by simpa [goesOn] using h⟩
  | fault _ => cases h
  | refused _ => cases h

/-- The state after reset with one instruction placed, of one word; a literal inside its kernel; an event that comes first. -/
theorem meets_StepRunsTheDecodedInstruction_step :
    (∃ (s : State) (g : Group) (p : Path) (h : IWord) (rest : List Actor), let s0 := movedOn s rest
      (settleDue (leftWork s)).1.agenda = .issue 0 0 :: rest ∧ s0.stopped = false ∧ (coreAt s0 0).lost = false ∧ (schedOf s0 0).turn = some 0 ∧ tget s0.groups 0 = some g ∧
        (gangOrder g.last).find? (fun j => (g.path j).isSome) = some 0 ∧ g.path 0 = some p ∧ (p.stop ≠ .stopped ∧ p.park = none ∧ p.trap = none ∧
        p.spot = .inside 0 h 1 ∧ p.latched = false ∧ blockState (aim s0 0 0) 0 g 0 = .ok) ∧ isWord (fetchWord (aim s0 0 0) 0 g p 1).2 0x26288234 = true ∧ opcLong (opcOf 0x26288234) = false ∧
        decodeWords 0x26288234 none = .ok (.movi 5 0 0x1234) ∧ widthOk g.w (.movi 5 0 0x1234) = true ∧
        classOk (hEcl h) (opcOf 0x26288234) (1 == 0 + hCount h) (.movi 5 0 0x1234) = true ∧
        ∃ t, exec (.movi 5 0 0x1234) (fetchWord (aim s0 0 0) 0 g p 1).1 = .next t ∧ t.stall = none) ∧
    (∃ (p : Path) (lit : BitVec 32), ∀ w64, litInside p w64 lit = true) ∧
    ∀ stopped : Bool, ∃ (s : State) (i : Instr), let r := settleDue (leftWork s)
      let s0 := nextCycle { r.1 with agenda := [] }
      r.1.agenda = [.event i] ∧ isEvent i = true ∧ s0.stopped = stopped ∧ (stopped = true → afterStop i = true) ∧ ∃ t, exec i { s0 with stall := none, yielded := false } = .next t := by
  have g : ∃ g p, tget (movedOn placed []).groups 0 = some g ∧ g.path 0 = some p := by
    have e : ((tget (movedOn placed []).groups 0).bind fun g => g.path 0).isSome = true := by decide +kernel
    obtain ⟨p, h⟩ := Option.isSome_iff_exists.1 e
    obtain ⟨g, a, b⟩ := Option.bind_eq_some_iff.1 h
    exact ⟨g, p, a, b⟩
  obtain ⟨g, p, hg, hp⟩ := g
  have all : (match (tget (movedOn placed []).groups 0).map fun g => (g, g.path 0) with
      | some (g, some p) => (gangOrder g.last).find? (fun j => (g.path j).isSome) == some 0 && (p.stop != .stopped && p.park == none && p.trap == none && p.spot == .inside 0 placedHead 1 && !p.latched && blockState (aim (movedOn placed []) 0 0) 0 g 0 == .ok) &&
          isWord (fetchWord (aim (movedOn placed []) 0 0) 0 g p 1).2 0x26288234 && widthOk g.w (.movi 5 0 0x1234) &&
          goesOn (exec (.movi 5 0 0x1234) (fetchWord (aim (movedOn placed []) 0 0) 0 g p 1).1)
      | _ => false) = true := by decide +kernel
  rw [hg] at all
  simp only [Option.map_some, hp, Bool.and_eq_true, beq_iff_eq, bne_iff_ne, Bool.not_eq_true'] at all
  obtain ⟨⟨⟨⟨a1, ⟨⟨⟨⟨a2, a3⟩, a4⟩, a5⟩, a9⟩, a10⟩, a6⟩, a7⟩, a8⟩ := all
  refine ⟨⟨placed, g, p, placedHead, [], by decide +kernel, by decide +kernel, by decide +kernel, by decide +kernel, hg, a1, hp, ⟨a2, a3, a4, a5, a9, a10⟩, a6, by decide, by decide, a7, by decide, next_of a8⟩,
    ⟨demoPath, 0, by decide⟩,
    fun stopped => ⟨{ State.reset with agenda := [.event .port0Training], stopped := stopped }, .port0Training, by cases stopped <;> decide +kernel, by decide, by cases stopped <;> decide +kernel,
      fun _ => by decide, _, rfl⟩⟩

/-- A word that is no instruction and one of another class; and a fetch from memory. -/
theorem meets_StepRunsTheDecodedInstruction_words :
    ((∃ why, decodeWords 0 none = .bad why) ∧ classOk (hEcl (seedHeader 0x13 2)) (opcOf 0xB800000C) (1 == 0 + hCount (seedHeader 0x13 2)) (.br 12) = false) ∧
    (∃ (s : State) (x : Xlate), translate s (coreOf 0) 0 .supervisor .fetch 0x10000 = .ok x ∧ hereOf s x = some hbmBase ∧ (0x10000 % 4 = 0 ∧ hbmBase % 4 = 0) ∧ s.icache = [] ∧
      poisoned (heatTouch (setAD (tlbFill s (coreOf 0) 0 0x10000) 0 x false) 0 x hbmBase 4) hbmBase 4 = false) :=
  ⟨⟨⟨_, (by decide : decodeWords 0 none = .bad .opcode)⟩, by decide⟩, demo fun _ => 0, pageAt 0, by decide +kernel, by decide +kernel, by decide, rfl, by decide +kernel⟩

/-- The canonical form at reset, and a step from there that has a next state. -/
theorem meets_StepKeepsMemoryCanonical : Safe placed ∧ ∃ t, step placed = .next t := by
  refine ⟨(by decide +kernel : Memory.wf placed.mem = true), ?_⟩
  have t : (match step placed with | .next _ => true | .fault _ => false | .refused _ => false) = true := by decide +kernel
  revert t
  cases step placed with
  | next t => exact fun _ => ⟨t, rfl⟩
  | fault _ => exact fun h => by cases h
  | refused _ => exact fun h => by cases h
/-! ### Hypotheses of single clauses: registers and floating point -/

def clearB (u : Use) (g : Group) (p : Path) (pi : Nat) : Bool :=
  (!u.priv || decide (p.code.level ≠ .user)) && (u.all.all fun r => !g.isHeld r.toNat) &&
  (g.handler.isNone || g.isHandler pi || u.all.all fun r => decide (4 ≤ r.toNat)) &&
  (g.reports.all fun q => q.mine p == 0 || u.all.all fun r => !q.names r) && !u.beyond && (u.all.all fun r => decide (r.toNat < g.allot)) &&
  (u.uni.all fun r => (g.reg r).val.isUni) &&
  (p.quiet || u.rd.all fun r => (List.range 16).all fun sl => !inSlices p.slices sl || (g.reg r).live sl) &&
  u.rd.all fun r => (tget g.rpoison r.toNat).getD 0 &&& p.active == 0

theorem clear_dec {s : State} {g : Group} {p : Path} (u : Use) (c : curGang s = some (g, p)) (h : clearB u g p s.path = true) : Clear u s g p := by
  unfold clearB at h
  simp only [Bool.and_eq_true, Bool.or_eq_true, List.all_eq_true, decide_eq_true_eq, beq_iff_eq, Bool.not_eq_true'] at h
  obtain ⟨⟨⟨⟨⟨⟨⟨⟨a, b⟩, d⟩, e⟩, f⟩, i⟩, j⟩, k⟩, l⟩ := h
  exact { gang := c
          level := fun x => a.elim (fun y => by rw [x] at y; cases y) id
          settled := b
          low := fun x => by
            rcases d with (d | d) | d
            · rw [Option.isNone_iff_eq_none] at d
              rw [d] at x
              cases x
            · exact Or.inl d
            · exact Or.inr d
          report := fun q hq hm r hr => ((e q hq).elim (fun y => absurd y hm) fun y => y r hr)
          fits := f
          range := i
          uni := j
          live := k.imp id fun y r hr sl hs hi => (y r hr sl (List.mem_range.2 hs)).elim (fun z => by rw [hi] at z; cases z) id
          clean := l }

/-- An operand that is not U alone, either one. -/
theorem meets_ShapeConversions_affine : ∀ r : VR, r = 1 ∨ r = 2 → ∃ s g p, curGang s = some (g, p) ∧ g.isHeld 3 = false ∧ g.isHeld 1 = false ∧
    g.isHeld 2 = false ∧ g.handler = none ∧ g.reports = [] ∧ 3 < g.allot ∧ (g.reg r).val.isUni = false := by
  intro r h
  refine ⟨demoState ((demoGroup fun _ => 1).setReg r ⟨.aff 0 4, 0x8888⟩), (demoGroup fun _ => 1).setReg r ⟨.aff 0 4, 0x8888⟩, demoPath, ?_⟩
  rcases h with rfl | rfl <;> exact ⟨rfl, by decide +kernel, by decide +kernel, by decide +kernel, rfl, rfl, by decide +kernel, by decide +kernel⟩

/-- An empty EXEC, and one with lanes. -/
theorem meets_ShapeConversions_idle : (∃ s g p, Clear { rd := [1], wr := [3] } s g p ∧ p.active = 0) ∧
    ∃ s g p, Clear { rd := [1], wr := [3] } s g p ∧ p.active ≠ 0 :=
  ⟨⟨_, _, idlePath, idle_clear _ (fun _ => 7) rfl, rfl⟩, demo fun _ => 7, _, demoPath, demo_clear _ _ rfl, by decide⟩

/-- Lane 0 has left EXEC, and v1 is poisoned there. -/
def spoiltPath : Path := { demoPath with exec := 0xFFF0 }
def spoiltGroup : Group :=
  { demoGroup (fun _ => 0) with paths := (Vector.replicate 16 none).set 0 (some spoiltPath), rpoison := [(1, 1)] }

/-- Each exchange reads a poisoned lane of v1 from another. -/
theorem meets_LaneExchange_poison :
    let g := spoiltGroup
    let bad := fun (src : Nat → Option Nat) =>
      maskOf lanes64 fun l => bitOf spoiltPath.active l && (src l).any (bitOf ((tget g.rpoison (1#6).toNat).getD 0))
    Clear { rd := [1, 2], wr := [3] } (demoState g) g spoiltPath ∧ Clear { rd := [1], wr := [3] } (demoState g) g spoiltPath ∧
    (∀ u sh f, WithinBudget u 3 0 (demoState g) g spoiltPath sh f) ∧
    bad (fun l => some ((g.val 2 l).toNat % g.w)) ≠ 0 ∧
    (wellFormed (.xbfly 3 1 0 4) = true ∧ widthOk g.w (.xbfly 3 1 0 4) = true ∧ bad (fun l => some (l ^^^ 4)) ≠ 0) ∧
    (wellFormed (.xshift 3 1 0 0x3FC) = true ∧ bad (fun l => if 0 ≤ (l : Int) + (0x3FC#10).toInt ∧ (l : Int) + (0x3FC#10).toInt < g.w
      then some ((l : Int) + (0x3FC#10).toInt).toNat else none) ≠ 0) ∧
    (wellFormed (.xbcast 3 1 0 0) = true ∧ widthOk g.w (.xbcast 3 1 0 0) = true ∧ bad (fun _ => some 0) ≠ 0) :=
  ⟨clear_dec _ rfl (by decide +kernel), clear_dec _ rfl (by decide +kernel), fun _ _ _ => demo_budget _ _ _ _ _ _ _ _ (by decide),
    by decide +kernel, by decide +kernel, by decide +kernel, by decide +kernel⟩

/-- A value of each kind for the rows on infinities and NaNs, the formats that a conversion may have, and operands that scale. -/
theorem meets_ArithmeticRoundsTheExactResult :
    ((FV.nan true).isNan = true ∧ (FV.inf false).isNan = false ∧ (FV.inf true).isInf = true ∧ (FV.inf true).sign = true ∧ (FV.inf false).sign = false ∧
      (FV.fin true 1 0).isNan = false ∧ (FV.fin true 1 0).isInf = false ∧ (FV.fin true 0 0).isZero = true) ∧
    (∃ g, CT.kind .e4m3 = .flt g) ∧ (∃ w sg, CT.kind .s64 = .int w sg) ∧ ∃ w sg, CT.kind .s4 = .int w sg :=
  ⟨by decide, ⟨_, rfl⟩, ⟨_, _, rfl⟩, _, _, rfl⟩

/-- v1 counts up by 4 from 0 in each lane, v2 is 0: lane 0 divides 0 by 0, and the other lanes divide by zero. -/
def mixedGroup : Group := { (demoGroup fun _ => 0).setReg 1 ⟨.aff 0 4, 0x8888⟩ with fpinv := true }

/-- Rows of one, two and three operands with every lane invalid, and a row with some. -/
theorem meets_InvalidLanesTrap_rows :
    let bad := fun (f : Nat → Word × BitVec 5) => maskOf lanes64 fun l => bitOf demoPath.active l && (f l).2.getLsbD 0
    (let g := mixedGroup
     let f := fun l => ((fmtOf .f32).div .rne (valueOf .f32 (g.val 1 l)) (valueOf .f32 (g.val 2 l))).lane
     Clear { rd := [1, 2], wr := [3], lanewise := true } (demoState g) g demoPath ∧ g.fpinv = true ∧ demoPath.noinv = false ∧
       (∀ q sh f, WithinBudget { rd := [1, 2], wr := [3], lanewise := true } 3 0 (demoState g) g q sh f) ∧
       bad f ≠ 0 ∧ demoPath.active &&& ~~~bad f ≠ 0) ∧
    (let g := { demoGroup (fun _ => 0x7F800001) with fpinv := true }
     (∀ u : Use, u.beyond = false → Clear u (demoState g) g demoPath) ∧ g.fpinv = true ∧
       (∀ u q sh f, WithinBudget u 3 0 (demoState g) g q sh f) ∧
       bad (fun l => ((fmtOf .f32).sqrt .rne (valueOf .f32 (g.val 1 l))).lane) ≠ 0 ∧
       bad (fun l => ((fmtOf .f32).fma .rne (valueOf .f32 (g.val 1 l)) (valueOf .f32 (g.val 2 l)) (valueOf .f32 (g.val 3 l))).lane) ≠ 0 ∧
       bad (fun l => cvtFn false .rne .s64 .f32 (g.val 1 l)) ≠ 0 ∧
       bad (fun l => Bits.cmp .lt .f32 (g.val 1 l) (g.val 2 l)) ≠ 0 ∧ bad (fun l => Bits.pick true true .f32 (g.val 1 l) (g.val 2 l)) ≠ 0) := by
  refine ⟨⟨clear_dec _ rfl (by decide +kernel), rfl, rfl, fun _ _ _ => demo_budget _ _ _ _ _ _ _ _ (by decide), by decide +kernel, by decide +kernel⟩,
    fun u b => clear_of (v := fun _ => 0x7F800001) u rfl (by decide) rfl rfl rfl rfl rfl rfl b, rfl,
    fun _ _ _ _ => demo_budget _ _ _ _ _ _ _ _ (by decide), by decide +kernel, by decide +kernel, by decide +kernel, by decide +kernel, by decide +kernel⟩

/-! ### Hypotheses of single clauses: memory and control -/

/-- The three ways in which requests at an address fail: bits above 55, an address that is odd, and no mapping. -/
def Fails (need : Need) (n : Nat) (reqs : State → Group → List (Nat × Word)) (P : State → Group → Prop) (hi : Bool := true) : Prop :=
  let at_ := fun (s : State) (g : Group) => (reqs s g).map (·.2)
  let high := fun (va : Word) => decide (2 ^ 56 ≤ va.toNat)
  let odd := fun (va : Word) => va.toNat % n != 0
  let res := fun (s : State) (g : Group) (va : Word) => translate s (coreOf s.cur) g.ten demoPath.code.level need (va.toNat % 2 ^ 56)
  (hi = true → ∃ s g va, P s g ∧ (at_ s g).find? high = some va) ∧
  (1 < n → ∃ s g va, P s g ∧ (at_ s g).find? high = none ∧ (at_ s g).find? odd = some va) ∧
  ∃ s g va c, P s g ∧ (at_ s g).find? high = none ∧ (at_ s g).find? odd = none ∧ (at_ s g).find? (fun va => (res s g va).isFault) = some va ∧
    res s g va = .fault c

theorem fails_at {need : Need} {n : Nat} {reqs : State → Group → List (Nat × Word)} {P : State → Group → Prop} {hi : Bool} (S : Nat → State) (G : Nat → Group)
    (h : ∀ i, P (S i) (G i))
    (c : (let at_ := fun i => (reqs (S i) (G i)).map (·.2)
      let high := fun (va : Word) => decide (2 ^ 56 ≤ va.toNat)
      let odd := fun (va : Word) => va.toNat % n != 0
      (!hi || ((at_ 0).find? high).isSome) && (decide (n ≤ 1) || (((at_ 1).find? high).isNone && ((at_ 1).find? odd).isSome)) &&
        ((at_ 2).find? high).isNone && ((at_ 2).find? odd).isNone &&
        match (at_ 2).find? fun va => (translate (S 2) (coreOf (S 2).cur) (G 2).ten demoPath.code.level need (va.toNat % 2 ^ 56)).isFault with
        | some va => (match translate (S 2) (coreOf (S 2).cur) (G 2).ten demoPath.code.level need (va.toNat % 2 ^ 56) with | .fault _ => true | _ => false)
        | none => false) = true) : Fails need n reqs P hi := by
  simp only [Bool.and_eq_true, Bool.or_eq_true, decide_eq_true_eq] at c
  obtain ⟨⟨⟨⟨c1, c2⟩, c3⟩, c4⟩, c5⟩ := c
  refine ⟨fun e => ?_, fun hn => ?_, ?_⟩
  · obtain ⟨a, ha⟩ := Option.isSome_iff_exists.1 (c1.resolve_left (by simp [e]))
    exact ⟨S 0, G 0, a, h 0, ha⟩
  · obtain ⟨d, e⟩ := c2.resolve_left (by omega)
    obtain ⟨b, hb⟩ := Option.isSome_iff_exists.1 e
    exact ⟨S 1, G 1, b, h 1, Option.isNone_iff_eq_none.1 d, hb⟩
  · split at c5
    · next va hva =>
      split at c5
      · next x hx => exact ⟨S 2, G 2, va, x, h 2, Option.isNone_iff_eq_none.1 c3, Option.isNone_iff_eq_none.1 c4, hva, hx⟩
      · cases c5
    · cases c5

/-- Addresses in every register that fail in their own way. -/
def badVa : Nat → Nat → Word := fun i _ => [0x100000000000000, 0x10001, 0x30000].getD i 0x30000

/-- Stores and atomics of every lane, the gang's own accesses, both ends of a register image, and a waitv. -/
theorem meets_AccessChecksInOrder_forms :
    (∀ n ∈ [1, 2, 4, 8], Fails .write n (fun _ g => (activeList demoPath).map fun l => (l, g.val 2 l + BitVec.ofNat 64 (0 * n)))
      fun s g => Clear { rd := [1, 2] } s g demoPath) ∧
    (∀ n ∈ [4, 8], Fails .atomic n (fun _ g => (activeList demoPath).map fun l => (l, g.val 1 l)) fun s g =>
      Clear { rd := [1, 2], wr := [3], len := 2 } s g demoPath ∧ Clear { rd := [1, 2, 4], wr := [3], len := 2 } s g demoPath ∧
        Clear { rd := [1, 2], len := 2 } s g demoPath ∧ ∀ u sh f, WithinBudget u 3 0 s g demoPath sh f) ∧
    Fails .read 8 (fun _ g => [(0, uniAt g demoPath 1 + BitVec.ofNat 64 (0 * 8))]) (fun s g => Clear { rd := [1], uni := [1], wr := [3] } s g demoPath ∧
      demoPath.active ≠ 0 ∧ ∀ u sh f, WithinBudget u 3 0 s g demoPath sh f) ∧
    Fails .atomic 8 (fun _ g => [(0, uniAt g demoPath 1)]) (fun s g => Clear { rd := [1], uni := [1] } s g demoPath ∧ demoPath.active ≠ 0) ∧
    Fails .write 8 (fun _ g => (List.range (((g.reg 3).image g.w 3).length / 8)).map fun i =>
        (0, g.val 1 ((activeList demoPath).headD 0) + BitVec.ofNat 64 (8 * i)))
      (fun s g => Clear { rd := [], uni := [1], wr := [3, 1] } s g demoPath ∧ (tget g.rpoison 3).getD 0 = 0 ∧ (tget g.rpoison 1).getD 0 &&& demoPath.active = 0) ∧
    Fails .read 8 (fun _ g => (List.range (imageSize 3 g.w / 8)).map fun i => (0, uniAt g demoPath 1 + BitVec.ofNat 64 (8 * i)))
      (fun s g => Clear { rd := [1], uni := [1], wr := [3] } s g demoPath ∧ imageTag s s.cur g demoPath (uniAt g demoPath 1) = (s, some 3)) ∧
    ∀ n ∈ [4, 8], Fails .read n (fun _ g => (activeList demoPath).map fun l => (l, g.val 1 l)) fun s g =>
      Clear { rd := [1, 2], len := 2 } s g demoPath ∧ demoPath.park = none ∧ (activeList demoPath).all (fun l => decide (l < g.w)) = true := by
  have b : ∀ s i u sh f, WithinBudget u 3 0 s (demoGroup (badVa i)) demoPath sh f := fun _ _ _ _ _ => demo_budget _ _ _ _ _ _ _ _ (by show 4096 ≤ 5000; decide)
  refine ⟨fun n hn => fails_at (fun i => demo (badVa i)) (fun i => demoGroup (badVa i)) (fun i => demo_clear _ _ rfl) ?_,
    fun n hn => fails_at (fun i => demo (badVa i)) (fun i => demoGroup (badVa i)) (fun i => ⟨demo_clear _ _ rfl, demo_clear _ _ rfl, demo_clear _ _ rfl, b _ i⟩) ?_,
    fails_at (fun i => demo (badVa i)) (fun i => demoGroup (badVa i)) (fun i => ⟨demo_clear _ _ rfl, by decide, b _ i⟩) (by decide +kernel), fails_at (fun i => demo (badVa i)) (fun i => demoGroup (badVa i)) (fun i => ⟨demo_clear _ _ rfl, by decide⟩) (by decide +kernel),
    fails_at (fun i => demo (badVa i)) (fun i => demoGroup (badVa i)) (fun i => ⟨demo_clear _ _ rfl, rfl, by simp [demoGroup, tget]⟩) (by decide +kernel),
    fails_at (fun i => demo (badVa i)) (fun i => demoGroup (badVa i)) (fun i => ⟨demo_clear _ _ rfl, ?_⟩) (by decide +kernel),
    fun n hn => fails_at (fun i => demo (badVa i)) (fun i => demoGroup (badVa i)) (fun i => ⟨demo_clear _ _ rfl, rfl, ?_⟩) ?_⟩
  · revert hn n; decide +kernel
  · revert hn n; decide +kernel
  · rcases i with _ | _ | _ | i
    · exact Prod.ext rfl (by decide +kernel)
    · exact Prod.ext rfl (by decide +kernel)
    · exact Prod.ext rfl (by decide +kernel)
    · rw [show badVa (i + 1 + 1 + 1) = badVa 2 from rfl]
      exact Prod.ext rfl (by decide +kernel)
  · exact (by decide +kernel : (activeList demoPath).all (fun l => decide (l < 16)) = true)
  · revert hn n; decide +kernel
/-- A gang whose code lies elsewhere: at 0x30000 no entry is valid, at 0x50000 stage 2 maps nothing, and 0x60000 is on part 7. -/
def farPath (kb : Word) : Path := { demoPath with code := ⟨kb, 16, .supervisor⟩ }
def farGroup (kb : Word) : Group := { demoGroup (fun _ => 2) with paths := (Vector.replicate 16 none).set 0 (some (farPath kb)) }
def farTlb : TlbEntry := { seedTlb with base := 0x60000, wr := true, x := { Xlate.none with pa := 2 ^ 55 + 7 * 2 ^ 42 + hbmBase } }
def farState (kb : Word) : State := { demoState (farGroup kb) with tlb := farTlb :: demoTlb, routes := [(7, 1)] }

/-- A target beyond the kernel, one with no TGT, and the fetch's own faults. -/
theorem meets_BranchesTransfer_targets :
    (∀ kb u, u.beyond = false → Clear u (farState kb) (farGroup kb) (farPath kb)) ∧ (farPath 0).slices ≠ 0 ∧ (farPath 0x10000).code.klen ≤ 16 ∧ 2 < (farPath 0x10000).code.klen ∧
    ((farGroup 0).val 5 0).toNat = 2 ∧
    (∃ s1 w, fetchWord (farState 0x10000) 0 (farGroup 0x10000) (farPath 0x10000) 2 = (s1, .word w) ∧ w.getLsbD 3 = false) ∧
    (∃ s1, fetchWord (farState 0x30000) 0 (farGroup 0x30000) (farPath 0x30000) 2 = (s1, .fault 1)) ∧
    (∃ s1, fetchWord { farState 0x10000 with poison := [granule (hbmBase + 8)] } 0 (farGroup 0x10000) (farPath 0x10000) 2 = (s1, .poison)) ∧
    ∃ s1, fetchWord (farState 0x50000) 0 (farGroup 0x50000) (farPath 0x50000) 2 = (s1, .stage2) :=
  ⟨fun kb u b => clear_of (v := fun _ => 2) u rfl (by show Level.supervisor ≠ Level.user; decide) rfl rfl rfl rfl rfl rfl b, by decide, by decide, by decide, by decide +kernel,
    ⟨_, 0, Prod.ext rfl (by decide +kernel), by decide⟩, ⟨_, Prod.ext rfl (by decide +kernel)⟩, ⟨_, Prod.ext rfl (by decide +kernel)⟩, _, Prod.ext rfl (by decide +kernel)⟩

/-- The gang of the demo group holds its slices alone. -/
theorem meets_BranchesTransfer_apart : SlicesApart (codeGroup fun _ => 1) ∧ (codeGroup fun _ => 1).path 0 = some demoPath := by
  have only : ∀ i q, (codeGroup fun _ => 1).path i = some q → i = 0 ∧ q = demoPath := by
    intro i q h
    have e := List.all_eq_true.1 (by decide +kernel : ((List.range 16).all fun j => decide (j = 0) || ((codeGroup fun _ => 1).path j).isNone) = true) i
      (List.mem_range.2 (Group.path_lt _ i q h))
    rw [h] at e
    have z : i = 0 := by simpa using e
    subst z
    exact ⟨rfl, (Option.some.inj h).symm⟩
  refine ⟨⟨fun i q h => ?_, fun i j q r n hi hj => ?_⟩, rfl⟩
  · rw [(only i q h).2]
    decide
  · exact absurd ((only i q hi).1.trans (only j r hj).1.symm) n

/-- What was sent to other parts before a release: all of it answered, a write of the part itself that is not, and one of a group. -/
theorem meets_FencesWaitForOlderAccesses_settled :
    (∃ s g, Clear { rd := [] } s g demoPath ∧ Settled s s.serial .sys) ∧
    (∃ s g, Clear { rd := [] } s g demoPath ∧ ¬ Settled s s.serial .dom) ∧
    ∃ s g, Clear { rd := [] } s g demoPath ∧ SeenBefore g s.serial .dev ∧ ¬ Settled s s.serial .dom := by
  refine ⟨⟨demo fun _ => 0, demoGroup fun _ => 0, clear_none 1 rfl, fun _ => ⟨fun x hx o ho => ?_, fun r hr => by cases hr⟩⟩,
    ⟨{ demo fun _ => 0 with rwaits := [⟨.queue 5, 0, 4097, 2, none⟩] }, demoGroup fun _ => 0, clear_none 1 rfl, fun h => ?_⟩,
    { demo fun _ => 0 with groups := [(0, demoGroup fun _ => 0), (1, opGroup { accOp .store none with accs := [{ demoAcc with sent := some 2 }] })] }, demoGroup fun _ => 0,
    clear_none 1 rfl, ⟨fun o ho => (by cases ho), no_waitv (by decide +kernel)⟩, fun h => ?_⟩
  · rw [List.mem_singleton.1 hx] at ho
    cases ho
  · have := (h (by decide)).2 _ (List.mem_singleton.2 rfl) rfl (by decide)
    cases this
  · have := (h (by decide)).1 _ (List.mem_cons_of_mem _ (List.mem_singleton.2 rfl)) _ (List.mem_singleton.2 rfl) rfl rfl _ (List.mem_singleton.2 rfl) 2 rfl (by decide)
    cases this

/-- Code in another state: the word behind a return, of one word and of two, and each that cannot be read. -/
def backHandler (kb : Word) (t : TrapRec) : Handler := { demoHandler 0 with code := ⟨kb, 16, .supervisor⟩, trap := t }
def backGroup (kb : Word) (t : TrapRec) : Group := { demoGroup (fun _ => 7) with handler := some (backHandler kb t) }
def backState (kb : Word) (t : TrapRec) (code : Nat) (skip : Byte) : State :=
  { demoState (backGroup kb t) with
    mem := Memory.setMany [] (hbmBase + 4) (leBytes 4 code) ++ Memory.setMany frameMem (hbmBase + 0x8048) [skip], tlb := farTlb :: demoTlb, routes := [(7, 1)] }
def fetchedKind : Fetched → Nat
  | .word w => if opcLong (opcOf w.toNat) then 6 else 1
  | .fault _ => 2
  | .poison => 3
  | .stage2 => 4
  | .wait => 5

/-- The block of a handler reads as bs, and what lies behind the trap is of a kind. -/
def BlockReads (s : State) (g : Group) (h : Handler) (P : State → List Byte → Prop) : Prop :=
  ∃ y s1 bs, translate s (coreOf s.cur) g.ten .supervisor .read (h.fb.toNat % 2 ^ 56) = .ok y ∧
    syncRead s s.cur g.ten y (if (hereOf s y).isSome then 0x900 else 4096) false = (s1, some (bs, 0)) ∧ P s1 bs
def blockB (s : State) (g : Group) (h : Handler) (P : State → List Byte → Bool) : Bool :=
  match translate s (coreOf s.cur) g.ten .supervisor .read (h.fb.toNat % 2 ^ 56) with
  | .ok y => (match syncRead s s.cur g.ten y (if (hereOf s y).isSome then 0x900 else 4096) false with
    | (s1, some (bs, 0)) => P s1 bs
    | _ => false)
  | _ => false
theorem block_of {s : State} {g : Group} {h : Handler} {P : State → List Byte → Bool} {Q : State → List Byte → Prop}
    (c : blockB s g h P = true) (i : ∀ s1 bs, P s1 bs = true → Q s1 bs) : BlockReads s g h Q := by
  unfold blockB at c
  split at c
  · next y hy =>
    split at c
    · next s1 bs hs => exact ⟨y, s1, bs, hy, hs, i _ _ c⟩
    · cases c
  · cases c

def backCases : List (Nat × Nat × Nat) := [(0x10000, 0, 1), (0x10000, 0xF6310220, 6), (0x30000, 0, 2), (0x50000, 0, 4), (0x60000, 0, 5)]
def backTrap : TrapRec := { demoTrap 0x15 with next := true }
def imagesFine (w : Nat) (bs : List Byte) : Bool := (List.range 4).all fun r => (VReg.ofImage w ((bs.drop (0x80 + 0x220 * r)).take 0x220)).isSome

/-- A trap that names the instruction after it, a frame whose SKIP is set, and a trap of a unit; images that break R68. -/
theorem meets_TrapReturnRestores_behind :
    (∀ x ∈ backCases, ∃ s g h, Clear { rd := [] } s g demoPath ∧ g.handler = some h ∧ h.path = s.path ∧ g.ops = [] ∧ h.trap.hdrt = false ∧ h.trap.next = true ∧
      BlockReads s g h fun s1 bs => imagesFine g.w bs = true ∧
        fetchedKind (fetchVa s1 s.cur g.ten h.code.level (h.code.kbase + BitVec.ofNat 64 (4 * h.spot.offset))).2 = x.2.2) ∧
    (∀ hdrt : Bool, ∃ s g h, Clear { rd := [] } s g demoPath ∧ g.handler = some h ∧ h.path = s.path ∧ g.ops = [] ∧ h.trap.hdrt = hdrt ∧
      BlockReads s g h fun _ bs => field bs 0x48 8 % 2 = 1) ∧
    ∃ s g h, Clear { rd := [] } s g demoPath ∧ g.handler = some h ∧ h.path = s.path ∧ g.ops = [] ∧ BlockReads s g h fun _ bs => imagesFine g.w bs = false := by
  have a : ∀ x ∈ backCases, blockB (backState (BitVec.ofNat 64 x.1) backTrap x.2.1 0) (backGroup (BitVec.ofNat 64 x.1) backTrap) (backHandler (BitVec.ofNat 64 x.1) backTrap)
      (fun s1 bs => imagesFine 16 bs && fetchedKind (fetchVa s1 0 0 .supervisor (BitVec.ofNat 64 x.1 + 4)).2 == x.2.2) = true := by decide +kernel
  have b : ∀ hdrt : Bool, let t := { demoTrap 0x0C with hdrt := hdrt }
      blockB (backState 0x10000 t 0 1) (backGroup 0x10000 t) (backHandler 0x10000 t) (fun _ bs => field bs 0x48 8 % 2 == 1) = true := by decide +kernel
  have c : blockB { backState 0x10000 backTrap 0 0 with mem := [(hbmBase + 0x8082, 7)] } (backGroup 0x10000 backTrap) (backHandler 0x10000 backTrap)
      (fun _ bs => !imagesFine 16 bs) = true := by decide +kernel
  refine ⟨fun x hx => ⟨_, _, backHandler (BitVec.ofNat 64 x.1) backTrap, clear_none 1 rfl, rfl, rfl, rfl, rfl, rfl, block_of (a x hx) fun s1 bs h => ?_⟩,
    fun hdrt => ⟨_, _, backHandler 0x10000 { demoTrap 0x0C with hdrt := hdrt }, clear_none 1 rfl, rfl, rfl, rfl, rfl, block_of (b hdrt) fun s1 bs h => by simpa using h⟩,
    _, _, _, clear_none 1 rfl, rfl, rfl, rfl, block_of c fun s1 bs h => (by have e : imagesFine 16 bs = false := (by simpa using h); exact e)⟩
  simp only [Bool.and_eq_true, beq_iff_eq] at h
  exact h

/-- A view whose base and mode are given; the lanes' coordinates in every register. -/
def viewOf (base : Word) (mode : Nat) : OpenView := { demoView with desc := { demoView.desc with base := base, mode := mode } }
def basedGroup (v : Word) (base : Word) (mode : Nat) : Group :=
  { demoGroup (fun _ => v) with views := (Vector.replicate 16 none).set 9 (some (viewOf base mode)) }
theorem based_clear (u : Use) (v base : Word) (mode : Nat) (b : u.beyond = false) :
    Clear u (demoState (basedGroup v base mode)) (basedGroup v base mode) demoPath :=
  clear_of (v := fun _ => v) u rfl (by decide) rfl rfl rfl rfl rfl rfl b

/-- Both accesses through a view: a closed register, a mode that forbids it, coordinates outside, and addresses that fail. -/
theorem meets_AccessChecksInOrder_views :
    (∀ u : Use, u.beyond = false → ∀ (c : Word) (ov : Option OpenView), c = 0x10003 ∨ c = 0x10004 → ov = none ∨ (∃ m, m < 4 ∧ ov = some (viewOf 0x10000 m)) →
      ∃ s g, Clear u s g demoPath ∧ (∀ v sh f, WithinBudget v 3 0 s g demoPath sh f) ∧ demoPath.active ≠ 0 ∧ g.view 9 = ov ∧
        ∀ l ∈ activeList demoPath, g.val 1 l = c) ∧
    insideView demoView.desc 0x10003 ∧ ¬ insideView demoView.desc 0x10004 ∧ (∀ l < 64, bitOf 0xFFFF l = true ↔ bitOf demoPath.active l = true) ∧
    ∀ need ∈ [Need.read, .write], ∀ u : Use, u.beyond = false →
      Fails need 8 (fun _ g => (activeList demoPath).map fun l => (l, (g.view 9).elim 0 fun ov => elementVa ov.desc (g.val 1 l)))
        (fun s g => Clear u s g demoPath ∧ ∃ ov, g.view 9 = some ov ∧ ov.desc.mode = 3 ∧ ov.desc.esize = 3) false := by
  have val : ∀ c, c = 0x10003 ∨ c = 0x10004 → ((activeList demoPath).all fun l => decide ((demoGroup fun _ => c).val 1 l = c)) = true := by
    rintro c (rfl | rfl) <;> decide +kernel
  refine ⟨fun u b c ov hc ho => ?_, inside_demo _ (by decide), fun h => ?_, by decide, fun need hn u b =>
    fails_at (fun i => demoState (basedGroup 0x10003 (badVa i 0) 3)) (fun i => basedGroup 0x10003 (badVa i 0) 3)
      (fun i => ⟨based_clear u _ _ _ b, _, rfl, rfl, rfl⟩) ?_⟩
  · have bud : ∀ (s : State) (g : Group), g.budget = 5000 → ∀ v sh f, WithinBudget v 3 0 s g demoPath sh f :=
      fun s g e _ _ _ => demo_budget _ _ _ _ _ _ _ _ (by rw [e]; decide)
    rcases ho with rfl | ⟨m, -, rfl⟩
    · exact ⟨_, _, demo_clear u (fun _ => c) b, bud _ _ rfl, by decide, rfl, fun l hl => of_decide_eq_true (List.all_eq_true.1 (val c hc) l hl)⟩
    · exact ⟨_, _, based_clear u c 0x10000 m b, bud _ _ rfl, by decide, rfl, fun l hl => of_decide_eq_true (List.all_eq_true.1 (val c hc) l hl)⟩
  · have := h 0 (by decide)
    revert this
    decide
  · revert hn need
    decide +kernel

/-- A literal whose word no page maps, and one in a poisoned granule. -/
theorem meets_AccessChecksInOrder_literals :
    (∃ s g p s1 c, Clear { rd := [], wr := [3], len := 2 } s g p ∧ (∀ sh f, WithinBudget { rd := [], wr := [3], len := 2 } 3 0 s g p sh f) ∧
      (p.spot.offset : Int) + 1 + (2#32).toInt = 4 ∧ p.code.klen = 16 ∧ fetchWord s s.cur g p 4 = (s1, .fault c)) ∧
    ∃ s g p s1, Clear { rd := [], wr := [3], len := 2 } s g p ∧ (∀ sh f, WithinBudget { rd := [], wr := [3], len := 2 } 3 0 s g p sh f) ∧
      (p.spot.offset : Int) + 1 + (2#32).toInt = 4 ∧ p.code.klen = 16 ∧ fetchWord s s.cur g p 4 = (s1, .poison) := by
  have a : (fetchWord (farState 0x30000) 0 (farGroup 0x30000) (farPath 0x30000) 4).2 = .fault 1 := by decide +kernel
  have b : (fetchWord { demo (fun _ => 0) with poison := [hbmBase] } 0 (demoGroup fun _ => 0) demoPath 4).2 = .poison := by decide +kernel
  exact ⟨⟨farState 0x30000, farGroup 0x30000, farPath 0x30000, _, 1,
      clear_of (v := fun _ => 2) _ rfl (by decide) rfl rfl rfl rfl rfl rfl rfl,
      fun _ _ => demo_budget _ _ _ _ _ _ _ _ (by decide), by decide, rfl, Prod.ext rfl a⟩,
    ⟨{ demo (fun _ => 0) with poison := [hbmBase] }, demoGroup fun _ => 0, demoPath, _,
      clear_of (v := fun _ => 0) _ rfl (by decide) rfl rfl rfl rfl rfl rfl rfl,
      fun _ _ => demo_budget _ _ _ _ _ _ _ _ (by decide), by decide, rfl, Prod.ext rfl b⟩⟩

/-- A return of one slice, with the state after it. -/
def retB (s : State) (g : Group) (p : Path) (cause code : Nat) (va : Word) (x : Nat × Option Spot) : Option State :=
  let link := ((g.tlink[x.1]?).getD 0).toNat
  let hdr := link / 2 ^ 19 % 2 ^ 19
  let ret := link % 2 ^ 19
  let at_ := p.code.kbase + BitVec.ofNat 64 (4 * hdr)
  if link / 2 ^ 63 = 1 then
    match x.2, fetchWord s s.cur g p hdr with
    | some sp, (s1, .word h) =>
      if hdr < p.code.klen ∧ clauseOk h hdr p.code.klen = true ∧ ((hdr < ret ∧ ret ≤ hdr + hCount h ∧ sp = .inside hdr h ret) ∨ (ret = hdr + hCount h + 1 ∧ sp = .boundary ret))
      then some s1 else none
    | none, (s1, .word h) =>
      if p.code.klen ≤ hdr ∧ cause = 0x01 ∧ code = 0 ∧ va = 0 then some s
      else if hdr < p.code.klen ∧ code = 0 ∧ va = 0 ∧ ((clauseOk h hdr p.code.klen = false ∧ cause = 0x01) ∨
        (clauseOk h hdr p.code.klen = true ∧ ¬ (hdr < ret ∧ ret ≤ hdr + hCount h + 1) ∧ cause = 0x06)) then some s1 else none
    | none, (s1, .fault c) => if hdr < p.code.klen ∧ c = code ∧ cause = 0x0E ∧ va = at_ then some s1 else none
    | none, (s1, .poison) => if hdr < p.code.klen ∧ cause = 0x0F ∧ code = 0 ∧ va = at_ then some s1 else none
    | _, _ => none
  else none

theorem ret_of {s : State} {g : Group} {p : Path} {cause code : Nat} {va : Word} {x : Nat × Option Spot} {s1 : State}
    (h : retB s g p cause code va x = some s1) :
    (let y := ((g.tlink[x.1]?).getD 0).toNat
     y / 2 ^ 63 = 1 ∧ match x.2 with
      | some sp => ReturnsTo s g p (y / 2 ^ 19 % 2 ^ 19) (y % 2 ^ 19) s1 sp
      | none => ReturnFails s g p (y / 2 ^ 19 % 2 ^ 19) (y % 2 ^ 19) s1 cause code va) := by
  obtain ⟨sl, sp⟩ := x
  unfold retB at h
  simp only at h ⊢
  split at h
  · next e =>
    refine ⟨e, ?_⟩
    split at h
    · next s2 w hf =>
      split at h
      · next c => exact Option.some.inj h ▸ ⟨c.1, _, hf, c.2.1, c.2.2⟩
      · cases h
    · next s2 w hf =>
      split at h
      · next c => exact Or.inl ⟨c.1, (Option.some.inj h).symm, c.2.1, c.2.2.1, c.2.2.2⟩
      · split at h
        · next c => exact Option.some.inj h ▸ Or.inr ⟨c.1, Or.inr (Or.inr ⟨_, hf, c.2.1, c.2.2.1, c.2.2.2⟩)⟩
        · cases h
    · next c' hf =>
      split at h
      · next c => exact Option.some.inj h ▸ Or.inr ⟨c.1, Or.inl ⟨c.2.1 ▸ hf, c.2.2.1, c.2.2.2⟩⟩
      · cases h
    · next hf =>
      split at h
      · next c => exact Option.some.inj h ▸ Or.inr ⟨c.1, Or.inr (Or.inl ⟨hf, c.2.1, c.2.2.1, c.2.2.2⟩)⟩
      · cases h
    · cases h
  · cases h

def retsB (g : Group) (p : Path) (cause code : Nat) (va : Word) : List (Nat × Option Spot) → State → Option State
  | [], s => some s
  | x :: rest, s => (retB s g p cause code va x).bind (retsB g p cause code va rest)

theorem rets_of {g : Group} {p : Path} {cause code : Nat} {va : Word} : ∀ (l : List (Nat × Option Spot)) (s : State),
    (retsB g p cause code va l s).isSome = true → ∃ s1, ReturnsAll s g p cause code va l s1
  | [], s, _ => ⟨s, rfl⟩
  | x :: rest, s, h => by
    unfold retsB at h
    cases e : retB s g p cause code va x with
    | none => rw [e] at h; cases h
    | some s2 =>
      rw [e] at h
      obtain ⟨s1, h1⟩ := rets_of rest s2 h
      obtain ⟨sl, sp⟩ := x
      refine ⟨s1, s2, ?_, h1⟩
      have := ret_of e
      cases sp <;> exact this

/-- Two slices linked to the clause at 0 with the return at 1, and two by another link. -/
def partLinks (bad : Nat) : Vector Word 16 := Vector.ofFn fun i => if i.val < 2 then 0x8000000000000001 else BitVec.ofNat 64 (2 ^ 63 + bad)
def partGroup (bad : Nat) : Group := { demoGroup (fun _ => 7) with tlink := partLinks bad }

/-- An entry that names a word beyond the kernel, and one that names a word with TGT clear; returns of which all go back into their clause,
behind it, and returns of which some fail: a header beyond the kernel, an illegal one, a place outside the clause, and a word no page maps. -/
theorem meets_MarksCostsAndTrampolines_returns :
    (∀ x ∈ [(16, 2), (2, 1)], ∃ s g kd y pa bs, Clear { rd := [] } s g demoPath ∧ kdescOf s g = some kd ∧ kd.tbase ≠ 0 ∧ (0#25).toNat < kd.trampn ∧
      (∀ sl < 16, ((g.tlink[sl]?).getD 0).toNat / 2 ^ 63 ≠ 1) ∧ kd.tbase.toNat % 8 = 0 ∧
      translate s 0 g.ten .supervisor .read kd.tbase.toNat = .ok y ∧ hereOf s y = some pa ∧ lineAbsent s pa = false ∧
      (syncRead (tlbFill s 0 g.ten kd.tbase.toNat) 0 g.ten y 8 false).2 = some (bs, 0) ∧ field bs 0 4 = x.1 ∧
      (x.2 = 2 → demoPath.code.klen ≤ x.1) ∧
      (x.2 = 1 → ∃ w, (fetchWord (syncRead (tlbFill s 0 g.ten kd.tbase.toNat) 0 g.ten y 8 false).1 0 g demoPath x.1).2 = .word w ∧ w.getLsbD 3 = false)) ∧
    (∃ s g s1, Clear { rd := [] } s g demoPath ∧ ReturnsAll s g demoPath 0 0 0 ((List.range 4).map fun sl => (sl, some (.inside 0 0x20000018 1))) s1) ∧
    (∀ x ∈ [(16 * 2 ^ 19, 0x01), (2 * 2 ^ 19, 0x01), (9, 0x06)], ∃ s g s1, Clear { rd := [] } s g demoPath ∧
      (∀ sl < 4, (if sl < 2 then some (Spot.inside 0 0x20000018 1) else none) = none ↔ (g.tlink[sl]?).getD 0 &&& 0x8000003FFFFFFFFF = BitVec.ofNat 64 (2 ^ 63 + x.1)) ∧
      ReturnsAll s g demoPath x.2 0 0 ((List.range 4).map fun sl => (sl, if sl < 2 then some (.inside 0 0x20000018 1) else none)) s1) ∧
    ∃ s g p s1, Clear { rd := [] } s g p ∧ ReturnsAll s g p 0x0E 1 0x30000 ((List.range 4).map fun sl => (sl, none)) s1 := by
  have ret : ∀ x ∈ [(16 * 2 ^ 19, 0x01), (2 * 2 ^ 19, 0x01), (9, 0x06)], (retsB (partGroup x.1) demoPath x.2 0 0
      ((List.range 4).map fun sl => (sl, if sl < 2 then some (.inside 0 0x20000018 1) else none)) (trampState (partGroup x.1) 0)).isSome = true ∧
      ∀ sl < 4, (2 ≤ sl ↔ ((partGroup x.1).tlink[sl]?).getD 0 &&& 0x8000003FFFFFFFFF = BitVec.ofNat 64 (2 ^ 63 + x.1)) := by decide +kernel
  refine ⟨fun x hx => ⟨{ trampState (demoGroup fun _ => 7) 0x14000 with mem := [(hbmBase + 0x4000, BitVec.ofNat 8 x.1)] }, demoGroup fun _ => 7, _, pageAt 0x4000,
      hbmBase + 0x4000, [BitVec.ofNat 8 x.1, 0, 0, 0, 0, 0, 0, 0], clear_none 1 rfl, rfl, by decide, by decide, by decide +kernel, by decide, ?_,
      ?_, ?_, ?_, ?_, ?_, ?_⟩, ?_, fun x hx => ?_, ?_⟩
  · revert hx x; decide +kernel
  · revert hx x; decide +kernel
  · revert hx x; decide +kernel
  · revert hx x; decide +kernel
  · revert hx x; decide +kernel
  · revert hx x; decide +kernel
  · intro h
    refine ⟨0, ?_, by decide⟩
    revert h hx x; decide +kernel
  · obtain ⟨s1, h⟩ := rets_of (g := linkedGroup) (p := demoPath) (cause := 0) (code := 0) (va := 0)
      ((List.range 4).map fun sl => (sl, some (.inside 0 0x20000018 1))) (trampState linkedGroup 0) (by decide +kernel)
    exact ⟨_, linkedGroup, s1, clear_none 1 rfl, h⟩
  · obtain ⟨a, b⟩ := ret x hx
    obtain ⟨s1, h⟩ := rets_of _ _ a
    refine ⟨_, partGroup x.1, s1, clear_none 1 rfl, fun sl hs => ?_, h⟩
    rw [← b sl hs]
    by_cases c : sl < 2
    · simp [c]
    · simp [c]; omega
  · obtain ⟨s1, h⟩ := rets_of (g := { farGroup 0x30000 with tlink := Vector.replicate 16 0x8000000000000001 }) (p := farPath 0x30000) (cause := 0x0E) (code := 1) (va := 0x30000)
      ((List.range 4).map fun sl => (sl, none)) (demoState { farGroup 0x30000 with tlink := Vector.replicate 16 0x8000000000000001 }) (by decide +kernel)
    exact ⟨_, _, _, s1, clear_none 1 rfl, h⟩

/-- A group whose kernel names another group as its producer. -/
def otherState (g : Group) : State :=
  { demoState g with launches := [(1, { seedLaunch 0x10000 2 with kdesc := some { seedDesc 0x10000 with producer := 1, teamg := 2 } })] }

/-- Transfers of another group than the team's producer group. -/
theorem meets_CopiesAndCollectivesIssue_other :
    ∃ s g, (∀ u : Use, u.beyond = false → Clear u s g demoPath) ∧ (∃ kd, kdescOf s g = some kd ∧ kd.producer ≠ g.gid) ∧
      RecordRead s g demoPath (uniAt g demoPath 0) s g (rowRecs.getD 0 []) ∧ RecordRead s g demoPath (uniAt g demoPath 1) s g (rowRecs.getD 1 []) :=
  ⟨otherState copyGroup, copyGroup, fun u b => clear_of (v := recRegs) u rfl (by decide) rfl rfl rfl rfl rfl rfl b,
    ⟨_, rfl, by decide⟩, cached (by decide +kernel), cached (by decide +kernel)⟩

/-- Addresses that the TLB holds stay as they are. -/
theorem steady_of {s : State} {core ten : Nat} {lvl : Level} {vas : List Nat} (h : (vas.all fun v => (s.tlb.find? (tlbHit core ten v)).isSome) = true) :
    Steady s core ten lvl vas := by
  have fill : ∀ v ∈ vas, tlbFill s core ten v = s := fun v hv => by
    obtain ⟨y, hy⟩ := Option.isSome_iff_exists.1 (List.all_eq_true.1 h v hv)
    simp [tlbFill, hy]
  have all : ∀ l : List Nat, (∀ v ∈ l, v ∈ vas) → l.foldl (fun q v => tlbFill q core ten v) s = s := by
    intro l
    induction l with
    | nil => exact fun _ => rfl
    | cons v l ih =>
      intro hl
      rw [List.foldl_cons, fill v (hl v List.mem_cons_self)]
      exact ih fun x hx => hl x (List.mem_cons_of_mem _ hx)
  intro l hl need v _
  rw [all l hl]

def findsB (s : State) (ten : Nat) (lvl : Level) (need : Need) (va pa : Nat) : Bool :=
  decide (va < 2 ^ 56) && match translate s 0 ten lvl need va with
    | .ok x => hereOf s x == some pa && !x.cnt && !x.mp && !poisoned s pa 1 && x.leaf1.isNone && x.leaf2.isNone
    | _ => false
theorem finds_of {s : State} {k ten : Nat} {lvl : Level} {need : Need} {va pa : Nat} (c : coreOf k = 0) (h : findsB s ten lvl need va pa = true) :
    EngineFinds s k ten lvl need va pa ∧ ∀ x, translate s (coreOf k) ten lvl need va = .ok x → ∀ b, ¬ TouchesPte s x b := by
  unfold findsB at h
  simp only [Bool.and_eq_true, decide_eq_true_eq] at h
  obtain ⟨h1, h2⟩ := h
  split at h2
  · next x hx =>
    simp only [Bool.and_eq_true, beq_iff_eq, Bool.not_eq_true', Option.isNone_iff_eq_none] at h2
    obtain ⟨⟨⟨⟨⟨a, b⟩, d⟩, e⟩, f⟩, g⟩ := h2
    refine ⟨⟨h1, x, c ▸ hx, a, b, d, e⟩, fun y hy z t => ?_⟩
    rw [c, hx] at hy
    cases hy
    rcases t with ⟨u, hu, -⟩ | ⟨u, hu, -⟩
    · rw [f] at hu; cases hu
    · rw [g] at hu; cases hu
  · cases h2

def lastCopy (list : Option Word) : POp :=
  { copyOp with kind := .copy 0x10000 0x10040 (oneRec 0x10000) (.record (oneRec 0x10040)) list false .rne 0 [] }
/-- The bytes that the transfer of one element, by a list or without, touches; each lies 0x10000 below in HBM. -/
def copyVas : List Nat := [0x10000, 0x10001, 0x10002, 0x10003, 0x10040, 0x10041, 0x10042, 0x10043, 0x10080, 0x10081, 0x10082, 0x10083]

/-- The row list, if any. -/
def listOf (b : Bool) : Option Word := if b then some 0x10080 else none

/-- The last unit of a transfer, without a list and with one. -/
theorem meets_TransfersAndViewsComplete_last : ∀ b,
    CopyLast (demoState (opGroup (lastCopy (listOf b)))) 0 (opGroup (lastCopy (listOf b))) (lastCopy (listOf b)) (oneRec 0x10000) (.record (oneRec 0x10040)) (listOf b) false .rne
      ((copyBytes (oneRec 0x10000) (.record (oneRec 0x10040))).filter fun x => x.1 / 4096 == 16) (fun i => i) (fun va => hbmBase + (va - 0x10000))
      (fun va => hbmBase + (va - 0x10000)) copyVas := by
  intro b
  have tr : ∀ need ∈ [Need.read, .write, .atomic, .fetch], ∀ va ∈ copyVas,
      findsB (demoState (opGroup (lastCopy (listOf b)))) 0 .supervisor need va (hbmBase + (va - 0x10000)) = true := by revert b; decide +kernel
  have mem : ∀ x ∈ (copyBytes (oneRec 0x10000) (.record (oneRec 0x10040))).filter fun x => x.1 / 4096 == 16,
      x.1 ∈ copyVas ∧ x.1 < 0x20000 ∧ 0x10000 ≤ x.1 ∧ ∀ c ∈ destCoords (copyForm (oneRec 0x10000) (.record (oneRec 0x10040))) x.2, c.1 = 0 ∧
        (∀ va ∈ (oneRec 0x10000).elemBytes c.1 c.2, va ∈ copyVas) ∧ (∀ va ∈ listBytes 0x10080 c.1, va ∈ copyVas) := by decide +kernel
  refine { group := rfl, op := by simp [Group.op, opGroup, lastCopy], cls := rfl, waits := ⟨rfl, rfl⟩, turn := ?_, kind := ?_, grant := ?_, calm := ?_, apart := ?_,
           rows := fun x hx c hc => ?_, reads := fun x hx c hc va hv => ?_, puts := fun x hx => ?_, once := fun x hx y hy e => ?_, steady := ?_, spares := fun va hv need x h y hy => ?_ }
  · exact all_nil (by simp [olderOps, opGroup])
  · exact ⟨_, _, 0, _, 16, rfl, by decide +kernel, by decide +kernel, rfl⟩
  · revert b; decide +kernel
  · exact ⟨by revert b; decide +kernel, rfl⟩
  · revert b; decide +kernel
  · have := (mem x hx).2.2.2 c hc
    refine ⟨by rw [this.1]; decide, ?_⟩
    cases b
    · rfl
    · refine ⟨fun va hv => ?_, ?_⟩
      · have m := this.2.2 va hv
        exact ⟨(finds_of rfl (tr .read (by decide) va m)).1, m⟩
      · rw [this.1]
        decide +kernel
  · have m := ((mem x hx).2.2.2 c hc).2.1 va hv
    exact ⟨(finds_of rfl (tr .read (by decide) va m)).1, m⟩
  · exact ⟨(finds_of rfl (tr .write (by decide) _ (mem x hx).1)).1, (mem x hx).1⟩
  · have all : ∀ x ∈ (copyBytes (oneRec 0x10000) (.record (oneRec 0x10040))).filter fun x => x.1 / 4096 == 16,
        ∀ y ∈ (copyBytes (oneRec 0x10000) (.record (oneRec 0x10040))).filter fun x => x.1 / 4096 == 16, x.1 = y.1 → x = y := by decide +kernel
    have a := mem x hx
    have b := mem y hy
    exact all x hx y hy (by omega)
  · exact steady_of (by revert b; decide +kernel)
  · refine (finds_of rfl (tr need ?_ va hv)).2 x h _
    cases need <;> decide

/-! ### Hypotheses of single clauses: collectives, packets and services -/

/-- A rank of two that has not sent its call, while the other's call differs. -/
def clashOp : POp := { collOp with kind := .ccol .allgather ⟨5, 2, 0, 0⟩ (oneRec 0x10000) (oneRec 0x10040) 0 }
def unsentCall : Call := { demoCall false with nrank := 2, elems := [] }
def clashCall : Call := { unsentCall with rank := 1, o := .bcast }

/-- The same with the call of a rank that belongs to a saved team. -/
theorem meets_CollectivesAndReconstruction_clash :
    (∃ (s : State) (g : Group) (o : POp) (mine q : Call), tget s.groups 0 = some g ∧ g.op o.id = some o ∧ o.done = false ∧ o.halted = false ∧
      o.kind = .ccol .allgather ⟨5, 2, 0, 0⟩ (oneRec 0x10000) (oneRec 0x10040) 0 ∧ callAt s g.ten 5 0 0 = some mine ∧ callAt s g.ten 5 0 1 = some q ∧ 1 < 2 ∧
      callClash mine q = true ∧ mine.full = false ∧ mine.failed = false ∧ mine.nrank ≠ 1) ∧
    ∃ (s : State) (c : Call) (g : Group) (tm : Team), callAt s 0 5 0 0 = some c ∧ (0, tm) ∈ s.teams ∧ g ∈ tm.saved ∧ g.ten = 0 ∧ c.full = true ∧ c.failed = false ∧
      ∃ o ∈ g.ops, o.done = false ∧ ∃ co ds a b, o.kind = .ccol co ds a b 0 ∧ ds.cid = 5 ∧ ds.rank = 0 :=
  ⟨⟨{ demoState (opGroup clashOp) with calls := [unsentCall, clashCall] }, opGroup clashOp, clashOp, unsentCall, clashCall, rfl, by simp [Group.op, opGroup], rfl, rfl, rfl,
      rfl, rfl, by decide, by decide +kernel, by decide, rfl, by decide⟩,
    { collState false with groups := [], teams := [(0, { seedTeam 1 State.reset with saved := [opGroup collOp] })] }, demoCall false, opGroup collOp, _, rfl,
    List.mem_singleton.2 rfl, List.mem_singleton.2 rfl, rfl, by decide, rfl, collOp, List.mem_singleton.2 rfl, rfl, _, _, _, _, rfl, rfl, rfl⟩

/-- A queue of one flight that has not started, at index 2. -/
theorem turn_gen (s : State) (f : Flight) (type : Nat) (e : s.queues = [(5, demoQueue [f])]) (i : f.index = 2 ∧ f.rep = none ∧ f.started = false ∧ f.finished = false)
    (h : pType f.bytes = type ∧ pBar f.bytes = false) : Turn s 5 (demoQueue [f]) f type where
  queue := by rw [e]; rfl
  here := by
    have l : ((demoQueue [f]).flights.filter fun x => x.index = f.index && !x.finished) = [f] := by simp [demoQueue, i.2.2.2]
    unfold flightAt
    simp only [l, List.find?_cons]
    cases myTurn (demoQueue [f]) f <;> rfl
  kind := h.1
  turn := by simp [myTurn, demoQueue, h.2, i]
  once := by simp [demoQueue]
  calm := rfl
  free := by
    intro x hx _ hs
    rw [List.mem_singleton.1 hx] at hs
    rw [i.2.2.1] at hs
    cases hs

/-- A poll that is under way, with its reads answered and not; a slot whose read has to wait. -/
theorem meets_QueuesRunPackets_polls :
    (∀ wait : Bool, ∃ (s : State) (q : Queue), tget s.queues 5 = some q ∧ scanned s q = true ∧ q.due ≤ s.time ∧ q.polling = true ∧ q.flights = [] ∧ q.skips = [] ∧
      if wait then feGet s (.queue 5) q.ten .read q.desc.wra.toNat 8 = .wait
      else feGet s (.queue 5) q.ten .read q.desc.wra.toNat 8 = .ok (leBytes 8 0) ∧ 0 - q.rd ≤ q.size ∧ pollWaits s 5 q (pollSlots q 0) = []) ∧
    ∃ (s : State) (q : Queue), Due s q ∧ feGet s (.queue 5) q.ten .read q.desc.wra.toNat 8 = .ok (leBytes 8 3) ∧ 3 - q.rd ≤ q.size ∧
      pollWaits s 5 q (pollSlots q 3) ≠ [] := by
  let q : Queue := { demoQueue [] with polling := true }
  refine ⟨fun wait => ?_, { faultState (demoQueue []) 0x11000 with mem := [(hbmBase + 0x2000, 3)] }, demoQueue [], ⟨rfl, by decide +kernel, by decide, by decide, by decide⟩,
    by decide +kernel, by decide, by decide +kernel⟩
  cases wait
  · exact ⟨queueState q, q, rfl, by decide +kernel, by decide, rfl, rfl, rfl, by decide +kernel⟩
  · exact ⟨faultState q 0x12000, q, rfl, by decide +kernel, by decide, rfl, rfl, rfl, by decide +kernel⟩

/-- A packet of a type with REL sys. -/
def sysPkt (type : Nat) (l : List Byte) : Packet := leBytes 4 (0x6800 + type) ++ l ++ List.replicate (124 - l.length) 0
/-- A write of the part to another, made before and not acknowledged. -/
def owingState (q : Queue) : State := { queueState q with rwaits := [⟨.queue 5, 0, 4097, 2, none⟩] }
theorem owing_unsettled (q : Queue) (f : Flight) (r : pRel f.bytes = 6 ∧ f.relAt = none) : ¬ Released (owingState q) f := by
  rintro (h | h)
  · omega
  · have := (h (by decide)).2 _ (List.mem_singleton.2 rfl) rfl (by rw [r.2]; exact (by decide : 2 < 3))
    cases this
theorem idle_settled (q : Queue) (n : Nat) : Settled (queueState q) n .sys :=
  fun _ => ⟨fun x hx o ho => (by rw [List.mem_singleton.1 hx] at ho; cases ho), fun r hr => (by cases hr)⟩

/-- A barrier before the TIME of its next reading and one at it; a release that has still to wait, one that has nothing to wait for, and those
that reach no further than dev; a loop whose body holds a loop. -/
theorem meets_QueuesRunPackets_releases :
    (∀ due, due = 0 ∨ due = 1 → ∃ (s : State) (q : Queue) (f : Flight), Turn s 5 q f 2 ∧ headerOk f.bytes = true ∧ barrierFieldsOk f.bytes = true ∧ f.due = due ∧
      s.time = 0 ∧ Released s f) ∧
    (∃ (s : State) (q : Queue) (f : Flight), Turn s 5 q f 3 ∧ headerOk f.bytes = true ∧ signalFieldsOk f.bytes = true ∧ ¬ Released s f) ∧
    (∃ (s : State) (q : Queue) (f : Flight), Turn s 5 q f 3 ∧ headerOk f.bytes = true ∧ signalFieldsOk f.bytes = true ∧ pRel f.bytes = 6 ∧ Released s f) ∧
    (∀ p ∈ [barrierPkt 0 0, signalPkt, predicatePkt 0, loopPkt, pktOf 7 []], pRel p < 5) ∧
    ∃ (s : State) (q : Queue) (f : Flight), Turn s 5 q f 6 ∧ f.rep = none ∧ headerOk f.bytes = true ∧ loopFieldsOk f.bytes = true ∧ ∃ j ∈ loopBody f, bodyType q j = 6 := by
  let p := sysPkt 3 (leBytes 4 0 ++ leBytes 8 0x10100 ++ leBytes 8 1 ++ leBytes 8 5)
  let q : Queue := { demoQueue [flightOf loopPkt] with copies := [(1, loopPkt)] }
  have sys : pRel p = 6 := by decide
  refine ⟨fun due h => ?_, ⟨owingState (demoQueue [flightOf p]), _, flightOf p, turn_at _ _ _ rfl (by decide), by decide, by decide, owing_unsettled _ _ ⟨sys, rfl⟩⟩,
    ⟨queueState (demoQueue [flightOf p]), _, flightOf p, turn_at _ _ _ rfl (by decide), by decide, by decide, sys, Or.inr (idle_settled _ _)⟩, by decide,
    queueState q, q, flightOf loopPkt, ⟨rfl, by decide +kernel, by decide, by decide +kernel, by decide, rfl, fun x hx _ hs => ?_⟩, rfl, by decide, by decide, 1, by decide, by decide⟩
  · let f : Flight := { flightOf (barrierPkt 0 0) with due := due }
    have b : (pType (barrierPkt 0 0) = 2 ∧ pBar (barrierPkt 0 0) = false) ∧ headerOk (barrierPkt 0 0) = true ∧ barrierFieldsOk (barrierPkt 0 0) = true ∧
        pRel (barrierPkt 0 0) < 5 := by decide
    exact ⟨queueState (demoQueue [f]), _, f, turn_gen _ f 2 rfl ⟨rfl, rfl, rfl, rfl⟩ b.1, b.2.1, b.2.2.1, rfl, rfl, Or.inl b.2.2.2⟩
  · rw [List.mem_singleton.1 hx] at hs
    cases hs

/-- A launch that has completed and whose signal is still to be decremented; one whose tree still has writes on other parts; and one whose
signal, and one whose release, has to wait. -/
theorem meets_QueuesRunStartedPackets_endings :
    (∀ code ∈ [0, 9], ∃ (s : State) (q : Queue) (f : Flight), tget s.queues 5 = some q ∧ f ∈ q.flights ∧ f.started = true ∧ f.finished = false ∧ f.ending = some code ∧
      (∀ x ∈ q.flights, x.index = f.index → x.finished = false → x = f) ∧ q.restart = [] ∧ (q.flights.map fun x => (x.index, x.rep)).Nodup ∧ Released s f ∧
      pSignal f.bytes = 0x10300 ∧ signalWaits s (askerOf 5 f) q.ten (pSignal f.bytes) = false) ∧
    ∀ kind < 3, ∃ (s : State) (q : Queue) (f : Flight) (l : Launch) (tr : Tree), tget s.queues 5 = some q ∧ f ∈ q.flights ∧ f.started = true ∧ f.finished = false ∧ f.launch = some 1 ∧
      (∀ x ∈ q.flights, x.index = f.index → x.finished = false → x = f) ∧ tget s.launches 1 = some l ∧ f.ending = none ∧ tget s.trees l.tree = some tr ∧ q.restart = [] ∧
      (q.flights.map fun x => (x.index, x.rep)).Nodup ∧ twf s.trees = true ∧ tr.counter = 0 ∧
      ((kind = 0 → ∃ x ∈ s.launches, x.2.tree = l.tree ∧ unacked s (.launch x.1) = true) ∧
       (kind = 1 → pSignal f.bytes ≠ 0 ∧ signalWaits s (askerOf 5 f) q.ten (pSignal f.bytes) = true) ∧
       (kind = 2 → ¬ Released s f)) := by
  let p (rel sig : Nat) : Packet := leBytes 4 (rel * 4096 + 0x801) ++ leBytes 4 0 ++ leBytes 8 0x10000 ++ leBytes 8 0 ++ leBytes 4 1 ++ leBytes 4 1 ++ leBytes 4 1 ++
    List.replicate 4 0 ++ leBytes 8 sig ++ List.replicate 80 0
  let f (rel sig : Nat) (e : Option Nat) : Flight := { flightOf (p rel sig) with started := true, launch := some 1, ending := e }
  have b : pRel (p 4 0x10300) < 5 ∧ pSignal (p 4 0x10300) = 0x10300 := by decide
  have c : ∀ code ∈ [0, 9], signalWaits (queueState (demoQueue [f 4 0x10300 (some code)])) (askerOf 5 (f 4 0x10300 (some code))) 0 (pSignal (p 4 0x10300)) = false := by
    decide +kernel
  refine ⟨fun code hc => ⟨queueState (demoQueue [f 4 0x10300 (some code)]), _, _, rfl, List.mem_singleton.2 rfl, rfl, rfl, rfl, fun x hx _ _ => List.mem_singleton.1 hx, rfl,
    by simp [demoQueue], Or.inl b.1, b.2, c code hc⟩, fun kind hk => ?_⟩
  let q := demoQueue [f 6 0x30300 none]
  let s : State := { faultState q 0x30300 with
    trees := [(2, ⟨1, 0, 0⟩)], rwaits := [⟨.queue 5, 0, 4097, 2, none⟩, ⟨.launch 1, 0, 4097, 2, none⟩] }
  have un : unacked s (.launch 1) = true := by decide +kernel
  refine ⟨s, q, _, _, _, rfl, List.mem_singleton.2 rfl, rfl, rfl, rfl, fun x hx _ _ => List.mem_singleton.1 hx, rfl, rfl, rfl, rfl, by simp [q, demoQueue], rfl, rfl,
    fun _ => ⟨_, List.mem_singleton.2 rfl, rfl, un⟩, fun _ => ⟨by decide, by decide +kernel⟩, fun _ => ?_⟩
  rintro (h | h)
  · exact absurd h (by decide)
  · have := (h (by decide)).2 _ (List.mem_cons_self) rfl (by decide)
    cases this

/-- A tick past its own effective TIME. -/
theorem meets_PowerFollowsTheRate_late : ∃ s : State, ((applyRate s).wb.tick + 1) * 1000 + 250 ≤ s.time := ⟨{ State.reset with time := 1250 }, by decide⟩

/-- Restarts that write: what they clear is acknowledged and their words can be written, whether or not the bytes have been cleared; a queue that was killed
and whose tenancy has its key again; and one whose tenancy is being reset. -/
theorem meets_IsolationAndServices_restarts :
    (∀ cleared : Bool, ∀ n ∈ [1, 2], ∃ (s : State) (q : Queue), tget s.queues 5 = some q ∧ q.cleared = cleared ∧ feGet s (.queue 5) q.ten .read q.desc.wra.toNat 8 = .ok (leBytes 8 3) ∧
      let s1 := feDone (feTouch s q.ten q.desc.wra.toNat 8) (.queue 5)
      let s2 := if q.cleared = true then s1 else clearTypes s1 5 q n
      restartWaits s1 q n = [] ∧ unacked s2 (.queue 5) = false ∧ feWriteWaits s2 q.ten q.desc.rda.toNat = false) ∧
    (∃ (s : State) (q : Queue), Heard s demoMgmt ∧ tget s.queues 5 = some q ∧ q.halted = some 0x0A ∧ (tcbOf s q.ten).keyok = true ∧ resetting s q.ten = false ∧
      q.flights = [] ∧ q.restart = [] ∧ q.rd = q.nstart) ∧
    ∃ (s : State) (q : Queue), Heard s demoMgmt ∧ tget s.queues 5 = some q ∧ q.halted = some 0x0A ∧ resetting s q.ten = true ∧ ∀ r ∈ q.restart, r.1 ≠ demoMgmt := by
  let q (c : Bool) : Queue := { haltedQueue 1 with cleared := c }
  have h : ∀ c : Bool, ∀ n ∈ [1, 2], feGet { wrState 1 with queues := [(5, q c)] } (.queue 5) 0 .read 0x12000 8 = .ok (leBytes 8 3) ∧
      (let s1 := feDone (feTouch { wrState 1 with queues := [(5, q c)] } 0 0x12000 8) (.queue 5)
       let s2 := if c = true then s1 else clearTypes s1 5 (q c) n
       restartWaits s1 (q c) n = [] ∧ unacked s2 (.queue 5) = false ∧ feWriteWaits s2 0 0x12008 = false) := by decide +kernel
  exact ⟨fun c n hn => ⟨{ wrState 1 with queues := [(5, q c)] }, q c, rfl, rfl, (h c n hn).1, (h c n hn).2⟩,
    ⟨wrState 0x0A, haltedQueue 0x0A, heard_at _ (by decide), rfl, rfl, by decide +kernel, by decide, rfl, rfl, rfl⟩,
    { wrState 0x0A with resets := [(0, false)] }, haltedQueue 0x0A, heard_at _ (by decide), rfl, rfl, by decide, all_nil rfl⟩

/-- A tenancy that can be reset at once, by the service and by the part; a gang that waits at a stage-2 fault and is held for a saving; a page
that may move because of its gain, and one because its channel leaves. -/
theorem meets_IsolationAndServices_resets :
    (∀ (ten : Nat), ten = 0 ∨ ten = 31 → ∀ svc : Bool, ∃ s : State, Heard s demoMgmt ∧ twf s.queues = true ∧ resetting s ten = false ∧ signalsLeft (beginReset s ten svc) ten = false) ∧
    (∃ (s : State) (g : Group) (p : Path), tget s.groups 0 = some g ∧ (0, 0, (0x10000 : Word)) ∈ s.s2faults ∧ g.path 0 = some p ∧ p.park = some (.stage2 0x10000) ∧ p.latched = true) ∧
    (isLeaving tableState cellarBase = false ∧ isLeaving tableState (hbmBase + 0x100000) = false ∧ isRemote (hbmBase + 0x100000) = false) ∧
    (let s : State := { tableState with leaving := [(0, 0, 0)] };
      (stage2 s 0 0).map (·.pa) = some (hbmBase + 0x100000) ∧ isLeaving s (hbmBase + 0x100000) = true ∧ isLeaving s (cellarBase + 256 * GiB) = false ∧
        populated s (cellarBase + 256 * GiB) = true) := by
  have r : ∀ ten ∈ [0, 31], ∀ svc : Bool, signalsLeft (beginReset (poolState false) ten svc) ten = false := by decide +kernel
  let g : Group := { demoGroup (fun _ => 0) with paths := (Vector.replicate 16 none).set 0 (some { demoPath with park := some (.stage2 0x10000), latched := true }) }
  refine ⟨fun ten h svc => ⟨poolState false, heard_at _ (by decide), by decide, by rcases h with rfl | rfl <;> decide, r ten (by rcases h with rfl | rfl <;> decide) svc⟩,
    ⟨{ demoState g with s2faults := [(0, 0, 0x10000)] }, g, _, rfl, List.mem_singleton.2 rfl, rfl, rfl, rfl⟩, by decide +kernel, by decide +kernel⟩

/-- A channel of an empty stack and one of a stack with a page, no other on its way out; a row whose poison lies outside the error ring. -/
theorem meets_RecoveryAndBringUp_channels :
    (∀ src ∈ [1, 2], ∀ x ∈ [(7, 0x301F, true), (0, 0, false)], let e := errOf 1 src (64 + x.1) 0 (2 ^ 31 + x.2.1)
      let ch := bits e.synd.toNat 4 0
      let old := (tableState.caps.chans.getD x.1 0).toNat
      let mask := (BitVec.ofNat 32 old &&& ~~~(BitVec.ofNat 32 (2 ^ ch))).toNat
      let cap := min (bits e.synd.toNat 13 8) (bits old 63 32) * 2 ^ 32 + mask
      let s1 := quarantineChannel tableState x.1 ch (bits e.synd.toNat 13 8)
      bits old ch ch = 1 ∧ tableState.leaving = [] ∧ tableState.moves = [] ∧
        ((lostRanges tableState x.1 cap).all fun y => emptyRange s1 y.1 y.2) = x.2.2) ∧
    ∃ s : State, (scrubAt s 7).en = true ∧ s.poison = [0x4000] ∧ OutsideRing s 0x4000 ∧ granule 0x4000 = 0x4000 := by
  refine ⟨by decide +kernel, { ringState 0 0 with poison := [0x4000] }, by decide +kernel, rfl, ?_, by decide⟩
  show ∀ i < 256, _
  decide +kernel

/-- Messages at a port that is down, on a part that has stopped and on one with no image; malformed and unsealed ones at a port that is up; a response, a
notification and a chunk; a frozen tenancy's accesses; and one that is refused. -/
theorem meets_MessagesAreServed_arrivals :
    (∀ op ∈ [1, 2, 3, 4, 6, 7], ¬ Arrives State.reset (demoFrame op)) ∧
    (∀ op ∈ [1, 2, 3, 4, 6], Handled homeState (demoFrame op) op ∧ frameBad { demoFrame op with rsv := 1 } = true) ∧
    Handled homeState { demoFrame 7 with data := List.replicate 4096 0 } 7 ∧
    (∃ s t : State, s.stopped = true ∧ t.bootst = 3 ∧ Arrives s (demoFrame 1) ∧ Arrives t (demoFrame 1)) ∧
    (∀ f, f = some 0 ∨ f = none → Handled (stubState f []) stubFrame 2 ∧ ∀ op ∈ [1, 2, 3], Handled (stubState f []) (demoFrame op) op) ∧
    (∃ s, Handled s (demoFrame 1) 1 ∧ homeTen s (demoFrame 1) = none) ∧ (∃ s, Handled s (demoFrame 1) 1 ∧ readyAll s = false) ∧
    ∃ s f, Handled s f 1 ∧ populated s f.addr.toNat = false := by
  have up : ∀ (s : State) (f : Frame), s.ready = 0xFFFF3F → f.port = 15 → Arrives s f := by
    intro s f a b
    unfold Arrives
    rw [a, b]
    decide
  have fine : ∀ op ∈ [1, 2, 3, 4, 6], (frameBad (demoFrame op) = false ∧ (demoFrame op).auth = true ∧ (demoFrame op).op.toNat = op) ∧ frameBad { demoFrame op with rsv := 1 } = true := by
    decide +kernel
  refine ⟨fun op h => ?_, fun op h => ⟨⟨up _ _ rfl rfl, (fine op h).1, by decide⟩, (fine op h).2⟩, ⟨up _ _ rfl rfl, by decide +kernel, by decide⟩,
    ⟨{ homeState with stopped := true }, { homeState with bootst := 3 }, rfl, rfl, up _ _ rfl rfl, up _ _ rfl rfl⟩,
    fun f _ => ⟨⟨up _ _ rfl rfl, by decide +kernel, ⟨rfl, ?_⟩⟩, fun op h => ⟨up _ _ rfl rfl, (fine op ?_).1, ⟨rfl, ?_⟩⟩⟩,
    ⟨{ homeState with peers := [] }, ⟨up _ _ rfl rfl, (fine 1 (by decide)).1, by decide⟩, by decide +kernel⟩,
    ⟨{ homeState with ready := 0xFFFF03 }, ⟨?_, (fine 1 (by decide)).1, by decide⟩, by decide⟩,
    { homeState with caps := { demoCaps with stks := 0, chans := List.replicate 8 0 } }, { demoFrame 1 with addr := BitVec.ofNat 64 hbmBase }, ⟨up _ _ rfl rfl, by decide +kernel, by decide⟩, by decide +kernel⟩
  · unfold Arrives
    revert h op
    decide
  · exact (by decide : (0 : Nat) ≠ 3)
  · revert h op
    decide
  · exact (by decide : (0 : Nat) ≠ 3)
  · unfold Arrives
    decide

/-- Dumps of a team that is gone, of one that runs and of one that is saved; a stopped gang, also one that is held for a saving; notes of a part whose
ETH0 is up and down; a gang that issued in this cycle and one that did not. -/
theorem meets_ManagementAndObservation_commands :
    (∃ s : State, Heard s demoMgmt ∧ membersOf s 99 = []) ∧
    (∃ (s : State) (tm : Team), Heard s demoMgmt ∧ tget s.teams 0 = some tm ∧ membersOf s 0 ≠ [] ∧ s.dumps = [] ∧ tm.mode = .running) ∧
    (∃ (tm : Team) (l : Launch) (k : KDesc), Heard savedState demoMgmt ∧ tget savedState.teams 0 = some tm ∧ membersOf savedState 0 ≠ [] ∧ savedState.dumps = [] ∧ tm.mode = .saved 0 ∧
      tget savedState.launches tm.launch = some l ∧ l.kdesc = some k) ∧
    (∀ (st : Stop) (spot : Spot) (b : Bool), ∃ (s : State) (g : Group) (p : Path), Heard s demoMgmt ∧ tget s.groups (0 * 32 + 0) = some g ∧ g.path 0 = some p ∧ p.stop = st ∧ p.spot = spot ∧
      p.latched = b) ∧
    (∀ b : Bool, ∃ s : State, isEth0 s = b ∧ (s.notes.filter fun x => x.ten == 31) ≠ [] ∧ s.mgmtEp = some 5 ∧ (tcbOf s 31).nepa = 0 ∧ (tcbOf s 31).nepb = 0) ∧
    ∀ b : Bool, ∃ (s : State) (g : Group), (if b then tget g.tried 0 = some (0, s.clk) else tget g.tried 0 ≠ some (0, s.clk)) := by
  refine ⟨⟨demo fun _ => 0, heard_at _ (by decide), by decide +kernel⟩, ⟨demo fun _ => 0, seedTeam 1 State.reset, heard_at _ (by decide), rfl, by decide +kernel, rfl, rfl⟩,
    ⟨savedTeam, seedLaunch 0x10000 2, _, heard_at _ (by decide), rfl, by decide +kernel, rfl, rfl, rfl, rfl⟩, fun st spot b => ?_,
    fun b => ⟨{ State.reset with notes := [⟨1, 31, [], 0⟩], mgmtEp := some 5, ready := if b then 2 else 0 }, by cases b <;> decide, by cases b <;> decide, rfl, by cases b <;> decide +kernel, by cases b <;> decide +kernel⟩,
    fun b => ?_⟩
  · let p : Path := { demoPath with stop := st, spot := spot, latched := b }
    let g : Group := { demoGroup (fun _ => 0) with paths := (Vector.replicate 16 none).set 0 (some p) }
    exact ⟨demoState g, g, p, ⟨⟨(by decide : (bits (0x3F : BitVec 24).toNat 1 1 == 1) = true), (by decide : (0 : Nat) ≠ 3)⟩, by decide, rfl⟩, rfl, rfl, rfl, rfl, rfl⟩
  · cases b
    · exact ⟨State.reset, demoGroup fun _ => 0, by decide⟩
    · exact ⟨State.reset, { demoGroup (fun _ => 0) with tried := [(0, (0, 0))] }, rfl⟩

/-- Wherever the register window, which the spec leaves open, puts an image of register 5 of group 0, a stopped gang's group has it; and where no gang is
stopped nothing can be written through the window. -/
theorem meets_ManagementAndObservation_window :
    (∃ (s : State) (g : Group) (p : Path), tget s.groups 0 = some g ∧ 5 < g.allot ∧ 5 < 64 ∧ g.path 0 = some p ∧ p.stop = .stopped) ∧
    (∃ v, VReg.ofImage 16 ((⟨.uni 7, 0x8888⟩ : VReg).image 16 5) = some v) ∧
    ∃ s : State, Heard s demoMgmt ∧ inWindow 0x4000000000 = true ∧ addrFits 0x4000000000 (2 ^ Nat.log2 8) = true ∧
      ∀ bs, writeImage { s with mgmtEp := some (s.mgmtEp.getD demoMgmt.src) } 0x4000000000 bs = none := by
  refine ⟨⟨demoState (stoppedDemo .stopped (.boundary 0)), _, _, rfl, by decide, by decide, rfl, rfl⟩,
    Option.isSome_iff_exists.1 (by decide +kernel), { demo (fun _ => 0) with groups := [] }, heard_at _ (by decide), by decide, by decide, fun bs => ?_⟩
  unfold writeImage
  split
  · rfl
  · rfl
end Sys2Proof.Tests
end

section
/-! Family 04, registers: what the register instructions do to a group. The counts of R61, the special registers of R66 and R181 and
the allotment of R58 and R182. -/

namespace Sys2Proof.Registers
open Sys2Proof Sys2Proof.Machine

/-! ### The arms of `exec` -/

theorem exec_mfrom (d : KR) (a : VR) (s : State) : exec (.mfrom d a) s = execMfrom d a s := rfl
theorem exec_sel (d a b : VR) (cc : CC) (k : KR) (s : State) : exec (.sel d a b cc k) s = execSel d a b cc k s := rfl
theorem exec_rdsr (d : VR) (n : BitVec 6) (cc : CC) (s : State) : exec (.rdsr d n cc) s = execRdsr d n cc s := rfl
theorem exec_wrsr (a : VR) (n : BitVec 6) (s : State) : exec (.wrsr a n) s = execWrsr a n s := rfl
theorem exec_setratel (a : VR) (s : State) : exec (.setratel a) s = execSetratel a s := rfl
theorem exec_grow (n : BitVec 3) (s : State) : exec (.grow n) s = execGrow n s := rfl
theorem exec_shrink (n : BitVec 3) (s : State) : exec (.shrink n) s = execShrink n s := rfl

/-! ### Bits and slices -/

theorem ite_of_iff {α : Type} {p q : Prop} [Decidable p] [Decidable q] (h : p ↔ q) {x y : α} :
    (if p then x else y) = if q then x else y := ite_congr (propext h) (fun _ => rfl) fun _ => rfl


theorem bitOf_eq_getLsbD (m : BitVec 64) (n : Nat) : bitOf m n = m.getLsbD n := by
  rw [BitVec.getLsbD, Nat.testBit_eq_decide_div_mod_eq]
  rfl

/-- LIVE is bit 3 of a slice's nibble (R60). -/
theorem eight_le_nibble (x : BitVec 64) (k : Nat) : 8 ≤ nibble x k ↔ x.getLsbD (4 * k + 3) = true := by
  rw [BitVec.getLsbD, Nat.testBit_eq_decide_div_mod_eq, decide_eq_true_iff, Nat.pow_add, ← Nat.div_div_eq_div_mul, nibble]
  omega

theorem liveBits_getLsbD : ∀ i < 64, (0x8888888888888888 : BitVec 64).getLsbD i = decide (i % 4 = 3) := by decide

theorem liveBits_eq_zero (x : BitVec 64) : x &&& 0x8888888888888888 = 0 ↔ ∀ k < 16, nibble x k < 8 := by
  have bit : ∀ k < 16, (x &&& 0x8888888888888888).getLsbD (4 * k + 3) = decide (8 ≤ nibble x k) := by
    intro k hk
    rw [BitVec.getLsbD_and, liveBits_getLsbD _ (by omega), Bool.eq_iff_iff, decide_eq_true_iff, eight_le_nibble]
    simp
  constructor
  · intro h k hk
    have := bit k hk
    rw [h] at this
    simpa using this
  · intro h
    apply BitVec.eq_of_getLsbD_eq
    intro i hi
    by_cases e : i % 4 = 3
    · have := bit (i / 4) (by omega)
      rw [show 4 * (i / 4) + 3 = i by omega] at this
      rw [this, decide_eq_false (Nat.not_le.2 (h (i / 4) (by omega)))]
      exact BitVec.getLsbD_zero.symm
    · simp only [BitVec.getLsbD_and, liveBits_getLsbD i hi]; simp [e]

theorem lowBit_eq_find (n : Nat) : ∀ x : Nat, lowBit n x = ((List.range n).find? fun l => x / 2 ^ l % 2 == 1).getD n := by
  induction n with
  | zero => intro x; rfl
  | succ n ih =>
    intro x
    have tail : ((fun l => x / 2 ^ l % 2 == 1) ∘ Nat.succ) = fun l => x / 2 / 2 ^ l % 2 == 1 := by
      funext l
      simp [Nat.pow_succ', Nat.div_div_eq_div_mul]
    rw [List.range_succ_eq_map, List.find?_cons, List.find?_map, tail, lowBit, ih]
    by_cases h : x % 2 = 1
    · simp [h]
    · have head : (x / 2 ^ 0 % 2 == 1) = false := by simpa using h
      rw [if_neg h, head]
      cases (List.range n).find? fun l => x / 2 / 2 ^ l % 2 == 1 <;> exact Nat.add_comm _ _

/-- The lowest active lane is the head of the active lanes. -/
theorem lowBit_active (p : Path) (h : p.active ≠ 0) : lowBit 64 p.active.toNat = (activeList p).headD 0 := by
  rw [lowBit_eq_find, activeList, List.headD_eq_head?_getD, List.head?_filter]
  show ((List.range 64).find? (bitOf p.active)).getD 64 = _
  cases e : (List.range 64).find? (bitOf p.active) with
  | some l => rfl
  | none =>
    rw [List.find?_eq_none] at e
    refine absurd (BitVec.eq_of_getLsbD_eq fun i hi => ?_) h
    have := e i (List.mem_range.2 hi)
    rw [bitOf_eq_getLsbD] at this
    simpa using this

theorem lowVal_eq (g : Group) (p : Path) (r : VR) (h : p.active ≠ 0) : g.lowVal p r = g.val r ((activeList p).headD 0) := by
  rw [Group.lowVal, if_neg (by simpa using h), lowBit_active p h]

theorem mem_sliceList {p : Path} {k : Nat} : k ∈ p.sliceList ↔ k < 16 ∧ inSlices p.slices k = true := by
  simp [Path.sliceList]

/-! ### Counts (R60, R61) -/

theorem countDown_lt {n : Nat} (h : n < 16) : countDown n < 16 := by
  unfold countDown
  split
  · exact h
  · split <;> omega

/-- The nibbles that one read leaves (R61). -/
def readNibbles (nib : BitVec 64) (sl : BitVec 16) : BitVec 64 :=
  nibbles fun k => if inSlices sl k then countDown (nibble nib k) else nibble nib k

theorem release_eq (r : VReg) (sl : BitVec 16) :
    r.release sl = ⟨if readNibbles r.nib sl &&& 0x8888888888888888 = 0 then .dead else r.val, readNibbles r.nib sl⟩ := by
  have count : ∀ n, n < 9 → countDown n = n := fun n h => by rw [countDown, if_pos h]
  have body : (nibbles fun k => let n := nibble r.nib k
      if inSlices sl k && n ≥ 9 then (if n = 9 then 0 else n - 1) else n) = readNibbles r.nib sl := by
    refine congrArg nibbles (funext fun k => ?_)
    by_cases h : nibble r.nib k < 9
    · simp [count _ h, Nat.not_le.2 h]
    · simp [countDown, h, Nat.not_lt.1 h]
  unfold VReg.release
  simp only [body, beq_iff_eq]
  split <;> rfl

/-- One read counts a register down in the gang's slices and nowhere else. -/
theorem nibble_release (r : VReg) (sl : BitVec 16) {k : Nat} (hk : k < 16) :
    nibble (r.release sl).nib k = if inSlices sl k then countDown (nibble r.nib k) else nibble r.nib k := by
  rw [release_eq]
  refine nibble_nibbles _ (fun j => ?_) k hk
  have := nibble_lt r.nib j
  split
  · exact countDown_lt this
  · exact this

/-- A register that a read leaves LIVE nowhere is Dead. -/
theorem val_release (r : VReg) (sl : BitVec 16) :
    (r.release sl).val = if (List.range 16).any (fun k => decide (8 ≤ nibble (r.release sl).nib k)) then r.val else .dead := by
  have dead : (r.release sl).val = if (r.release sl).nib &&& 0x8888888888888888 = 0 then .dead else r.val := by rw [release_eq]
  have live : ((List.range 16).any fun k => decide (8 ≤ nibble (r.release sl).nib k)) = true ↔
      (r.release sl).nib &&& 0x8888888888888888 ≠ 0 := by
    rw [Ne, liveBits_eq_zero]
    simp
  rw [dead, ite_of_iff live, ite_not]

/-- The operand fields that name a register, where the first one does. -/
theorem fields_cons (r : VR) (t : List VR) : (r :: t).filter (· == r) = r :: t.filter (· == r) :=
  List.filter_cons_of_pos (p := (· == r)) (beq_self_eq_true r)

/-- R61: one decrement for each operand field that names the register. -/
theorem reg_release (sl : BitVec 16) (r : VR) (l : List VR) :
    ∀ g : Group, (g.release sl l).reg r = (l.filter (· == r)).foldl (fun v _ => v.release sl) (g.reg r) := by
  induction l with
  | nil => intro g; rfl
  | cons q t ih =>
    intro g
    rw [Group.release, ih, Group.reg_setReg]
    by_cases h : r = q
    · subst h
      rw [if_pos rfl, fields_cons, List.foldl_cons]
    · rw [if_neg h, List.filter_cons_of_neg (by simpa using Ne.symm h)]

theorem released_loud {p : Path} (g : Group) (u : Use) (hq : p.quiet = false) : released g p u = g.release p.slices u.rd := by
  simp [released, hq]

theorem released_counted {p : Path} (g : Group) (u : Use) (r : VR) (hq : p.quiet = false) :
    (released g p u).reg r = (u.rd.filter (· == r)).foldl (fun v _ => v.release p.slices) (g.reg r) := by
  rw [released_loud g u hq]
  exact reg_release _ _ _ _

theorem released_paths (g : Group) (p : Path) (u : Use) : (released g p u).paths = g.paths := by rw [released_only]
theorem released_wcount (g : Group) (p : Path) (u : Use) : (released g p u).wcount = g.wcount := by rw [released_only]

/-! ### O8: counts of mfrom and sel -/

/-- mfrom leaves of the registers what its one read leaves. -/
theorem mfrom_regs {s : State} {g : Group} {p : Path} (k : KR) (a : VR) (h : Clear { rd := [a] } s g p) :
    ∃ t g', exec (.mfrom k a) s = .next t ∧ tget t.groups s.cur = some g' ∧
      ∀ r, g'.reg r = (released g p { rd := [a] }).reg r := by
  obtain ⟨t, g', ht, ha, hg⟩ := finish_advanced
    (g1 := (released g p { rd := [a] }).writeMask p k (nonZeroLanes g p a)) (p := p) 1 h.gang (released_paths g p _) (released_wcount g p _)
  refine ⟨t, g', ?_, ha.here, fun r => ?_⟩
  · rw [exec_mfrom, execMfrom, maskOp, begin_clear h]
    exact ht
  · rw [hg]; rfl

/-- sel writes a general register, whatever its operands. -/
theorem sel_writes (d a b : VR) (cc : CC) (k : KR) :
    Writes (.sel d a b cc k) { rd := [a, b], wr := [d], lanewise := true } d cc (fun _ _ => none)
      fun g _ l => if bitOf (g.mask k) l then g.val a l else g.val b l :=
  writes_intro (fun s => exec_sel d a b cc k s) fun _ _ _ _ _ h => by cases h

/-- sel of a register with itself leaves of that register what its two reads leave. -/
theorem sel_self_regs {s : State} {g : Group} {p : Path} (k : KR) (d a : VR) (cc : CC)
    (h : Clear { rd := [a, a], wr := [d], lanewise := true } s g p) (hd : d ≠ a)
    (hb : WithinBudget { rd := [a, a], wr := [d], lanewise := true } d cc s g p none (g.val a)) :
    ∃ t g', exec (.sel d a a cc k) s = .next t ∧ tget t.groups s.cur = some g' ∧
      g'.reg a = (released g p { rd := [a, a], wr := [d], lanewise := true }).reg a := by
  have same : (fun l => if bitOf (g.mask k) l then g.val a l else g.val a l) = g.val a := funext fun l => ite_self _
  obtain ⟨t, g', ht, ha, -, hw⟩ := sel_writes d a a cc k s g p h rfl (by simpa only [same] using hb)
  exact ⟨t, g', ht, ha.here, hw.others a (Ne.symm hd)⟩

/-- Settles O8: the registers after mfrom and sel are those after their reads, and each read is one decrement. -/
theorem readsCountDown : Obligations.ReadsCountDown := by
  intro k d a cc s g p hq
  constructor
  · intro hc
    obtain ⟨t, g', ht, hg, hr⟩ := mfrom_regs k a hc
    have once : g'.reg a = (g.reg a).release p.slices := by
      rw [hr, released_counted g _ a hq, fields_cons, List.filter_nil, List.foldl_cons, List.foldl_nil]
    refine ⟨t, g', ht, hg, fun sl hsl => ?_, ?_, fun r hra => ?_⟩
    · rw [once, nibble_release _ _ hsl]
    · rw [once, val_release]
    · rw [hr, released_reg _ _ _ _ (by simpa using hra)]
  · intro hc hd hb
    obtain ⟨t, g', ht, hg, hr⟩ := sel_self_regs k d a cc hc hd hb
    have twice : g'.reg a = ((g.reg a).release p.slices).release p.slices := by
      rw [hr, released_counted g _ a hq, fields_cons, fields_cons,
        List.filter_nil, List.foldl_cons, List.foldl_cons, List.foldl_nil]
    refine ⟨t, g', ht, hg, fun sl hsl => ?_⟩
    rw [twice, nibble_release _ _ hsl, nibble_release _ _ hsl]
    split <;> rfl

/-! ### O30: rdsr (R66, R181) -/

/-- The registers of a group after a register result: the decrements of the reads, then the write. -/
theorem writeReg_reg (u : Use) (d : VR) (cc : CC) (pi : Nat) (g : Group) (p : Path) (sh : Option Shape) (f : Nat → Word) (r : VR) :
    ((released g p u).writeReg pi p d cc sh f).reg r =
      if r = d then ((released g p u).reg d).write g.w p.slices p.active (g.fullWrite pi p d) cc sh f
      else (released g p u).reg r := by
  have width : (released g p u).w = g.w := by rw [released_only]
  have full : (released g p u).fullWrite pi p d = g.fullWrite pi p d := by rw [released_only]; rfl
  rw [Group.writeReg, Group.reg_setReg, width, full]

theorem writeReg_only (u : Use) (d : VR) (cc : CC) (pi : Nat) (g : Group) (p : Path) (sh : Option Shape) (f : Nat → Word) :
    (released g p u).writeReg pi p d cc sh f = { g with regs := ((released g p u).writeReg pi p d cc sh f).regs } :=
  regs_trans (released_only g p u) rfl

/-- The marks that a write clears do not depend on the registers. -/
theorem clearPoison_of_regs {g a : Group} (h : a = { g with regs := a.regs }) (d : VR) (m : Mask) :
    (a.clearPoison d m).rpoison = (g.clearPoison d m).rpoison := by
  rw [h, Group.clearPoison, Group.clearPoison]
  cases tget g.rpoison d.toNat <;> rfl

/-- A slice set with a member is not empty. -/
theorem slices_ne_zero {sl : BitVec 16} {k : Nat} (h : inSlices sl k = true) : sl ≠ 0 := by
  rintro rfl
  simp [inSlices] at h

/-- A full write with a shape takes that shape. -/
theorem write_full (r : VReg) (w : Nat) {sl : BitVec 16} (m : Mask) (cc : CC) (x : Shape) (f : Nat → Word) (h : sl ≠ 0) :
    (r.write w sl m true cc (some x) f).val = x := VReg.write_val _ _ _ _ _ _ _ _ h

/-- Any other write gives a general register: the lanes written, and the others as a source reads them. -/
theorem write_general (r : VReg) (w : Nat) {sl : BitVec 16} (m : Mask) {full : Bool} (cc : CC) {sh : Option Shape} (f : Nat → Word)
    (h : sl ≠ 0) (hg : full = false ∨ sh = none) :
    (r.write w sl m full cc sh f).val = .gen ((List.range w).map fun i => if bitOf m i then f i else r.src i) := by
  rw [VReg.write_val _ _ _ _ _ _ _ _ h]
  rcases hg with rfl | rfl
  · rfl
  · cases full <;> rfl

/-- The lanes written hold the result, under the shape too where it agrees with the lanes. -/
theorem write_lane (r : VReg) {w : Nat} {sl : BitVec 16} {m : Mask} (full : Bool) (cc : CC) (sh : Option Shape) {f : Nat → Word}
    {l : Nat} (h : sl ≠ 0) (hl : l < w) (hm : bitOf m l = true) (hs : ∀ x, sh = some x → x.lane l = f l) :
    (r.write w sl m full cc sh f).val.lane l = f l := by
  rcases Bool.eq_false_or_eq_true full with e | e
  · subst e
    cases sh with
    | none => rw [write_general _ _ _ _ _ h (.inr rfl), Shape.lane_gen _ _ _ hl, if_pos hm]
    | some x => rw [write_full _ _ _ _ _ _ h, hs x rfl]
  · rw [write_general _ _ _ _ _ h (.inl e), Shape.lane_gen _ _ _ hl, if_pos hm]

/-- `Wrote` from the registers and the marks that a register result leaves. -/
theorem wrote_of_regs {u : Use} {d : VR} {cc : CC} {sh : Option Shape} {f : Nat → Word} {pi : Nat} {g g' : Group} {p : Path}
    (hr : ∀ r, g'.reg r = ((released g p u).writeReg pi p d cc sh f).reg r)
    (hm : g'.rpoison = (g.clearPoison d p.active).rpoison)
    (hs : ∀ x l, sh = some x → x.lane l = f l) : Wrote u d cc sh f pi g g' p := by
  have own : g'.reg d = ((released g p u).reg d).write g.w p.slices p.active (g.fullWrite pi p d) cc sh f := by
    rw [hr, writeReg_reg, if_pos rfl]
  refine ⟨fun r hrd => ?_, fun he => ?_, fun l _ hw hsl hbit => ⟨?_, ?_⟩, fun hne hf l hl hbit => ?_, fun hne k hk => ?_,
    fun hne hf x hx => ?_, fun hne hg => ?_, fun w r => ?_⟩
  · rw [hr, writeReg_reg, if_neg hrd]
  · rw [own, VReg.write_empty _ _ _ _ _ _ _ _ he]
  · rw [own, VReg.live, VReg.write_nibble _ _ _ _ _ _ _ _ (slices_ne_zero hsl) _ (by omega)]
    simp [hsl, hw]
  · rw [own, write_lane _ _ _ _ (slices_ne_zero hsl) (by omega) hbit fun x => hs x l]
  · rw [own, hf, write_general _ _ _ _ _ hne (.inl rfl), Shape.lane_gen _ _ _ hl, hbit, if_neg Bool.false_ne_true]
  · rw [own, VReg.write_nibble _ _ _ _ _ _ _ _ hne _ hk]
  · rw [own, hf, hx, write_full _ _ _ _ _ _ hne]
  · rw [own, write_general _ _ _ _ _ hne hg]; rfl
  · rw [hm, clearPoison_marks g d p.active w]

/-- A register result completes as `Writes` says, whatever part of the state it comes from. -/
theorem writeReg_completes {u : Use} {d : VR} {cc : CC} {s : State} {g : Group} {p : Path} {sh : Option Shape} {f : Nat → Word}
    (hc : Clear u s g p) (hb : WithinBudget u d cc s g p sh f) (hs : ∀ x l, sh = some x → x.lane l = f l) :
    ∃ t g', writeReg u d cc s g p sh f = .next t ∧ Advanced u.len s t g g' p ∧ SameButRegs g g' ∧
      Wrote u d cc sh f s.path g g' p := by
  have only := writeReg_only u d cc s.path g p sh f
  have marks := clearPoison_only ((released g p u).writeReg s.path p d cc sh f) d p.active
  have regs := clearPoison_reg ((released g p u).writeReg s.path p d cc sh f) d p.active
  obtain ⟨t, g', ht, ha, hg⟩ := finish_advanced (p := p) u.len hc.gang
    (g1 := ((released g p u).writeReg s.path p d cc sh f).clearPoison d p.active) (by rw [marks, only]) (by rw [marks, only])
  refine ⟨t, g', ?_, ha, ?_, wrote_of_regs (fun r => ?_) ?_ hs⟩
  · rw [writeReg_clear d cc sh f hc hb]; exact ht
  · rw [SameButRegs, hg, marks, only]
  · rw [← regs r, hg]; rfl
  · rw [hg]; exact clearPoison_of_regs only d p.active

/-- A row of rdsr: its value in each lane, and a shape that agrees with the lanes. -/
theorem rdsr_row (d : VR) (cc : CC) (n : BitVec 6) {sh : Word → Option Shape} {f : State → Group → Path → Nat → Word}
    (hv : ∀ s g p l, srValue s s.cur g p n.toNat l = f s g p l) (hn : ∀ v, srShape n.toNat v = sh v)
    (hs : ∀ s g p x l, sh (f s g p 0) = some x → x.lane l = f s g p l) :
    WritesAt (.rdsr d n cc) { rd := [], wr := [d] } d cc (fun s g p => sh (f s g p 0)) f := by
  intro s g p hc hb
  have lanes : srValue s s.cur g p n.toNat = f s g p := funext (hv s g p)
  rw [exec_rdsr, execRdsr, begin_clear hc, hn, lanes]
  exact writeReg_completes hc hb fun x l => hs s g p x l

/-- The lanes' own numbers are affine. -/
theorem rdsr_laneid (d : VR) (cc : CC) :
    WritesAt (.rdsr d 0x00 cc) { rd := [], wr := [d] } d cc (fun _ _ _ => some (.aff 0 1)) fun _ _ _ l => BitVec.ofNat 64 l :=
  rdsr_row d cc 0x00 (sh := fun _ => some (.aff 0 1)) (f := fun _ _ _ l => BitVec.ofNat 64 l) (fun _ _ _ _ => rfl)
    (fun _ => rfl) fun _ _ _ _ _ h => by cases h; simp [Shape.lane]

/-- A row of shape G. -/
theorem rdsr_gen (d : VR) (cc : CC) (n : BitVec 6) {f : State → Group → Path → Nat → Word}
    (hv : ∀ s g p l, srValue s s.cur g p n.toNat l = f s g p l := by exact fun _ _ _ _ => rfl)
    (hn : ∀ v, srShape n.toNat v = none := by exact fun _ => rfl) :
    WritesAt (.rdsr d n cc) { rd := [], wr := [d] } d cc (fun _ _ _ => none) f :=
  rdsr_row d cc n (sh := fun _ => none) (f := f) hv hn fun _ _ _ _ _ h => by cases h

/-- A row of shape U: one value for every lane. -/
theorem rdsr_uni (d : VR) (cc : CC) (n : BitVec 6) {v : State → Group → Path → Word}
    (hv : ∀ s g p l, srValue s s.cur g p n.toNat l = v s g p := by exact fun _ _ _ _ => rfl)
    (hn : ∀ v, srShape n.toNat v = some (.uni v) := by exact fun _ => rfl) :
    WritesAt (.rdsr d n cc) { rd := [], wr := [d] } d cc (fun s g p => some (.uni (v s g p))) fun s g p _ => v s g p :=
  rdsr_row d cc n (sh := fun w => some (.uni w)) (f := fun s g p _ => v s g p) hv hn fun _ _ _ _ _ h => by cases h; rfl

/-! The rows that look a value up, with 0 where there is none. -/

theorem rdsr_team (d : VR) (cc : CC) (n : BitVec 6) (f : Team → Nat)
    (hv : ∀ s g p l, srValue s s.cur g p n.toNat l = teamNat s g f := by exact fun _ _ _ _ => rfl)
    (hn : ∀ v, srShape n.toNat v = some (.uni v) := by exact fun _ => rfl) :
    let v := fun (s : State) (g : Group) (_ : Path) => (teamOf s g).elim 0 fun t => BitVec.ofNat 64 (f t)
    WritesAt (.rdsr d n cc) { rd := [], wr := [d] } d cc (fun s g p => some (.uni (v s g p))) fun s g p _ => v s g p :=
  rdsr_uni d cc n (fun s g p l => by rw [hv, teamNat]; cases teamOf s g <;> rfl) hn

theorem rdsr_point (d : VR) (cc : CC) (n : BitVec 6) (f : CovPoint → Nat)
    (hv : ∀ s g p l, srValue s s.cur g p n.toNat l = pointNat g l f := by exact fun _ _ _ _ => rfl)
    (hn : ∀ v, srShape n.toNat v = none := by exact fun _ => rfl) :
    WritesAt (.rdsr d n cc) { rd := [], wr := [d] } d cc (fun _ _ _ => none)
      fun _ g _ l => ((g.points[l]?).join).elim 0 fun c => BitVec.ofNat 64 (f c) :=
  rdsr_gen d cc n (fun s g p l => by rw [hv, pointNat]; cases (g.points[l]?).join <;> rfl) hn

theorem rdsr_peer (d : VR) (cc : CC) (n : BitVec 6) (r : Nat)
    (hv : ∀ s g p l, srValue s s.cur g p n.toNat l = peerBase s g r := by exact fun _ _ _ _ => rfl)
    (hn : ∀ v, srShape n.toNat v = some (.uni v) := by exact fun _ => rfl) :
    let v := fun (s : State) (g : Group) (_ : Path) => (teamOf s g).elim 0 fun t =>
      (s.teams.find? fun q => q.2.launch == t.launch && q.2.clu == t.clu && q.2.crank == r).elim 0 fun q =>
        Config.siloVa g.ten + BitVec.ofNat 64 q.2.win
    WritesAt (.rdsr d n cc) { rd := [], wr := [d] } d cc (fun s g p => some (.uni (v s g p))) fun s g p _ => v s g p := by
  refine rdsr_uni d cc n (fun s g p l => ?_) hn
  rw [hv, peerBase]
  cases teamOf s g with
  | none => rfl
  | some t =>
    simp only [Option.elim]
    cases s.teams.find? fun q => q.2.launch == t.launch && q.2.clu == t.clu && q.2.crank == r <;> rfl

theorem srValue_quad (s : State) (g : Group) (p : Path) (l : Nat) :
    srValue s s.cur g p 0x12 l = BitVec.ofNat 64 (s.cur / 512) := by
  rw [← Nat.div_div_eq_div_mul s.cur 32 16]; rfl

theorem srValue_op (s : State) (g : Group) (p : Path) (l : Nat) :
    srValue s s.cur g p 0x16 l = (s.cores[s.cur / 32]?).elim 0 fun c => BitVec.ofNat 64 c.op := by
  simp only [srValue, coreOf]
  cases s.cores[s.cur / 32]? <;> rfl

theorem srValue_tbase (s : State) (g : Group) (p : Path) (l : Nat) :
    srValue s s.cur g p 0x18 l = (kdescOf s g).elim 0 (·.tbase) := by
  simp only [srValue]
  cases kdescOf s g <;> rfl

theorem srValue_spb (s : State) (g : Group) (p : Path) (l : Nat) :
    srValue s s.cur g p 0x1A l = (teamOf s g).elim 0 (·.spb) := by
  simp only [srValue]
  cases teamOf s g <;> rfl

theorem srValue_window (s : State) (g : Group) (p : Path) (l : Nat) :
    srValue s s.cur g p 0x1B l = (teamOf s g).elim 0 fun t => Config.siloVa g.ten + BitVec.ofNat 64 t.win := by
  simp only [srValue]
  cases teamOf s g <;> rfl

theorem srValue_mstat (s : State) (g : Group) (p : Path) (l : Nat) : srValue s s.cur g p 0x1D l = g.mstat.setWidth 64 :=
  BitVec.ofNat_toNat 64 g.mstat

theorem srValue_fstat (s : State) (g : Group) (p : Path) (l : Nat) :
    srValue s s.cur g p 0x1E l = BitVec.ofNat 64 (g.fstat.toNat + 256 * g.fpinv.toNat) := by
  simp only [srValue, Group.fstatWord]
  cases g.fpinv <;> rfl

theorem srValue_level (s : State) (g : Group) (p : Path) (l : Nat) :
    srValue s s.cur g p 0x1F l = ((launchOf s g).bind (·.cov)).elim 0 fun c => BitVec.ofNat 64 c.level := by
  simp only [srValue]
  cases launchOf s g with
  | none => rfl
  | some x => simp only [Option.bind]; cases x.cov <;> rfl

/-- Settles O30: every row of R66 by its shape, in the order of the statement. -/
theorem specialRegistersRead : Obligations.SpecialRegistersRead := by
  intro d cc row u g_ nat team point peer
  exact ⟨⟨rdsr_laneid d cc, rdsr_gen d cc 0x01, rdsr_uni d cc 0x02, rdsr_team d cc 0x03 (·.index), rdsr_team d cc 0x04 (·.tx),
      rdsr_team d cc 0x05 (·.ty), rdsr_team d cc 0x06 (·.tz), rdsr_team d cc 0x07 (·.clu), rdsr_team d cc 0x08 (·.crank)⟩,
    ⟨rdsr_peer d cc 0x09 0, rdsr_peer d cc 0x0A 1, rdsr_peer d cc 0x0B 2, rdsr_peer d cc 0x0C 3⟩,
    ⟨rdsr_point d cc 0x0D (·.x), rdsr_point d cc 0x0E (·.y), rdsr_point d cc 0x0F (·.z),
      rdsr_point d cc 0x10 fun c => if c.audit then 1 else 0⟩,
    ⟨rdsr_uni d cc 0x11, rdsr_uni d cc 0x12 srValue_quad, rdsr_uni d cc 0x13, rdsr_uni d cc 0x14, rdsr_uni d cc 0x15,
      rdsr_uni d cc 0x16 srValue_op⟩,
    ⟨rdsr_uni d cc 0x17, rdsr_uni d cc 0x18 srValue_tbase, rdsr_gen d cc 0x19, rdsr_uni d cc 0x1A srValue_spb,
      rdsr_uni d cc 0x1B srValue_window⟩,
    rdsr_uni d cc 0x1C, rdsr_uni d cc 0x1D srValue_mstat, rdsr_uni d cc 0x1E srValue_fstat, rdsr_uni d cc 0x1F srValue_level,
    rdsr_uni d cc 0x20, rdsr_uni d cc 0x21, rdsr_uni d cc 0x22, rdsr_uni d cc 0x23⟩

/-! ### O31: wrsr and setratel (R66, R181, R186) -/

/-- An instruction whose checks are followed by a change of its own group's fields. -/
theorem sets_of_finish {i : Instr} {u : Use} {s : State} {g : Group} {p : Path} {h : Group → Group} {body : Group → Path → Result}
    (hx : exec i s = begin_ u s body) (hc : Clear u s g p) (hb : body g p = finish s (h (released g p u)) p u.len)
    (hp : (h (released g p u)).paths = (released g p u).paths := by rfl)
    (hw : (h (released g p u)).wcount = (released g p u).wcount := by rfl) : Sets i u s g p h := by
  rw [Sets, hx, begin_clear hc, hb]
  exact finish_advanced u.len hc.gang (hp.trans (released_paths g p u)) (hw.trans (released_wcount g p u))

theorem active_beq {p : Path} (h : p.active ≠ 0) : (p.active == 0) = false := by simpa using h

theorem clampRate_eq (t : Tcb) (x : Nat) :
    clampRate t x = BitVec.ofNat 32 (if x = 0 then 0 else max t.floor (min t.ceil x)) := by
  unfold clampRate; split <;> rfl

/-- R57: a uniform operand is its value in the gang's lowest slice. -/
theorem uval_eq {g : Group} (p : Path) {r : VR} (h : (g.reg r).val.isUni = true) : g.uval p r = uniAt g p r := by
  rw [Group.uval, uniAt, VReg.src, Nat.mul_div_cancel_left _ (by decide)]
  cases e : (g.reg r).val with
  | uni v => rfl
  | aff _ _ | gen _ | dead => rw [e] at h; cases h

/-- The lane whose value TLINK of a slice takes: its lowest active one. -/
def sliceLane (p : Path) (sl : Nat) : Option Nat := (activeList p).find? fun l => l / 4 == sl

/-- The lanes of a slice, in the order in which `writeTlink` looks for one. -/
theorem sliceLane_eq (p : Path) {sl : Nat} (h : sl < 16) :
    sliceLane p sl = ((List.range 4).find? fun i => bitOf p.active (4 * sl + i)).map fun i => 4 * sl + i := by
  have split64 : List.range 64 = List.range (4 * sl) ++
      ((List.range 4).map (fun x => 4 * sl + x) ++ (List.range (60 - 4 * sl)).map (fun x => 4 * sl + 4 + x)) := by
    rw [show 64 = 4 * sl + 4 + (60 - 4 * sl) by omega, List.range_add, List.range_add, List.append_assoc]
  have before : (List.range (4 * sl)).find? (fun l => decide (bitOf p.active l = true ∧ (l / 4 == sl) = true)) = none := by
    rw [List.find?_eq_none]
    intro l hl
    have := List.mem_range.1 hl
    simp only [beq_iff_eq, decide_eq_true_eq]
    omega
  have after : (List.range (60 - 4 * sl)).find?
      ((fun l => decide (bitOf p.active l = true ∧ (l / 4 == sl) = true)) ∘ fun x => 4 * sl + 4 + x) = none := by
    rw [List.find?_eq_none]
    intro x _
    simp only [Function.comp, beq_iff_eq, decide_eq_true_eq]
    omega
  have inside : (List.range 4).find? ((fun l => decide (bitOf p.active l = true ∧ (l / 4 == sl) = true)) ∘ fun x => 4 * sl + x) =
      (List.range 4).find? fun i => bitOf p.active (4 * sl + i) := by
    rw [← List.head?_filter, ← List.head?_filter]
    refine congrArg List.head? (List.filter_congr fun i hi => ?_)
    have own : (4 * sl + i) / 4 = sl := by have := List.mem_range.1 hi; omega
    simp [own]
  rw [sliceLane, activeList, List.find?_filter, split64, List.find?_append, List.find?_append, List.find?_map, List.find?_map,
    before, inside, after]
  simp

/-- One slice's TLINK takes the value of its lowest active lane, where it has one. -/
def tlinkStep (p : Path) (v : VR) (g : Group) (sl : Nat) : Group :=
  (sliceLane p sl).elim g fun l => if h : sl < 16 then { g with tlink := g.tlink.set sl (g.val v l &&& tlinkMask) h } else g

theorem writeTlink_eq (g : Group) (p : Path) (v : VR) : writeTlink g p v = p.sliceList.foldl (tlinkStep p v) g := by
  unfold writeTlink
  refine List.foldl_rel (r := Eq) rfl fun sl hsl h h' e => ?_
  subst e
  rw [tlinkStep, sliceLane_eq p (mem_sliceList.1 hsl).1]
  cases (List.range 4).find? fun i => bitOf p.active (4 * sl + i) <;> rfl

theorem tlinkStep_val (p : Path) (v : VR) (g : Group) (sl : Nat) : (tlinkStep p v g sl).val = g.val := by
  unfold tlinkStep
  cases sliceLane p sl with
  | none => rfl
  | some l => simp only [Option.elim]; split <;> rfl

theorem tlinkStep_get (p : Path) (v : VR) (g : Group) (sl : Nat) {k : Nat} (hk : k < 16) :
    (tlinkStep p v g sl).tlink[k]? =
      if k = sl then some ((sliceLane p k).elim ((g.tlink[k]?).getD 0) fun l => g.val v l &&& tlinkMask) else g.tlink[k]? := by
  have there : g.tlink[k]? = some ((g.tlink[k]?).getD 0) := by simp [hk]
  by_cases e : k = sl
  · subst e
    rw [if_pos rfl, tlinkStep]
    cases sliceLane p k with
    | none => exact there
    | some l => simp [hk]
  · rw [if_neg e, tlinkStep]
    cases sliceLane p sl with
    | none => rfl
    | some l =>
      simp only [Option.elim]
      split
      · next lt => exact Vector.getElem?_set_ne lt (Ne.symm e)
      · rfl

/-- TLINK after a write of the slices of a list. -/
theorem tlink_fold (p : Path) (v : VR) {k : Nat} (hk : k < 16) (l : List Nat) : ∀ g : Group,
    (l.foldl (tlinkStep p v) g).tlink[k]? =
      if k ∈ l then some ((sliceLane p k).elim ((g.tlink[k]?).getD 0) fun l => g.val v l &&& tlinkMask) else g.tlink[k]? := by
  induction l with
  | nil => intro g; rfl
  | cons sl t ih =>
    intro g
    rw [List.foldl_cons, ih, tlinkStep_val, tlinkStep_get p v g sl hk]
    by_cases e : k = sl
    · subst e
      cases sliceLane p k <;> simp
    · simp [e]

/-- R66: TLINK takes one value a slice of the gang. -/
theorem writeTlink_get (g : Group) (p : Path) (v : VR) {k : Nat} (hk : k < 16) :
    (writeTlink g p v).tlink[k]? = if inSlices p.slices k
      then some ((sliceLane p k).elim ((g.tlink[k]?).getD 0) fun l => g.val v l &&& tlinkMask) else g.tlink[k]? := by
  rw [writeTlink_eq, tlink_fold p v hk]
  exact ite_of_iff (by rw [mem_sliceList]; exact and_iff_right hk)

/-- wrsr with an active lane: what it does to its group, register by register. -/
theorem wrsr_sets {a : VR} {s : State} {g : Group} {p : Path} (h : p.active ≠ 0) :
    (Clear { rd := [a] } s g p →
      Sets (.wrsr a 0x15) { rd := [a] } s g p
        (fun q => { q with ratel := clampRate (tcbOf s g.ten) ((g.lowVal p a).toNat % 2 ^ 32) }) ∧
      Sets (.wrsr a 0x19) { rd := [a] } s g p (fun q => { q with tlink := (writeTlink g p a).tlink }) ∧
      Sets (.wrsr a 0x1D) { rd := [a] } s g p (fun q => { q with mstat := q.mstat &&& ~~~((g.lowVal p a).setWidth 3) }) ∧
      Sets (.wrsr a 0x1E) { rd := [a] } s g p (fun q => { q with fstat := q.fstat &&& ~~~((g.lowVal p a).setWidth 5) })) ∧
    (Clear { rd := [a], priv := true } s g p →
      Sets (.wrsr a 0x21) { rd := [a], priv := true } s g p (fun q => { q with tvec := g.lowVal p a })) := by
  have act := active_beq h
  refine ⟨fun hc => ⟨?_, ?_, ?_, ?_⟩, fun hc => ?_⟩ <;>
    exact sets_of_finish (exec_wrsr _ _ _) hc (by simp only [act]; rfl)

/-- wrsr with an empty EXEC only reads its operand. -/
theorem wrsr_idle {a : VR} {n : BitVec 6} {s : State} {g : Group} {p : Path} (hn : (n == 0x21) = false)
    (hc : Clear { rd := [a] } s g p) (h : p.active = 0) : Sets (.wrsr a n) { rd := [a] } s g p fun q => q := by
  have use : exec (.wrsr a n) s = begin_ { rd := [a], priv := n == 0x21 } s _ := exec_wrsr a n s
  rw [hn] at use
  exact sets_of_finish use hc (by simp only [h]; rfl)

/-- TVEC is written by supervisor code alone. -/
theorem wrsr_tvec_user {a : VR} {s : State} {g : Group} {p : Path} (hg : curGang s = some (g, p)) (hl : p.code.level = .user) :
    Traps (.wrsr a 0x21) s g p 0x04 := by
  rw [Traps, exec_wrsr, execWrsr, begin_, withGang_clear hg, hl]
  rfl

theorem setratel_sets {a : VR} {s : State} {g : Group} {p : Path} (hc : Clear { rd := [a], uni := [a] } s g p) (h : p.active ≠ 0) :
    Sets (.setratel a) { rd := [a], uni := [a] } s g p
      (fun q => { q with ratel := clampRate (tcbOf s g.ten) ((uniAt g p a).toNat % 2 ^ 32) }) := by
  have act := active_beq h
  rw [← uval_eq p (hc.uni a List.mem_cons_self)]
  exact sets_of_finish (exec_setratel a s) hc (by simp only [act]; rfl)

/-- Settles O31: wrsr register by register, at user level and with an empty EXEC, and setratel. -/
theorem specialRegistersWrite : Obligations.SpecialRegistersWrite := by
  intro a s g p u x clamp
  refine ⟨fun hc h => ?_, fun hc h => ?_, wrsr_tvec_user, fun n hn hc h => ?_, fun hc h => ?_⟩
  · obtain ⟨ratel, tlink, mstat, fstat⟩ := (wrsr_sets h).1 hc
    rw [clampRate_eq, lowVal_eq g p a h] at ratel
    rw [lowVal_eq g p a h] at mstat fstat
    exact ⟨ratel, mstat, fstat, _, tlink, fun sl hsl => writeTlink_get g p a hsl⟩
  · have tvec := (wrsr_sets h).2 hc
    rw [lowVal_eq g p a h] at tvec
    exact tvec
  · refine wrsr_idle ?_ hc h
    revert n
    decide
  · have ratel := setratel_sets hc h
    rw [clampRate_eq] at ratel
    exact ratel

/-! ### O32: the allotment (R58, R182) -/

theorem dropRegs_zero (g : Group) (lo : Nat) : dropRegs g lo (lo + 0) = g := by
  rw [dropRegs, Nat.add_zero, Nat.sub_self]; rfl

/-- Dropping registers one more at a time. -/
theorem dropRegs_succ (g : Group) (lo n : Nat) :
    dropRegs g lo (lo + (n + 1)) =
      (let g1 := dropRegs g lo (lo + n)
       if h : lo + n < 64 then { g1 with regs := g1.regs.set (lo + n) VReg.reset h, rpoison := tdel g1.rpoison (lo + n) } else g1) := by
  unfold dropRegs
  rw [Nat.add_sub_cancel_left, Nat.add_sub_cancel_left, List.range_succ, List.foldl_append]
  rfl

/-- Dropping registers changes registers and poison marks alone. -/
theorem dropRegs_only (g : Group) (lo n : Nat) :
    dropRegs g lo (lo + n) =
      { g with regs := (dropRegs g lo (lo + n)).regs, rpoison := (dropRegs g lo (lo + n)).rpoison } := by
  induction n with
  | zero => rw [dropRegs_zero]
  | succ n ih =>
    rw [dropRegs_succ]
    simp only
    split
    · conv => lhs; rw [ih]
    · exact ih

theorem dropRegs_reg (g : Group) (lo n : Nat) (r : VR) :
    (dropRegs g lo (lo + n)).reg r = if lo ≤ r.toNat ∧ r.toNat < lo + n then VReg.reset else g.reg r := by
  induction n with
  | zero => rw [if_neg (by omega), dropRegs_zero]
  | succ n ih =>
    have hr : r.toNat < 64 := r.isLt
    rw [dropRegs_succ]
    by_cases h : lo + n < 64
    · have dropped : ∀ (v : Vector VReg 64), (v.set (lo + n) VReg.reset h)[r.toNat]'hr =
          if lo + n = r.toNat then VReg.reset else v[r.toNat]'hr := fun v => Vector.getElem_set ..
      simp only [h, dif_pos]
      refine (dropped _).trans ?_
      by_cases e : lo + n = r.toNat
      · rw [if_pos e, if_pos (by omega)]
      · rw [if_neg e]
        exact ih.trans (ite_of_iff (by omega))
    · simp only [h, dif_neg, not_false_eq_true]
      exact ih.trans (ite_of_iff (by omega))

/-- An allotment that changes with the registers between the old and the new one dropped. -/
theorem allot_completes {s : State} {g : Group} {p : Path} (lo n a : Nat) (h : curGang s = some (g, p)) :
    ∃ t g', finish s { dropRegs g lo (lo + n) with allot := a } p 1 = .next t ∧ Advanced 1 s t g g' p ∧
      g' = { g with allot := a, regs := g'.regs, rpoison := g'.rpoison, paths := g'.paths, wcount := g'.wcount } ∧
      ∀ r : VR, g'.reg r = if lo ≤ r.toNat ∧ r.toNat < lo + n then ⟨.dead, 0⟩ else g.reg r := by
  have only := dropRegs_only g lo n
  obtain ⟨t, g', ht, ha, hg⟩ := finish_advanced (g1 := { dropRegs g lo (lo + n) with allot := a }) (p := p) 1 h
    (by rw [only]) (by rw [only])
  refine ⟨t, g', ht, ha, ?_, fun r => ?_⟩
  · rw [hg, only]
  · rw [hg]; exact dropRegs_reg g lo n r

theorem exec_grow_clear {s : State} {g : Group} {p : Path} (n : BitVec 3) (h : Clear { rd := [] } s g p) :
    exec (.grow n) s = if 64 < g.allot + 8 * n.toNat then trapWhole s g p cREGRANGE
      else finish s { dropRegs g g.allot (g.allot + 8 * n.toNat) with allot := g.allot + 8 * n.toNat } p 1 := by
  rw [exec_grow, execGrow, begin_clear h]

theorem exec_shrink_clear {s : State} {g : Group} {p : Path} (n : BitVec 3) (h : Clear { rd := [] } s g p) :
    exec (.shrink n) s = if g.allot < 8 * n.toNat + 8 then trapWhole s g p cREGRANGE
      else if (List.range (g.allot - (g.allot - 8 * n.toNat))).any fun i => g.isHeld (g.allot - 8 * n.toNat + i) then stallWith s 2
      else finish s { dropRegs g (g.allot - 8 * n.toNat) g.allot with allot := g.allot - 8 * n.toNat } p 1 := by
  rw [exec_shrink, execShrink, begin_clear h]

/-- A write pending to one of a run of registers. -/
theorem any_held (g : Group) (lo hi : Nat) :
    ((List.range (hi - lo)).any fun i => g.isHeld (lo + i)) = true ↔ ∃ r, lo ≤ r ∧ r < hi ∧ g.isHeld r = true := by
  simp only [List.any_eq_true, List.mem_range]
  constructor
  · rintro ⟨i, lt, held⟩
    exact ⟨lo + i, by omega, by omega, held⟩
  · rintro ⟨r, h1, h2, held⟩
    exact ⟨r - lo, by omega, by rw [Nat.add_sub_cancel' h1]; exact held⟩

/-- Settles O32: both ends of the range, and the registers that are dropped between the old allotment and the new one. -/
theorem allotmentGrowsAndShrinks : Obligations.AllotmentGrowsAndShrinks := by
  intro n s g p hc more less
  refine ⟨fun h => ?_, fun h => ?_, fun h free => ?_, fun h held => ?_, fun h => ?_⟩
  · rw [exec_grow_clear n hc, if_neg (Nat.not_lt.2 h)]
    exact allot_completes g.allot (8 * n.toNat) more hc.gang
  · rw [Traps, exec_grow_clear n hc, if_pos h]; rfl
  · have back : less + 8 * n.toNat = g.allot := Nat.sub_add_cancel (by omega)
    have quiet : ¬ ((List.range (g.allot - less)).any fun i => g.isHeld (less + i)) = true := by
      rw [any_held g less g.allot]
      rintro ⟨r, h1, h2, held⟩
      rw [free r h1 h2] at held
      cases held
    rw [exec_shrink_clear n hc, if_neg (Nat.not_lt.2 h), if_neg quiet]
    have := allot_completes less (8 * n.toNat) less hc.gang
    rw [back] at this
    exact this
  · rw [exec_shrink_clear n hc, if_neg (Nat.not_lt.2 h), if_pos ((any_held g less g.allot).2 held)]
    rfl
  · rw [Traps, exec_shrink_clear n hc, if_pos h]; rfl

end Sys2Proof.Registers
end
